-- ==== Sys2Proof/Word.lean ====
section
/-! DEFINITION. The bit vectors of the block: what the spec treats as bits and nothing else. -/

namespace Sys2Proof

/-- One byte of BUF or of a 32-byte encoding (`spec/00_scope.md` R11). -/
abbrev Byte := BitVec 8

/-- A command word or a CSR value (`spec/30_encoding.md` R80, `spec/10_state.md` R35). -/
abbrev Word := BitVec 32

/-- One limb of a field register (`spec/10_state.md` R21). -/
abbrev Limb := BitVec 64

/-- The value of a scalar register (`spec/10_state.md` R25). -/
abbrev ScalarWord := BitVec 256

/-- A register number, 0 to 15 (`spec/30_encoding.md` R81, R84). -/
abbrev RegNum := BitVec 4

/-- The 12-bit immediate of a command word (`spec/30_encoding.md` R81, R83). -/
abbrev Imm := BitVec 12

/-- The opcode byte of a command word (`spec/30_encoding.md` R81). -/
abbrev Opcode := BitVec 8

/-- A 32-byte string, byte 0 first (`spec/00_scope.md` R11). -/
abbrev Bytes32 := Vector Byte 32

end Sys2Proof
end

