-- ==== Sys2Proof/Config.lean ====
section
/-! DEFINITION. The parameters of `spec/00_scope.md` R5 and the one free value of the spec. -/

namespace Sys2Proof.Config

/-- FE_MAX_MAG: the largest magnitude tag any register may carry (R5, R21). -/
def feMaxMag : Nat := 32

/-- FE_MUL_MAG: the largest input magnitude of a multiply or square (R5, R114). -/
def feMulMag : Nat := 8

/-- The largest magnitude a negation accepts (R113, R194). -/
def feNegMag : Nat := 31

/-- The conditional passes of the normalizer, both always performed (`spec/70_reset_and_hazards.md` R330). -/
def normPasses : Nat := 2

/-- NSLOT: operand buffer slots of 32 bytes (R5, R39). -/
def nSlot : Nat := 32

/-- The size of BUF in bytes (R39). -/
def bufBytes : Nat := 1024

/-- COMB_BLOCKS (R5). -/
def combBlocks : Nat := 11

/-- COMB_TEETH (R5). -/
def combTeeth : Nat := 6

/-- COMB_SPACING (R5). -/
def combSpacing : Nat := 4

/-- COMB_POINTS, ROM entries per block, 2^(COMB_TEETH − 1) (R5). -/
def combPoints : Nat := 32

/-- WINDOW_A: the wNAF window width (R5). -/
def windowA : Nat := 5

/-- ECMULT_TABLE_SIZE: odd multiples per table (R5). -/
def ecmultTableSize : Nat := 8

/-- DIVSTEP_BATCH: divsteps per batch (R5, R172). -/
def divstepBatch : Nat := 62

/-- DIVSTEP_BATCHES: batches of the constant-time inverse (R5, R179). -/
def divstepBatches : Nat := 12

/-- What `H_RDSLOT` returns for the bytes of a slot whose valid bit is 0: "the bytes are unspecified (any value)"
(`spec/20_memory.md` R71, `spec/93_implementation_defined.md` U9). A free value: it has no body, so a claim is
true whatever it is. Its argument is the number of unspecified bytes drawn before (`State.draws`). DESIGN CHOICE,
safe: log 6. -/
opaque unspecifiedByte : Nat → Byte

end Sys2Proof.Config
end

