-- ==== Sys2Proof/Syntax.lean ====
section
/-! DEFINITION. The command set CORE-CS 1 (`spec/30_encoding.md` R85): one constructor per command, its operands the
fields of its format (R82). `rd`, `ra`, `rb` are register numbers of the file the command names (R84); `imm` is the
12-bit immediate, whatever its kind (R83): an immediate outside its kind's range is a term that `WellFormed` refuses. -/

namespace Sys2Proof

/-- The 65 commands (R85). -/
inductive Instr where
  /-- `NOP`, opcode 0x00, format N (`spec/40_system.md` R104). -/
  | nop
  /-- `CTX_BUILD`, opcode 0x01, format N (`spec/45_ecmult_gen.md` R246). -/
  | ctxBuild
  /-- `CTX_CLEAR`, opcode 0x02, format N (`spec/45_ecmult_gen.md` R248). -/
  | ctxClear
  /-- `CTX_BLIND`, opcode 0x03, format I (`spec/45_ecmult_gen.md` R247). -/
  | ctxBlind (imm : Imm)
  /-- `FE_SETB32`, opcode 0x10, format DI (`spec/41_field.md` R117). -/
  | feSetb32 (rd : RegNum) (imm : Imm)
  /-- `FE_GETB32`, opcode 0x11, format AI (`spec/41_field.md` R118). -/
  | feGetb32 (ra : RegNum) (imm : Imm)
  /-- `FE_SETINT`, opcode 0x12, format DI (`spec/41_field.md` R119). -/
  | feSetint (rd : RegNum) (imm : Imm)
  /-- `FE_MOV`, opcode 0x13, format DA (`spec/41_field.md` R120). -/
  | feMov (rd : RegNum) (ra : RegNum)
  /-- `FE_NORM`, opcode 0x14, format DA (`spec/41_field.md` R121). -/
  | feNorm (rd : RegNum) (ra : RegNum)
  /-- `FE_ADD`, opcode 0x15, format DAB (`spec/41_field.md` R122). -/
  | feAdd (rd : RegNum) (ra : RegNum) (rb : RegNum)
  /-- `FE_MUL`, opcode 0x16, format DAB (`spec/41_field.md` R123). -/
  | feMul (rd : RegNum) (ra : RegNum) (rb : RegNum)
  /-- `FE_SQR`, opcode 0x17, format DA (`spec/41_field.md` R124). -/
  | feSqr (rd : RegNum) (ra : RegNum)
  /-- `FE_NEG`, opcode 0x18, format DAI (`spec/41_field.md` R125). -/
  | feNeg (rd : RegNum) (ra : RegNum) (imm : Imm)
  /-- `FE_CMOV`, opcode 0x19, format DAI (`spec/41_field.md` R126). -/
  | feCmov (rd : RegNum) (ra : RegNum) (imm : Imm)
  /-- `FE_ISZERO`, opcode 0x1A, format A (`spec/41_field.md` R127). -/
  | feIszero (ra : RegNum)
  /-- `FE_EQ`, opcode 0x1B, format AB (`spec/41_field.md` R128). -/
  | feEq (ra : RegNum) (rb : RegNum)
  /-- `FE_ISODD`, opcode 0x1C, format A (`spec/41_field.md` R129). -/
  | feIsodd (ra : RegNum)
  /-- `FE_CMP`, opcode 0x1D, format AB (`spec/41_field.md` R130). -/
  | feCmp (ra : RegNum) (rb : RegNum)
  /-- `FE_INV`, opcode 0x1E, format DA (`spec/43_inversion.md` R175). -/
  | feInv (rd : RegNum) (ra : RegNum)
  /-- `FE_INVVAR`, opcode 0x1F, format DA (`spec/43_inversion.md` R176). -/
  | feInvvar (rd : RegNum) (ra : RegNum)
  /-- `SC_SETB32`, opcode 0x20, format DI (`spec/42_scalar.md` R141). -/
  | scSetb32 (rd : RegNum) (imm : Imm)
  /-- `SC_GETB32`, opcode 0x21, format AI (`spec/42_scalar.md` R142). -/
  | scGetb32 (ra : RegNum) (imm : Imm)
  /-- `SC_SETINT`, opcode 0x22, format DI (`spec/42_scalar.md` R143). -/
  | scSetint (rd : RegNum) (imm : Imm)
  /-- `SC_MOV`, opcode 0x23, format DA (`spec/42_scalar.md` R144). -/
  | scMov (rd : RegNum) (ra : RegNum)
  /-- `SC_ADD`, opcode 0x24, format DAB (`spec/42_scalar.md` R145). -/
  | scAdd (rd : RegNum) (ra : RegNum) (rb : RegNum)
  /-- `SC_MUL`, opcode 0x25, format DAB (`spec/42_scalar.md` R146). -/
  | scMul (rd : RegNum) (ra : RegNum) (rb : RegNum)
  /-- `SC_SQR`, opcode 0x26, format DA (`spec/42_scalar.md` R147). -/
  | scSqr (rd : RegNum) (ra : RegNum)
  /-- `SC_NEG`, opcode 0x27, format DA (`spec/42_scalar.md` R148). -/
  | scNeg (rd : RegNum) (ra : RegNum)
  /-- `SC_CNEG`, opcode 0x28, format DAI (`spec/42_scalar.md` R149). -/
  | scCneg (rd : RegNum) (ra : RegNum) (imm : Imm)
  /-- `SC_CMOV`, opcode 0x29, format DAI (`spec/42_scalar.md` R150). -/
  | scCmov (rd : RegNum) (ra : RegNum) (imm : Imm)
  /-- `SC_ISZERO`, opcode 0x2A, format A (`spec/42_scalar.md` R151). -/
  | scIszero (ra : RegNum)
  /-- `SC_EQ`, opcode 0x2B, format AB (`spec/42_scalar.md` R152). -/
  | scEq (ra : RegNum) (rb : RegNum)
  /-- `SC_ISHIGH`, opcode 0x2C, format A (`spec/42_scalar.md` R153). -/
  | scIshigh (ra : RegNum)
  /-- `SC_INV`, opcode 0x2D, format DA (`spec/43_inversion.md` R177). -/
  | scInv (rd : RegNum) (ra : RegNum)
  /-- `SC_INVVAR`, opcode 0x2E, format DA (`spec/43_inversion.md` R178). -/
  | scInvvar (rd : RegNum) (ra : RegNum)
  /-- `SC_MULSHIFT`, opcode 0x2F, format DABI (`spec/42_scalar.md` R154). -/
  | scMulshift (rd : RegNum) (ra : RegNum) (rb : RegNum) (imm : Imm)
  /-- `SC_SPLITLAMBDA`, opcode 0x30, format DDA (`spec/42_scalar.md` R163). -/
  | scSplitlambda (rd : RegNum) (ra : RegNum) (rb : RegNum)
  /-- `SC_SPLIT128`, opcode 0x31, format DDA (`spec/42_scalar.md` R164). -/
  | scSplit128 (rd : RegNum) (ra : RegNum) (rb : RegNum)
  /-- `GE_SETXY`, opcode 0x40, format DAB (`spec/44_group.md` R203). -/
  | geSetxy (rd : RegNum) (ra : RegNum) (rb : RegNum)
  /-- `GE_GETX`, opcode 0x41, format DA (`spec/44_group.md` R204). -/
  | geGetx (rd : RegNum) (ra : RegNum)
  /-- `GE_GETY`, opcode 0x42, format DA (`spec/44_group.md` R205). -/
  | geGety (rd : RegNum) (ra : RegNum)
  /-- `GE_SETINF`, opcode 0x43, format D (`spec/44_group.md` R206). -/
  | geSetinf (rd : RegNum)
  /-- `GE_ISINF`, opcode 0x44, format A (`spec/44_group.md` R207). -/
  | geIsinf (ra : RegNum)
  /-- `GE_MOV`, opcode 0x45, format DA (`spec/44_group.md` R208). -/
  | geMov (rd : RegNum) (ra : RegNum)
  /-- `GE_NEG`, opcode 0x46, format DA (`spec/44_group.md` R209). -/
  | geNeg (rd : RegNum) (ra : RegNum)
  /-- `GE_EQ`, opcode 0x47, format AB (`spec/44_group.md` R210). -/
  | geEq (ra : RegNum) (rb : RegNum)
  /-- `GE_MULLAMBDA`, opcode 0x48, format DA (`spec/44_group.md` R211). -/
  | geMullambda (rd : RegNum) (ra : RegNum)
  /-- `GE_TOSTOR`, opcode 0x49, format AI (`spec/44_group.md` R212). -/
  | geTostor (ra : RegNum) (imm : Imm)
  /-- `GE_FROMSTOR`, opcode 0x4A, format DI (`spec/44_group.md` R213). -/
  | geFromstor (rd : RegNum) (imm : Imm)
  /-- `GE_SETGEJ`, opcode 0x4B, format DA (`spec/44_group.md` R214). -/
  | geSetgej (rd : RegNum) (ra : RegNum)
  /-- `GE_SETGEJVAR`, opcode 0x4C, format DA (`spec/44_group.md` R215). -/
  | geSetgejvar (rd : RegNum) (ra : RegNum)
  /-- `GE_SETG`, opcode 0x4D, format D (`spec/44_group.md` R216). -/
  | geSetg (rd : RegNum)
  /-- `GEJ_SETGE`, opcode 0x50, format DA (`spec/44_group.md` R217). -/
  | gejSetge (rd : RegNum) (ra : RegNum)
  /-- `GEJ_SETINF`, opcode 0x51, format D (`spec/44_group.md` R218). -/
  | gejSetinf (rd : RegNum)
  /-- `GEJ_ISINF`, opcode 0x52, format A (`spec/44_group.md` R219). -/
  | gejIsinf (ra : RegNum)
  /-- `GEJ_MOV`, opcode 0x53, format DA (`spec/44_group.md` R220). -/
  | gejMov (rd : RegNum) (ra : RegNum)
  /-- `GEJ_NEG`, opcode 0x54, format DA (`spec/44_group.md` R221). -/
  | gejNeg (rd : RegNum) (ra : RegNum)
  /-- `GEJ_DBL`, opcode 0x55, format DA (`spec/44_group.md` R222). -/
  | gejDbl (rd : RegNum) (ra : RegNum)
  /-- `GEJ_ADDGE`, opcode 0x56, format DAB (`spec/44_group.md` R223). -/
  | gejAddge (rd : RegNum) (ra : RegNum) (rb : RegNum)
  /-- `GEJ_ADDGEVAR`, opcode 0x57, format DAB (`spec/44_group.md` R224). -/
  | gejAddgevar (rd : RegNum) (ra : RegNum) (rb : RegNum)
  /-- `GEJ_ADDVAR`, opcode 0x58, format DAB (`spec/44_group.md` R225). -/
  | gejAddvar (rd : RegNum) (ra : RegNum) (rb : RegNum)
  /-- `GEJ_EQ`, opcode 0x59, format AB (`spec/44_group.md` R226). -/
  | gejEq (ra : RegNum) (rb : RegNum)
  /-- `GEJ_GETC`, opcode 0x5A, format DAI (`spec/44_group.md` R227). -/
  | gejGetc (rd : RegNum) (ra : RegNum) (imm : Imm)
  /-- `ECMULT_GEN`, opcode 0x60, format DA (`spec/45_ecmult_gen.md` R249). -/
  | ecmultGen (rd : RegNum) (ra : RegNum)
  /-- `ECMULT`, opcode 0x61, format DABI (`spec/46_ecmult.md` R266). -/
  | ecmult (rd : RegNum) (ra : RegNum) (rb : RegNum) (imm : Imm)
  deriving DecidableEq, Repr

/-- The leakage class of a command (`spec/00_scope.md` R13): constant-time or variable-time. -/
inductive Leakage where
  | ct
  | var
  deriving DecidableEq, Repr

/-- The four register files an operand can name (`spec/30_encoding.md` R84): field, scalar, affine, Jacobian. -/
inductive RegKind where
  | f
  | s
  | a
  | j
  deriving DecidableEq, Repr

/-- The twelve formats (`spec/30_encoding.md` R82). -/
inductive Format where
  | n
  | i
  | d
  | a
  | ab
  | da
  | dab
  | dda
  | di
  | ai
  | dai
  | dabi
  deriving DecidableEq, Repr

/-- The kinds of immediate (`spec/30_encoding.md` R83); `none` where the format has no immediate. -/
inductive ImmKind where
  | none
  | slot
  | slot2
  | u12
  | m
  | cond
  | sel
  | shift
  | ng
  deriving DecidableEq, Repr

/-! The nine pseudo-instructions (`spec/30_encoding.md` R91), each one command. -/

/-- `FE_DBL fd, fa`. -/
abbrev Instr.feDbl (fd fa : RegNum) : Instr := .feAdd fd fa fa

/-- `FE_SETZERO fd`. -/
abbrev Instr.feSetzero (fd : RegNum) : Instr := .feSetint fd 0

/-- `FE_SETONE fd`. -/
abbrev Instr.feSetone (fd : RegNum) : Instr := .feSetint fd 1

/-- `SC_SETZERO sd`. -/
abbrev Instr.scSetzero (sd : RegNum) : Instr := .scSetint sd 0

/-- `SC_SETONE sd`. -/
abbrev Instr.scSetone (sd : RegNum) : Instr := .scSetint sd 1

/-- `SC_DBL sd, sa`. -/
abbrev Instr.scDbl (sd sa : RegNum) : Instr := .scAdd sd sa sa

/-- `FE_CMOVT fd, fa`. -/
abbrev Instr.feCmovt (fd fa : RegNum) : Instr := .feCmov fd fa 2

/-- `SC_CMOVT sd, sa`. -/
abbrev Instr.scCmovt (sd sa : RegNum) : Instr := .scCmov sd sa 2

/-- `SC_CNEGT sd, sa`. -/
abbrev Instr.scCnegt (sd sa : RegNum) : Instr := .scCneg sd sa 2

end Sys2Proof
end

