-- ==== Sys2Proof/WellFormed.lean ====
section
/-! DEFINITION. Which terms of `Instr` are commands: the immediate lies in its kind's legal set and the two
destinations of format DDA differ (`spec/30_encoding.md` R83, R87 (b) and (c)). -/

namespace Sys2Proof

/-- The legal values of an immediate of each kind (R83). -/
def ImmKind.legal (k : ImmKind) (imm : Imm) : Bool :=
  match k with
  | .none => imm.toNat == 0
  | .slot => imm.toNat ≤ 31
  | .slot2 => imm.toNat ≤ 30
  | .u12 => true
  | .m => imm.toNat ≤ 31
  | .cond => imm.toNat ≤ 2
  | .sel => imm.toNat ≤ 2
  | .shift => 256 ≤ imm.toNat && imm.toNat ≤ 512
  | .ng => imm.toNat == 0 || (16 ≤ imm.toNat && imm.toNat ≤ 31)

/-- Why a term is no command (R87 (b), (c)). -/
inductive Malformed where
  /-- The immediate is outside the legal set of its kind. -/
  | immediateOutOfRange
  /-- Format DDA with rd = rb. -/
  | sameDestinations
  deriving DecidableEq, Repr

/-- The check of R87 (b) for one immediate. -/
def ImmKind.check (k : ImmKind) (imm : Imm) : Option Malformed :=
  if k.legal imm then Option.none else some .immediateOutOfRange

/-- The check of R87 (c) for the two destinations of format DDA. -/
def checkDestinations (rd rb : RegNum) : Option Malformed :=
  if rd = rb then some .sameDestinations else none

/-- What is wrong with an instruction, if anything. -/
def Instr.check : Instr → Option Malformed
  | .nop => none
  | .ctxBuild => none
  | .ctxClear => none
  | .ctxBlind imm => ImmKind.slot.check imm
  | .feSetb32 _ imm => ImmKind.slot.check imm
  | .feGetb32 _ imm => ImmKind.slot.check imm
  | .feSetint _ imm => ImmKind.u12.check imm
  | .feMov _ _ => none
  | .feNorm _ _ => none
  | .feAdd _ _ _ => none
  | .feMul _ _ _ => none
  | .feSqr _ _ => none
  | .feNeg _ _ imm => ImmKind.m.check imm
  | .feCmov _ _ imm => ImmKind.cond.check imm
  | .feIszero _ => none
  | .feEq _ _ => none
  | .feIsodd _ => none
  | .feCmp _ _ => none
  | .feInv _ _ => none
  | .feInvvar _ _ => none
  | .scSetb32 _ imm => ImmKind.slot.check imm
  | .scGetb32 _ imm => ImmKind.slot.check imm
  | .scSetint _ imm => ImmKind.u12.check imm
  | .scMov _ _ => none
  | .scAdd _ _ _ => none
  | .scMul _ _ _ => none
  | .scSqr _ _ => none
  | .scNeg _ _ => none
  | .scCneg _ _ imm => ImmKind.cond.check imm
  | .scCmov _ _ imm => ImmKind.cond.check imm
  | .scIszero _ => none
  | .scEq _ _ => none
  | .scIshigh _ => none
  | .scInv _ _ => none
  | .scInvvar _ _ => none
  | .scMulshift _ _ _ imm => ImmKind.shift.check imm
  | .scSplitlambda rd _ rb => checkDestinations rd rb
  | .scSplit128 rd _ rb => checkDestinations rd rb
  | .geSetxy _ _ _ => none
  | .geGetx _ _ => none
  | .geGety _ _ => none
  | .geSetinf _ => none
  | .geIsinf _ => none
  | .geMov _ _ => none
  | .geNeg _ _ => none
  | .geEq _ _ => none
  | .geMullambda _ _ => none
  | .geTostor _ imm => ImmKind.slot2.check imm
  | .geFromstor _ imm => ImmKind.slot2.check imm
  | .geSetgej _ _ => none
  | .geSetgejvar _ _ => none
  | .geSetg _ => none
  | .gejSetge _ _ => none
  | .gejSetinf _ => none
  | .gejIsinf _ => none
  | .gejMov _ _ => none
  | .gejNeg _ _ => none
  | .gejDbl _ _ => none
  | .gejAddge _ _ _ => none
  | .gejAddgevar _ _ _ => none
  | .gejAddvar _ _ _ => none
  | .gejEq _ _ => none
  | .gejGetc _ _ imm => ImmKind.sel.check imm
  | .ecmultGen _ _ => none
  | .ecmult _ _ _ imm => ImmKind.ng.check imm

/-- An instruction that some command word stands for. -/
def Instr.wf (i : Instr) : Bool := i.check.isNone

end Sys2Proof
end

