-- ==== Sys2Proof/Decode.lean ====
section
/-! DEFINITION. The opcode map, the decoder and the encoder of CORE-CS 1 (`spec/30_encoding.md` R81 to R92). -/

namespace Sys2Proof

/-! The fields of a command word (R81). -/

/-- w[31:24]. -/
def opcOf (w : Word) : Opcode := w.extractLsb' 24 8

/-- w[23:20]. -/
def rdOf (w : Word) : RegNum := w.extractLsb' 20 4

/-- w[19:16]. -/
def raOf (w : Word) : RegNum := w.extractLsb' 16 4

/-- w[15:12]. -/
def rbOf (w : Word) : RegNum := w.extractLsb' 12 4

/-- w[11:0]. -/
def immOf (w : Word) : Imm := w.extractLsb' 0 12

/-- The command word with these five fields (R81). -/
def pack (opc : Opcode) (rd ra rb : RegNum) (imm : Imm) : Word := opc ++ rd ++ ra ++ rb ++ imm

/-- R87 (a): every field the format does not use is 0 (the table of R82). -/
def Format.unusedZero (fmt : Format) (rd ra rb : RegNum) (imm : Imm) : Bool :=
  match fmt with
  | .n => rd == 0 && ra == 0 && rb == 0 && imm == 0
  | .i => rd == 0 && ra == 0 && rb == 0
  | .d => ra == 0 && rb == 0 && imm == 0
  | .a => rd == 0 && rb == 0 && imm == 0
  | .ab => rd == 0 && imm == 0
  | .da => rb == 0 && imm == 0
  | .dab => imm == 0
  | .dda => imm == 0
  | .di => ra == 0 && rb == 0
  | .ai => rd == 0 && rb == 0
  | .dai => rb == 0
  | .dabi => true

/-- One row of the opcode map (R85). `files` lists the register file of each register operand in the order rd, ra, rb
(for format DDA rd, rb, ra); `build` is the command with the word's fields. -/
structure OpcodeRow where
  opc : Opcode
  mnemonic : String
  fmt : Format
  files : List RegKind
  kind : ImmKind
  cls : Leakage
  build : RegNum → RegNum → RegNum → Imm → Instr

/-- System and context rows of the opcode map (R85). -/
def systemRows : List OpcodeRow := [
  ⟨0x00, "NOP", .n, [], .none, .ct,
    fun _ _ _ _ => .nop⟩,
  ⟨0x01, "CTX_BUILD", .n, [], .none, .ct,
    fun _ _ _ _ => .ctxBuild⟩,
  ⟨0x02, "CTX_CLEAR", .n, [], .none, .ct,
    fun _ _ _ _ => .ctxClear⟩,
  ⟨0x03, "CTX_BLIND", .i, [], .slot, .ct,
    fun _ _ _ imm => .ctxBlind imm⟩]

/-- Field unit rows of the opcode map (R85). -/
def fieldRows : List OpcodeRow := [
  ⟨0x10, "FE_SETB32", .di, [.f], .slot, .ct,
    fun rd _ _ imm => .feSetb32 rd imm⟩,
  ⟨0x11, "FE_GETB32", .ai, [.f], .slot, .ct,
    fun _ ra _ imm => .feGetb32 ra imm⟩,
  ⟨0x12, "FE_SETINT", .di, [.f], .u12, .ct,
    fun rd _ _ imm => .feSetint rd imm⟩,
  ⟨0x13, "FE_MOV", .da, [.f, .f], .none, .ct,
    fun rd ra _ _ => .feMov rd ra⟩,
  ⟨0x14, "FE_NORM", .da, [.f, .f], .none, .ct,
    fun rd ra _ _ => .feNorm rd ra⟩,
  ⟨0x15, "FE_ADD", .dab, [.f, .f, .f], .none, .ct,
    fun rd ra rb _ => .feAdd rd ra rb⟩,
  ⟨0x16, "FE_MUL", .dab, [.f, .f, .f], .none, .ct,
    fun rd ra rb _ => .feMul rd ra rb⟩,
  ⟨0x17, "FE_SQR", .da, [.f, .f], .none, .ct,
    fun rd ra _ _ => .feSqr rd ra⟩,
  ⟨0x18, "FE_NEG", .dai, [.f, .f], .m, .ct,
    fun rd ra _ imm => .feNeg rd ra imm⟩,
  ⟨0x19, "FE_CMOV", .dai, [.f, .f], .cond, .ct,
    fun rd ra _ imm => .feCmov rd ra imm⟩,
  ⟨0x1A, "FE_ISZERO", .a, [.f], .none, .ct,
    fun _ ra _ _ => .feIszero ra⟩,
  ⟨0x1B, "FE_EQ", .ab, [.f, .f], .none, .ct,
    fun _ ra rb _ => .feEq ra rb⟩,
  ⟨0x1C, "FE_ISODD", .a, [.f], .none, .ct,
    fun _ ra _ _ => .feIsodd ra⟩,
  ⟨0x1D, "FE_CMP", .ab, [.f, .f], .none, .var,
    fun _ ra rb _ => .feCmp ra rb⟩,
  ⟨0x1E, "FE_INV", .da, [.f, .f], .none, .ct,
    fun rd ra _ _ => .feInv rd ra⟩,
  ⟨0x1F, "FE_INVVAR", .da, [.f, .f], .none, .var,
    fun rd ra _ _ => .feInvvar rd ra⟩]

/-- Scalar unit rows of the opcode map (R85). -/
def scalarRows : List OpcodeRow := [
  ⟨0x20, "SC_SETB32", .di, [.s], .slot, .ct,
    fun rd _ _ imm => .scSetb32 rd imm⟩,
  ⟨0x21, "SC_GETB32", .ai, [.s], .slot, .ct,
    fun _ ra _ imm => .scGetb32 ra imm⟩,
  ⟨0x22, "SC_SETINT", .di, [.s], .u12, .ct,
    fun rd _ _ imm => .scSetint rd imm⟩,
  ⟨0x23, "SC_MOV", .da, [.s, .s], .none, .ct,
    fun rd ra _ _ => .scMov rd ra⟩,
  ⟨0x24, "SC_ADD", .dab, [.s, .s, .s], .none, .ct,
    fun rd ra rb _ => .scAdd rd ra rb⟩,
  ⟨0x25, "SC_MUL", .dab, [.s, .s, .s], .none, .ct,
    fun rd ra rb _ => .scMul rd ra rb⟩,
  ⟨0x26, "SC_SQR", .da, [.s, .s], .none, .ct,
    fun rd ra _ _ => .scSqr rd ra⟩,
  ⟨0x27, "SC_NEG", .da, [.s, .s], .none, .ct,
    fun rd ra _ _ => .scNeg rd ra⟩,
  ⟨0x28, "SC_CNEG", .dai, [.s, .s], .cond, .ct,
    fun rd ra _ imm => .scCneg rd ra imm⟩,
  ⟨0x29, "SC_CMOV", .dai, [.s, .s], .cond, .ct,
    fun rd ra _ imm => .scCmov rd ra imm⟩,
  ⟨0x2A, "SC_ISZERO", .a, [.s], .none, .ct,
    fun _ ra _ _ => .scIszero ra⟩,
  ⟨0x2B, "SC_EQ", .ab, [.s, .s], .none, .ct,
    fun _ ra rb _ => .scEq ra rb⟩,
  ⟨0x2C, "SC_ISHIGH", .a, [.s], .none, .ct,
    fun _ ra _ _ => .scIshigh ra⟩,
  ⟨0x2D, "SC_INV", .da, [.s, .s], .none, .ct,
    fun rd ra _ _ => .scInv rd ra⟩,
  ⟨0x2E, "SC_INVVAR", .da, [.s, .s], .none, .var,
    fun rd ra _ _ => .scInvvar rd ra⟩,
  ⟨0x2F, "SC_MULSHIFT", .dabi, [.s, .s, .s], .shift, .ct,
    fun rd ra rb imm => .scMulshift rd ra rb imm⟩,
  ⟨0x30, "SC_SPLITLAMBDA", .dda, [.s, .s, .s], .none, .ct,
    fun rd ra rb _ => .scSplitlambda rd ra rb⟩,
  ⟨0x31, "SC_SPLIT128", .dda, [.s, .s, .s], .none, .ct,
    fun rd ra rb _ => .scSplit128 rd ra rb⟩]

/-- Affine points rows of the opcode map (R85). -/
def affineRows : List OpcodeRow := [
  ⟨0x40, "GE_SETXY", .dab, [.a, .f, .f], .none, .ct,
    fun rd ra rb _ => .geSetxy rd ra rb⟩,
  ⟨0x41, "GE_GETX", .da, [.f, .a], .none, .ct,
    fun rd ra _ _ => .geGetx rd ra⟩,
  ⟨0x42, "GE_GETY", .da, [.f, .a], .none, .ct,
    fun rd ra _ _ => .geGety rd ra⟩,
  ⟨0x43, "GE_SETINF", .d, [.a], .none, .ct,
    fun rd _ _ _ => .geSetinf rd⟩,
  ⟨0x44, "GE_ISINF", .a, [.a], .none, .ct,
    fun _ ra _ _ => .geIsinf ra⟩,
  ⟨0x45, "GE_MOV", .da, [.a, .a], .none, .ct,
    fun rd ra _ _ => .geMov rd ra⟩,
  ⟨0x46, "GE_NEG", .da, [.a, .a], .none, .ct,
    fun rd ra _ _ => .geNeg rd ra⟩,
  ⟨0x47, "GE_EQ", .ab, [.a, .a], .none, .ct,
    fun _ ra rb _ => .geEq ra rb⟩,
  ⟨0x48, "GE_MULLAMBDA", .da, [.a, .a], .none, .ct,
    fun rd ra _ _ => .geMullambda rd ra⟩,
  ⟨0x49, "GE_TOSTOR", .ai, [.a], .slot2, .ct,
    fun _ ra _ imm => .geTostor ra imm⟩,
  ⟨0x4A, "GE_FROMSTOR", .di, [.a], .slot2, .ct,
    fun rd _ _ imm => .geFromstor rd imm⟩,
  ⟨0x4B, "GE_SETGEJ", .da, [.a, .j], .none, .ct,
    fun rd ra _ _ => .geSetgej rd ra⟩,
  ⟨0x4C, "GE_SETGEJVAR", .da, [.a, .j], .none, .var,
    fun rd ra _ _ => .geSetgejvar rd ra⟩,
  ⟨0x4D, "GE_SETG", .d, [.a], .none, .ct,
    fun rd _ _ _ => .geSetg rd⟩]

/-- Jacobian points rows of the opcode map (R85). -/
def jacobianRows : List OpcodeRow := [
  ⟨0x50, "GEJ_SETGE", .da, [.j, .a], .none, .ct,
    fun rd ra _ _ => .gejSetge rd ra⟩,
  ⟨0x51, "GEJ_SETINF", .d, [.j], .none, .ct,
    fun rd _ _ _ => .gejSetinf rd⟩,
  ⟨0x52, "GEJ_ISINF", .a, [.j], .none, .ct,
    fun _ ra _ _ => .gejIsinf ra⟩,
  ⟨0x53, "GEJ_MOV", .da, [.j, .j], .none, .ct,
    fun rd ra _ _ => .gejMov rd ra⟩,
  ⟨0x54, "GEJ_NEG", .da, [.j, .j], .none, .ct,
    fun rd ra _ _ => .gejNeg rd ra⟩,
  ⟨0x55, "GEJ_DBL", .da, [.j, .j], .none, .ct,
    fun rd ra _ _ => .gejDbl rd ra⟩,
  ⟨0x56, "GEJ_ADDGE", .dab, [.j, .j, .a], .none, .ct,
    fun rd ra rb _ => .gejAddge rd ra rb⟩,
  ⟨0x57, "GEJ_ADDGEVAR", .dab, [.j, .j, .a], .none, .var,
    fun rd ra rb _ => .gejAddgevar rd ra rb⟩,
  ⟨0x58, "GEJ_ADDVAR", .dab, [.j, .j, .j], .none, .var,
    fun rd ra rb _ => .gejAddvar rd ra rb⟩,
  ⟨0x59, "GEJ_EQ", .ab, [.j, .j], .none, .var,
    fun _ ra rb _ => .gejEq ra rb⟩,
  ⟨0x5A, "GEJ_GETC", .dai, [.f, .j], .sel, .ct,
    fun rd ra _ imm => .gejGetc rd ra imm⟩]

/-- Multipliers rows of the opcode map (R85). -/
def multiplierRows : List OpcodeRow := [
  ⟨0x60, "ECMULT_GEN", .da, [.j, .s], .none, .ct,
    fun rd ra _ _ => .ecmultGen rd ra⟩,
  ⟨0x61, "ECMULT", .dabi, [.j, .j, .s], .ng, .var,
    fun rd ra rb imm => .ecmult rd ra rb imm⟩]

/-- The complete opcode map (R85): sixty-five commands. -/
def opcodeMap : List OpcodeRow :=
  systemRows ++ fieldRows ++ scalarRows ++ affineRows ++ jacobianRows ++ multiplierRows

/-- The row of an opcode; none for a reserved opcode (R86). -/
def rowOf (opc : Opcode) : Option OpcodeRow := opcodeMap.find? (fun row => row.opc == opc)

/-- Why a word is illegal (R86, R87). -/
inductive Illegal where
  /-- The opcode is not in the map (R86). -/
  | reservedOpcode
  /-- A field the format does not use is nonzero (R87 (a)). -/
  | unusedFieldNonzero
  /-- The immediate is out of range or the two destinations are the same (R87 (b), (c)). -/
  | malformed (m : Malformed)
  deriving DecidableEq, Repr

/-- R87 (b) and (c) for a word of this row: its immediate's kind, then, in format DDA, its two destinations. -/
def OpcodeRow.malformed (row : OpcodeRow) (w : Word) : Option Malformed :=
  match row.kind.check (immOf w) with
  | some m => some m
  | none => if row.fmt = .dda then checkDestinations (rdOf w) (rbOf w) else none

/-- The decoder (R92), total on all 2^32 words; it looks at nothing but the word. -/
def decode (w : Word) : Except Illegal Instr :=
  match rowOf (opcOf w) with
  | none => .error .reservedOpcode
  | some row =>
    if row.fmt.unusedZero (rdOf w) (raOf w) (rbOf w) (immOf w) then
      match row.malformed w with
      | some m => .error (.malformed m)
      | none => .ok (row.build (rdOf w) (raOf w) (rbOf w) (immOf w))
    else .error .unusedFieldNonzero

/-- The command word of an instruction: the opcode of R85 and the fields of R81, 0 in every field the format does not
use (R87 (a)). An instruction that is not well formed has the word that R87 (b) or (c) makes illegal. -/
def encode : Instr → Word
  | .nop => pack 0x00 0 0 0 0
  | .ctxBuild => pack 0x01 0 0 0 0
  | .ctxClear => pack 0x02 0 0 0 0
  | .ctxBlind imm => pack 0x03 0 0 0 imm
  | .feSetb32 rd imm => pack 0x10 rd 0 0 imm
  | .feGetb32 ra imm => pack 0x11 0 ra 0 imm
  | .feSetint rd imm => pack 0x12 rd 0 0 imm
  | .feMov rd ra => pack 0x13 rd ra 0 0
  | .feNorm rd ra => pack 0x14 rd ra 0 0
  | .feAdd rd ra rb => pack 0x15 rd ra rb 0
  | .feMul rd ra rb => pack 0x16 rd ra rb 0
  | .feSqr rd ra => pack 0x17 rd ra 0 0
  | .feNeg rd ra imm => pack 0x18 rd ra 0 imm
  | .feCmov rd ra imm => pack 0x19 rd ra 0 imm
  | .feIszero ra => pack 0x1A 0 ra 0 0
  | .feEq ra rb => pack 0x1B 0 ra rb 0
  | .feIsodd ra => pack 0x1C 0 ra 0 0
  | .feCmp ra rb => pack 0x1D 0 ra rb 0
  | .feInv rd ra => pack 0x1E rd ra 0 0
  | .feInvvar rd ra => pack 0x1F rd ra 0 0
  | .scSetb32 rd imm => pack 0x20 rd 0 0 imm
  | .scGetb32 ra imm => pack 0x21 0 ra 0 imm
  | .scSetint rd imm => pack 0x22 rd 0 0 imm
  | .scMov rd ra => pack 0x23 rd ra 0 0
  | .scAdd rd ra rb => pack 0x24 rd ra rb 0
  | .scMul rd ra rb => pack 0x25 rd ra rb 0
  | .scSqr rd ra => pack 0x26 rd ra 0 0
  | .scNeg rd ra => pack 0x27 rd ra 0 0
  | .scCneg rd ra imm => pack 0x28 rd ra 0 imm
  | .scCmov rd ra imm => pack 0x29 rd ra 0 imm
  | .scIszero ra => pack 0x2A 0 ra 0 0
  | .scEq ra rb => pack 0x2B 0 ra rb 0
  | .scIshigh ra => pack 0x2C 0 ra 0 0
  | .scInv rd ra => pack 0x2D rd ra 0 0
  | .scInvvar rd ra => pack 0x2E rd ra 0 0
  | .scMulshift rd ra rb imm => pack 0x2F rd ra rb imm
  | .scSplitlambda rd ra rb => pack 0x30 rd ra rb 0
  | .scSplit128 rd ra rb => pack 0x31 rd ra rb 0
  | .geSetxy rd ra rb => pack 0x40 rd ra rb 0
  | .geGetx rd ra => pack 0x41 rd ra 0 0
  | .geGety rd ra => pack 0x42 rd ra 0 0
  | .geSetinf rd => pack 0x43 rd 0 0 0
  | .geIsinf ra => pack 0x44 0 ra 0 0
  | .geMov rd ra => pack 0x45 rd ra 0 0
  | .geNeg rd ra => pack 0x46 rd ra 0 0
  | .geEq ra rb => pack 0x47 0 ra rb 0
  | .geMullambda rd ra => pack 0x48 rd ra 0 0
  | .geTostor ra imm => pack 0x49 0 ra 0 imm
  | .geFromstor rd imm => pack 0x4A rd 0 0 imm
  | .geSetgej rd ra => pack 0x4B rd ra 0 0
  | .geSetgejvar rd ra => pack 0x4C rd ra 0 0
  | .geSetg rd => pack 0x4D rd 0 0 0
  | .gejSetge rd ra => pack 0x50 rd ra 0 0
  | .gejSetinf rd => pack 0x51 rd 0 0 0
  | .gejIsinf ra => pack 0x52 0 ra 0 0
  | .gejMov rd ra => pack 0x53 rd ra 0 0
  | .gejNeg rd ra => pack 0x54 rd ra 0 0
  | .gejDbl rd ra => pack 0x55 rd ra 0 0
  | .gejAddge rd ra rb => pack 0x56 rd ra rb 0
  | .gejAddgevar rd ra rb => pack 0x57 rd ra rb 0
  | .gejAddvar rd ra rb => pack 0x58 rd ra rb 0
  | .gejEq ra rb => pack 0x59 0 ra rb 0
  | .gejGetc rd ra imm => pack 0x5A rd ra 0 imm
  | .ecmultGen rd ra => pack 0x60 rd ra 0 0
  | .ecmult rd ra rb imm => pack 0x61 rd ra rb imm

/-- The opcode byte of an instruction (R85). -/
def Instr.opcode (i : Instr) : Opcode := opcOf (encode i)

/-- The leakage class of an instruction (R85, `spec/70_reset_and_hazards.md` R323): that of its row. -/
def Instr.cls (i : Instr) : Leakage :=
  match rowOf i.opcode with
  | some row => row.cls
  | none => .var

/-- What the decoder reads from the word of the `nbits` low bits of `w`, numbered as the opcode table numbers them (one
32-bit word, delivered whole: `spec/20_memory.md` R64). -/
def decodeTableWord (nbits w : Nat) : Option Instr :=
  match decode (BitVec.ofNat 32 (w % 2 ^ nbits)) with
  | .ok i => some i
  | .error _ => none

/-! The listing syntax (R90). -/

/-- One operand of a listing line. -/
inductive ListingOperand where
  | reg (file : RegKind) (r : RegNum)
  | slot (k : Imm)
  | number (n : Imm)
  | flagT
  deriving DecidableEq, Repr

/-- The operand an immediate of each kind is written as (R90): a slot, a condition selector, a scalar register for the
generator scalar (nothing when absent), or a number. -/
def ImmKind.operands (k : ImmKind) (imm : Imm) : List ListingOperand :=
  match k with
  | .none => []
  | .slot => [.slot imm]
  | .slot2 => [.slot imm]
  | .u12 => [.number imm]
  | .m => [.number imm]
  | .cond => if imm = 2 then [.flagT] else [.number imm]
  | .sel => [.number imm]
  | .shift => [.number imm]
  | .ng => if imm = 0 then [] else [.reg .s (imm.setWidth 4)]

/-- The register fields of a format in listing order: destinations, then sources (R90). -/
def Format.regFields (fmt : Format) (rd ra rb : RegNum) : List RegNum :=
  match fmt with
  | .n => []
  | .i => []
  | .d => [rd]
  | .a => [ra]
  | .ab => [ra, rb]
  | .da => [rd, ra]
  | .dab => [rd, ra, rb]
  | .dda => [rd, rb, ra]
  | .di => [rd]
  | .ai => [ra]
  | .dai => [rd, ra]
  | .dabi => [rd, ra, rb]

/-- The operands of an instruction's listing line: destinations, sources, immediate; format AI writes the slot it stores
to first (R90). -/
def Instr.listingOperands (i : Instr) : List ListingOperand :=
  let w := encode i
  match rowOf i.opcode with
  | none => []
  | some row =>
    let regs := (row.files.zip (row.fmt.regFields (rdOf w) (raOf w) (rbOf w))).map fun fr => .reg fr.1 fr.2
    let imms := row.kind.operands (immOf w)
    match row.fmt with
    | .ai => imms ++ regs
    | _ => regs ++ imms

/-- The mnemonic of an instruction (R85). -/
def Instr.mnemonic (i : Instr) : String :=
  match rowOf i.opcode with
  | none => ""
  | some row => row.mnemonic

/-- The letter of a register file (R90). -/
def RegKind.letter : RegKind → String
  | .f => "f"
  | .s => "s"
  | .a => "a"
  | .j => "j"

/-- The text of one operand (R90), numbers in decimal. -/
def ListingOperand.text : ListingOperand → String
  | .reg file r => file.letter ++ toString r.toNat
  | .slot k => "b" ++ toString k.toNat
  | .number n => "#" ++ toString n.toNat
  | .flagT => "T"

/-- The listing line of an instruction (R90). -/
def Instr.listing (i : Instr) : String :=
  match i.listingOperands with
  | [] => i.mnemonic
  | ops => i.mnemonic ++ " " ++ ", ".intercalate (ops.map ListingOperand.text)

/-! The pseudo-instructions (R91). -/

/-- The nine pseudo-instructions, each another spelling of one command. -/
inductive Pseudo where
  | feDbl (rd ra : RegNum)
  | feSetzero (rd : RegNum)
  | feSetone (rd : RegNum)
  | scSetzero (rd : RegNum)
  | scSetone (rd : RegNum)
  | scDbl (rd ra : RegNum)
  | feCmovt (rd ra : RegNum)
  | scCmovt (rd ra : RegNum)
  | scCnegt (rd ra : RegNum)
  deriving DecidableEq, Repr

/-- The command a pseudo-instruction stands for (R91). -/
def expandPseudo : Pseudo → Instr
  | .feDbl rd ra => .feAdd rd ra ra
  | .feSetzero rd => .feSetint rd 0
  | .feSetone rd => .feSetint rd 1
  | .scSetzero rd => .scSetint rd 0
  | .scSetone rd => .scSetint rd 1
  | .scDbl rd ra => .scAdd rd ra ra
  | .feCmovt rd ra => .feCmov rd ra 2
  | .scCmovt rd ra => .scCmov rd ra 2
  | .scCnegt rd ra => .scCneg rd ra 2

end Sys2Proof
end

