-- ==== Sys2Proof/Machine/State.lean ====
section
/-! DEFINITION. The architectural state of the block (`spec/10_state.md` R20), the host's side of its port, the reasons
a step can stop, and the state after reset (R42). -/

namespace Sys2Proof.Machine

/-- The five limbs of a field register, least significant first (R21). -/
structure Limbs where
  n0 : Limb
  n1 : Limb
  n2 : Limb
  n3 : Limb
  n4 : Limb
  deriving DecidableEq, Repr

/-- Field contents: limbs and the two tags, magnitude and normalized (R21, `spec/41_field.md` R111). `mag` is an integer
in 1..32 (R21); that it is is an invariant, not a type. -/
structure Fe where
  n : Limbs
  mag : Nat
  norm : Bool
  deriving DecidableEq, Repr

/-- Affine contents (R26, `spec/44_group.md` R190). -/
structure Ge where
  x : Fe
  y : Fe
  inf : Bool
  deriving DecidableEq, Repr

/-- Jacobian contents (R27, `spec/44_group.md` R190). -/
structure Gej where
  x : Fe
  y : Fe
  z : Fe
  inf : Bool
  deriving DecidableEq, Repr

/-- A register: its valid bit (R29) and what it holds. -/
structure Reg (α : Type) where
  valid : Bool
  val : α
  deriving DecidableEq, Repr

/-- A register file: sixteen registers (R20, R43). -/
abbrev RegFile (α : Type) := Vector (Reg α) 16

/-- FLAGS (R30). -/
structure Flags where
  t : Bool
  ovf : Bool
  sgn : Bool
  lt : Bool
  gt : Bool
  deriving DecidableEq, Repr

/-- The comb context (R36). `built` is also STATUS.BUILT: the same bit, not a copy (R31). -/
structure Context where
  built : Bool
  scalarOffset : ScalarWord
  geOffset : Ge
  deriving DecidableEq, Repr

/-- The five host operations (`spec/20_memory.md` R71). A slot number outside 0..31 is an address that does not exist
(log 9). -/
inductive HostOp where
  /-- `H_RESET`. -/
  | reset
  /-- `H_WRSLOT(k, b)`. -/
  | wrSlot (k : Nat) (b : Bytes32)
  /-- `H_RDSLOT(k)`. -/
  | rdSlot (k : Nat)
  /-- `H_CMD(w)`. -/
  | cmd (w : Word)
  /-- `H_RDCSR(i)`. -/
  | rdCsr (i : Nat)
  deriving DecidableEq, Repr

/-- What a host operation returns to the host (`spec/20_memory.md` R71). -/
inductive HostReply where
  /-- The operation returns nothing (or none has been performed). -/
  | none
  /-- The 32 bytes of `H_RDSLOT`. -/
  | bytes (b : Bytes32)
  /-- The 32-bit value of `H_RDCSR`. -/
  | csr (v : Word)
  deriving DecidableEq, Repr

/-- The causes of a synchronous fault (`spec/60_exceptions.md` R281). Raising one is a NEXT state (R284), not a stop of
the model. -/
inductive Cause where
  | illegalCmd
  | uninitOperand
  | feMagnitude
  | feNotNormalized
  | ctxNotBuilt
  | pointAtInfinity
  deriving DecidableEq, Repr

/-- The state. -/
structure State where
  /-- Field registers f0..f15 (R21). -/
  fr : RegFile Fe
  /-- Scalar registers s0..s15 (R25). -/
  sr : RegFile ScalarWord
  /-- Affine point registers a0..a15 (R26). -/
  ar : RegFile Ge
  /-- Jacobian point registers j0..j15 (R27). -/
  jr : RegFile Gej
  /-- FLAGS (R30). -/
  flags : Flags
  /-- STATUS.BUSY (R31). -/
  busy : Bool
  /-- STATUS.FAULT (R31). -/
  fault : Bool
  /-- CAUSE (R32). -/
  cause : BitVec 8
  /-- FINFO (R33). -/
  finfo : Word
  /-- CMDCNT (R34). -/
  cmdcnt : Word
  /-- The comb context (R36). -/
  ctx : Context
  /-- The bytes of BUF (R39) in canonical form (`Memory.wf`). -/
  mem : List Host.Cell
  /-- The valid bit of each BUF slot (R29, R39). -/
  bufValid : Vector Bool 32
  /-- The model's own: the operations the host still issues, the next one first (log 1). -/
  inbox : List HostOp
  /-- The model's own: what the last host operation returned (log 2). -/
  reply : HostReply
  /-- The model's own: how many unspecified bytes have been drawn (log 6). -/
  draws : Nat
  deriving DecidableEq, Repr

/-- The machine's own stops. No command ends in one. -/
inductive Fault where
  /-- Raised by `H_WRSLOT` and `H_RDSLOT` for a slot outside 0..31: byte address `a` is outside BUF, which is all the
  memory there is (`spec/20_memory.md` R69, R71). Safe: the model stops. Log 9. -/
  | noSuchAddress (a : Nat)
  deriving DecidableEq, Repr

/-- What the model gives no meaning. -/
inductive Refusal where
  /-- Raised by an arm of `exec` that has no meaning yet. Safe: the model stops. No arm raises it. -/
  | notModelled (mnemonic : String)
  /-- Raised by `H_WRSLOT`, `H_RDSLOT` and `H_CMD` while STATUS.BUSY = 1: "outside the model"
  (`spec/93_implementation_defined.md` U12, `spec/70_reset_and_hazards.md` R320). Safe: the model stops, and no state
  that follows reset has BUSY = 1. Log 8. -/
  | hostOverlap
  deriving DecidableEq, Repr

/-- The limbs of zero. -/
def Limbs.zero : Limbs := ⟨0, 0, 0, 0, 0⟩

/-- ZERO (`spec/41_field.md` R111): zero limbs, magnitude 1, normalized. -/
def Fe.zero : Fe := ⟨Limbs.zero, 1, true⟩

/-- The context after reset and after CTX_CLEAR (R42, `spec/45_ecmult_gen.md` R248). -/
def Context.clear : Context := ⟨false, 0, ⟨Fe.zero, Fe.zero, false⟩⟩

/-- The machine right after reset (R42, `spec/70_reset_and_hazards.md` R310): every valid bit 0, FLAGS, STATUS, CAUSE,
FINFO, CMDCNT 0, the context not built and zeroed. The data of an invalid register is unspecified and unreadable: zero
contents, DESIGN CHOICE, unsafe, log 3. Nothing waits in the inbox (log 1). -/
def State.reset : State where
  fr := Vector.replicate 16 ⟨false, Fe.zero⟩
  sr := Vector.replicate 16 ⟨false, 0⟩
  ar := Vector.replicate 16 ⟨false, ⟨Fe.zero, Fe.zero, false⟩⟩
  jr := Vector.replicate 16 ⟨false, ⟨Fe.zero, Fe.zero, Fe.zero, false⟩⟩
  flags := ⟨false, false, false, false, false⟩
  busy := false
  fault := false
  cause := 0
  finfo := 0
  cmdcnt := 0
  ctx := Context.clear
  mem := []
  bufValid := Vector.replicate 32 false
  inbox := []
  reply := .none
  draws := 0

end Sys2Proof.Machine
end

