-- ==== Sys2Proof/Machine/Ops.lean ====
section
/-! DEFINITION. The named operations over registers and memory, fault entry, the way out of the fault state, and the
execution cycle of a command (`spec/10_state.md`, `spec/20_memory.md`, `spec/40_system.md`, `spec/60_exceptions.md`). -/

namespace Sys2Proof.Machine

/-- How a step ends. -/
abbrev Result := Host.Outcome State Fault Refusal

/-- A computation inside a command: a value, or the fault it raises (`raise Fault(c)`, `spec/00_scope.md` R12). -/
abbrev Chk (α : Type) := Except Cause α

/-- Go on when `b` holds, else raise `c`. -/
def require (b : Bool) (c : Cause) : Chk Unit := if b then .ok () else .error c

/-! ## Byte strings (`spec/00_scope.md` R11) -/

/-- `be32(v)`: byte j is (v >> (8·(31 − j))) mod 256, most significant first. -/
def be32 (v : Nat) : List Byte := (List.range 32).map fun j => BitVec.ofNat 8 (v >>> (8 * (31 - j)))

/-- `int_be(b)`, the inverse of `be32`. -/
def intBe (b : List Byte) : Nat := b.foldl (fun acc x => 256 * acc + x.toNat) 0

/-! ## Memory: a sorted list of the bytes that differ from the unlisted byte -/

/-- What an unlisted byte of BUF holds. The spec gives none (R42, U8): DESIGN CHOICE, unsafe, log 5. No operation shows it:
a command that reads an invalid slot faults, and `H_RDSLOT` of one draws free values. -/
def Memory.unlisted : Byte := 0

/-- The byte at an address. -/
def Memory.read (m : List Host.Cell) (a : Nat) : Byte :=
  match m with
  | [] => Memory.unlisted
  | (b, v) :: rest => if b = a then v else Memory.read rest a

/-- Write one byte, keeping the canonical form. -/
def Memory.write (m : List Host.Cell) (a : Nat) (v : Byte) : List Host.Cell :=
  match m with
  | [] => if v = Memory.unlisted then [] else [(a, v)]
  | (b, w) :: rest =>
    if a < b then (if v = Memory.unlisted then (b, w) :: rest else (a, v) :: (b, w) :: rest)
    else if a = b then (if v = Memory.unlisted then rest else (a, v) :: rest)
    else (b, w) :: Memory.write rest a v

/-- Write the bytes of a string at `a`, `a + 1`, … -/
def Memory.writeBytes (m : List Host.Cell) (a : Nat) (bs : List Byte) : List Host.Cell :=
  match bs with
  | [] => m
  | b :: rest => Memory.writeBytes (Memory.write m a b) (a + 1) rest

/-- The `n` bytes from `a` on, lowest address first. -/
def Memory.readBytes (m : List Host.Cell) (a n : Nat) : List Byte :=
  (List.range n).map fun i => Memory.read m (a + i)

/-- The canonical form: addresses strictly rising, no entry equal to what an unlisted address reads as, every address
inside BUF (`spec/20_memory.md` R60). -/
abbrev Memory.wf (m : List Host.Cell) : Prop :=
  m.Pairwise (fun x y => x.1 < y.1) ∧ ∀ c ∈ m, c.2 ≠ Memory.unlisted ∧ c.1 < 1024

/-! ## BUF (`spec/20_memory.md` R61, R62) -/

/-- The byte address of slot k (R61). -/
def slotAddr (k : Nat) : Nat := 32 * k

/-- The valid bit of slot k (R29); no slot outside 0..31 is valid. -/
def slotValid (k : Nat) (s : State) : Bool := (s.bufValid[k]?).getD false

/-- The slots that the n bytes from byte address `addr` cover. -/
def coveredSlots (addr n : Nat) : List Nat := (List.range (n / 32)).map (addr / 32 + ·)

/-- `MemRead(addr, n)` (R62): the bytes, or UNINIT_OPERAND when a covered slot has valid = 0. -/
def memRead (addr n : Nat) (s : State) : Chk (List Byte) :=
  if (coveredSlots addr n).all (slotValid · s) then .ok (Memory.readBytes s.mem addr n) else .error .uninitOperand

/-- Set the valid bit of slot k (R29). -/
def setSlotValid (valid : Vector Bool 32) (k : Nat) : Vector Bool 32 := valid.setIfInBounds k true

/-- `MemWrite(addr, n, v)` (R62): store the string and set the valid bit of every slot it covers. -/
def memWrite (addr n : Nat) (v : List Byte) (s : State) : State :=
  { s with
    mem := Memory.writeBytes s.mem addr v
    bufValid := (coveredSlots addr n).foldl setSlotValid s.bufValid }

/-! ## Register files (`spec/00_scope.md` R12, `spec/10_state.md` R29) -/

/-- The register numbered `r` of a file. -/
def RegFile.get {α : Type} (file : RegFile α) (r : RegNum) : Reg α := file[r.toNat]'r.isLt

/-- A register write: the contents, and valid = 1. -/
def RegFile.put {α : Type} (file : RegFile α) (r : RegNum) (v : α) : RegFile α := file.set r.toNat ⟨true, v⟩ r.isLt

/-- A register read: the contents, or UNINIT_OPERAND when valid = 0. -/
def RegFile.read {α : Type} (file : RegFile α) (r : RegNum) : Chk α :=
  if (file.get r).valid then .ok (file.get r).val else .error .uninitOperand

/-- `f[r]`. -/
def readF (r : RegNum) (s : State) : Chk Fe := s.fr.read r

/-- `s[r]`. -/
def readS (r : RegNum) (s : State) : Chk ScalarWord := s.sr.read r

/-- `a[r]`. -/
def readA (r : RegNum) (s : State) : Chk Ge := s.ar.read r

/-- `j[r]`. -/
def readJ (r : RegNum) (s : State) : Chk Gej := s.jr.read r

/-- `f[r] <- v`. -/
def writeF (r : RegNum) (v : Fe) (s : State) : State := { s with fr := s.fr.put r v }

/-- `s[r] <- v`, v a value below 2^256. -/
def writeS (r : RegNum) (v : Nat) (s : State) : State := { s with sr := s.sr.put r (BitVec.ofNat 256 v) }

/-- `a[r] <- v`. -/
def writeA (r : RegNum) (v : Ge) (s : State) : State := { s with ar := s.ar.put r v }

/-- `j[r] <- v`. -/
def writeJ (r : RegNum) (v : Gej) (s : State) : State := { s with jr := s.jr.put r v }

/-! ## Taking a fault, and the way out (`spec/60_exceptions.md`) -/

/-- The code of a cause (R281). -/
def Cause.code : Cause → BitVec 8
  | .illegalCmd => 1
  | .uninitOperand => 2
  | .feMagnitude => 3
  | .feNotNormalized => 4
  | .ctxNotBuilt => 5
  | .pointAtInfinity => 6

/-- Fault entry (R284): `raise Fault(c)` during `H_CMD(w)`. Nothing else changes. -/
def takeFault (c : Cause) (w : Word) (s : State) : State := { s with fault := true, cause := c.code, finfo := w }

/-- The only way out of the fault state (R286): the reset state (`spec/10_state.md` R42). The host's side of the port, which
is no state of the block, stays: the operations still to come and the count of drawn bytes (log 1, log 6). -/
def resetBlock (s : State) : State := { State.reset with inbox := s.inbox, draws := s.draws }

/-! ## The execution cycle (`spec/40_system.md` R100) -/

/-- A command retires: CMDCNT + 1 mod 2^32 (R34). -/
def retire (s : State) : State := { s with cmdcnt := s.cmdcnt + 1 }

/-- How `H_CMD(w)` ends: ignored in the fault state; else the fault that `body` raises is taken, with FINFO = w, or the
state `body` computed retires. `body` computes from the state before, so a command that faults writes nothing (R106). -/
def runWord (w : Word) (s : State) (body : Chk State) : Result :=
  if s.fault then .next s
  else match body with
    | .ok t => .next (retire t)
    | .error c => .next (takeFault c w s)

/-- The execution of a command: steps 1 and 2 of R100 and the end of the cycle; `body` holds steps 3 to 8. A term that is
not well formed has a word that does not decode, so it raises ILLEGAL_CMD (R87). -/
def command (i : Instr) (s : State) (body : Chk State) : Result :=
  runWord (encode i) s (if i.wf then body else .error .illegalCmd)

/-- The execution of a word that does not decode (step 2 of R100). -/
def illegalCommand (w : Word) (s : State) : Result := runWord w s (.error .illegalCmd)

end Sys2Proof.Machine
end

