-- ==== Sys2Proof/Machine/Flags.lean ====
section
/-! DEFINITION. Flag writes: a command writes exactly the flags its rule lists and leaves the others unchanged
(`spec/10_state.md` R30, `spec/40_system.md` R103). -/

namespace Sys2Proof.Machine

/-- `FLAGS.T <- b`. -/
def setT (b : Bool) (s : State) : State := { s with flags := { s.flags with t := b } }

/-- `FLAGS.OVF <- b`. -/
def setOvf (b : Bool) (s : State) : State := { s with flags := { s.flags with ovf := b } }

/-- `FLAGS.SGN <- b`. -/
def setSgn (b : Bool) (s : State) : State := { s with flags := { s.flags with sgn := b } }

/-- `FLAGS.LT <- l; FLAGS.GT <- g`. -/
def setLtGt (l g : Bool) (s : State) : State := { s with flags := { s.flags with lt := l, gt := g } }

end Sys2Proof.Machine
end

