-- ==== Sys2Proof/Machine/Constants.lean ====
section
/-! DEFINITION. The constant ROM (`spec/10_state.md` R38): read-only, reachable only through commands. The digits are
the spec's (`spec/93_implementation_defined.md` G1 to G5; log 13). -/

namespace Sys2Proof.Machine.Const

/-- The field modulus p = 2^256 − 2^32 − 977 (`spec/00_scope.md` R6). -/
def p : Nat := 0xFFFFFFFFFFFFFFFFFFFFFFFFFFFFFFFFFFFFFFFFFFFFFFFFFFFFFFFEFFFFFC2F

/-- FOLD_C: 2^256 ≡ 2^32 + 977 (mod p) (R6). -/
def foldC : Nat := 0x1000003D1

/-- The scalar modulus n, the curve order (R7). -/
def n : Nat := 0xFFFFFFFFFFFFFFFFFFFFFFFFFFFFFFFEBAAEDCE6AF48A03BBFD25E8CD0364141

/-- (n − 1)/2 (R7, `spec/42_scalar.md` R153). -/
def nHalf : Nat := 0x7FFFFFFFFFFFFFFFFFFFFFFFFFFFFFFF5D576E7357A4501DDFE92F46681B20A0

/-- The x coordinate of the generator (R8). -/
def gx : Nat := 0x79BE667EF9DCBBAC55A06295CE870B07029BFCDB2DCE28D959F2815B16F81798

/-- The y coordinate of the generator (R8). -/
def gy : Nat := 0x483ADA7726A3C4655DA4FBFC0E1108A8FD17B448A68554199C47D08FFB10D4B8

/-- LAMBDA, a cube root of 1 mod n (R9). -/
def lambda : Nat := 0x5363AD4CC05C30E0A5261C028812645A122E22EA20816678DF02967C1B23BD72

/-- BETA, a cube root of 1 mod p (R9). -/
def beta : Nat := 0x7AE96A2B657C07106E64479EAC3434E99CF0497512F58995C1396C28719501EE

/-- PL, the limb vector of p (`spec/41_field.md` R111). -/
def pl : Limbs :=
  ⟨0xFFFFEFFFFFC2F, 0xFFFFFFFFFFFFF, 0xFFFFFFFFFFFFF, 0xFFFFFFFFFFFFF, 0xFFFFFFFFFFFF⟩

/-- G1 of the endomorphism split (`spec/42_scalar.md` R162). -/
def g1 : Nat := 0x3086D221A7D46BCDE86C90E49284EB153DAA8A1471E8CA7FE893209A45DBB031

/-- G2 of the endomorphism split (R162). -/
def g2 : Nat := 0xE4437ED6010E88286F547FA90ABFE4C4221208AC9DF506C61571B4AE8AC47F71

/-- MINUS_B1 (R162). -/
def minusB1 : Nat := 0x00000000000000000000000000000000E4437ED6010E88286F547FA90ABFE4C3

/-- MINUS_B2 (R162). -/
def minusB2 : Nat := 0xFFFFFFFFFFFFFFFFFFFFFFFFFFFFFFFE8A280AC50774346DD765CDA83DB1562C

/-- HALF = 2^(−1) mod n (`spec/45_ecmult_gen.md` R241). -/
def half : Nat := 0x7FFFFFFFFFFFFFFFFFFFFFFFFFFFFFFF5D576E7357A4501DDFE92F46681B20A1

/-- COMB_DIFF = ((2^264 − 1)·HALF) mod n (R241). -/
def combDiff : Nat := 0x800000000000000000000000000000A205E8FB1BB354323DF6B9E8DE4CFA8020

end Sys2Proof.Machine.Const
end

