-- ==== Sys2Proof/Machine/Datapath.lean ====
section
/-! DEFINITION. What happens inside a command: the internal operations, ROM and table reads and loop passes that the leakage
rules count (`spec/00_scope.md` R13, `spec/70_reset_and_hazards.md` R330, R331), and the two ways a helper runs: plainly, which
is what `exec` does, and recording those events. A helper is written once, over a `Scribe` (it cannot fault) or a `Datapath`
(it can); so the record is that of the very computation `exec` performs. -/

namespace Sys2Proof.Machine

/-- The loops inside commands: the conditional passes of the normalizer (`spec/41_field.md` R115,
`spec/70_reset_and_hazards.md` R330), divstep batches and the divsteps of a batch (`spec/43_inversion.md` R172, R179, R180), the
offsets and blocks of the comb (`spec/45_ecmult_gen.md` R245), the recoding, the odd-multiple table, the digit positions and
the terms of ECMULT (`spec/46_ecmult.md` R260, R262, R266). The scan of a comb block is its 32 ROM reads. -/
inductive InternalLoop where
  | normPass
  | batch
  | divstep
  | combOffset
  | combBlock
  | wnafDigit
  | oddTable
  | ecmultDigit
  | ecmultTerm
  deriving DecidableEq, Repr

/-- One thing the leakage rules count: an internal operation of `spec/41_field.md` R113 to R116, a read of the comb ROM, a read
of the correction constant K_M(k) in the constant ROM (R174; every other constant is read at a fixed place), a read of an
odd-multiple table, passes of a loop (DEDUCED, log 18). -/
inductive Event where
  | add
  | times (k : Nat)
  | neg (m : Nat)
  | mul
  | sqr
  | norm
  | cmov
  | ntz
  | combRom (block index : Nat)
  | correction (M k : Nat)
  | table (index : Nat)
  | passes (l : InternalLoop) (count : Nat)
  deriving DecidableEq, Repr

/-- How a helper that cannot fault notes an event. -/
structure Scribe (m : Type → Type) where
  note : Event → m Unit

/-- How a helper that can fault runs: `check` raises a fault, if there is one; `perform` does an operation that notes its
event when its precondition holds. -/
structure Datapath (m : Type → Type) extends Scribe m where
  check : {α : Type} → Chk α → m α
  perform : {α : Type} → Event → Chk α → m α

/-- Nothing is noted: the bare value. -/
def silent : Scribe Id := ⟨fun _ => ()⟩

/-- Nothing is noted: the value or the fault. This is how `exec` runs a command. -/
def plain : Datapath Chk := { note := fun _ => .ok (), check := fun x => x, perform := fun _ x => x }

/-- A computation with its events, oldest first. A fault ends both. -/
structure Traced (α : Type) where
  result : Chk α
  events : List Event

/-- The events that follow a computation: none after a fault. -/
def Traced.rest {α β : Type} (x : Chk α) (f : α → Traced β) : List Event :=
  match x with
  | .ok a => (f a).events
  | .error _ => []

/-- Running one computation after another: results as in `Chk`, events in order. -/
@[reducible] def tracedMonad : Monad Traced where
  pure a := ⟨.ok a, []⟩
  bind x f := ⟨x.result >>= fun a => (f a).result, x.events ++ Traced.rest x.result f⟩

/-- The event of an operation, when its precondition holds. -/
def eventOf {α : Type} (e : Event) (x : Chk α) : List Event :=
  match x with
  | .ok _ => [e]
  | .error _ => []

/-- Everything is recorded. -/
def recorder : Datapath Traced :=
  { note := fun e => ⟨.ok (), [e]⟩, check := fun x => ⟨x, []⟩, perform := fun e x => ⟨x, eventOf e x⟩ }

/-- A computation run under the recorder. -/
def traceOf {α : Type} (run : [Monad Traced] → Datapath Traced → Traced α) : Traced α := @run tracedMonad recorder

end Sys2Proof.Machine
end

