-- ==== Sys2Proof/Machine/FieldArith.lean ====
section
/-! DEFINITION. The field unit's helpers, functions on field contents (`spec/41_field.md` R110 to R116). -/

namespace Sys2Proof.Machine

/-! ## Limbs and values -/

/-- `CANON(v)`, 0 ≤ v < 2^256 (R110). -/
def canon (v : Nat) : Limbs :=
  ⟨BitVec.ofNat 64 (v % 2 ^ 52), BitVec.ofNat 64 ((v >>> 52) % 2 ^ 52), BitVec.ofNat 64 ((v >>> 104) % 2 ^ 52),
    BitVec.ofNat 64 ((v >>> 156) % 2 ^ 52), BitVec.ofNat 64 (v >>> 208)⟩

/-- The integer five limbs stand for (`spec/10_state.md` R22). -/
def Limbs.ival (l : Limbs) : Nat :=
  l.n0.toNat + 2 ^ 52 * l.n1.toNat + 2 ^ 104 * l.n2.toNat + 2 ^ 156 * l.n3.toNat + 2 ^ 208 * l.n4.toNat

/-- The integer a field content stands for (R22). -/
def Fe.ival (a : Fe) : Nat := a.n.ival

/-- The field value of a content (R22). -/
def Fe.val (a : Fe) : Nat := a.ival % Const.p

/-- `CONST(v)`, 0 ≤ v < p (R111). -/
def feConst (v : Nat) : Fe := ⟨canon v, 1, true⟩

/-- ONE (R111). -/
def Fe.one : Fe := feConst 1

/-- A limb computed over the integers and stored in a 64-bit word (R21; log 11). -/
def limbOfInt (x : Int) : Limb := BitVec.ofInt 64 x

/-! ## The adder (R113) -/

/-- `ADD(a, b)`. -/
def feAdd (a b : Fe) : Chk Fe :=
  if a.mag + b.mag ≤ Config.feMaxMag then
    .ok ⟨⟨a.n.n0 + b.n.n0, a.n.n1 + b.n.n1, a.n.n2 + b.n.n2, a.n.n3 + b.n.n3, a.n.n4 + b.n.n4⟩, a.mag + b.mag, false⟩
  else .error .feMagnitude

/-- One limb times a small integer. -/
def limbTimes (x : Limb) (k : Nat) : Limb := BitVec.ofNat 64 (k * x.toNat)

/-- `TIMES(a, k)`. -/
def feTimes (a : Fe) (k : Nat) : Chk Fe :=
  if a.mag * k ≤ Config.feMaxMag then
    .ok ⟨⟨limbTimes a.n.n0 k, limbTimes a.n.n1 k, limbTimes a.n.n2 k, limbTimes a.n.n3 k, limbTimes a.n.n4 k⟩,
      a.mag * k, false⟩
  else .error .feMagnitude

/-- One limb of a negation: 2·(m + 1)·PL[i] − n[i]. -/
def limbNeg (m : Nat) (pl x : Limb) : Limb := limbOfInt (2 * ((m : Int) + 1) * (pl.toNat : Int) - (x.toNat : Int))

/-- `NEG(a, m)`. -/
def feNeg (a : Fe) (m : Nat) : Chk Fe :=
  if a.mag ≤ m ∧ m ≤ Config.feNegMag then
    .ok ⟨⟨limbNeg m Const.pl.n0 a.n.n0, limbNeg m Const.pl.n1 a.n.n1, limbNeg m Const.pl.n2 a.n.n2,
      limbNeg m Const.pl.n3 a.n.n3, limbNeg m Const.pl.n4 a.n.n4⟩, m + 1, false⟩
  else .error .feMagnitude

/-! ## The multiplier (R114) -/

/-- One fold of the high half by FOLD_C. -/
def fold (t : Nat) : Nat := t % 2 ^ 256 + Const.foldC * (t / 2 ^ 256)

/-- `FOLD3(t)`. -/
def fold3 (t : Nat) : Nat := fold (fold (fold t))

/-- `MUL(a, b)`. -/
def feMul (a b : Fe) : Chk Fe :=
  if a.mag ≤ Config.feMulMag ∧ b.mag ≤ Config.feMulMag then .ok ⟨canon (fold3 (a.ival * b.ival)), 1, false⟩
  else .error .feMagnitude

/-- `SQR(a)`. -/
def feSqr (a : Fe) : Chk Fe := feMul a a

/-! ## Normalizer, select, tests (R115, R116) -/

/-- `NORM(a)`. -/
def feNorm (a : Fe) : Fe := ⟨canon a.val, 1, true⟩

/-- `CMOV(r, a, c)`: the tags do not depend on c. -/
def feCmov (r a : Fe) (c : Bool) : Fe := ⟨if c then a.n else r.n, max r.mag a.mag, r.norm && a.norm⟩

/-- `NTZ(a)`: normalizes to zero. -/
def feNtz (a : Fe) : Bool := a.val == 0

/-! ## The same helpers inside a command -/

/-- NORM, noted with its conditional passes: always both, whatever the operand (`spec/70_reset_and_hazards.md` R330). -/
def Scribe.norm {m : Type → Type} [Monad m] (w : Scribe m) (a : Fe) : m Fe := do
  w.note .norm
  w.note (.passes .normPass Config.normPasses)
  return feNorm a

/-- CMOV, noted; the event does not depend on the condition. -/
def Scribe.cmov {m : Type → Type} [Monad m] (w : Scribe m) (r a : Fe) (c : Bool) : m Fe := do
  w.note .cmov
  return feCmov r a c

/-- NTZ, noted. -/
def Scribe.ntz {m : Type → Type} [Monad m] (w : Scribe m) (a : Fe) : m Bool := do
  w.note .ntz
  return feNtz a

/-- ADD, noted. -/
def Datapath.add {m : Type → Type} (dp : Datapath m) (a b : Fe) : m Fe := dp.perform .add (feAdd a b)

/-- TIMES, noted. -/
def Datapath.times {m : Type → Type} (dp : Datapath m) (a : Fe) (k : Nat) : m Fe := dp.perform (.times k) (feTimes a k)

/-- NEG, noted. -/
def Datapath.neg {m : Type → Type} (dp : Datapath m) (a : Fe) (k : Nat) : m Fe := dp.perform (.neg k) (feNeg a k)

/-- MUL, noted. -/
def Datapath.mul {m : Type → Type} (dp : Datapath m) (a b : Fe) : m Fe := dp.perform .mul (feMul a b)

/-- SQR, noted. -/
def Datapath.sqr {m : Type → Type} (dp : Datapath m) (a : Fe) : m Fe := dp.perform .sqr (feSqr a)

/-! ## Preconditions on tags -/

/-- "requires normalized": FE_NOT_NORMALIZED when norm = 0 (`spec/40_system.md` R100 step 5). -/
def requireNorm (a : Fe) : Chk Unit := require a.norm .feNotNormalized

/-- `CHK8(c1, c2, …)` (`spec/44_group.md` R192): the one magnitude check of a point operation, made first, after which no nested
operation faults (R201). -/
def chk8 (cs : List Fe) : Chk Unit := require (cs.all fun c => c.mag ≤ Config.feMulMag) .feMagnitude

end Sys2Proof.Machine
end

