-- ==== Sys2Proof/Machine/DivSteps.lean ====
section
/-! DEFINITION. The Bernstein–Yang divsteps inversion engine (`spec/43_inversion.md` R171 to R180). -/

namespace Sys2Proof.Machine

/-- What a divstep maps: δ, f, g and the 2x2 matrix T = (u, v; q, r) (R171). -/
structure DivState where
  delta : Int
  f : Int
  g : Int
  u : Int
  v : Int
  q : Int
  r : Int
  deriving DecidableEq, Repr

/-- One divstep (R171). The divisions by 2 are exact. -/
def divstep (x : DivState) : DivState :=
  if 0 < x.delta ∧ x.g % 2 = 1 then
    ⟨1 - x.delta, x.g, (x.g - x.f) / 2, 2 * x.q, 2 * x.r, x.q - x.u, x.r - x.v⟩
  else if x.g % 2 = 1 then
    ⟨1 + x.delta, x.f, (x.g + x.f) / 2, 2 * x.u, 2 * x.v, x.q + x.u, x.r + x.v⟩
  else
    ⟨1 + x.delta, x.f, x.g / 2, 2 * x.u, 2 * x.v, x.q, x.r⟩

/-- `k` divsteps. -/
def divsteps (k : Nat) (x : DivState) : DivState :=
  match k with
  | 0 => x
  | k + 1 => divsteps k (divstep x)

/-- `BATCH(δ, f, g)`: 62 divsteps from T = (1, 0; 0, 1) (R172). -/
def divBatch (delta f g : Int) : DivState := divsteps Config.divstepBatch ⟨delta, f, g, 1, 0, 0, 1⟩

/-- The engine's variables between batches (R179). -/
structure InvState where
  delta : Int
  f : Int
  g : Int
  d : Int
  e : Int
  deriving DecidableEq, Repr

/-- The start: δ = 1, f = M, g = x, d = 0, e = 1 (R179). -/
def invStart (x M : Nat) : InvState := ⟨1, M, x, 0, 1⟩

/-- One batch and its (d, e) update, both taken in [0, M) (R173). -/
def invBatch (M : Nat) (t : InvState) : InvState :=
  let b := divBatch t.delta t.f t.g
  ⟨b.delta, b.f, b.g, (b.u * t.d + b.v * t.e) % M, (b.q * t.d + b.r * t.e) % M⟩

/-- A pass of the engine's loop: one batch, its 62 divsteps. -/
def Scribe.invBatch {m : Type → Type} [Monad m] (w : Scribe m) (M : Nat) (t : InvState) : m InvState := do
  w.note (.passes .batch 1)
  w.note (.passes .divstep Config.divstepBatch)
  return Machine.invBatch M t

/-- `k` batches. -/
def Scribe.invBatches {m : Type → Type} [Monad m] (w : Scribe m) (M k : Nat) (t : InvState) : m InvState :=
  match k with
  | 0 => return t
  | k + 1 => do
    let t ← w.invBatch M t
    w.invBatches M k t

/-- The correction constant `K_M(k) = (2^(62k))^(−1) mod M` of an odd modulus, as the power of 2^(−1) = (M + 1)/2 (R174;
DEDUCED, log 10). -/
def kInv (M k : Nat) : Nat := ((M + 1) / 2) ^ (Config.divstepBatch * k) % M

/-- The post-correction: (sgn · d · K_M(k)) mod M, sgn the sign of f (R179, R180). -/
def invResult (M k : Nat) (t : InvState) : Nat :=
  let sgn : Int := if 0 < t.f then 1 else -1
  ((sgn * t.d * (kInv M k : Int)) % M).toNat

/-- The post-correction, which reads the constant K_M(k). -/
def Scribe.invResult {m : Type → Type} [Monad m] (w : Scribe m) (M k : Nat) (t : InvState) : m Nat := do
  w.note (.correction M k)
  return Machine.invResult M k t

/-- `INV_CT(x, M)`: always 12 batches (R179). -/
def Scribe.invCt {m : Type → Type} [Monad m] (w : Scribe m) (x M : Nat) : m Nat := do
  let t ← w.invBatches M Config.divstepBatches (invStart x M)
  w.invResult M Config.divstepBatches t

/-- The batches of INV_VAR: at least one, until g = 0, at most `fuel` (R180). The answer is the state and the number k of
batches done in all. -/
def Scribe.invVarLoop {m : Type → Type} [Monad m] (w : Scribe m) (M fuel k : Nat) (t : InvState) : m (InvState × Nat) :=
  match fuel with
  | 0 => return (t, k)
  | fuel + 1 => do
    let t ← w.invBatch M t
    if t.g = 0 then return (t, k + 1) else w.invVarLoop M fuel (k + 1) t

/-- The run of INV_VAR, its last state and its batch count; the count never exceeds 12 (R180; log 12). -/
def Scribe.invVarRun {m : Type → Type} [Monad m] (w : Scribe m) (x M : Nat) : m (InvState × Nat) :=
  w.invVarLoop M Config.divstepBatches 0 (invStart x M)

/-- `INV_VAR(x, M)` (R180). -/
def Scribe.invVar {m : Type → Type} [Monad m] (w : Scribe m) (x M : Nat) : m Nat := do
  let r ← w.invVarRun x M
  w.invResult M r.2 r.1

/-! ## The engine's values -/

/-- The state after `k` batches. -/
def invBatches (M k : Nat) (t : InvState) : InvState := Id.run (silent.invBatches M k t)

/-- The value of `INV_CT(x, M)`. -/
def invCt (x M : Nat) : Nat := Id.run (silent.invCt x M)

/-- The last state and the batch count of INV_VAR. -/
def invVarRun (x M : Nat) : InvState × Nat := Id.run (silent.invVarRun x M)

/-- The value of `INV_VAR(x, M)`. -/
def invVar (x M : Nat) : Nat := Id.run (silent.invVar x M)

end Sys2Proof.Machine
end

