-- ==== Sys2Proof/Machine/GroupArith.lean ====
section
/-! DEFINITION. The point doubler and adders, functions on point contents (`spec/44_group.md` R191 to R202). Each nested
helper keeps its own precondition, so a fault anywhere is the command's fault; that none is raised once the stated checks
pass is R201. Each is written once, over a `Scribe` or a `Datapath`; the last section names what they compute when nothing
is noted. -/

namespace Sys2Proof.Machine

variable {m : Type → Type} [Monad m]

/-! ## Small helpers -/

/-- INFA (R191). -/
def Ge.infinity : Ge := ⟨Fe.zero, Fe.zero, true⟩

/-- INFJ (R191). -/
def Gej.infinity : Gej := ⟨Fe.zero, Fe.zero, Fe.zero, true⟩

/-- G, affine, normalized (`spec/44_group.md` R216). -/
def Ge.generator : Ge := ⟨feConst Const.gx, feConst Const.gy, false⟩

/-- `ZEROIZE(P, c)` (R191). -/
def Scribe.zeroize (w : Scribe m) (P : Gej) (c : Bool) : m Gej := do
  let x ← w.cmov P.x Fe.zero c
  let y ← w.cmov P.y Fe.zero c
  let z ← w.cmov P.z Fe.zero c
  return ⟨x, y, z, P.inf⟩

/-- `TOJAC(a)` (R193). -/
def Scribe.toJac (w : Scribe m) (a : Ge) : m Gej := do
  let z ← w.cmov Fe.one Fe.zero a.inf
  return ⟨a.x, a.y, z, a.inf⟩

/-- The negation of a coordinate with its own magnitude as the bound, zero limbs for infinity (R194). The bound of 31 is checked
first, so NEG cannot fault (R201); the magnitude grows by 1 (R229). -/
def Datapath.negCoordinate (dp : Datapath m) (y : Fe) (inf : Bool) : m Fe := do
  dp.check (require (y.mag ≤ Config.feNegMag) .feMagnitude)
  let ny ← dp.neg y y.mag
  dp.cmov ny Fe.zero inf

/-- `NEGJ(P)` (R194). -/
def Datapath.negJ (dp : Datapath m) (P : Gej) : m Gej := do
  let y ← dp.negCoordinate P.y P.inf
  return ⟨P.x, y, P.z, P.inf⟩

/-- `NEGA(a)` (R194). -/
def Datapath.negA (dp : Datapath m) (a : Ge) : m Ge := do
  let y ← dp.negCoordinate a.y a.inf
  return ⟨a.x, y, a.inf⟩

/-! ## The doubler -/

/-- `DBL(P)` (R196): no case split. After CHK8 no nested operation faults (R201); tags (6, 4, 2) (R229). -/
def Datapath.dbl (dp : Datapath m) (P : Gej) : m Gej := do
  dp.check (chk8 [P.x, P.y, P.z])
  let z3 ← dp.mul P.z P.y
  let z3 ← dp.add z3 z3
  let t1 ← dp.sqr P.x
  let t1 ← dp.times t1 3
  let t2 ← dp.sqr t1
  let t3 ← dp.sqr P.y
  let t3 ← dp.times t3 2
  let t4 ← dp.sqr t3
  let t4 ← dp.times t4 2
  let t3 ← dp.mul t3 P.x
  let x3 ← dp.times t3 4
  let x3 ← dp.neg x3 4
  let x3 ← dp.add x3 t2
  let t2 ← dp.neg t2 1
  let t3 ← dp.times t3 6
  let t3 ← dp.add t3 t2
  let y3 ← dp.mul t1 t3
  let t2 ← dp.neg t4 2
  let y3 ← dp.add y3 t2
  dp.zeroize ⟨x3, y3, z3, P.inf⟩ P.inf

/-! ## The adders -/

/-- `ADDCORE(U1, S1, H, I, ZF)`, the chord formula (R197): the coordinates X3, Y3, Z3, tags (5, 3, 1). -/
def Datapath.addCore (dp : Datapath m) (u1 s1 h i zf : Fe) : m (Fe × Fe × Fe) := do
  let i2 ← dp.sqr i
  let h2 ← dp.sqr h
  let h3 ← dp.mul h h2
  let z3 ← dp.mul zf h
  let t ← dp.mul u1 h2
  let x3 ← dp.times t 2
  let x3 ← dp.add x3 h3
  let x3 ← dp.neg x3 3
  let x3 ← dp.add x3 i2
  let y3 ← dp.neg x3 5
  let y3 ← dp.add y3 t
  let y3 ← dp.mul y3 i
  let h3 ← dp.mul h3 s1
  let h3 ← dp.neg h3 1
  let y3 ← dp.add y3 h3
  return (x3, y3, z3)

/-- b − a for contents of magnitude 1: `ADD(NEG(a, 1), b)`, the H and I of the adders (R198 to R200). -/
def Datapath.diff (dp : Datapath m) (a b : Fe) : m Fe := do
  let na ← dp.neg a 1
  dp.add na b

/-- U1, U2, S1, S2 of two finite Jacobian contents (R198, R226). -/
def Datapath.crossProducts (dp : Datapath m) (P Q : Gej) : m (Fe × Fe × Fe × Fe) := do
  let z22 ← dp.sqr Q.z
  let z12 ← dp.sqr P.z
  let u1 ← dp.mul P.x z22
  let u2 ← dp.mul Q.x z12
  let s1 ← dp.mul P.y z22
  let s1 ← dp.mul s1 Q.z
  let s2 ← dp.mul Q.y z12
  let s2 ← dp.mul s2 P.z
  return (u1, u2, s1, s2)

/-- U1, S1, H, I of two finite Jacobian contents (R198). -/
def Datapath.crossJac (dp : Datapath m) (P Q : Gej) : m (Fe × Fe × Fe × Fe) := do
  let (u1, u2, s1, s2) ← dp.crossProducts P Q
  let h ← dp.diff u1 u2
  let i ← dp.diff s1 s2
  return (u1, s1, h, i)

/-- U1, S1, H, I of a Jacobian and an affine content (R199, R200). -/
def Datapath.crossMixed (dp : Datapath m) (P : Gej) (b : Ge) : m (Fe × Fe × Fe × Fe) := do
  let z12 ← dp.sqr P.z
  let u1 ← dp.norm P.x
  let u2 ← dp.mul b.x z12
  let s1 ← dp.norm P.y
  let s2 ← dp.mul b.y z12
  let s2 ← dp.mul s2 P.z
  let h ← dp.diff u1 u2
  let i ← dp.diff s1 s2
  return (u1, s1, h, i)

/-- How the two variable-time adders end (R198, R199): the tangent for the same point, infinity for opposite points, else
the chord. ZF is an argument of ADDCORE in both listings: it is computed just before ADDCORE, for the chord only (the order inside
one line of a listing: DESIGN CHOICE, log 18). -/
def Datapath.finishAdd (dp : Datapath m) (P : Gej) (u1 s1 h i : Fe) (zFactor : m Fe) : m Gej := do
  if ← dp.ntz h then
    if ← dp.ntz i then dp.dbl P else return Gej.infinity
  else
    let zf ← zFactor
    let (x3, y3, z3) ← dp.addCore u1 s1 h i zf
    return ⟨x3, y3, z3, false⟩

/-- `ADDVAR(P, Q)` (R198): Jacobian + Jacobian, variable-time. What is checked depends on the inf bits; after CHK8 no nested
operation faults (R201); tags (5, 3, 1) in the generic case (R229). -/
def Datapath.addVar (dp : Datapath m) (P Q : Gej) : m Gej :=
  if P.inf then return Q
  else if Q.inf then return P
  else do
    dp.check (chk8 [P.x, P.y, P.z, Q.x, Q.y, Q.z])
    let (u1, s1, h, i) ← dp.crossJac P Q
    dp.finishAdd P u1 s1 h i (dp.mul P.z Q.z)

/-- `ADDGEVAR(P, b)` (R199): Jacobian + affine, variable-time; checks and tags as for ADDVAR (R201, R229). -/
def Datapath.addGeVar (dp : Datapath m) (P : Gej) (b : Ge) : m Gej :=
  if P.inf then dp.toJac b
  else if b.inf then return P
  else do
    dp.check (chk8 [P.x, P.y, P.z, b.x, b.y])
    let (u1, s1, h, i) ← dp.crossMixed P b
    dp.finishAdd P u1 s1 h i (return P.z)

/-- One of the three selections of ADDGE: coordinates by CMOV, inf by the same bit (R200). -/
def Scribe.selectGej (w : Scribe m) (r a : Gej) (c : Bool) : m Gej := do
  let x ← w.cmov r.x a.x c
  let y ← w.cmov r.y a.y c
  let z ← w.cmov r.z a.z c
  return ⟨x, y, z, if c then a.inf else r.inf⟩

/-- `ADDGE(P, b)` (R200): Jacobian + affine, constant-time and complete. The chord and the tangent are always computed;
P infinite wins over b infinite. After CHK8 no nested operation faults (R201); with b of magnitude 1 tags at most (6, 4, 2) stay
(6, 4, 2) (R229). -/
def Datapath.addGe (dp : Datapath m) (P : Gej) (b : Ge) : m Gej := do
  dp.check (chk8 [P.x, P.y, P.z, b.x, b.y])
  let (u1, s1, h, i) ← dp.crossMixed P b
  let hz ← dp.ntz h
  let iz ← dp.ntz i
  let (x3, y3, z3) ← dp.addCore u1 s1 h i P.z
  let D ← dp.dbl ⟨P.x, P.y, P.z, false⟩
  let deg := hz && iz
  let opp := hz && !iz
  let R ← dp.selectGej ⟨x3, y3, z3, opp⟩ ⟨D.x, D.y, D.z, opp⟩ deg
  let R ← dp.selectGej R P b.inf
  let R ← dp.selectGej R ⟨b.x, b.y, Fe.one, b.inf⟩ P.inf
  dp.zeroize R R.inf

/-! ## Conversion and equality -/

/-- `TOAFF(P, inv)` (R202), `inv` one of the two inverses modulo p. After CHK8 no nested operation faults (R201); tags (1, 1)
(R229). The reduction of Z that the engine begins with, `ival mod p`, is part of the inverse and no NORM of the record (DESIGN
CHOICE, log 18). -/
def Datapath.toAff (dp : Datapath m) (P : Gej) (inv : Nat → Nat → m Nat) : m Ge := do
  dp.check (chk8 [P.x, P.y, P.z])
  let v ← inv P.z.val Const.p
  let zi := feConst v
  let zi2 ← dp.sqr zi
  let zi3 ← dp.mul zi2 zi
  let x ← dp.mul P.x zi2
  let y ← dp.mul P.y zi3
  let x ← dp.cmov x Fe.zero P.inf
  let y ← dp.cmov y Fe.zero P.inf
  return ⟨x, y, P.inf⟩

/-- Equality of affine contents, by value (R210). -/
def Scribe.geEq (w : Scribe m) (P Q : Ge) : m Bool := do
  let px ← w.norm P.x
  let qx ← w.norm Q.x
  let py ← w.norm P.y
  let qy ← w.norm Q.y
  let e := px.n == qx.n && py.n == qy.n
  return (P.inf && Q.inf) || (!P.inf && !Q.inf && e)

/-- Equality of Jacobian contents, by cross-multiplication (R226); both sides of the `&` are computed, left to right (DESIGN
CHOICE, log 18). -/
def Datapath.gejEq (dp : Datapath m) (P Q : Gej) : m Bool :=
  if P.inf || Q.inf then return P.inf && Q.inf
  else do
    dp.check (chk8 [P.x, P.y, P.z, Q.x, Q.y, Q.z])
    let (u1, u2, s1, s2) ← dp.crossProducts P Q
    let h ← dp.diff u1 u2
    let hz ← dp.ntz h
    let i ← dp.diff s1 s2
    let iz ← dp.ntz i
    return hz && iz

/-! ## What the helpers compute -/

/-- The value of ZEROIZE. -/
def zeroize (P : Gej) (c : Bool) : Gej := Id.run (silent.zeroize P c)

/-- The value of TOJAC. -/
def toJac (a : Ge) : Gej := Id.run (silent.toJac a)

/-- NEGJ. -/
def negJ (P : Gej) : Chk Gej := plain.negJ P

/-- NEGA. -/
def negA (a : Ge) : Chk Ge := plain.negA a

/-- DBL. -/
def gejDbl (P : Gej) : Chk Gej := plain.dbl P

/-- ADDCORE. -/
def addCore (u1 s1 h i zf : Fe) : Chk (Fe × Fe × Fe) := plain.addCore u1 s1 h i zf

/-- The differences H and I of the adders. -/
def feDiff (a b : Fe) : Chk Fe := plain.diff a b

/-- U1, U2, S1, S2 of ADDVAR and GEJ_EQ. -/
def crossProducts (P Q : Gej) : Chk (Fe × Fe × Fe × Fe) := plain.crossProducts P Q

/-- U1, S1, H, I of ADDVAR. -/
def crossJac (P Q : Gej) : Chk (Fe × Fe × Fe × Fe) := plain.crossJac P Q

/-- U1, S1, H, I of ADDGEVAR and ADDGE. -/
def crossMixed (P : Gej) (b : Ge) : Chk (Fe × Fe × Fe × Fe) := plain.crossMixed P b

/-- How ADDVAR and ADDGEVAR end. -/
def finishAdd (P : Gej) (u1 s1 h i : Fe) (zFactor : Chk Fe) : Chk Gej := plain.finishAdd P u1 s1 h i zFactor

/-- ADDVAR. -/
def gejAddVar (P Q : Gej) : Chk Gej := plain.addVar P Q

/-- ADDGEVAR. -/
def gejAddGeVar (P : Gej) (b : Ge) : Chk Gej := plain.addGeVar P b

/-- The value of a selection of ADDGE. -/
def selectGej (r a : Gej) (c : Bool) : Gej := Id.run (silent.selectGej r a c)

/-- ADDGE. -/
def gejAddGe (P : Gej) (b : Ge) : Chk Gej := plain.addGe P b

/-- TOAFF with the value of one of the two inverses. -/
def toAff (P : Gej) (inv : Nat → Nat → Nat) : Chk Ge := plain.toAff P fun x M => .ok (inv x M)

/-- The value of the affine equality. -/
def geEq (P Q : Ge) : Bool := Id.run (silent.geEq P Q)

/-- The Jacobian equality. -/
def gejEq (P Q : Gej) : Chk Bool := plain.gejEq P Q

end Sys2Proof.Machine
end

