-- ==== Sys2Proof/Machine/Operands.lean ====
section
/-! DEFINITION. The operand forms beside register numbers: what an immediate of each kind means (`spec/30_encoding.md` R83)
and the loads and stores of 32-byte values (`spec/20_memory.md` R62, R63, R65). -/

namespace Sys2Proof.Machine

/-- The condition selector (kind cond): 0 = constant 0, 1 = constant 1, 2 = FLAGS.T. -/
def condBit (imm : Imm) (s : State) : Bool :=
  if imm = 0 then false else if imm = 1 then true else s.flags.t

/-- The coordinate selector (kind sel): 0 = X, 1 = Y, 2 = Z. -/
def coordinate (imm : Imm) (P : Gej) : Fe :=
  if imm = 0 then P.x else if imm = 1 then P.y else P.z

/-- The generator scalar's register (kind ng): imm[4] = 1 says it is present, imm[3:0] is its number. -/
def generatorReg (imm : Imm) : Option RegNum := if imm.getLsbD 4 then some (imm.setWidth 4) else none

/-- The generator scalar of ECMULT, if present: `s[imm[3:0]]`. -/
def readGenerator (imm : Imm) (s : State) : Chk (Option Nat) :=
  match generatorReg imm with
  | none => .ok none
  | some r => do
    let g ← readS r s
    return some g.toNat

/-- The byte address of the slot an immediate of kind slot or slot2 names: 32·k. -/
def immAddr (imm : Imm) : Nat := slotAddr imm.toNat

/-- `int_be(MemRead(32·k, 32))`. -/
def loadSlot (imm : Imm) (s : State) : Chk Nat := do
  let b ← memRead (immAddr imm) 32 s
  return intBe b

/-- The two values of a point in storage form: slots k and k + 1 (R65). -/
def loadPair (imm : Imm) (s : State) : Chk (Nat × Nat) := do
  let x ← memRead (immAddr imm) 32 s
  let y ← memRead (immAddr imm + 32) 32 s
  return (intBe x, intBe y)

/-- `MemWrite(32·k, 32, be32(v))`. -/
def storeSlot (imm : Imm) (v : Nat) (s : State) : State := memWrite (immAddr imm) 32 (be32 v) s

/-- `MemWrite(32·k, 64, be32(x) ‖ be32(y))` (R65). -/
def storePair (imm : Imm) (x y : Nat) (s : State) : State := memWrite (immAddr imm) 64 (be32 x ++ be32 y) s

end Sys2Proof.Machine
end

