-- ==== Sys2Proof/Machine/ScalarArith.lean ====
section
/-! DEFINITION. The scalar unit's arithmetic modulo n, functions on integers in [0, n) (`spec/42_scalar.md`). -/

namespace Sys2Proof.Machine

/-- Decode of a 32-byte value: reduced once, and whether it was ≥ M (`spec/42_scalar.md` R141, `spec/41_field.md` R117). -/
def reduceOnce (v M : Nat) : Nat × Bool := (if M ≤ v then v - M else v, decide (M ≤ v))

/-- The sum of two scalars and its overflow indicator (R145). -/
def scAdd (a b : Nat) : Nat × Bool := reduceOnce (a + b) Const.n

/-- The product of two scalars (R146). -/
def scMul (a b : Nat) : Nat := a * b % Const.n

/-- The negation of a scalar (R148). -/
def scNeg (a : Nat) : Nat := if a = 0 then 0 else Const.n - a

/-- (a − b) mod n. -/
def scSub (a b : Nat) : Nat := (((a : Int) - (b : Int)) % (Const.n : Int)).toNat

/-- a > (n − 1)/2 (R153). -/
def scIsHigh (a : Nat) : Bool := decide (Const.nHalf < a)

/-- The (r1, r2) of the endomorphism split (R163). -/
def splitLambda (k : Nat) : Nat × Nat :=
  let c1 := (Const.g1 * k) >>> 384
  let c2 := (Const.g2 * k) >>> 384
  let r2 := (Const.minusB1 * c1 + Const.minusB2 * c2) % Const.n
  (scSub k (Const.lambda * r2), r2)

end Sys2Proof.Machine
end

