-- ==== Sys2Proof/Machine/AffineUnit.lean ====
section
/-! DEFINITION. The affine point commands (`spec/44_group.md` R203 to R216). -/

namespace Sys2Proof.Machine

variable {m : Type → Type} [Monad m] (dp : Datapath m)

/-- The work of GE_SETXY (R203). -/
def bodyGeSetxy (rd ra rb : RegNum) (s : State) : m State := do
  let x ← dp.check (readF ra s)
  let y ← dp.check (readF rb s)
  return writeA rd ⟨x, y, false⟩ s

/-- GE_SETXY. -/
def execGeSetxy (rd ra rb : RegNum) (s : State) : Result := command (.geSetxy rd ra rb) s (bodyGeSetxy plain rd ra rb s)

/-- The work of GE_GETX (R204). -/
def bodyGeGetx (rd ra : RegNum) (s : State) : m State := do
  let P ← dp.check (readA ra s)
  return writeF rd P.x s

/-- GE_GETX. -/
def execGeGetx (rd ra : RegNum) (s : State) : Result := command (.geGetx rd ra) s (bodyGeGetx plain rd ra s)

/-- The work of GE_GETY (R205). -/
def bodyGeGety (rd ra : RegNum) (s : State) : m State := do
  let P ← dp.check (readA ra s)
  return writeF rd P.y s

/-- GE_GETY. -/
def execGeGety (rd ra : RegNum) (s : State) : Result := command (.geGety rd ra) s (bodyGeGety plain rd ra s)

/-- The work of GE_SETINF (R206). -/
def bodyGeSetinf (rd : RegNum) (s : State) : m State := return writeA rd Ge.infinity s

/-- GE_SETINF. -/
def execGeSetinf (rd : RegNum) (s : State) : Result := command (.geSetinf rd) s (bodyGeSetinf rd s)

/-- The work of GE_ISINF (R207). -/
def bodyGeIsinf (ra : RegNum) (s : State) : m State := do
  let P ← dp.check (readA ra s)
  return setT P.inf s

/-- GE_ISINF. -/
def execGeIsinf (ra : RegNum) (s : State) : Result := command (.geIsinf ra) s (bodyGeIsinf plain ra s)

/-- The work of GE_MOV (R208). -/
def bodyGeMov (rd ra : RegNum) (s : State) : m State := do
  let P ← dp.check (readA ra s)
  return writeA rd P s

/-- GE_MOV. -/
def execGeMov (rd ra : RegNum) (s : State) : Result := command (.geMov rd ra) s (bodyGeMov plain rd ra s)

/-- The work of GE_NEG (R209). -/
def bodyGeNeg (rd ra : RegNum) (s : State) : m State := do
  let P ← dp.check (readA ra s)
  let r ← dp.negA P
  return writeA rd r s

/-- GE_NEG. -/
def execGeNeg (rd ra : RegNum) (s : State) : Result := command (.geNeg rd ra) s (bodyGeNeg plain rd ra s)

/-- The work of GE_EQ (R210). -/
def bodyGeEq (ra rb : RegNum) (s : State) : m State := do
  let P ← dp.check (readA ra s)
  let Q ← dp.check (readA rb s)
  let e ← dp.geEq P Q
  return setT e s

/-- GE_EQ. -/
def execGeEq (ra rb : RegNum) (s : State) : Result := command (.geEq ra rb) s (bodyGeEq plain ra rb s)

/-- The work of GE_MULLAMBDA (R211). -/
def bodyGeMullambda (rd ra : RegNum) (s : State) : m State := do
  let P ← dp.check (readA ra s)
  dp.check (chk8 [P.x])
  let x ← dp.mul P.x (feConst Const.beta)
  return writeA rd ⟨x, P.y, P.inf⟩ s

/-- GE_MULLAMBDA. -/
def execGeMullambda (rd ra : RegNum) (s : State) : Result :=
  command (.geMullambda rd ra) s (bodyGeMullambda plain rd ra s)

/-- The work of GE_TOSTOR (R212). -/
def bodyGeTostor (ra : RegNum) (imm : Imm) (s : State) : m State := do
  let P ← dp.check (readA ra s)
  dp.check (require (!P.inf) .pointAtInfinity)
  let x ← dp.norm P.x
  let y ← dp.norm P.y
  return storePair imm x.ival y.ival s

/-- GE_TOSTOR. -/
def execGeTostor (ra : RegNum) (imm : Imm) (s : State) : Result :=
  command (.geTostor ra imm) s (bodyGeTostor plain ra imm s)

/-- The work of GE_FROMSTOR (R213). -/
def bodyGeFromstor (rd : RegNum) (imm : Imm) (s : State) : m State := do
  let v ← dp.check (loadPair imm s)
  let x := reduceOnce v.1 Const.p
  let y := reduceOnce v.2 Const.p
  return setOvf (x.2 || y.2) (writeA rd ⟨feConst x.1, feConst y.1, false⟩ s)

/-- GE_FROMSTOR. -/
def execGeFromstor (rd : RegNum) (imm : Imm) (s : State) : Result :=
  command (.geFromstor rd imm) s (bodyGeFromstor plain rd imm s)

/-- The work of GE_SETGEJ (R214). -/
def bodyGeSetgej (rd ra : RegNum) (s : State) : m State := do
  let P ← dp.check (readJ ra s)
  let r ← dp.toAff P dp.invCt
  return writeA rd r s

/-- GE_SETGEJ. -/
def execGeSetgej (rd ra : RegNum) (s : State) : Result := command (.geSetgej rd ra) s (bodyGeSetgej plain rd ra s)

/-- The work of GE_SETGEJVAR (R215). -/
def bodyGeSetgejvar (rd ra : RegNum) (s : State) : m State := do
  let P ← dp.check (readJ ra s)
  let r ← dp.toAff P dp.invVar
  return writeA rd r s

/-- GE_SETGEJVAR. -/
def execGeSetgejvar (rd ra : RegNum) (s : State) : Result :=
  command (.geSetgejvar rd ra) s (bodyGeSetgejvar plain rd ra s)

/-- The work of GE_SETG (R216). -/
def bodyGeSetg (rd : RegNum) (s : State) : m State := return writeA rd Ge.generator s

/-- GE_SETG. -/
def execGeSetg (rd : RegNum) (s : State) : Result := command (.geSetg rd) s (bodyGeSetg rd s)

end Sys2Proof.Machine
end

