-- ==== Sys2Proof/Machine/FieldUnit.lean ====
section
/-! DEFINITION. The field unit's commands (`spec/41_field.md` R117 to R130, `spec/43_inversion.md` R175, R176). -/

namespace Sys2Proof.Machine

variable {m : Type → Type} [Monad m] (dp : Datapath m)

/-- The work of FE_SETB32 (R117). -/
def bodyFeSetb32 (rd : RegNum) (imm : Imm) (s : State) : m State := do
  let v ← dp.check (loadSlot imm s)
  let r := reduceOnce v Const.p
  return setOvf r.2 (writeF rd (feConst r.1) s)

/-- FE_SETB32. -/
def execFeSetb32 (rd : RegNum) (imm : Imm) (s : State) : Result :=
  command (.feSetb32 rd imm) s (bodyFeSetb32 plain rd imm s)

/-- The work of FE_GETB32 (R118). -/
def bodyFeGetb32 (ra : RegNum) (imm : Imm) (s : State) : m State := do
  let a ← dp.check (readF ra s)
  dp.check (requireNorm a)
  return storeSlot imm a.ival s

/-- FE_GETB32. -/
def execFeGetb32 (ra : RegNum) (imm : Imm) (s : State) : Result :=
  command (.feGetb32 ra imm) s (bodyFeGetb32 plain ra imm s)

/-- The work of FE_SETINT (R119). -/
def bodyFeSetint (rd : RegNum) (imm : Imm) (s : State) : m State := return writeF rd (feConst imm.toNat) s

/-- FE_SETINT. -/
def execFeSetint (rd : RegNum) (imm : Imm) (s : State) : Result := command (.feSetint rd imm) s (bodyFeSetint rd imm s)

/-- The work of FE_MOV (R120). -/
def bodyFeMov (rd ra : RegNum) (s : State) : m State := do
  let a ← dp.check (readF ra s)
  return writeF rd a s

/-- FE_MOV. -/
def execFeMov (rd ra : RegNum) (s : State) : Result := command (.feMov rd ra) s (bodyFeMov plain rd ra s)

/-- The work of FE_NORM (R121). -/
def bodyFeNorm (rd ra : RegNum) (s : State) : m State := do
  let a ← dp.check (readF ra s)
  let r ← dp.norm a
  return writeF rd r s

/-- FE_NORM. -/
def execFeNorm (rd ra : RegNum) (s : State) : Result := command (.feNorm rd ra) s (bodyFeNorm plain rd ra s)

/-- The work of FE_ADD (R122), the field adder. -/
def bodyFeAdd (rd ra rb : RegNum) (s : State) : m State := do
  let a ← dp.check (readF ra s)
  let b ← dp.check (readF rb s)
  let r ← dp.add a b
  return writeF rd r s

/-- FE_ADD. -/
def execFeAdd (rd ra rb : RegNum) (s : State) : Result := command (.feAdd rd ra rb) s (bodyFeAdd plain rd ra rb s)

/-- The work of FE_MUL (R123), the field multiplier. -/
def bodyFeMul (rd ra rb : RegNum) (s : State) : m State := do
  let a ← dp.check (readF ra s)
  let b ← dp.check (readF rb s)
  let r ← dp.mul a b
  return writeF rd r s

/-- FE_MUL. -/
def execFeMul (rd ra rb : RegNum) (s : State) : Result := command (.feMul rd ra rb) s (bodyFeMul plain rd ra rb s)

/-- The work of FE_SQR (R124), the field squarer. -/
def bodyFeSqr (rd ra : RegNum) (s : State) : m State := do
  let a ← dp.check (readF ra s)
  let r ← dp.sqr a
  return writeF rd r s

/-- FE_SQR. -/
def execFeSqr (rd ra : RegNum) (s : State) : Result := command (.feSqr rd ra) s (bodyFeSqr plain rd ra s)

/-- The work of FE_NEG (R125). -/
def bodyFeNeg (rd ra : RegNum) (imm : Imm) (s : State) : m State := do
  let a ← dp.check (readF ra s)
  let r ← dp.neg a imm.toNat
  return writeF rd r s

/-- FE_NEG. -/
def execFeNeg (rd ra : RegNum) (imm : Imm) (s : State) : Result :=
  command (.feNeg rd ra imm) s (bodyFeNeg plain rd ra imm s)

/-- The work of FE_CMOV (R126): reads rd as well as ra. -/
def bodyFeCmov (rd ra : RegNum) (imm : Imm) (s : State) : m State := do
  let d ← dp.check (readF rd s)
  let a ← dp.check (readF ra s)
  let r ← dp.cmov d a (condBit imm s)
  return writeF rd r s

/-- FE_CMOV. -/
def execFeCmov (rd ra : RegNum) (imm : Imm) (s : State) : Result :=
  command (.feCmov rd ra imm) s (bodyFeCmov plain rd ra imm s)

/-- The work of FE_ISZERO (R127). -/
def bodyFeIszero (ra : RegNum) (s : State) : m State := do
  let a ← dp.check (readF ra s)
  dp.check (requireNorm a)
  return setT (a.ival == 0) s

/-- FE_ISZERO. -/
def execFeIszero (ra : RegNum) (s : State) : Result := command (.feIszero ra) s (bodyFeIszero plain ra s)

/-- The work of FE_EQ (R128). -/
def bodyFeEq (ra rb : RegNum) (s : State) : m State := do
  let a ← dp.check (readF ra s)
  let b ← dp.check (readF rb s)
  dp.check (requireNorm a)
  dp.check (requireNorm b)
  return setT (a.n == b.n) s

/-- FE_EQ. -/
def execFeEq (ra rb : RegNum) (s : State) : Result := command (.feEq ra rb) s (bodyFeEq plain ra rb s)

/-- The work of FE_ISODD (R129). -/
def bodyFeIsodd (ra : RegNum) (s : State) : m State := do
  let a ← dp.check (readF ra s)
  dp.check (requireNorm a)
  return setT (a.n.n0.toNat % 2 == 1) s

/-- FE_ISODD. -/
def execFeIsodd (ra : RegNum) (s : State) : Result := command (.feIsodd ra) s (bodyFeIsodd plain ra s)

/-- The work of FE_CMP (R130). -/
def bodyFeCmp (ra rb : RegNum) (s : State) : m State := do
  let a ← dp.check (readF ra s)
  let b ← dp.check (readF rb s)
  dp.check (requireNorm a)
  dp.check (requireNorm b)
  return setLtGt (decide (a.ival < b.ival)) (decide (b.ival < a.ival)) s

/-- FE_CMP. -/
def execFeCmp (ra rb : RegNum) (s : State) : Result := command (.feCmp ra rb) s (bodyFeCmp plain ra rb s)

/-- The work of FE_INV (R175). The engine's first act, the reduction `ival mod p`, is part of the inverse and no NORM of the record
(DESIGN CHOICE, log 18). -/
def bodyFeInv (rd ra : RegNum) (s : State) : m State := do
  let a ← dp.check (readF ra s)
  dp.check (chk8 [a])
  let r ← dp.invCt a.val Const.p
  return writeF rd (feConst r) s

/-- FE_INV. -/
def execFeInv (rd ra : RegNum) (s : State) : Result := command (.feInv rd ra) s (bodyFeInv plain rd ra s)

/-- The work of FE_INVVAR (R176); the reduction of its input as in FE_INV (DESIGN CHOICE, log 18). -/
def bodyFeInvvar (rd ra : RegNum) (s : State) : m State := do
  let a ← dp.check (readF ra s)
  dp.check (chk8 [a])
  let r ← dp.invVar a.val Const.p
  return writeF rd (feConst r) s

/-- FE_INVVAR. -/
def execFeInvvar (rd ra : RegNum) (s : State) : Result := command (.feInvvar rd ra) s (bodyFeInvvar plain rd ra s)

end Sys2Proof.Machine
end

