-- ==== Sys2Proof/Machine/JacobianUnit.lean ====
section
/-! DEFINITION. The Jacobian point commands (`spec/44_group.md` R217 to R227). -/

namespace Sys2Proof.Machine

variable {m : Type → Type} [Monad m] (dp : Datapath m)

/-- The work of GEJ_SETGE (R217). -/
def bodyGejSetge (rd ra : RegNum) (s : State) : m State := do
  let P ← dp.check (readA ra s)
  let r ← dp.toJac P
  return writeJ rd r s

/-- GEJ_SETGE. -/
def execGejSetge (rd ra : RegNum) (s : State) : Result := command (.gejSetge rd ra) s (bodyGejSetge plain rd ra s)

/-- The work of GEJ_SETINF (R218). -/
def bodyGejSetinf (rd : RegNum) (s : State) : m State := return writeJ rd Gej.infinity s

/-- GEJ_SETINF. -/
def execGejSetinf (rd : RegNum) (s : State) : Result := command (.gejSetinf rd) s (bodyGejSetinf rd s)

/-- The work of GEJ_ISINF (R219). -/
def bodyGejIsinf (ra : RegNum) (s : State) : m State := do
  let P ← dp.check (readJ ra s)
  return setT P.inf s

/-- GEJ_ISINF. -/
def execGejIsinf (ra : RegNum) (s : State) : Result := command (.gejIsinf ra) s (bodyGejIsinf plain ra s)

/-- The work of GEJ_MOV (R220). -/
def bodyGejMov (rd ra : RegNum) (s : State) : m State := do
  let P ← dp.check (readJ ra s)
  return writeJ rd P s

/-- GEJ_MOV. -/
def execGejMov (rd ra : RegNum) (s : State) : Result := command (.gejMov rd ra) s (bodyGejMov plain rd ra s)

/-- The work of GEJ_NEG (R221). -/
def bodyGejNeg (rd ra : RegNum) (s : State) : m State := do
  let P ← dp.check (readJ ra s)
  let r ← dp.negJ P
  return writeJ rd r s

/-- GEJ_NEG. -/
def execGejNeg (rd ra : RegNum) (s : State) : Result := command (.gejNeg rd ra) s (bodyGejNeg plain rd ra s)

/-- The work of GEJ_DBL (R222), the point doubler. -/
def bodyGejDbl (rd ra : RegNum) (s : State) : m State := do
  let P ← dp.check (readJ ra s)
  let r ← dp.dbl P
  return writeJ rd r s

/-- GEJ_DBL. -/
def execGejDbl (rd ra : RegNum) (s : State) : Result := command (.gejDbl rd ra) s (bodyGejDbl plain rd ra s)

/-- The work of GEJ_ADDGE (R223), the secret-safe point adder. -/
def bodyGejAddge (rd ra rb : RegNum) (s : State) : m State := do
  let P ← dp.check (readJ ra s)
  let b ← dp.check (readA rb s)
  let r ← dp.addGe P b
  return writeJ rd r s

/-- GEJ_ADDGE. -/
def execGejAddge (rd ra rb : RegNum) (s : State) : Result :=
  command (.gejAddge rd ra rb) s (bodyGejAddge plain rd ra rb s)

/-- The work of GEJ_ADDGEVAR (R224). -/
def bodyGejAddgevar (rd ra rb : RegNum) (s : State) : m State := do
  let P ← dp.check (readJ ra s)
  let b ← dp.check (readA rb s)
  let r ← dp.addGeVar P b
  return writeJ rd r s

/-- GEJ_ADDGEVAR. -/
def execGejAddgevar (rd ra rb : RegNum) (s : State) : Result :=
  command (.gejAddgevar rd ra rb) s (bodyGejAddgevar plain rd ra rb s)

/-- The work of GEJ_ADDVAR (R225). -/
def bodyGejAddvar (rd ra rb : RegNum) (s : State) : m State := do
  let P ← dp.check (readJ ra s)
  let Q ← dp.check (readJ rb s)
  let r ← dp.addVar P Q
  return writeJ rd r s

/-- GEJ_ADDVAR. -/
def execGejAddvar (rd ra rb : RegNum) (s : State) : Result :=
  command (.gejAddvar rd ra rb) s (bodyGejAddvar plain rd ra rb s)

/-- The work of GEJ_EQ (R226). -/
def bodyGejEq (ra rb : RegNum) (s : State) : m State := do
  let P ← dp.check (readJ ra s)
  let Q ← dp.check (readJ rb s)
  let e ← dp.gejEq P Q
  return setT e s

/-- GEJ_EQ. -/
def execGejEq (ra rb : RegNum) (s : State) : Result := command (.gejEq ra rb) s (bodyGejEq plain ra rb s)

/-- The work of GEJ_GETC (R227). -/
def bodyGejGetc (rd ra : RegNum) (imm : Imm) (s : State) : m State := do
  let P ← dp.check (readJ ra s)
  return writeF rd (coordinate imm P) s

/-- GEJ_GETC. -/
def execGejGetc (rd ra : RegNum) (imm : Imm) (s : State) : Result :=
  command (.gejGetc rd ra imm) s (bodyGejGetc plain rd ra imm s)

end Sys2Proof.Machine
end

