-- ==== Sys2Proof/Machine/Comb.lean ====
section
/-! DEFINITION. The fixed-base multiplier: comb geometry, comb ROM and the comb algorithm (`spec/45_ecmult_gen.md` R241 to
R245, R252). -/

namespace Sys2Proof.Machine

/-! ## k·G, the mathematics the ROM is defined by

Plain integers modulo p, no limbs and no tags: R243 says which multiple of G an entry is, not how it was computed (log 15).
A point (x, y, z) stands for (x/z², y/z³); z = 0 is infinity. -/

/-- A point of the curve over the integers modulo p. -/
structure CurvePoint where
  x : Nat
  y : Nat
  z : Nat
  deriving DecidableEq, Repr

/-- The point at infinity. -/
def CurvePoint.infinity : CurvePoint := ⟨1, 1, 0⟩

/-- a − b modulo p. -/
def subModP (a b : Nat) : Nat := (a + (Const.p - b % Const.p)) % Const.p

/-- 2P on a curve with a = 0 (`spec/00_scope.md` R8). -/
def CurvePoint.double (P : CurvePoint) : CurvePoint :=
  let m := 3 * P.x * P.x % Const.p
  let y2 := P.y * P.y % Const.p
  let s := 4 * P.x * y2 % Const.p
  let x3 := subModP (m * m) (2 * s)
  ⟨x3, subModP (m * subModP s x3) (8 * y2 * y2), 2 * P.y * P.z % Const.p⟩

/-- P + G. -/
def CurvePoint.addG (P : CurvePoint) : CurvePoint :=
  if P.z = 0 then ⟨Const.gx, Const.gy, 1⟩
  else
    let z2 := P.z * P.z % Const.p
    let h := subModP (Const.gx * z2) P.x
    let r := subModP (Const.gy * z2 * P.z) P.y
    if h = 0 then (if r = 0 then P.double else CurvePoint.infinity)
    else
      let h2 := h * h % Const.p
      let h3 := h * h2 % Const.p
      let v := P.x * h2 % Const.p
      let x3 := subModP (r * r) (h3 + 2 * v)
      ⟨x3, subModP (r * subModP v x3) (P.y * h3), P.z * h % Const.p⟩

/-- k·G for k below 2^bits, by doubling and adding from the most significant bit down. -/
def curveMulG (bits k : Nat) : CurvePoint :=
  match bits with
  | 0 => CurvePoint.infinity
  | bits + 1 =>
    let P := (curveMulG bits (k / 2)).double
    if k % 2 = 1 then P.addG else P

/-- b^e modulo p for e below 2^bits. -/
def powModP (bits b e : Nat) : Nat :=
  match bits with
  | 0 => 1
  | bits + 1 =>
    let h := powModP bits b (e / 2)
    if e % 2 = 1 then h * h % Const.p * b % Const.p else h * h % Const.p

/-- The affine coordinates of a finite point: z^(p − 2) is 1/z modulo p. -/
def CurvePoint.affine (P : CurvePoint) : Nat × Nat :=
  let zi := powModP 256 P.z (Const.p - 2)
  let zi2 := zi * zi % Const.p
  (P.x * zi2 % Const.p, P.y * zi2 % Const.p * zi % Const.p)

/-! ## Geometry and ROM -/

/-- `pos(b, t)`: where tooth t of block b sits (R242). -/
def combPos (b t : Nat) : Nat := (b * Config.combTeeth + t) * Config.combSpacing

/-- bit(a, i) (`spec/00_scope.md` R10). -/
def natBit (a i : Nat) : Nat := (a >>> i) % 2

/-- `rom_scalar(b, idx)` (R243). -/
def romScalar (b idx : Nat) : Nat :=
  let signed := (List.range 5).map fun t => (2 * (natBit idx t : Int) - 1) * (2 : Int) ^ combPos b t
  (((2 : Int) ^ combPos b 5 + signed.sum) * (Const.half : Int) % (Const.n : Int)).toNat

/-- The point of `ROM[b][idx]`: rom_scalar(b, idx)·G, affine (R243). -/
def romPoint (b idx : Nat) : Nat × Nat := (curveMulG 256 (romScalar b idx)).affine

/-- The comb ROM, block-major, index-minor (`spec/10_state.md` R37). -/
def combRom : List (List (Nat × Nat)) :=
  (List.range Config.combBlocks).map fun b => (List.range Config.combPoints).map fun idx => romPoint b idx

/-- `ROM[b][idx]`. -/
def romEntry (b idx : Nat) : Nat × Nat := (combRom.getD b []).getD idx (0, 0)

/-- The ROM image: 22528 bytes, be32(x) ‖ be32(y) an entry (R243, `spec/20_memory.md` R65). -/
def combRomImage : List Byte := combRom.flatMap fun block => block.flatMap fun e => be32 e.1 ++ be32 e.2

/-! ## The comb algorithm -/

/-- `bits` of R245: the six teeth of block b at offset off. -/
def combBits (d b off : Nat) : Nat :=
  ((List.range Config.combTeeth).map fun t => 2 ^ t * natBit d (combPos b t + off)).sum

/-- The masked lookup: all 32 entries of block b are read, always (R245). -/
def Scribe.combLookup {m : Type → Type} [Monad m] (w : Scribe m) (b idx : Nat) : m (Fe × Fe) :=
  (List.range Config.combPoints).foldlM
    (fun e j => do
      w.note (.combRom b j)
      let ex ← w.cmov e.1 (feConst (romEntry b j).1) (j == idx)
      let ey ← w.cmov e.2 (feConst (romEntry b j).2) (j == idx)
      return (ex, ey))
    (Fe.zero, Fe.zero)

/-- `top` of R245: the top tooth. -/
def combTop (d b off : Nat) : Bool := combBits d b off >>> 5 == 1

/-- `idx` of R245: the low five teeth, complemented when the top tooth is 0. -/
def combIndex (d b off : Nat) : Nat :=
  if combTop d b off then combBits d b off % 32 else 31 - combBits d b off % 32

/-- The body of the inner loop of R245: look up, negate when the top tooth is 0, add. -/
def Datapath.combAdd {m : Type → Type} [Monad m] (dp : Datapath m) (d off : Nat) (r : Gej) (b : Nat) : m Gej := do
  dp.note (.passes .combBlock 1)
  let e ← dp.combLookup b (combIndex d b off)
  let ney ← dp.neg e.2 1
  let ey ← dp.cmov e.2 ney (!combTop d b off)
  dp.addGe r ⟨e.1, ey, false⟩

/-- The inner loop of R245: the eleven blocks at one offset. -/
def Datapath.combRound {m : Type → Type} [Monad m] (dp : Datapath m) (d off : Nat) (r : Gej) : m Gej :=
  (List.range Config.combBlocks).foldlM (dp.combAdd d off) r

/-- One pass of the outer loop of R245: the blocks, then a doubling unless this is the last offset. -/
def Datapath.combOffset {m : Type → Type} [Monad m] (dp : Datapath m) (d : Nat) (r : Gej) (off : Nat) : m Gej := do
  dp.note (.passes .combOffset 1)
  let r ← dp.combRound d off r
  if 0 < off then dp.dbl r else return r

/-- The offsets of the outer loop, from COMB_SPACING − 1 down to 0 (R245). -/
def combOffsets : List Nat := (List.range Config.combSpacing).reverse

/-- `COMBMUL(k)` (R245) under a context. -/
def Datapath.combMul {m : Type → Type} [Monad m] (dp : Datapath m) (k : Nat) (ctx : Context) : m Gej := do
  let d := (k + ctx.scalarOffset.toNat) % Const.n
  let r ← combOffsets.foldlM (dp.combOffset d) Gej.infinity
  dp.addGe r ctx.geOffset

/-- The (block, entry) ROM reads that R252 lists: block after block, entry after entry, four times. -/
def combReads : List (Nat × Nat) :=
  combOffsets.flatMap fun _ =>
    (List.range Config.combBlocks).flatMap fun b => (List.range Config.combPoints).map fun j => (b, j)

/-! ## What the comb computes -/

/-- The value of the masked lookup. -/
def combLookup (b idx : Nat) : Fe × Fe := Id.run (silent.combLookup b idx)

/-- The body of the inner loop. -/
def combAdd (d off : Nat) (r : Gej) (b : Nat) : Chk Gej := plain.combAdd d off r b

/-- The inner loop. -/
def combRound (d off : Nat) (r : Gej) : Chk Gej := plain.combRound d off r

/-- One pass of the outer loop. -/
def combOffset (d : Nat) (r : Gej) (off : Nat) : Chk Gej := plain.combOffset d r off

/-- COMBMUL. -/
def combMul (k : Nat) (ctx : Context) : Chk Gej := plain.combMul k ctx

end Sys2Proof.Machine
end

