-- ==== Sys2Proof/Machine/Wnaf.lean ====
section
/-! DEFINITION. The variable-base multiplier: wNAF recoding, odd-multiple tables, the terms and the loop of ECMULT
(`spec/46_ecmult.md` R260 to R266). -/

namespace Sys2Proof.Machine

/-! ## Recoding (R260) -/

/-- The digit of an odd k: k mod 2^w, taken in [−2^(w−1), 2^(w−1)); 0 for an even k. -/
def wnafDigit (w k : Nat) : Int :=
  if k % 2 = 1 then
    (if k % 2 ^ w ≥ 2 ^ (w - 1) then ((k % 2 ^ w : Nat) : Int) - (2 ^ w : Nat) else ((k % 2 ^ w : Nat) : Int))
  else 0

/-- The loop of R260; `fuel` bounds its passes. -/
def wnafLoop (w fuel k : Nat) : List Int :=
  match fuel with
  | 0 => []
  | fuel + 1 =>
    if k = 0 then []
    else wnafDigit w k :: wnafLoop w fuel ((((k : Int) - wnafDigit w k) / 2).toNat)

/-- The number of bits of k. -/
def bitLength (k : Nat) : Nat := if k = 0 then 0 else Nat.log2 k + 1

/-- `WNAF(k, w)`, least significant digit first (R260). The list has at most bitlength(k) + 1 digits. -/
def wnaf (k w : Nat) : List Int := wnafLoop w (bitLength k + 1) k

/-! ## Tables (R262, R263) -/

/-- The rest of an odd-multiple table after `last`: `count` more entries, each D more than the one before. -/
def Datapath.oddTabFrom {m : Type → Type} [Monad m] (dp : Datapath m) (D last : Gej) (count : Nat) : m (List Gej) :=
  match count with
  | 0 => return []
  | count + 1 => do
    dp.note (.passes .oddTable 1)
    let next ← dp.addVar last D
    let rest ← dp.oddTabFrom D next count
    return next :: rest

/-- `ODDTAB(B)`: B, 3B, …, 15B (R262). -/
def Datapath.oddTab {m : Type → Type} [Monad m] (dp : Datapath m) (B : Gej) : m (List Gej) := do
  let D ← dp.dbl B
  let rest ← dp.oddTabFrom D B (Config.ecmultTableSize - 1)
  return B :: rest

/-- The endomorphism twin of one table entry (R263). -/
def Datapath.lamEntry {m : Type → Type} [Monad m] (dp : Datapath m) (P : Gej) : m Gej := do
  let x ← dp.mul P.x (feConst Const.beta)
  return { P with x := x }

/-- `LAMTAB(T)` (R263). -/
def Datapath.lamTab {m : Type → Type} [Monad m] (dp : Datapath m) (T : List Gej) : m (List Gej) := T.mapM dp.lamEntry

/-! ## Terms and the loop (R264, R266) -/

/-- A term: digits, sign (true for −1) and table (R264). -/
structure Term where
  digits : List Int
  negative : Bool
  table : List Gej
  deriving DecidableEq, Repr

/-- A half-scalar made low: its magnitude and whether it was negated (R264). -/
def lowHalf (k : Nat) : Nat × Bool := if scIsHigh k then (Const.n - k, true) else (k, false)

/-- The term of a half-scalar and a table (R264). -/
def termOf (k : Nat) (T : List Gej) : Term :=
  ⟨wnaf (lowHalf k).1 Config.windowA, (lowHalf k).2, T⟩

/-- The term of a half-scalar, its recoding noted: the loop of R260 runs once for each digit. -/
def Scribe.termOf {m : Type → Type} [Monad m] (w : Scribe m) (k : Nat) (T : List Gej) : m Term := do
  let t := Machine.termOf k T
  w.note (.passes .wnafDigit t.digits.length)
  return t

/-- `TERMS(B, k)` (R264). -/
def Datapath.terms {m : Type → Type} [Monad m] (dp : Datapath m) (B : Gej) (k : Nat) : m (List Term) := do
  let T ← dp.oddTab B
  let LT ← dp.lamTab T
  let t1 ← dp.termOf (splitLambda k).1 T
  let t2 ← dp.termOf (splitLambda k).2 LT
  return [t1, t2]

/-- The signed digit e of a term at position i (R266). -/
def signedDigit (t : Term) (i : Nat) : Int :=
  if t.negative then -(t.digits.getD i 0) else t.digits.getD i 0

/-- A read of entry `i` of an odd-multiple table. -/
def Scribe.tableEntry {m : Type → Type} [Monad m] (w : Scribe m) (T : List Gej) (i : Nat) : m Gej := do
  w.note (.table i)
  return T.getD i Gej.infinity

/-- Add the odd multiple e of a table: entry (e − 1)/2, or the negation of entry (−e − 1)/2; nothing for e = 0 (R266). -/
def Datapath.addMultiple {m : Type → Type} [Monad m] (dp : Datapath m) (T : List Gej) (e : Int) (r : Gej) : m Gej :=
  if 0 < e then do
    let P ← dp.tableEntry T ((e - 1) / 2).toNat
    dp.addVar r P
  else if e < 0 then do
    let P ← dp.tableEntry T ((-e - 1) / 2).toNat
    let M ← dp.negJ P
    dp.addVar r M
  else return r

/-- What one term adds to the accumulator at digit position i (the inner loop of R266). -/
def Datapath.addTerm {m : Type → Type} [Monad m] (dp : Datapath m) (i : Nat) (r : Gej) (t : Term) : m Gej := do
  dp.note (.passes .ecmultTerm 1)
  dp.addMultiple t.table (signedDigit t i) r

/-- One pass of the outer loop of R266: double, then every term in order. -/
def Datapath.ecmultPass {m : Type → Type} [Monad m] (dp : Datapath m) (ts : List Term) (r : Gej) (i : Nat) : m Gej := do
  dp.note (.passes .ecmultDigit 1)
  let r ← dp.dbl r
  ts.foldlM (dp.addTerm i) r

/-- L: the largest digit-list length among the terms (R266). -/
def longest (ts : List Term) : Nat := (ts.map fun t => t.digits.length).foldl max 0

/-- The loop of R266 over a list of terms. -/
def Datapath.ecmultLoop {m : Type → Type} [Monad m] (dp : Datapath m) (ts : List Term) : m Gej :=
  (List.range (longest ts)).reverse.foldlM (dp.ecmultPass ts) Gej.infinity

/-- The terms of the point: none when A is infinity or na = 0, else after CHK8 (R266). -/
def Datapath.pointTerms {m : Type → Type} [Monad m] (dp : Datapath m) (A : Gej) (na : Nat) : m (List Term) :=
  if A.inf || na == 0 then return []
  else do
    dp.check (chk8 [A.x, A.y, A.z])
    let x ← dp.norm A.x
    let y ← dp.norm A.y
    let z ← dp.norm A.z
    dp.terms ⟨x, y, z, false⟩ na

/-- The terms of the generator: none when no generator scalar is present or ng = 0 (R266). -/
def Datapath.generatorTerms {m : Type → Type} [Monad m] (dp : Datapath m) (ng : Option Nat) : m (List Term) :=
  match ng with
  | none => return []
  | some k => if k = 0 then return [] else dp.terms ⟨feConst Const.gx, feConst Const.gy, Fe.one, false⟩ k

/-- na·A + ng·G (R266). -/
def Datapath.ecmult {m : Type → Type} [Monad m] (dp : Datapath m) (A : Gej) (na : Nat) (ng : Option Nat) : m Gej := do
  let pt ← dp.pointTerms A na
  let gt ← dp.generatorTerms ng
  dp.ecmultLoop (pt ++ gt)

/-! ## What the multiplier computes -/

/-- The rest of an odd-multiple table. -/
def oddTabFrom (D last : Gej) (count : Nat) : Chk (List Gej) := plain.oddTabFrom D last count

/-- ODDTAB. -/
def oddTab (B : Gej) : Chk (List Gej) := plain.oddTab B

/-- A twin entry. -/
def lamEntry (P : Gej) : Chk Gej := plain.lamEntry P

/-- LAMTAB. -/
def lamTab (T : List Gej) : Chk (List Gej) := plain.lamTab T

/-- TERMS. -/
def terms (B : Gej) (k : Nat) : Chk (List Term) := plain.terms B k

/-- The addition of an odd multiple. -/
def addMultiple (T : List Gej) (e : Int) (r : Gej) : Chk Gej := plain.addMultiple T e r

/-- The addition of a term's digit. -/
def addTerm (i : Nat) (r : Gej) (t : Term) : Chk Gej := plain.addTerm i r t

/-- One pass over the terms. -/
def ecmultPass (ts : List Term) (r : Gej) (i : Nat) : Chk Gej := plain.ecmultPass ts r i

/-- The loop over the digit positions. -/
def ecmultLoop (ts : List Term) : Chk Gej := plain.ecmultLoop ts

/-- The terms of the point. -/
def pointTerms (A : Gej) (na : Nat) : Chk (List Term) := plain.pointTerms A na

/-- The terms of the generator. -/
def generatorTerms (ng : Option Nat) : Chk (List Term) := plain.generatorTerms ng

/-- na·A + ng·G. -/
def ecmult (A : Gej) (na : Nat) (ng : Option Nat) : Chk Gej := plain.ecmult A na ng

end Sys2Proof.Machine
end

