-- ==== Sys2Proof/Machine/Multipliers.lean ====
section
/-! DEFINITION. The two multiplication commands (`spec/45_ecmult_gen.md` R249, `spec/46_ecmult.md` R266). -/

namespace Sys2Proof.Machine

variable {m : Type → Type} [Monad m] (dp : Datapath m)

/-- The work of ECMULT_GEN (R249): the context is not modified. -/
def bodyEcmultGen (rd ra : RegNum) (s : State) : m State := do
  dp.check (require s.ctx.built .ctxNotBuilt)
  let k ← dp.check (readS ra s)
  let r ← dp.combMul k.toNat s.ctx
  return writeJ rd r s

/-- ECMULT_GEN. -/
def execEcmultGen (rd ra : RegNum) (s : State) : Result := command (.ecmultGen rd ra) s (bodyEcmultGen plain rd ra s)

/-- The work of ECMULT (R266): na·A + ng·G. -/
def bodyEcmult (rd ra rb : RegNum) (imm : Imm) (s : State) : m State := do
  let A ← dp.check (readJ ra s)
  let na ← dp.check (readS rb s)
  let ng ← dp.check (readGenerator imm s)
  let r ← dp.ecmult A na.toNat ng
  return writeJ rd r s

/-- ECMULT. -/
def execEcmult (rd ra rb : RegNum) (imm : Imm) (s : State) : Result :=
  command (.ecmult rd ra rb imm) s (bodyEcmult plain rd ra rb imm s)

end Sys2Proof.Machine
end

