-- ==== Sys2Proof/Machine/ScalarUnit.lean ====
section
/-! DEFINITION. The scalar unit's commands (`spec/42_scalar.md` R141 to R164, `spec/43_inversion.md` R177, R178). -/

namespace Sys2Proof.Machine

variable {m : Type → Type} [Monad m] (dp : Datapath m)

/-- The work of SC_SETB32 (R141). -/
def bodyScSetb32 (rd : RegNum) (imm : Imm) (s : State) : m State := do
  let v ← dp.check (loadSlot imm s)
  let r := reduceOnce v Const.n
  return setOvf r.2 (writeS rd r.1 s)

/-- SC_SETB32. -/
def execScSetb32 (rd : RegNum) (imm : Imm) (s : State) : Result :=
  command (.scSetb32 rd imm) s (bodyScSetb32 plain rd imm s)

/-- The work of SC_GETB32 (R142). -/
def bodyScGetb32 (ra : RegNum) (imm : Imm) (s : State) : m State := do
  let a ← dp.check (readS ra s)
  return storeSlot imm a.toNat s

/-- SC_GETB32. -/
def execScGetb32 (ra : RegNum) (imm : Imm) (s : State) : Result :=
  command (.scGetb32 ra imm) s (bodyScGetb32 plain ra imm s)

/-- The work of SC_SETINT (R143). -/
def bodyScSetint (rd : RegNum) (imm : Imm) (s : State) : m State := return writeS rd imm.toNat s

/-- SC_SETINT. -/
def execScSetint (rd : RegNum) (imm : Imm) (s : State) : Result := command (.scSetint rd imm) s (bodyScSetint rd imm s)

/-- The work of SC_MOV (R144). -/
def bodyScMov (rd ra : RegNum) (s : State) : m State := do
  let a ← dp.check (readS ra s)
  return writeS rd a.toNat s

/-- SC_MOV. -/
def execScMov (rd ra : RegNum) (s : State) : Result := command (.scMov rd ra) s (bodyScMov plain rd ra s)

/-- The work of SC_ADD (R145). -/
def bodyScAdd (rd ra rb : RegNum) (s : State) : m State := do
  let a ← dp.check (readS ra s)
  let b ← dp.check (readS rb s)
  let r := scAdd a.toNat b.toNat
  return setOvf r.2 (writeS rd r.1 s)

/-- SC_ADD. -/
def execScAdd (rd ra rb : RegNum) (s : State) : Result := command (.scAdd rd ra rb) s (bodyScAdd plain rd ra rb s)

/-- The work of SC_MUL (R146), the scalar multiplier. -/
def bodyScMul (rd ra rb : RegNum) (s : State) : m State := do
  let a ← dp.check (readS ra s)
  let b ← dp.check (readS rb s)
  return writeS rd (scMul a.toNat b.toNat) s

/-- SC_MUL. -/
def execScMul (rd ra rb : RegNum) (s : State) : Result := command (.scMul rd ra rb) s (bodyScMul plain rd ra rb s)

/-- The work of SC_SQR (R147). -/
def bodyScSqr (rd ra : RegNum) (s : State) : m State := do
  let a ← dp.check (readS ra s)
  return writeS rd (scMul a.toNat a.toNat) s

/-- SC_SQR. -/
def execScSqr (rd ra : RegNum) (s : State) : Result := command (.scSqr rd ra) s (bodyScSqr plain rd ra s)

/-- The work of SC_NEG (R148). -/
def bodyScNeg (rd ra : RegNum) (s : State) : m State := do
  let a ← dp.check (readS ra s)
  return writeS rd (scNeg a.toNat) s

/-- SC_NEG. -/
def execScNeg (rd ra : RegNum) (s : State) : Result := command (.scNeg rd ra) s (bodyScNeg plain rd ra s)

/-- The work of SC_CNEG (R149): SGN is the condition, also for the zero scalar. -/
def bodyScCneg (rd ra : RegNum) (imm : Imm) (s : State) : m State := do
  let a ← dp.check (readS ra s)
  let c := condBit imm s
  return setSgn c (writeS rd (if c then scNeg a.toNat else a.toNat) s)

/-- SC_CNEG. -/
def execScCneg (rd ra : RegNum) (imm : Imm) (s : State) : Result :=
  command (.scCneg rd ra imm) s (bodyScCneg plain rd ra imm s)

/-- The work of SC_CMOV (R150): reads rd as well as ra. -/
def bodyScCmov (rd ra : RegNum) (imm : Imm) (s : State) : m State := do
  let d ← dp.check (readS rd s)
  let a ← dp.check (readS ra s)
  return writeS rd (if condBit imm s then a.toNat else d.toNat) s

/-- SC_CMOV. -/
def execScCmov (rd ra : RegNum) (imm : Imm) (s : State) : Result :=
  command (.scCmov rd ra imm) s (bodyScCmov plain rd ra imm s)

/-- The work of SC_ISZERO (R151). -/
def bodyScIszero (ra : RegNum) (s : State) : m State := do
  let a ← dp.check (readS ra s)
  return setT (a.toNat == 0) s

/-- SC_ISZERO. -/
def execScIszero (ra : RegNum) (s : State) : Result := command (.scIszero ra) s (bodyScIszero plain ra s)

/-- The work of SC_EQ (R152). -/
def bodyScEq (ra rb : RegNum) (s : State) : m State := do
  let a ← dp.check (readS ra s)
  let b ← dp.check (readS rb s)
  return setT (a.toNat == b.toNat) s

/-- SC_EQ. -/
def execScEq (ra rb : RegNum) (s : State) : Result := command (.scEq ra rb) s (bodyScEq plain ra rb s)

/-- The work of SC_ISHIGH (R153). -/
def bodyScIshigh (ra : RegNum) (s : State) : m State := do
  let a ← dp.check (readS ra s)
  return setT (scIsHigh a.toNat) s

/-- SC_ISHIGH. -/
def execScIshigh (ra : RegNum) (s : State) : Result := command (.scIshigh ra) s (bodyScIshigh plain ra s)

/-- The work of SC_INV (R177). -/
def bodyScInv (rd ra : RegNum) (s : State) : m State := do
  let a ← dp.check (readS ra s)
  let r ← dp.invCt a.toNat Const.n
  return writeS rd r s

/-- SC_INV. -/
def execScInv (rd ra : RegNum) (s : State) : Result := command (.scInv rd ra) s (bodyScInv plain rd ra s)

/-- The work of SC_INVVAR (R178). -/
def bodyScInvvar (rd ra : RegNum) (s : State) : m State := do
  let a ← dp.check (readS ra s)
  let r ← dp.invVar a.toNat Const.n
  return writeS rd r s

/-- SC_INVVAR. -/
def execScInvvar (rd ra : RegNum) (s : State) : Result := command (.scInvvar rd ra) s (bodyScInvvar plain rd ra s)

/-- The work of SC_MULSHIFT (R154): the floor of (a·b)/2^shift. -/
def bodyScMulshift (rd ra rb : RegNum) (imm : Imm) (s : State) : m State := do
  let a ← dp.check (readS ra s)
  let b ← dp.check (readS rb s)
  return writeS rd ((a.toNat * b.toNat) >>> imm.toNat) s

/-- SC_MULSHIFT. -/
def execScMulshift (rd ra rb : RegNum) (imm : Imm) (s : State) : Result :=
  command (.scMulshift rd ra rb imm) s (bodyScMulshift plain rd ra rb imm s)

/-- The work of SC_SPLITLAMBDA (R163): rd and rb are the destinations. -/
def bodyScSplitlambda (rd ra rb : RegNum) (s : State) : m State := do
  let k ← dp.check (readS ra s)
  let r := splitLambda k.toNat
  return writeS rb r.2 (writeS rd r.1 s)

/-- SC_SPLITLAMBDA. -/
def execScSplitlambda (rd ra rb : RegNum) (s : State) : Result :=
  command (.scSplitlambda rd ra rb) s (bodyScSplitlambda plain rd ra rb s)

/-- The work of SC_SPLIT128 (R164): the low half to rd, the high half to rb. -/
def bodyScSplit128 (rd ra rb : RegNum) (s : State) : m State := do
  let k ← dp.check (readS ra s)
  return writeS rb (k.toNat >>> 128) (writeS rd (k.toNat % 2 ^ 128) s)

/-- SC_SPLIT128. -/
def execScSplit128 (rd ra rb : RegNum) (s : State) : Result :=
  command (.scSplit128 rd ra rb) s (bodyScSplit128 plain rd ra rb s)

end Sys2Proof.Machine
end

