-- ==== Sys2Proof/Machine/SystemUnit.lean ====
section
/-! DEFINITION. NOP and the comb context commands (`spec/40_system.md` R104, `spec/45_ecmult_gen.md` R246 to R248). -/

namespace Sys2Proof.Machine

variable {m : Type → Type} [Monad m] (dp : Datapath m)

/-- The work of NOP (R104). -/
def bodyNop (s : State) : m State := return s

/-- NOP. -/
def execNop (s : State) : Result := command .nop s (bodyNop s)

/-- The work of CTX_BUILD (R246): the default blinding b = 1, built = 1. -/
def bodyCtxBuild (s : State) : m State :=
  return { s with ctx := ⟨true, BitVec.ofNat 256 (scSub Const.combDiff 1), Ge.generator⟩ }

/-- CTX_BUILD. -/
def execCtxBuild (s : State) : Result := command .ctxBuild s (bodyCtxBuild s)

/-- The work of CTX_CLEAR (R248). -/
def bodyCtxClear (s : State) : m State := return { s with ctx := ⟨false, 0, ⟨Fe.zero, Fe.zero, false⟩⟩ }

/-- CTX_CLEAR. -/
def execCtxClear (s : State) : Result := command .ctxClear s (bodyCtxClear s)

/-- The blinding scalar of CTX_BLIND: the slot's value reduced mod n, 0 replaced by 1 (R247). -/
def blindScalar (v : Nat) : Nat :=
  let b := (reduceOnce v Const.n).1
  if b = 0 then 1 else b

/-- The work of CTX_BLIND (R247): b·G is computed with the context as it is before the command. -/
def bodyCtxBlind (imm : Imm) (s : State) : m State := do
  dp.check (require s.ctx.built .ctxNotBuilt)
  let v ← dp.check (loadSlot imm s)
  let b := blindScalar v
  let gb ← dp.combMul b s.ctx
  let A ← dp.toAff gb dp.invCt
  let x ← dp.norm A.x
  let y ← dp.norm A.y
  return { s with
    ctx := { s.ctx with
      scalarOffset := BitVec.ofNat 256 (scSub Const.combDiff b)
      geOffset := ⟨x, y, false⟩ } }

/-- CTX_BLIND. -/
def execCtxBlind (imm : Imm) (s : State) : Result := command (.ctxBlind imm) s (bodyCtxBlind plain imm s)

end Sys2Proof.Machine
end

