-- ==== Sys2Proof/Machine/Dispatch.lean ====
section
/-! DEFINITION. One arm per command: the execution of an instruction (`spec/40_system.md` R100). -/

namespace Sys2Proof.Machine

def exec (i : Instr) (s : State) : Host.Outcome State Fault Refusal :=
  match i with
  | .nop => Sys2Proof.Machine.execNop s
  | .ctxBuild => Sys2Proof.Machine.execCtxBuild s
  | .ctxClear => Sys2Proof.Machine.execCtxClear s
  | .ctxBlind imm => Sys2Proof.Machine.execCtxBlind imm s
  | .feSetb32 rd imm => Sys2Proof.Machine.execFeSetb32 rd imm s
  | .feGetb32 ra imm => Sys2Proof.Machine.execFeGetb32 ra imm s
  | .feSetint rd imm => Sys2Proof.Machine.execFeSetint rd imm s
  | .feMov rd ra => Sys2Proof.Machine.execFeMov rd ra s
  | .feNorm rd ra => Sys2Proof.Machine.execFeNorm rd ra s
  | .feAdd rd ra rb => Sys2Proof.Machine.execFeAdd rd ra rb s
  | .feMul rd ra rb => Sys2Proof.Machine.execFeMul rd ra rb s
  | .feSqr rd ra => Sys2Proof.Machine.execFeSqr rd ra s
  | .feNeg rd ra imm => Sys2Proof.Machine.execFeNeg rd ra imm s
  | .feCmov rd ra imm => Sys2Proof.Machine.execFeCmov rd ra imm s
  | .feIszero ra => Sys2Proof.Machine.execFeIszero ra s
  | .feEq ra rb => Sys2Proof.Machine.execFeEq ra rb s
  | .feIsodd ra => Sys2Proof.Machine.execFeIsodd ra s
  | .feCmp ra rb => Sys2Proof.Machine.execFeCmp ra rb s
  | .feInv rd ra => Sys2Proof.Machine.execFeInv rd ra s
  | .feInvvar rd ra => Sys2Proof.Machine.execFeInvvar rd ra s
  | .scSetb32 rd imm => Sys2Proof.Machine.execScSetb32 rd imm s
  | .scGetb32 ra imm => Sys2Proof.Machine.execScGetb32 ra imm s
  | .scSetint rd imm => Sys2Proof.Machine.execScSetint rd imm s
  | .scMov rd ra => Sys2Proof.Machine.execScMov rd ra s
  | .scAdd rd ra rb => Sys2Proof.Machine.execScAdd rd ra rb s
  | .scMul rd ra rb => Sys2Proof.Machine.execScMul rd ra rb s
  | .scSqr rd ra => Sys2Proof.Machine.execScSqr rd ra s
  | .scNeg rd ra => Sys2Proof.Machine.execScNeg rd ra s
  | .scCneg rd ra imm => Sys2Proof.Machine.execScCneg rd ra imm s
  | .scCmov rd ra imm => Sys2Proof.Machine.execScCmov rd ra imm s
  | .scIszero ra => Sys2Proof.Machine.execScIszero ra s
  | .scEq ra rb => Sys2Proof.Machine.execScEq ra rb s
  | .scIshigh ra => Sys2Proof.Machine.execScIshigh ra s
  | .scInv rd ra => Sys2Proof.Machine.execScInv rd ra s
  | .scInvvar rd ra => Sys2Proof.Machine.execScInvvar rd ra s
  | .scMulshift rd ra rb imm => Sys2Proof.Machine.execScMulshift rd ra rb imm s
  | .scSplitlambda rd ra rb => Sys2Proof.Machine.execScSplitlambda rd ra rb s
  | .scSplit128 rd ra rb => Sys2Proof.Machine.execScSplit128 rd ra rb s
  | .geSetxy rd ra rb => Sys2Proof.Machine.execGeSetxy rd ra rb s
  | .geGetx rd ra => Sys2Proof.Machine.execGeGetx rd ra s
  | .geGety rd ra => Sys2Proof.Machine.execGeGety rd ra s
  | .geSetinf rd => Sys2Proof.Machine.execGeSetinf rd s
  | .geIsinf ra => Sys2Proof.Machine.execGeIsinf ra s
  | .geMov rd ra => Sys2Proof.Machine.execGeMov rd ra s
  | .geNeg rd ra => Sys2Proof.Machine.execGeNeg rd ra s
  | .geEq ra rb => Sys2Proof.Machine.execGeEq ra rb s
  | .geMullambda rd ra => Sys2Proof.Machine.execGeMullambda rd ra s
  | .geTostor ra imm => Sys2Proof.Machine.execGeTostor ra imm s
  | .geFromstor rd imm => Sys2Proof.Machine.execGeFromstor rd imm s
  | .geSetgej rd ra => Sys2Proof.Machine.execGeSetgej rd ra s
  | .geSetgejvar rd ra => Sys2Proof.Machine.execGeSetgejvar rd ra s
  | .geSetg rd => Sys2Proof.Machine.execGeSetg rd s
  | .gejSetge rd ra => Sys2Proof.Machine.execGejSetge rd ra s
  | .gejSetinf rd => Sys2Proof.Machine.execGejSetinf rd s
  | .gejIsinf ra => Sys2Proof.Machine.execGejIsinf ra s
  | .gejMov rd ra => Sys2Proof.Machine.execGejMov rd ra s
  | .gejNeg rd ra => Sys2Proof.Machine.execGejNeg rd ra s
  | .gejDbl rd ra => Sys2Proof.Machine.execGejDbl rd ra s
  | .gejAddge rd ra rb => Sys2Proof.Machine.execGejAddge rd ra rb s
  | .gejAddgevar rd ra rb => Sys2Proof.Machine.execGejAddgevar rd ra rb s
  | .gejAddvar rd ra rb => Sys2Proof.Machine.execGejAddvar rd ra rb s
  | .gejEq ra rb => Sys2Proof.Machine.execGejEq ra rb s
  | .gejGetc rd ra imm => Sys2Proof.Machine.execGejGetc rd ra imm s
  | .ecmultGen rd ra => Sys2Proof.Machine.execEcmultGen rd ra s
  | .ecmult rd ra rb imm => Sys2Proof.Machine.execEcmult rd ra rb imm s

end Sys2Proof.Machine
end

