-- ==== Sys2Proof/Machine/HostPort.lean ====
section
/-! DEFINITION. The host operations beside H_CMD, and taking the next operation (`spec/20_memory.md` R71, R75,
`spec/10_state.md` R31 to R35). -/

namespace Sys2Proof.Machine

/-! ## CSRs -/

/-- STATUS: bit 0 BUSY, bit 1 FAULT, bit 2 BUILT, the rest 0 (R31, R35). -/
def statusWord (s : State) : Word :=
  BitVec.ofNat 32 (s.busy.toNat + 2 * s.fault.toNat + 4 * s.ctx.built.toNat)

/-- FLAGS as CSR 1: T, OVF, SGN, LT, GT in bits 0 to 4 (R30, R35). -/
def flagsWord (f : Flags) : Word :=
  BitVec.ofNat 32 (f.t.toNat + 2 * f.ovf.toNat + 4 * f.sgn.toNat + 8 * f.lt.toNat + 16 * f.gt.toNat)

/-- The value of CSR i; 0 for i > 4 (R35). -/
def csrWord (i : Nat) (s : State) : Word :=
  match i with
  | 0 => statusWord s
  | 1 => flagsWord s.flags
  | 2 => s.cause.setWidth 32
  | 3 => s.finfo
  | 4 => s.cmdcnt
  | _ => 0

/-! ## The operations -/

/-- The next host operation and the state without it; none when the host issues nothing. The reply of the operation before
is gone (log 2). -/
def nextOp (s : State) : Option (HostOp × State) :=
  match s.inbox with
  | [] => none
  | op :: rest => some (op, { s with inbox := rest, reply := .none })

/-- `H_RESET`, accepted in every state (`spec/70_reset_and_hazards.md` R310). -/
def hostReset (s : State) : Result := .next (resetBlock s)

/-- Host access discipline (R75): an operation issued while BUSY = 1 has no meaning (U12). -/
def whenIdle (s : State) (r : Result) : Result := if s.busy then .refused .hostOverlap else r

/-- `H_WRSLOT(k, b)`: `MemWrite(32·k, 32, b)`, in the fault state too (R285). -/
def hostWrSlot (k : Nat) (b : Bytes32) (s : State) : Result :=
  if k < Config.nSlot then .next (memWrite (slotAddr k) 32 b.toList s) else .fault (.noSuchAddress (slotAddr k))

/-- `H_RDSLOT(k)`: the slot's bytes; unspecified bytes, drawn afresh, when the slot's valid bit is 0 (R71, U9). -/
def hostRdSlot (k : Nat) (s : State) : Result :=
  if k < Config.nSlot then
    if slotValid k s then
      .next { s with reply := .bytes (Vector.ofFn fun j : Fin 32 => Memory.read s.mem (slotAddr k + j.val)) }
    else
      .next { s with
        reply := .bytes (Vector.ofFn fun j : Fin 32 => Config.unspecifiedByte (s.draws + j.val))
        draws := s.draws + 32 }
  else .fault (.noSuchAddress (slotAddr k))

/-- `H_RDCSR(i)`, allowed at any time (`spec/70_reset_and_hazards.md` R320). -/
def hostRdCsr (i : Nat) (s : State) : Result := .next { s with reply := .csr (csrWord i s) }

/-- A state whose next step issues the command word `w` (log 1). -/
def issueWord (w : Word) (s : State) : State := { s with inbox := .cmd w :: s.inbox, busy := false }

end Sys2Proof.Machine
end

