-- ==== Sys2Proof/Machine/Step.lean ====
section
/-! DEFINITION. One step: one host operation (`spec/92_eei_decisions.md` D1, `spec/20_memory.md` R71). -/

namespace Sys2Proof.Machine

/-- `H_CMD(w)` (`spec/40_system.md` R100): the decoded command, or ILLEGAL_CMD. -/
def hostCmd (w : Word) (s : State) : Result :=
  match decode w with
  | .ok i => exec i s
  | .error _ => illegalCommand w s

/-- The next host operation is performed to completion. With none left nothing changes: between host operations the state
is constant (`spec/60_exceptions.md` R290). -/
def step (s : State) : Host.Outcome State Fault Refusal :=
  match nextOp s with
  | none => .next s
  | some (.reset, t) => hostReset t
  | some (.wrSlot k b, t) => whenIdle t (hostWrSlot k b t)
  | some (.rdSlot k, t) => whenIdle t (hostRdSlot k t)
  | some (.cmd w, t) => whenIdle t (hostCmd w t)
  | some (.rdCsr i, t) => hostRdCsr i t

/-- The state whose next step fetches and runs the instruction of the `nbits` low bits of `w`: the host issues that command
word next (log 1). -/
def State.withFetchWord (s : State) (nbits w : Nat) : State := issueWord (BitVec.ofNat 32 (w % 2 ^ nbits)) s

end Sys2Proof.Machine
end

