-- ==== Sys2Proof/Machine/Leakage.lean ====
section
/-! DEFINITION. What a command does inside, as the leakage rules count it (`spec/00_scope.md` R13, `spec/30_encoding.md` R85,
`spec/70_reset_and_hazards.md` R330, R331, `spec/45_ecmult_gen.md` R252, `spec/46_ecmult.md` R268). -/

namespace Sys2Proof.Machine

/-- The work of each command: what `exec` runs on `plain`, and `opsOf` under the recorder. -/
def body {m : Type → Type} [Monad m] (dp : Datapath m) (i : Instr) (s : State) : m State :=
  match i with
  | .nop => bodyNop s
  | .ctxBuild => bodyCtxBuild s
  | .ctxClear => bodyCtxClear s
  | .ctxBlind imm => bodyCtxBlind dp imm s
  | .feSetb32 rd imm => bodyFeSetb32 dp rd imm s
  | .feGetb32 ra imm => bodyFeGetb32 dp ra imm s
  | .feSetint rd imm => bodyFeSetint rd imm s
  | .feMov rd ra => bodyFeMov dp rd ra s
  | .feNorm rd ra => bodyFeNorm dp rd ra s
  | .feAdd rd ra rb => bodyFeAdd dp rd ra rb s
  | .feMul rd ra rb => bodyFeMul dp rd ra rb s
  | .feSqr rd ra => bodyFeSqr dp rd ra s
  | .feNeg rd ra imm => bodyFeNeg dp rd ra imm s
  | .feCmov rd ra imm => bodyFeCmov dp rd ra imm s
  | .feIszero ra => bodyFeIszero dp ra s
  | .feEq ra rb => bodyFeEq dp ra rb s
  | .feIsodd ra => bodyFeIsodd dp ra s
  | .feCmp ra rb => bodyFeCmp dp ra rb s
  | .feInv rd ra => bodyFeInv dp rd ra s
  | .feInvvar rd ra => bodyFeInvvar dp rd ra s
  | .scSetb32 rd imm => bodyScSetb32 dp rd imm s
  | .scGetb32 ra imm => bodyScGetb32 dp ra imm s
  | .scSetint rd imm => bodyScSetint rd imm s
  | .scMov rd ra => bodyScMov dp rd ra s
  | .scAdd rd ra rb => bodyScAdd dp rd ra rb s
  | .scMul rd ra rb => bodyScMul dp rd ra rb s
  | .scSqr rd ra => bodyScSqr dp rd ra s
  | .scNeg rd ra => bodyScNeg dp rd ra s
  | .scCneg rd ra imm => bodyScCneg dp rd ra imm s
  | .scCmov rd ra imm => bodyScCmov dp rd ra imm s
  | .scIszero ra => bodyScIszero dp ra s
  | .scEq ra rb => bodyScEq dp ra rb s
  | .scIshigh ra => bodyScIshigh dp ra s
  | .scInv rd ra => bodyScInv dp rd ra s
  | .scInvvar rd ra => bodyScInvvar dp rd ra s
  | .scMulshift rd ra rb imm => bodyScMulshift dp rd ra rb imm s
  | .scSplitlambda rd ra rb => bodyScSplitlambda dp rd ra rb s
  | .scSplit128 rd ra rb => bodyScSplit128 dp rd ra rb s
  | .geSetxy rd ra rb => bodyGeSetxy dp rd ra rb s
  | .geGetx rd ra => bodyGeGetx dp rd ra s
  | .geGety rd ra => bodyGeGety dp rd ra s
  | .geSetinf rd => bodyGeSetinf rd s
  | .geIsinf ra => bodyGeIsinf dp ra s
  | .geMov rd ra => bodyGeMov dp rd ra s
  | .geNeg rd ra => bodyGeNeg dp rd ra s
  | .geEq ra rb => bodyGeEq dp ra rb s
  | .geMullambda rd ra => bodyGeMullambda dp rd ra s
  | .geTostor ra imm => bodyGeTostor dp ra imm s
  | .geFromstor rd imm => bodyGeFromstor dp rd imm s
  | .geSetgej rd ra => bodyGeSetgej dp rd ra s
  | .geSetgejvar rd ra => bodyGeSetgejvar dp rd ra s
  | .geSetg rd => bodyGeSetg rd s
  | .gejSetge rd ra => bodyGejSetge dp rd ra s
  | .gejSetinf rd => bodyGejSetinf rd s
  | .gejIsinf ra => bodyGejIsinf dp ra s
  | .gejMov rd ra => bodyGejMov dp rd ra s
  | .gejNeg rd ra => bodyGejNeg dp rd ra s
  | .gejDbl rd ra => bodyGejDbl dp rd ra s
  | .gejAddge rd ra rb => bodyGejAddge dp rd ra rb s
  | .gejAddgevar rd ra rb => bodyGejAddgevar dp rd ra rb s
  | .gejAddvar rd ra rb => bodyGejAddvar dp rd ra rb s
  | .gejEq ra rb => bodyGejEq dp ra rb s
  | .gejGetc rd ra imm => bodyGejGetc dp rd ra imm s
  | .ecmultGen rd ra => bodyEcmultGen dp rd ra s
  | .ecmult rd ra rb imm => bodyEcmult dp rd ra rb imm s

/-- The internal operations, ROM and table reads and loop passes of a command, in order. There are none in the fault state,
where the command is ignored (`spec/60_exceptions.md` R285), and none for a word that is illegal (`spec/40_system.md` R100).
What counts as an event is DEDUCED, log 18. -/
def opsOf (i : Instr) (s : State) : List Event :=
  if s.fault then [] else if i.wf then (traceOf fun dp => body dp i s).events else []

/-- The comb ROM read of an event, if it is one. -/
def Event.combRead : Event → Option (Nat × Nat)
  | .combRom b idx => some (b, idx)
  | _ => none

/-- How many passes of a loop a record holds. -/
def passCount (l : InternalLoop) (es : List Event) : Nat :=
  (es.map fun e => match e with
    | .passes l' k => if l' = l then k else 0
    | _ => 0).sum

end Sys2Proof.Machine
end

