-- ==== Sys2Proof/Safety.lean ====
section
/-! DEFINITION. What counts as a safe run and the terms in which the claims are stated: the invariant of the state, what a
command reads and writes, when it faults, and which states a host cannot tell apart. -/

namespace Sys2Proof.Machine

/-! ## Safe states -/

/-- A state from which commands execute: not in the fault state (`spec/60_exceptions.md` R285). -/
abbrev State.Ready (s : State) : Prop := s.fault = false

/-! ## The invariant of the state -/

/-- R21 to R23: magnitude 1..32, every limb within 2·mag times its largest canonical value, and canonical limbs of a value
below p when normalized. -/
structure Fe.Wf (a : Fe) : Prop where
  mag_pos : 1 ≤ a.mag
  mag_le : a.mag ≤ 32
  n0_le : a.n.n0.toNat ≤ 2 * a.mag * (2 ^ 52 - 1)
  n1_le : a.n.n1.toNat ≤ 2 * a.mag * (2 ^ 52 - 1)
  n2_le : a.n.n2.toNat ≤ 2 * a.mag * (2 ^ 52 - 1)
  n3_le : a.n.n3.toNat ≤ 2 * a.mag * (2 ^ 52 - 1)
  n4_le : a.n.n4.toNat ≤ 2 * a.mag * (2 ^ 48 - 1)
  normalized : a.norm = true → a.mag = 1 ∧ a.ival < Const.p ∧ a.n = canon a.ival

/-- R26, R28: the coordinates' invariants, and zero limbs for infinity. -/
structure Ge.Wf (P : Ge) : Prop where
  x : P.x.Wf
  y : P.y.Wf
  infinite : P.inf = true → P.x.n = Limbs.zero ∧ P.y.n = Limbs.zero

/-- R27, R28. -/
structure Gej.Wf (P : Gej) : Prop where
  x : P.x.Wf
  y : P.y.Wf
  z : P.z.Wf
  infinite : P.inf = true → P.x.n = Limbs.zero ∧ P.y.n = Limbs.zero ∧ P.z.n = Limbs.zero

/-- R36, `spec/45_ecmult_gen.md` R248, R251: the offset is a scalar, the offset point is normalized and finite, and an
unbuilt context holds no blinding. -/
structure Context.Wf (c : Context) : Prop where
  offset : c.scalarOffset.toNat < Const.n
  point : c.geOffset.Wf
  normalized : c.geOffset.x.norm = true ∧ c.geOffset.y.norm = true
  finite : c.geOffset.inf = false
  cleared : c.built = false → c = Context.clear

/-- The invariant: every valid register well formed (R22, R25, R28), the context (R36), BUF canonical, BUSY = 0 between
operations (R31), CAUSE and FINFO 0 without a fault and CAUSE one of the six codes with one (R32, R33,
`spec/60_exceptions.md` R281). -/
structure State.Inv (s : State) : Prop where
  field : ∀ r, (s.fr.get r).valid = true → (s.fr.get r).val.Wf
  scalar : ∀ r, (s.sr.get r).valid = true → (s.sr.get r).val.toNat < Const.n
  affine : ∀ r, (s.ar.get r).valid = true → (s.ar.get r).val.Wf
  jacobian : ∀ r, (s.jr.get r).valid = true → (s.jr.get r).val.Wf
  context : s.ctx.Wf
  memory : Memory.wf s.mem
  idle : s.busy = false
  noFault : s.fault = false → s.cause = 0 ∧ s.finfo = 0
  faulted : s.fault = true → ∃ c : Cause, s.cause = c.code

/-! ## What a state holds -/

/-- f[r] is valid and holds a. -/
abbrev State.HoldsF (s : State) (r : RegNum) (a : Fe) : Prop := s.fr.get r = ⟨true, a⟩

/-- s[r] is valid and holds a. -/
abbrev State.HoldsS (s : State) (r : RegNum) (a : ScalarWord) : Prop := s.sr.get r = ⟨true, a⟩

/-- a[r] is valid and holds P. -/
abbrev State.HoldsA (s : State) (r : RegNum) (P : Ge) : Prop := s.ar.get r = ⟨true, P⟩

/-- j[r] is valid and holds P. -/
abbrev State.HoldsJ (s : State) (r : RegNum) (P : Gej) : Prop := s.jr.get r = ⟨true, P⟩

/-- Slot k is valid and its bytes are be32(v): byte j, at address 32k + j, is (v >> 8(31 − j)) mod 256
(`spec/00_scope.md` R11, `spec/20_memory.md` R61, R63). -/
structure State.SlotHolds (s : State) (k v : Nat) : Prop where
  valid : slotValid k s = true
  value : v < 2 ^ 256
  bytes : ∀ j < 32, Memory.read s.mem (32 * k + j) = BitVec.ofNat 8 (v >>> (8 * (31 - j)))

/-! ## Values -/

/-- The field value of a content, an integer modulo p (R22). -/
abbrev Fe.mod (a : Fe) : ZMod Const.p := (a.val : ZMod Const.p)

/-- The limbs 2·(m + 1)·PL[i] − n[i] of a negation with bound m (`spec/41_field.md` R111, R113). -/
def Limbs.negated (m : Nat) (l : Limbs) : Limbs :=
  ⟨BitVec.ofInt 64 (2 * ((m : Int) + 1) * 0xFFFFEFFFFFC2F - (l.n0.toNat : Int)),
    BitVec.ofInt 64 (2 * ((m : Int) + 1) * 0xFFFFFFFFFFFFF - (l.n1.toNat : Int)),
    BitVec.ofInt 64 (2 * ((m : Int) + 1) * 0xFFFFFFFFFFFFF - (l.n2.toNat : Int)),
    BitVec.ofInt 64 (2 * ((m : Int) + 1) * 0xFFFFFFFFFFFFF - (l.n3.toNat : Int)),
    BitVec.ofInt 64 (2 * ((m : Int) + 1) * 0xFFFFFFFFFFFF - (l.n4.toNat : Int))⟩

/-- Every coordinate within the bound of CHK8 (`spec/44_group.md` R192). -/
structure Ge.Within8 (P : Ge) : Prop where
  x : P.x.mag ≤ 8
  y : P.y.mag ≤ 8

/-- Every coordinate within the bound of CHK8: what every point operation requires of a content it computes with, so that no
nested operation faults (R201). -/
structure Gej.Within8 (P : Gej) : Prop where
  x : P.x.mag ≤ 8
  y : P.y.mag ≤ 8
  z : P.z.mag ≤ 8

/-- Tags (mx, my, mz) with norm 0 (`spec/44_group.md` R190). -/
structure Gej.Tags (P : Gej) (mx my mz : Nat) : Prop where
  x : P.x.mag = mx
  y : P.y.mag = my
  z : P.z.mag = mz
  xn : P.x.norm = false
  yn : P.y.norm = false
  zn : P.z.norm = false

/-- Tags at most (6, 4, 2): the steady state of the point operations (`spec/44_group.md` R229). -/
structure Gej.Steady (P : Gej) : Prop where
  x : P.x.mag ≤ 6
  y : P.y.mag ≤ 4
  z : P.z.mag ≤ 2

/-! ## The multipliers in the terms of their statements -/

/-- Tooth t of block b at offset off: bit (6b + t)·4 + off of d (`spec/45_ecmult_gen.md` R242). -/
def tooth (d off b t : Nat) : Nat := d / 2 ^ ((6 * b + t) * 4 + off) % 2

/-- The ROM index block b selects: its five low teeth, each complemented when the top tooth is 0 (R245). -/
def toothIndex (d off b : Nat) : Nat :=
  let c := fun t => if tooth d off b 5 = 1 then tooth d off b t else 1 - tooth d off b t
  c 0 + 2 * c 1 + 4 * c 2 + 8 * c 3 + 16 * c 4

/-- The sign of block b: its top tooth (R243). -/
def toothSign (d off b : Nat) : Int := if tooth d off b 5 = 1 then 1 else -1

/-- What block b adds at offset off: the selected ROM point, y negated limb by limb when the top tooth is 0 (R245). -/
def combPoint (d off b : Nat) : Ge :=
  let P := romPoint b (toothIndex d off b)
  ⟨⟨canon P.1, 1, true⟩, ⟨if tooth d off b 5 = 1 then canon P.2 else (canon P.2).negated 1, 2, false⟩, false⟩

/-- The loop of R245 from offset `count` − 1 down: eleven additions, and a doubling unless the offset is 0. -/
def combFrom (d : Nat) : Nat → Gej → Chk Gej
  | 0, r => .ok r
  | off + 1, r => do
    let r ← [0, 1, 2, 3, 4, 5, 6, 7, 8, 9, 10].foldlM (fun r b => gejAddGe r (combPoint d off b)) r
    if off = 0 then .ok r else do
      let r ← gejDbl r
      combFrom d off r

/-- The loop of ECMULT from digit position `count` − 1 down (`spec/46_ecmult.md` R266). -/
def ecmultFrom (ts : List Term) : Nat → Gej → Chk Gej
  | 0, r => .ok r
  | i + 1, r => do
    let r ← ecmultPass ts r i
    ecmultFrom ts i r

/-- The number a magnitude and its sign bit stand for: the ±k1, ±k2 of TERMS (R264). -/
def signed (h : Nat × Bool) : Int := if h.2 then -(h.1 : Int) else h.1

/-! ## What a command writes (the frame) -/

/-- The destinations of a command: register numbers by file, flags, the bytes stored (address and length), the context. -/
structure Footprint where
  fr : List RegNum := []
  sr : List RegNum := []
  ar : List RegNum := []
  jr : List RegNum := []
  t : Bool := false
  ovf : Bool := false
  sgn : Bool := false
  ltgt : Bool := false
  store : Option (Nat × Nat) := none
  ctx : Bool := false

/-- The destinations each command's rule gives it (`spec/10_state.md` R30 for the flags). -/
def footprint : Instr → Footprint
  | .nop => {}
  | .ctxBuild => { ctx := true }
  | .ctxClear => { ctx := true }
  | .ctxBlind _ => { ctx := true }
  | .feSetb32 rd _ => { fr := [rd], ovf := true }
  | .feGetb32 _ imm => { store := some (immAddr imm, 32) }
  | .feSetint rd _ => { fr := [rd] }
  | .feMov rd _ => { fr := [rd] }
  | .feNorm rd _ => { fr := [rd] }
  | .feAdd rd _ _ => { fr := [rd] }
  | .feMul rd _ _ => { fr := [rd] }
  | .feSqr rd _ => { fr := [rd] }
  | .feNeg rd _ _ => { fr := [rd] }
  | .feCmov rd _ _ => { fr := [rd] }
  | .feIszero _ => { t := true }
  | .feEq _ _ => { t := true }
  | .feIsodd _ => { t := true }
  | .feCmp _ _ => { ltgt := true }
  | .feInv rd _ => { fr := [rd] }
  | .feInvvar rd _ => { fr := [rd] }
  | .scSetb32 rd _ => { sr := [rd], ovf := true }
  | .scGetb32 _ imm => { store := some (immAddr imm, 32) }
  | .scSetint rd _ => { sr := [rd] }
  | .scMov rd _ => { sr := [rd] }
  | .scAdd rd _ _ => { sr := [rd], ovf := true }
  | .scMul rd _ _ => { sr := [rd] }
  | .scSqr rd _ => { sr := [rd] }
  | .scNeg rd _ => { sr := [rd] }
  | .scCneg rd _ _ => { sr := [rd], sgn := true }
  | .scCmov rd _ _ => { sr := [rd] }
  | .scIszero _ => { t := true }
  | .scEq _ _ => { t := true }
  | .scIshigh _ => { t := true }
  | .scInv rd _ => { sr := [rd] }
  | .scInvvar rd _ => { sr := [rd] }
  | .scMulshift rd _ _ _ => { sr := [rd] }
  | .scSplitlambda rd _ rb => { sr := [rd, rb] }
  | .scSplit128 rd _ rb => { sr := [rd, rb] }
  | .geSetxy rd _ _ => { ar := [rd] }
  | .geGetx rd _ => { fr := [rd] }
  | .geGety rd _ => { fr := [rd] }
  | .geSetinf rd => { ar := [rd] }
  | .geIsinf _ => { t := true }
  | .geMov rd _ => { ar := [rd] }
  | .geNeg rd _ => { ar := [rd] }
  | .geEq _ _ => { t := true }
  | .geMullambda rd _ => { ar := [rd] }
  | .geTostor _ imm => { store := some (immAddr imm, 64) }
  | .geFromstor rd _ => { ar := [rd], ovf := true }
  | .geSetgej rd _ => { ar := [rd] }
  | .geSetgejvar rd _ => { ar := [rd] }
  | .geSetg rd => { ar := [rd] }
  | .gejSetge rd _ => { jr := [rd] }
  | .gejSetinf rd => { jr := [rd] }
  | .gejIsinf _ => { t := true }
  | .gejMov rd _ => { jr := [rd] }
  | .gejNeg rd _ => { jr := [rd] }
  | .gejDbl rd _ => { jr := [rd] }
  | .gejAddge rd _ _ => { jr := [rd] }
  | .gejAddgevar rd _ _ => { jr := [rd] }
  | .gejAddvar rd _ _ => { jr := [rd] }
  | .gejEq _ _ => { t := true }
  | .gejGetc rd _ _ => { fr := [rd] }
  | .ecmultGen rd _ => { jr := [rd] }
  | .ecmult rd _ _ _ => { jr := [rd] }

/-- The address `a` is one of the stored bytes. -/
def Footprint.stores (fp : Footprint) (a : Nat) : Prop :=
  match fp.store with
  | none => False
  | some (addr, len) => addr ≤ a ∧ a < addr + len

/-- The slot `k` is one of the stored slots. -/
def Footprint.storesSlot (fp : Footprint) (k : Nat) : Prop :=
  match fp.store with
  | none => False
  | some (addr, len) => addr ≤ 32 * k ∧ 32 * k < addr + len

/-- Everything outside a footprint is as it was: registers and their valid bits, flags, every byte of memory, every slot's
valid bit, the context, BUSY and the host's side of the port; CAUSE and FINFO change only with FAULT, and CMDCNT only when
no fault is recorded. -/
structure Untouched (fp : Footprint) (s u : State) : Prop where
  fr : ∀ r, r ∉ fp.fr → u.fr.get r = s.fr.get r
  sr : ∀ r, r ∉ fp.sr → u.sr.get r = s.sr.get r
  ar : ∀ r, r ∉ fp.ar → u.ar.get r = s.ar.get r
  jr : ∀ r, r ∉ fp.jr → u.jr.get r = s.jr.get r
  t : fp.t = false → u.flags.t = s.flags.t
  ovf : fp.ovf = false → u.flags.ovf = s.flags.ovf
  sgn : fp.sgn = false → u.flags.sgn = s.flags.sgn
  ltgt : fp.ltgt = false → u.flags.lt = s.flags.lt ∧ u.flags.gt = s.flags.gt
  mem : ∀ a, ¬fp.stores a → Memory.read u.mem a = Memory.read s.mem a
  slots : ∀ k, ¬fp.storesSlot k → slotValid k u = slotValid k s
  ctx : fp.ctx = false → u.ctx = s.ctx
  busy : u.busy = s.busy
  control : u.fault = s.fault → u.cause = s.cause ∧ u.finfo = s.finfo
  count : u.fault = true → u.cmdcnt = s.cmdcnt
  port : u.inbox = s.inbox ∧ u.reply = s.reply ∧ u.draws = s.draws

/-! ## When a command faults (`spec/60_exceptions.md` R281 to R283) -/

/-- A coordinate has magnitude over 8. -/
def Ge.big (P : Ge) : Bool := decide (8 < P.x.mag) || decide (8 < P.y.mag)

/-- A coordinate has magnitude over 8. -/
def Gej.big (P : Gej) : Bool := decide (8 < P.x.mag) || decide (8 < P.y.mag) || decide (8 < P.z.mag)

/-- What a command asks of the state before it executes: one row of the fault table (R282), after the format and range
checks. For a point command `magnitude` is its CHK8, or the bound 31 of a negation: nothing later faults (`spec/44_group.md`
R201). `regs`, `slots`: the registers and BUF slots it reads (column "UO on"); the rest: when the other columns' conditions
hold, for the state it is asked of. -/
structure Demands where
  regs : List (RegKind × RegNum) := []
  slots : List Nat := []
  context : Bool := false
  unnormalized : Bool := false
  magnitude : Bool := false
  infinity : Bool := false

/-- The fault table (R282), row by row. -/
def demands (s : State) : Instr → Demands
  | .nop => {}
  | .ctxBuild => {}
  | .ctxClear => {}
  | .ctxBlind imm => { slots := [imm.toNat], context := true }
  | .feSetb32 _ imm => { slots := [imm.toNat] }
  | .feGetb32 ra _ => { regs := [(.f, ra)], unnormalized := !(s.fr.get ra).val.norm }
  | .feSetint _ _ => {}
  | .feMov _ ra => { regs := [(.f, ra)] }
  | .feNorm _ ra => { regs := [(.f, ra)] }
  | .feAdd _ ra rb => {
      regs := [(.f, ra), (.f, rb)],
      magnitude := decide (32 < (s.fr.get ra).val.mag + (s.fr.get rb).val.mag) }
  | .feMul _ ra rb => {
      regs := [(.f, ra), (.f, rb)],
      magnitude := decide (8 < (s.fr.get ra).val.mag) || decide (8 < (s.fr.get rb).val.mag) }
  | .feSqr _ ra => { regs := [(.f, ra)], magnitude := decide (8 < (s.fr.get ra).val.mag) }
  | .feNeg _ ra imm => { regs := [(.f, ra)], magnitude := decide (imm.toNat < (s.fr.get ra).val.mag) }
  | .feCmov rd ra _ => { regs := [(.f, rd), (.f, ra)] }
  | .feIszero ra => { regs := [(.f, ra)], unnormalized := !(s.fr.get ra).val.norm }
  | .feEq ra rb => { regs := [(.f, ra), (.f, rb)], unnormalized := !(s.fr.get ra).val.norm || !(s.fr.get rb).val.norm }
  | .feIsodd ra => { regs := [(.f, ra)], unnormalized := !(s.fr.get ra).val.norm }
  | .feCmp ra rb => { regs := [(.f, ra), (.f, rb)], unnormalized := !(s.fr.get ra).val.norm || !(s.fr.get rb).val.norm }
  | .feInv _ ra => { regs := [(.f, ra)], magnitude := decide (8 < (s.fr.get ra).val.mag) }
  | .feInvvar _ ra => { regs := [(.f, ra)], magnitude := decide (8 < (s.fr.get ra).val.mag) }
  | .scSetb32 _ imm => { slots := [imm.toNat] }
  | .scGetb32 ra _ => { regs := [(.s, ra)] }
  | .scSetint _ _ => {}
  | .scMov _ ra => { regs := [(.s, ra)] }
  | .scAdd _ ra rb => { regs := [(.s, ra), (.s, rb)] }
  | .scMul _ ra rb => { regs := [(.s, ra), (.s, rb)] }
  | .scSqr _ ra => { regs := [(.s, ra)] }
  | .scNeg _ ra => { regs := [(.s, ra)] }
  | .scCneg _ ra _ => { regs := [(.s, ra)] }
  | .scCmov rd ra _ => { regs := [(.s, rd), (.s, ra)] }
  | .scIszero ra => { regs := [(.s, ra)] }
  | .scEq ra rb => { regs := [(.s, ra), (.s, rb)] }
  | .scIshigh ra => { regs := [(.s, ra)] }
  | .scInv _ ra => { regs := [(.s, ra)] }
  | .scInvvar _ ra => { regs := [(.s, ra)] }
  | .scMulshift _ ra rb _ => { regs := [(.s, ra), (.s, rb)] }
  | .scSplitlambda _ ra _ => { regs := [(.s, ra)] }
  | .scSplit128 _ ra _ => { regs := [(.s, ra)] }
  | .geSetxy _ ra rb => { regs := [(.f, ra), (.f, rb)] }
  | .geGetx _ ra => { regs := [(.a, ra)] }
  | .geGety _ ra => { regs := [(.a, ra)] }
  | .geSetinf _ => {}
  | .geIsinf ra => { regs := [(.a, ra)] }
  | .geMov _ ra => { regs := [(.a, ra)] }
  | .geNeg _ ra => { regs := [(.a, ra)], magnitude := decide (31 < (s.ar.get ra).val.y.mag) }
  | .geEq ra rb => { regs := [(.a, ra), (.a, rb)] }
  | .geMullambda _ ra => { regs := [(.a, ra)], magnitude := decide (8 < (s.ar.get ra).val.x.mag) }
  | .geTostor ra _ => { regs := [(.a, ra)], infinity := (s.ar.get ra).val.inf }
  | .geFromstor _ imm => { slots := [imm.toNat, imm.toNat + 1] }
  | .geSetgej _ ra => { regs := [(.j, ra)], magnitude := (s.jr.get ra).val.big }
  | .geSetgejvar _ ra => { regs := [(.j, ra)], magnitude := (s.jr.get ra).val.big }
  | .geSetg _ => {}
  | .gejSetge _ ra => { regs := [(.a, ra)] }
  | .gejSetinf _ => {}
  | .gejIsinf ra => { regs := [(.j, ra)] }
  | .gejMov _ ra => { regs := [(.j, ra)] }
  | .gejNeg _ ra => { regs := [(.j, ra)], magnitude := decide (31 < (s.jr.get ra).val.y.mag) }
  | .gejDbl _ ra => { regs := [(.j, ra)], magnitude := (s.jr.get ra).val.big }
  | .gejAddge _ ra rb => { regs := [(.j, ra), (.a, rb)], magnitude := (s.jr.get ra).val.big || (s.ar.get rb).val.big }
  | .gejAddgevar _ ra rb => {
      regs := [(.j, ra), (.a, rb)],
      magnitude := !(s.jr.get ra).val.inf && !(s.ar.get rb).val.inf && ((s.jr.get ra).val.big || (s.ar.get rb).val.big) }
  | .gejAddvar _ ra rb => {
      regs := [(.j, ra), (.j, rb)],
      magnitude := !(s.jr.get ra).val.inf && !(s.jr.get rb).val.inf && ((s.jr.get ra).val.big || (s.jr.get rb).val.big) }
  | .gejEq ra rb => {
      regs := [(.j, ra), (.j, rb)],
      magnitude := !(s.jr.get ra).val.inf && !(s.jr.get rb).val.inf && ((s.jr.get ra).val.big || (s.jr.get rb).val.big) }
  | .gejGetc _ ra _ => { regs := [(.j, ra)] }
  | .ecmultGen _ ra => { regs := [(.s, ra)], context := true }
  | .ecmult _ ra rb imm => {
      regs := [(.j, ra), (.s, rb)] ++ (generatorReg imm).toList.map (RegKind.s, ·),
      magnitude := !(s.jr.get ra).val.inf && (s.sr.get rb).val != 0 && (s.jr.get ra).val.big }

/-- The register of a file is valid. -/
def State.regValid (s : State) (kr : RegKind × RegNum) : Bool :=
  match kr.1 with
  | .f => (s.fr.get kr.2).valid
  | .s => (s.sr.get kr.2).valid
  | .a => (s.ar.get kr.2).valid
  | .j => (s.jr.get kr.2).valid

/-- The fault a command raises outside the fault state, if any: the first condition of R283 that holds (R282). -/
def faultOf (i : Instr) (s : State) : Option Cause :=
  let d := demands s i
  if i.wf = false then some .illegalCmd
  else if d.context && !s.ctx.built then some .ctxNotBuilt
  else if d.regs.any (fun kr => !s.regValid kr) || d.slots.any (fun k => !slotValid k s) then some .uninitOperand
  else if d.unnormalized then some .feNotNormalized
  else if d.magnitude then some .feMagnitude
  else if d.infinity then some .pointAtInfinity
  else none

/-! ## What is public (`spec/00_scope.md` R13, `spec/70_reset_and_hazards.md` R331) -/

/-- The same tags. -/
structure Fe.SameTags (a b : Fe) : Prop where
  mag : a.mag = b.mag
  norm : a.norm = b.norm

/-- The same tags in both coordinates. -/
structure Ge.SameTags (P Q : Ge) : Prop where
  x : P.x.SameTags Q.x
  y : P.y.SameTags Q.y

/-- The same tags in all three coordinates. -/
structure Gej.SameTags (P Q : Gej) : Prop where
  x : P.x.SameTags Q.x
  y : P.y.SameTags Q.y
  z : P.z.SameTags Q.z

/-- Two states that agree on all valid bits, all tags, `built`, STATUS, CAUSE, FINFO and CMDCNT; limbs, scalars, inf bits,
flags, bytes and blinding values may differ (R331). -/
structure PublicEq (s t : State) : Prop where
  fr : ∀ r, (s.fr.get r).valid = (t.fr.get r).valid ∧ (s.fr.get r).val.SameTags (t.fr.get r).val
  sr : ∀ r, (s.sr.get r).valid = (t.sr.get r).valid
  ar : ∀ r, (s.ar.get r).valid = (t.ar.get r).valid ∧ (s.ar.get r).val.SameTags (t.ar.get r).val
  jr : ∀ r, (s.jr.get r).valid = (t.jr.get r).valid ∧ (s.jr.get r).val.SameTags (t.jr.get r).val
  slots : s.bufValid = t.bufValid
  built : s.ctx.built = t.ctx.built
  geOffset : s.ctx.geOffset.SameTags t.ctx.geOffset
  busy : s.busy = t.busy
  fault : s.fault = t.fault
  cause : s.cause = t.cause
  finfo : s.finfo = t.finfo
  cmdcnt : s.cmdcnt = t.cmdcnt

/-! ## What an invalid register holds (`spec/10_state.md` R29, R42) -/

/-- The registers of a file with the contents of every invalid one replaced by `d`. -/
def RegFile.forget {α : Type} (d : α) (file : RegFile α) : RegFile α :=
  file.map fun reg => if reg.valid then reg else ⟨false, d⟩

/-- The state with the unreadable contents of the four files replaced by fixed ones. -/
def State.forget (s : State) : State :=
  { s with
    fr := s.fr.forget Fe.zero
    sr := s.sr.forget 0
    ar := s.ar.forget ⟨Fe.zero, Fe.zero, false⟩
    jr := s.jr.forget ⟨Fe.zero, Fe.zero, Fe.zero, false⟩ }

end Sys2Proof.Machine
end

