-- ==== Sys2Proof/Certificates/Slice0/Obligations.lean ====
section
/-! DEFINITION. The statements about the block, from the numbered rules of spec/. `State.Ready` is "not in the fault state";
`HoldsF`, `HoldsS`, `HoldsA`, `HoldsJ` say that a register is valid and what it holds; `SlotHolds` says it of a BUF slot. A
conclusion `exec i s = .next (retire …)` says that the command completes and what the whole next state is. -/

open Sys2Proof Sys2Proof.Machine

/-! ## Reset and the host port -/

/-- `spec/10_state.md` R42, the values the spec gives: after reset every valid bit, flag and CSR is 0, the context is not
built, its offset is 0 and its offset point has zero limbs. -/
def Obligations.ResetState : Prop :=
  (∀ r, (State.reset.fr.get r).valid = false ∧ (State.reset.sr.get r).valid = false ∧
    (State.reset.ar.get r).valid = false ∧ (State.reset.jr.get r).valid = false) ∧
  (∀ k, slotValid k State.reset = false) ∧
  State.reset.flags = ⟨false, false, false, false, false⟩ ∧
  State.reset.busy = false ∧ State.reset.fault = false ∧
  State.reset.cause = 0 ∧ State.reset.finfo = 0 ∧ State.reset.cmdcnt = 0 ∧
  State.reset.ctx.built = false ∧ State.reset.ctx.scalarOffset = 0 ∧
  State.reset.ctx.geOffset.x.n = Limbs.zero ∧ State.reset.ctx.geOffset.y.n = Limbs.zero

/-- `spec/70_reset_and_hazards.md` R310, `spec/60_exceptions.md` R286: H_RESET is accepted in every state, the fault state
included, and leaves the reset state. That the operations still to come and the count of drawn bytes stay is the model's
choice (log 1, log 6). -/
def Obligations.HostResetEntersResetState : Prop :=
  ∀ (s : State) (rest : List HostOp), s.inbox = .reset :: rest →
    step s = .next { State.reset with inbox := rest, draws := s.draws }

/-- `spec/40_system.md` R100, `spec/20_memory.md` R71: when the host issues a word that decodes to i, the step is exec of i
on the state without that operation; and `withFetchWord` places exactly that word. The list of operations is the model's
(log 1). -/
def Obligations.StepRunsTheDecodedCommand : Prop :=
  (∀ (s : State) (w : Word) (rest : List HostOp) (i : Instr), s.inbox = .cmd w :: rest → s.busy = false →
    decode w = .ok i → step s = exec i { s with inbox := rest, reply := .none }) ∧
  (∀ (s : State) (w : Word) (i : Instr), decode w = .ok i →
    step (s.withFetchWord 32 w.toNat) = exec i { s with reply := .none, busy := false })

/-- `spec/30_encoding.md` R86, R87: exactly the words with a reserved opcode, a nonzero unused field, an immediate outside its
kind's range or equal destinations in format DDA do not decode, and H_CMD of such a word takes the fault ILLEGAL_CMD with
FINFO the word (`spec/60_exceptions.md` R284). That the step takes the operation off the list and clears the reply is the
model's choice (log 1, log 2). -/
def Obligations.IllegalWordsFault : Prop :=
  (∀ w : Word, (0x04 ≤ opcOf w ∧ opcOf w ≤ 0x0F ∨ 0x32 ≤ opcOf w ∧ opcOf w ≤ 0x3F ∨ opcOf w = 0x4E ∨ opcOf w = 0x4F ∨
    0x5B ≤ opcOf w ∧ opcOf w ≤ 0x5F ∨ 0x62 ≤ opcOf w) ↔ decode w = .error .reservedOpcode) ∧
  (∀ (w : Word) (row : OpcodeRow), rowOf (opcOf w) = some row →
    ((∃ e, decode w = .error e) ↔
      row.fmt.unusedZero (rdOf w) (raOf w) (rbOf w) (immOf w) = false ∨ row.kind.legal (immOf w) = false ∨
        row.fmt = .dda ∧ rdOf w = rbOf w)) ∧
  (∀ (s : State) (w : Word) (rest : List HostOp) (e : Illegal), s.inbox = .cmd w :: rest → s.busy = false →
    s.Ready → decode w = .error e →
    step s = .next { s with inbox := rest, reply := .none, fault := true, cause := 1, finfo := w })

/-- `spec/60_exceptions.md` R285: in the fault state every H_CMD is ignored, H_RDCSR, H_RDSLOT and H_WRSLOT work as always,
and H_RESET leaves it. The list of operations and `reply` are the model's form (log 1, log 2); that the bytes of an invalid slot
are free values, and that their count grows by 32, is the model's choice (log 6). -/
def Obligations.FaultStateIgnoresCommands : Prop :=
  ∀ (s : State) (rest : List HostOp), s.fault = true → s.busy = false →
    (∀ w, s.inbox = .cmd w :: rest → step s = .next { s with inbox := rest, reply := .none }) ∧
    (∀ i, s.inbox = .rdCsr i :: rest → step s = .next { s with inbox := rest, reply := .csr (csrWord i s) }) ∧
    (∀ k, s.inbox = .rdSlot k :: rest → k < 32 → slotValid k s = true →
      step s = .next { s with
        inbox := rest, reply := .bytes (Vector.ofFn fun j : Fin 32 => Memory.read s.mem (32 * k + j.val)) }) ∧
    (∀ k, s.inbox = .rdSlot k :: rest → k < 32 → slotValid k s = false →
      ∃ b, step s = .next { s with inbox := rest, reply := .bytes b, draws := s.draws + 32 }) ∧
    (∀ k b, s.inbox = .wrSlot k b :: rest → k < 32 →
      step s = .next (memWrite (32 * k) 32 b.toList { s with inbox := rest, reply := .none })) ∧
    (s.inbox = .reset :: rest → ∃ t, step s = .next t ∧ t.fault = false)

/-- `spec/20_memory.md` R71: H_WRSLOT stores 32 bytes and makes the slot valid; H_RDSLOT returns the slot's bytes, or any
bytes at all when the slot is invalid, and never faults. What `reply` holds is the model's form (log 2); slots outside 0..31
are addresses that do not exist (log 9); the bytes of an invalid slot are free values (log 6). -/
def Obligations.HostSlotOperations : Prop :=
  ∀ (s : State) (k : Nat) (rest : List HostOp), s.busy = false →
    (∀ b, s.inbox = .wrSlot k b :: rest → k < 32 → Memory.wf s.mem →
      ∃ t, step s = .next t ∧ slotValid k t = true ∧
        (∀ j : Fin 32, Memory.read t.mem (32 * k + j.val) = b[j]) ∧
        (∀ a, a < 32 * k ∨ 32 * k + 32 ≤ a → Memory.read t.mem a = Memory.read s.mem a) ∧
        (∀ k', k' ≠ k → slotValid k' t = slotValid k' s)) ∧
    (s.inbox = .rdSlot k :: rest → k < 32 → slotValid k s = true →
      step s = .next { s with
        inbox := rest, reply := .bytes (Vector.ofFn fun j : Fin 32 => Memory.read s.mem (32 * k + j.val)) }) ∧
    (s.inbox = .rdSlot k :: rest → k < 32 → slotValid k s = false →
      ∃ b, step s = .next { s with inbox := rest, reply := .bytes b, draws := s.draws + 32 }) ∧
    (∀ b, (s.inbox = .wrSlot k b :: rest ∨ s.inbox = .rdSlot k :: rest) → 32 ≤ k →
      step s = .fault (.noSuchAddress (32 * k)))

/-- `spec/10_state.md` R35: the five CSRs, bit by bit; a CSR above 4 reads 0; every CSR is 0 at reset. Reading changes
nothing but the port: that the step takes the operation off the list and holds the answer in the reply is the model's choice
(log 1, log 2). -/
def Obligations.HostReadsCsr : Prop :=
  (∀ (s : State) (i : Nat) (rest : List HostOp), s.inbox = .rdCsr i :: rest →
    ∃ v : Word, step s = .next { s with inbox := rest, reply := .csr v } ∧
      (i = 0 → ∀ b < 32, v.getLsbD b = (b == 0 && s.busy || b == 1 && s.fault || b == 2 && s.ctx.built)) ∧
      (i = 1 → ∀ b < 32, v.getLsbD b = (b == 0 && s.flags.t || b == 1 && s.flags.ovf || b == 2 && s.flags.sgn ||
        b == 3 && s.flags.lt || b == 4 && s.flags.gt)) ∧
      (i = 2 → ∀ b < 32, v.getLsbD b = (decide (b < 8) && s.cause.getLsbD b)) ∧
      (i = 3 → v = s.finfo) ∧
      (i = 4 → v = s.cmdcnt) ∧
      (4 < i → v = 0)) ∧
  (∀ i, csrWord i State.reset = 0)

/-- `spec/20_memory.md` R62: MemWrite stores byte i of the string at address + i, sets the valid bit of every slot covered
and changes nothing else; MemRead returns the bytes in order, or UNINIT_OPERAND when a slot it covers is invalid; a read after
a write of the same slot returns the bytes written. -/
def Obligations.MemoryPrimitives : Prop :=
  ∀ (s : State) (k n : Nat) (v : List Byte), Memory.wf s.mem → (n = 32 ∨ n = 64) → 32 * k + n ≤ 1024 → v.length = n →
    Memory.wf (memWrite (32 * k) n v s).mem ∧
    (∀ j (h : j < v.length), Memory.read (memWrite (32 * k) n v s).mem (32 * k + j) = v[j]) ∧
    (∀ a, a < 32 * k ∨ 32 * k + n ≤ a → Memory.read (memWrite (32 * k) n v s).mem a = Memory.read s.mem a) ∧
    (∀ k', slotValid k' (memWrite (32 * k) n v s) =
      (slotValid k' s || decide (32 * k ≤ 32 * k' ∧ 32 * k' < 32 * k + n))) ∧
    memRead (32 * k) n (memWrite (32 * k) n v s) = .ok v ∧
    memRead (32 * k) n s =
      if slotValid k s ∧ (n = 64 → slotValid (k + 1) s)
      then .ok ((List.range n).map fun j => Memory.read s.mem (32 * k + j)) else .error .uninitOperand

/-! ## The execution cycle and the faults -/

/-- `spec/40_system.md` R106, `spec/10_state.md` R34: a command always gives a next state. In the fault state it changes
nothing; else it completes, adding 1 to CMDCNT (mod 2^32) and leaving STATUS.FAULT, CAUSE and FINFO, or it faults, changing
STATUS.FAULT, CAUSE and FINFO and nothing else. -/
def Obligations.CommandOutcomes : Prop :=
  ∀ (i : Instr) (s : State), ∃ t, exec i s = .next t ∧
    (s.fault = true → t = s) ∧
    (s.fault = false →
      (t.fault = false ∧ t.cmdcnt = s.cmdcnt + 1 ∧ t.cause = s.cause ∧ t.finfo = s.finfo) ∨
      ∃ c : Cause, t = { s with fault := true, cause := c.code, finfo := encode i })

/-- `spec/60_exceptions.md` R282, R283: outside the fault state a command faults exactly when a condition of its row of the
fault table holds, with the first cause in the order of R283; otherwise it completes. The premise is an invariant of the
context (`State.Inv`): its offset point is normalized, so CHK8 passes on it. -/
def Obligations.FaultTable : Prop :=
  ∀ (i : Instr) (s : State), s.Ready → s.ctx.geOffset.Within8 →
    (∀ c, faultOf i s = some c →
      exec i s = .next { s with fault := true, cause := c.code, finfo := encode i }) ∧
    (faultOf i s = none → ∃ t, exec i s = .next t ∧ t.fault = false ∧ t.cmdcnt = s.cmdcnt + 1)

/-! ## Frames: what a command leaves unchanged (`footprint` names each command's destinations) -/

/-- NOP, CTX_BUILD, CTX_CLEAR, CTX_BLIND (opcodes 0x0_): they write the context only (NOP nothing); ECMULT_GEN and ECMULT
(opcodes 0x6_): they write j[rd] only (`spec/40_system.md` R103, `spec/45_ecmult_gen.md` R251, `spec/46_ecmult.md` R266). -/
def Obligations.ContextAndMultiplierFrame : Prop :=
  ∀ (i : Instr) (s t : State), i.opcode.extractLsb' 4 4 = 0#4 ∨ i.opcode.extractLsb' 4 4 = 6#4 → exec i s = .next t →
    Untouched (footprint i) s t

/-- The sixteen FE_ commands (opcodes 0x1_): f[rd]; FE_SETB32 also OVF; FE_ISZERO, FE_EQ, FE_ISODD only T; FE_CMP only LT and
GT; FE_GETB32 only the 32 bytes from 32·imm on and that slot's valid bit. -/
def Obligations.FieldFrame : Prop :=
  ∀ (i : Instr) (s t : State), i.opcode.extractLsb' 4 4 = 1#4 → exec i s = .next t → Untouched (footprint i) s t

/-- The eighteen SC_ commands (opcodes 0x2_ and 0x3_): s[rd], in the two splits also s[rb]; SC_SETB32 and SC_ADD also OVF;
SC_CNEG also SGN; SC_ISZERO, SC_EQ, SC_ISHIGH only T; SC_GETB32 only the 32 bytes from 32·imm on and that slot's valid bit. -/
def Obligations.ScalarFrame : Prop :=
  ∀ (i : Instr) (s t : State), i.opcode.extractLsb' 4 4 = 2#4 ∨ i.opcode.extractLsb' 4 4 = 3#4 → exec i s = .next t →
    Untouched (footprint i) s t

/-- The fourteen GE_ commands (opcodes 0x4_): a[rd], in GE_GETX and GE_GETY f[rd]; GE_FROMSTOR also OVF; GE_ISINF, GE_EQ only
T; GE_TOSTOR only the 64 bytes from 32·imm on and the valid bits of those two slots. -/
def Obligations.AffineFrame : Prop :=
  ∀ (i : Instr) (s t : State), i.opcode.extractLsb' 4 4 = 4#4 → exec i s = .next t → Untouched (footprint i) s t

/-- The eleven GEJ_ commands (opcodes 0x5_): j[rd], in GEJ_GETC f[rd]; GEJ_ISINF, GEJ_EQ only T. -/
def Obligations.JacobianFrame : Prop :=
  ∀ (i : Instr) (s t : State), i.opcode.extractLsb' 4 4 = 5#4 → exec i s = .next t → Untouched (footprint i) s t

/-! ## Encoding -/

/-- `spec/30_encoding.md` R81 to R87, R92: decoding the word of a well-formed command gives it back, every operand at every
value; the word of a term that is not well formed is refused for that reason. -/
def Obligations.DecodeOfEncode : Prop :=
  ∀ i : Instr, (i.wf = true → decode (encode i) = .ok i) ∧
    ∀ m, i.check = some m → decode (encode i) = .error (.malformed m)

/-- `spec/30_encoding.md` R87, R92: a word that decodes is the word of the command it decodes to, and that command is well
formed: no bit of a word is ignored. -/
def Obligations.EncodeOfDecode : Prop :=
  ∀ (w : Word) (i : Instr), decode w = .ok i → encode i = w ∧ i.wf = true

/-- Words the spec prints with their commands (`spec/30_encoding.md` R90, `spec/40_system.md` R104 and the command rules). -/
def Obligations.DecodeSanityWords : Prop :=
  decode 0x00000000 = .ok .nop ∧
  decode 0x03000003 = .ok (.ctxBlind 3) ∧
  decode 0x16201000 = .ok (.feMul 2 0 1) ∧
  decode 0x11020002 = .ok (.feGetb32 2 2) ∧
  decode 0x28110002 = .ok (.scCneg 1 1 2) ∧
  decode 0x30102000 = .ok (.scSplitlambda 1 0 2) ∧
  decode 0x4A100004 = .ok (.geFromstor 1 4) ∧
  decode 0x56210000 = .ok (.gejAddge 2 1 0) ∧
  decode 0x61102013 = .ok (.ecmult 1 0 2 0x13)

/-! ## Whole-machine properties -/

/-- The state after reset meets the invariant of the state. -/
def Obligations.ResetMeetsInvariant : Prop := State.reset.Inv

/-- `spec/10_state.md` R22, R23, R25, R28, R32, R33, R36: from every state that meets the invariant, whatever the host does
next, the next state meets it: every valid field content within its magnitude bound and canonical when normalized, every
valid scalar below n, every infinite point with zero limbs, the blinding offset below n and its point normalized and finite,
CAUSE and FINFO 0 without a fault, BUF canonical. -/
def Obligations.StepKeepsInvariant : Prop :=
  ∀ s t : State, s.Inv → step s = .next t → t.Inv

/-- `spec/70_reset_and_hazards.md` R331, `spec/00_scope.md` R13: a CT command other than GE_TOSTOR, from two states that agree on
all valid bits, all tags, `built` and the CSRs but FLAGS, (a) faults or retires alike, (b) performs the same sequence of internal
operations, ROM reads and loop passes, and (c) leaves two states that agree so again; and the record of (b) is that of the
computation `exec` performs. FLAGS and BUF bytes are outside the agreement: they may differ, and the host can read them (R324).
Durations are not in the model (log 14); what (b) counts is log 18. -/
def Obligations.ConstantTimeCommandsRunAlike : Prop :=
  (∀ (i : Instr) (s t : State), i.cls = .ct → (∀ ra imm, i ≠ .geTostor ra imm) → PublicEq s t →
    opsOf i s = opsOf i t ∧ ∃ s' t', exec i s = .next s' ∧ exec i t = .next t' ∧ PublicEq s' t') ∧
  (∀ (i : Instr) (s : State), exec i s = command i s (traceOf fun dp => body dp i s).result)

/-- `spec/10_state.md` R29, R42: what an invalid register holds is unreadable: replaced by any fixed contents, it changes
nothing that any command does to the rest of the state. -/
def Obligations.InvalidRegistersAreUnreadable : Prop :=
  ∀ (i : Instr) (s t : State), exec i s = .next t → ∃ u, exec i s.forget = .next u ∧ u.forget = t.forget

/-! ## System and context commands -/

/-- `spec/40_system.md` R104: NOP advances CMDCNT by 1 and nothing else; in the fault state it is ignored; opcode 0x00 with
any other bit set is illegal. -/
def Obligations.NopAdvancesCmdcnt : Prop :=
  (∀ s : State, s.Ready → exec .nop s = .next { s with cmdcnt := s.cmdcnt + 1 }) ∧
  (∀ s : State, s.fault = true → exec .nop s = .next s) ∧
  decode 0 = .ok .nop ∧
  (∀ w : Word, opcOf w = 0 → w ≠ 0 → decode w = .error .unusedFieldNonzero)

/-- `spec/45_ecmult_gen.md` R246, R248: CTX_BUILD, allowed on a built context too, sets the default blinding b = 1;
CTX_CLEAR, allowed in either state, zeroes the blinding values. -/
def Obligations.ContextBuildAndClear : Prop :=
  ∀ s : State, s.Ready →
    exec .ctxBuild s = .next { s with
      cmdcnt := s.cmdcnt + 1
      ctx := ⟨true, 0x800000000000000000000000000000A205E8FB1BB354323DF6B9E8DE4CFA801F,
        ⟨⟨canon Const.gx, 1, true⟩, ⟨canon Const.gy, 1, true⟩, false⟩⟩ } ∧
    exec .ctxClear s = .next { s with
      cmdcnt := s.cmdcnt + 1
      ctx := ⟨false, 0, ⟨⟨Limbs.zero, 1, true⟩, ⟨Limbs.zero, 1, true⟩, false⟩⟩ }

/-- `spec/45_ecmult_gen.md` R247: CTX_BLIND with a slot that holds v uses b = v mod n, or 1 when that is 0; the new offset is
(COMB_DIFF − b) mod n and the new offset point is the normalized affine form of COMBMUL(b) under the old context. Without a
built context it faults, then on an invalid slot. -/
def Obligations.ContextBlind : Prop :=
  ∀ (s : State) (imm : Imm), s.Ready → imm.toNat ≤ 31 →
    (∀ v, s.ctx.built = true → s.ctx.geOffset.Within8 → s.SlotHolds imm.toNat v →
      ∃ gb A, combMul (if v % Const.n = 0 then 1 else v % Const.n) s.ctx = .ok gb ∧ toAff gb invCt = .ok A ∧
        exec (.ctxBlind imm) s = .next { s with
          cmdcnt := s.cmdcnt + 1
          ctx := ⟨true,
            BitVec.ofNat 256 ((Const.combDiff + (Const.n - if v % Const.n = 0 then 1 else v % Const.n)) % Const.n),
            ⟨⟨canon A.x.val, 1, true⟩, ⟨canon A.y.val, 1, true⟩, false⟩⟩ }) ∧
    (s.ctx.built = false → exec (.ctxBlind imm) s = .next (takeFault .ctxNotBuilt (encode (.ctxBlind imm)) s)) ∧
    (s.ctx.built = true → slotValid imm.toNat s = false →
      exec (.ctxBlind imm) s = .next (takeFault .uninitOperand (encode (.ctxBlind imm)) s))

/-! ## Field commands -/

/-- `spec/41_field.md` R117, R118: FE_SETB32 reduces the slot's value mod p and sets OVF to whether it was ≥ p; FE_GETB32
stores be32 of a normalized register and faults on one that is not. -/
def Obligations.FieldBytes : Prop :=
  ∀ (s : State) (r : RegNum) (imm : Imm), s.Ready → imm.toNat ≤ 31 →
    (∀ v, s.SlotHolds imm.toNat v →
      exec (.feSetb32 r imm) s =
        .next (retire (setOvf (decide (Const.p ≤ v)) (writeF r ⟨canon (v % Const.p), 1, true⟩ s)))) ∧
    (∀ a, s.HoldsF r a → a.norm = true →
      exec (.feGetb32 r imm) s = .next (retire (memWrite (immAddr imm) 32 (be32 a.ival) s))) ∧
    (∀ a, s.HoldsF r a → a.norm = false →
      exec (.feGetb32 r imm) s = .next (takeFault .feNotNormalized (encode (.feGetb32 r imm)) s))

/-- `spec/41_field.md` R118, `spec/42_scalar.md` R142: what FE_GETB32 stores, FE_SETB32 reads back, the same limbs and tags,
OVF = 0; the same for SC_GETB32 and SC_SETB32. -/
def Obligations.BytesRoundTrip : Prop :=
  ∀ (s t : State) (rd ra : RegNum) (imm : Imm), s.Ready → Memory.wf s.mem → imm.toNat ≤ 31 →
    (∀ a, s.HoldsF ra a → a.Wf → a.norm = true → exec (.feGetb32 ra imm) s = .next t →
      exec (.feSetb32 rd imm) t = .next (retire (setOvf false (writeF rd a t)))) ∧
    (∀ a, s.HoldsS ra a → a.toNat < Const.n → exec (.scGetb32 ra imm) s = .next t →
      exec (.scSetb32 rd imm) t = .next (retire (setOvf false (writeS rd a.toNat t))))

/-- `spec/41_field.md` R119, R120, R121: FE_SETINT, FE_MOV, FE_NORM. -/
def Obligations.FieldSetMoveNormalize : Prop :=
  ∀ (s : State) (rd ra : RegNum), s.Ready →
    (∀ imm : Imm, exec (.feSetint rd imm) s = .next (retire (writeF rd ⟨canon imm.toNat, 1, true⟩ s))) ∧
    (∀ a, s.HoldsF ra a → exec (.feMov rd ra) s = .next (retire (writeF rd a s))) ∧
    (∀ a, s.HoldsF ra a → exec (.feNorm rd ra) s = .next (retire (writeF rd ⟨canon (a.ival % Const.p), 1, true⟩ s)))

/-- `spec/41_field.md` R122: FE_ADD adds limb by limb, magnitudes add, norm = 0; FE_MAGNITUDE when the sum is over 32. -/
def Obligations.FieldAdd : Prop :=
  ∀ (s : State) (rd ra rb : RegNum) (a b : Fe), s.Ready → s.HoldsF ra a → s.HoldsF rb b →
    (a.mag + b.mag ≤ 32 →
      exec (.feAdd rd ra rb) s = .next (retire (writeF rd
        ⟨⟨a.n.n0 + b.n.n0, a.n.n1 + b.n.n1, a.n.n2 + b.n.n2, a.n.n3 + b.n.n3, a.n.n4 + b.n.n4⟩, a.mag + b.mag, false⟩
        s))) ∧
    (32 < a.mag + b.mag → exec (.feAdd rd ra rb) s = .next (takeFault .feMagnitude (encode (.feAdd rd ra rb)) s))

/-- `spec/41_field.md` R123, R124: FE_MUL and FE_SQR write the canonical limbs of the thrice folded product, tags (1, 0);
FE_MAGNITUDE when an operand's magnitude is over 8. -/
def Obligations.FieldMultiplySquare : Prop :=
  ∀ (s : State) (rd ra rb : RegNum) (a b : Fe), s.Ready → s.HoldsF ra a → s.HoldsF rb b →
    (a.mag ≤ 8 → b.mag ≤ 8 →
      exec (.feMul rd ra rb) s = .next (retire (writeF rd ⟨canon (fold3 (a.ival * b.ival)), 1, false⟩ s))) ∧
    (8 < a.mag ∨ 8 < b.mag →
      exec (.feMul rd ra rb) s = .next (takeFault .feMagnitude (encode (.feMul rd ra rb)) s)) ∧
    (a.mag ≤ 8 →
      exec (.feSqr rd ra) s = .next (retire (writeF rd ⟨canon (fold3 (a.ival * a.ival)), 1, false⟩ s))) ∧
    (8 < a.mag → exec (.feSqr rd ra) s = .next (takeFault .feMagnitude (encode (.feSqr rd ra)) s))

/-- `spec/41_field.md` R125: FE_NEG writes the limbs 2(m + 1)·PL[i] − n[i] with tags (m + 1, 0); FE_MAGNITUDE when the
magnitude is over m, so always for m = 0; ILLEGAL_CMD when m > 31. -/
def Obligations.FieldNegate : Prop :=
  ∀ (s : State) (rd ra : RegNum) (imm : Imm) (a : Fe), s.Ready → s.HoldsF ra a →
    (a.mag ≤ imm.toNat → imm.toNat ≤ 31 →
      exec (.feNeg rd ra imm) s = .next (retire (writeF rd ⟨a.n.negated imm.toNat, imm.toNat + 1, false⟩ s))) ∧
    (imm.toNat < a.mag → imm.toNat ≤ 31 →
      exec (.feNeg rd ra imm) s = .next (takeFault .feMagnitude (encode (.feNeg rd ra imm)) s)) ∧
    (31 < imm.toNat → exec (.feNeg rd ra imm) s = .next (takeFault .illegalCmd (encode (.feNeg rd ra imm)) s))

/-- `spec/41_field.md` R126: FE_CMOV selects the limbs by the condition; the tags are the larger magnitude and the
conjunction of the normalized bits whether or not the move happens; rd is read, so it must be valid. -/
def Obligations.FieldConditionalMove : Prop :=
  ∀ (s : State) (rd ra : RegNum) (imm : Imm) (a : Fe), s.Ready → s.HoldsF ra a → imm.toNat ≤ 2 →
    (∀ d, s.HoldsF rd d →
      exec (.feCmov rd ra imm) s = .next (retire (writeF rd
        ⟨if imm = 1 ∨ imm = 2 ∧ s.flags.t = true then a.n else d.n, max d.mag a.mag, d.norm && a.norm⟩ s))) ∧
    ((s.fr.get rd).valid = false →
      exec (.feCmov rd ra imm) s = .next (takeFault .uninitOperand (encode (.feCmov rd ra imm)) s))

/-- `spec/41_field.md` R127 to R130: FE_ISZERO, FE_EQ, FE_ISODD set T and FE_CMP sets LT and GT, on normalized operands;
FE_NOT_NORMALIZED otherwise. -/
def Obligations.FieldTests : Prop :=
  ∀ (s : State) (ra rb : RegNum) (a b : Fe), s.Ready → s.HoldsF ra a → s.HoldsF rb b →
    (a.norm = true → exec (.feIszero ra) s = .next (retire (setT (decide (a.ival = 0)) s))) ∧
    (a.norm = true → exec (.feIsodd ra) s = .next (retire (setT (decide (a.n.n0.toNat % 2 = 1)) s))) ∧
    (a.norm = true → b.norm = true → exec (.feEq ra rb) s = .next (retire (setT (decide (a.n = b.n)) s))) ∧
    (a.norm = true → b.norm = true →
      exec (.feCmp ra rb) s = .next (retire (setLtGt (decide (a.ival < b.ival)) (decide (a.ival > b.ival)) s))) ∧
    (a.norm = false →
      exec (.feIszero ra) s = .next (takeFault .feNotNormalized (encode (.feIszero ra)) s) ∧
      exec (.feIsodd ra) s = .next (takeFault .feNotNormalized (encode (.feIsodd ra)) s)) ∧
    (a.norm = false ∨ b.norm = false →
      exec (.feEq ra rb) s = .next (takeFault .feNotNormalized (encode (.feEq ra rb)) s) ∧
      exec (.feCmp ra rb) s = .next (takeFault .feNotNormalized (encode (.feCmp ra rb)) s))

/-- `spec/43_inversion.md` R175, R176: FE_INV and FE_INVVAR write the engine's result for ival mod p, normalized;
FE_MAGNITUDE when the magnitude is over 8; the inverse of 0 is 0. -/
def Obligations.FieldInversions : Prop :=
  (∀ (s : State) (rd ra : RegNum) (a : Fe), s.Ready → s.HoldsF ra a →
    (a.mag ≤ 8 →
      exec (.feInv rd ra) s =
        .next (retire (writeF rd ⟨canon (invCt (a.ival % Const.p) Const.p), 1, true⟩ s)) ∧
      exec (.feInvvar rd ra) s =
        .next (retire (writeF rd ⟨canon (invVar (a.ival % Const.p) Const.p), 1, true⟩ s))) ∧
    (8 < a.mag →
      exec (.feInv rd ra) s = .next (takeFault .feMagnitude (encode (.feInv rd ra)) s) ∧
      exec (.feInvvar rd ra) s = .next (takeFault .feMagnitude (encode (.feInvvar rd ra)) s))) ∧
  invCt 0 Const.p = 0 ∧ invVar 0 Const.p = 0

/-! ## Scalar commands -/

/-- `spec/42_scalar.md` R141, R142: SC_SETB32 reduces the slot's value mod n and sets OVF to whether it was ≥ n; SC_GETB32
stores be32 of the scalar. -/
def Obligations.ScalarBytes : Prop :=
  ∀ (s : State) (r : RegNum) (imm : Imm), s.Ready → imm.toNat ≤ 31 →
    (∀ v, s.SlotHolds imm.toNat v →
      exec (.scSetb32 r imm) s = .next (retire (setOvf (decide (Const.n ≤ v)) (writeS r (v % Const.n) s)))) ∧
    (∀ a, s.HoldsS r a →
      exec (.scGetb32 r imm) s = .next (retire (memWrite (immAddr imm) 32 (be32 a.toNat) s)))

/-- `spec/42_scalar.md` R143, R144: SC_SETINT and SC_MOV. -/
def Obligations.ScalarSetMove : Prop :=
  ∀ (s : State) (rd ra : RegNum), s.Ready →
    (∀ imm : Imm, exec (.scSetint rd imm) s = .next (retire (writeS rd imm.toNat s))) ∧
    (∀ a, s.HoldsS ra a → exec (.scMov rd ra) s = .next (retire (writeS rd a.toNat s)))

/-- `spec/42_scalar.md` R145 to R148: SC_ADD is the sum mod n with OVF = (a + b ≥ n), SC_MUL and SC_SQR are products mod n,
SC_NEG is −a mod n. -/
def Obligations.ScalarArithmetic : Prop :=
  ∀ (s : State) (rd ra rb : RegNum) (a b : ScalarWord), s.Ready → s.HoldsS ra a → s.HoldsS rb b →
    a.toNat < Const.n → b.toNat < Const.n →
    exec (.scAdd rd ra rb) s =
      .next (retire (setOvf (decide (Const.n ≤ a.toNat + b.toNat)) (writeS rd ((a.toNat + b.toNat) % Const.n) s))) ∧
    exec (.scMul rd ra rb) s = .next (retire (writeS rd (a.toNat * b.toNat % Const.n) s)) ∧
    exec (.scSqr rd ra) s = .next (retire (writeS rd (a.toNat * a.toNat % Const.n) s)) ∧
    exec (.scNeg rd ra) s = .next (retire (writeS rd ((Const.n - a.toNat) % Const.n) s))

/-- `spec/42_scalar.md` R149, R150: SC_CNEG negates when the condition holds and reports the condition in SGN, for the zero
scalar too; SC_CMOV copies when it holds, and reads rd as well. -/
def Obligations.ScalarConditional : Prop :=
  ∀ (s : State) (rd ra : RegNum) (imm : Imm) (a : ScalarWord), s.Ready → s.HoldsS ra a → imm.toNat ≤ 2 →
    (a.toNat < Const.n →
      exec (.scCneg rd ra imm) s = .next (retire (setSgn (decide (imm = 1 ∨ imm = 2 ∧ s.flags.t = true))
        (writeS rd (if imm = 1 ∨ imm = 2 ∧ s.flags.t = true then (Const.n - a.toNat) % Const.n else a.toNat) s)))) ∧
    (∀ d, s.HoldsS rd d →
      exec (.scCmov rd ra imm) s =
        .next (retire (writeS rd (if imm = 1 ∨ imm = 2 ∧ s.flags.t = true then a.toNat else d.toNat) s))) ∧
    ((s.sr.get rd).valid = false →
      exec (.scCmov rd ra imm) s = .next (takeFault .uninitOperand (encode (.scCmov rd ra imm)) s))

/-- `spec/42_scalar.md` R151 to R153: SC_ISZERO, SC_EQ, SC_ISHIGH set T; exactly one of a and n − a is high when a ≠ 0. -/
def Obligations.ScalarTests : Prop :=
  ∀ (s : State) (ra rb : RegNum) (a b : ScalarWord), s.Ready → s.HoldsS ra a → s.HoldsS rb b →
    exec (.scIszero ra) s = .next (retire (setT (decide (a.toNat = 0)) s)) ∧
    exec (.scEq ra rb) s = .next (retire (setT (decide (a = b)) s)) ∧
    exec (.scIshigh ra) s = .next (retire (setT (decide ((Const.n - 1) / 2 < a.toNat)) s)) ∧
    (0 < a.toNat → a.toNat < Const.n →
      ((Const.n - 1) / 2 < a.toNat ↔ ¬(Const.n - 1) / 2 < Const.n - a.toNat))

/-- `spec/43_inversion.md` R177, R178: SC_INV and SC_INVVAR write the engine's result mod n; the inverse of 0 is 0. -/
def Obligations.ScalarInversions : Prop :=
  (∀ (s : State) (rd ra : RegNum) (a : ScalarWord), s.Ready → s.HoldsS ra a →
    exec (.scInv rd ra) s = .next (retire (writeS rd (invCt a.toNat Const.n) s)) ∧
    exec (.scInvvar rd ra) s = .next (retire (writeS rd (invVar a.toNat Const.n) s))) ∧
  invCt 0 Const.n = 0 ∧ invVar 0 Const.n = 0

/-- `spec/42_scalar.md` R154: SC_MULSHIFT writes the floor of ab/2^shift, which is below n; a shift outside 256..512 is
illegal. -/
def Obligations.ScalarMulshift : Prop :=
  ∀ (s : State) (rd ra rb : RegNum) (imm : Imm) (a b : ScalarWord), s.Ready → s.HoldsS ra a → s.HoldsS rb b →
    (256 ≤ imm.toNat → imm.toNat ≤ 512 → a.toNat < Const.n → b.toNat < Const.n →
      exec (.scMulshift rd ra rb imm) s = .next (retire (writeS rd (a.toNat * b.toNat / 2 ^ imm.toNat) s)) ∧
      a.toNat * b.toNat / 2 ^ imm.toNat < Const.n) ∧
    (imm.toNat < 256 ∨ 512 < imm.toNat →
      exec (.scMulshift rd ra rb imm) s = .next (takeFault .illegalCmd (encode (.scMulshift rd ra rb imm)) s))

/-- `spec/42_scalar.md` R163, R164: SC_SPLITLAMBDA writes r1 and r2 with r1 + r2·LAMBDA ≡ k (mod n), computed as the rule
says; SC_SPLIT128 writes the two 128-bit halves; equal destinations are illegal. -/
def Obligations.ScalarSplits : Prop :=
  ∀ (s : State) (rd ra rb : RegNum) (k : ScalarWord), s.Ready → s.HoldsS ra k →
    (rd ≠ rb →
      (∃ r1 r2 : Nat,
        r2 = (k.toNat * Const.g1 / 2 ^ 384 * Const.minusB1 + k.toNat * Const.g2 / 2 ^ 384 * Const.minusB2) % Const.n ∧
        r1 < Const.n ∧ (r1 + r2 * Const.lambda) % Const.n = k.toNat % Const.n ∧
        exec (.scSplitlambda rd ra rb) s = .next (retire (writeS rb r2 (writeS rd r1 s)))) ∧
      exec (.scSplit128 rd ra rb) s =
        .next (retire (writeS rb (k.toNat / 2 ^ 128) (writeS rd (k.toNat % 2 ^ 128) s)))) ∧
    (rd = rb →
      exec (.scSplitlambda rd ra rb) s = .next (takeFault .illegalCmd (encode (.scSplitlambda rd ra rb)) s) ∧
      exec (.scSplit128 rd ra rb) s = .next (takeFault .illegalCmd (encode (.scSplit128 rd ra rb)) s))

/-! ## Affine point commands -/

/-- `spec/44_group.md` R203 to R206, R208, R216: GE_SETXY, GE_GETX, GE_GETY, GE_SETINF, GE_MOV, GE_SETG. -/
def Obligations.AffineCopies : Prop :=
  ∀ (s : State) (rd : RegNum), s.Ready →
    (∀ ra rb x y, s.HoldsF ra x → s.HoldsF rb y →
      exec (.geSetxy rd ra rb) s = .next (retire (writeA rd ⟨x, y, false⟩ s))) ∧
    (∀ ra P, s.HoldsA ra P →
      exec (.geGetx rd ra) s = .next (retire (writeF rd P.x s)) ∧
      exec (.geGety rd ra) s = .next (retire (writeF rd P.y s)) ∧
      exec (.geMov rd ra) s = .next (retire (writeA rd P s))) ∧
    exec (.geSetinf rd) s =
      .next (retire (writeA rd ⟨⟨Limbs.zero, 1, true⟩, ⟨Limbs.zero, 1, true⟩, true⟩ s)) ∧
    exec (.geSetg rd) s =
      .next (retire (writeA rd ⟨⟨canon Const.gx, 1, true⟩, ⟨canon Const.gy, 1, true⟩, false⟩ s))

/-- `spec/44_group.md` R207, R210: GE_ISINF reports the marker; GE_EQ compares by value, whatever the limbs. -/
def Obligations.AffineTests : Prop :=
  ∀ (s : State) (ra rb : RegNum) (P Q : Ge), s.Ready → s.HoldsA ra P → s.HoldsA rb Q →
    exec (.geIsinf ra) s = .next (retire (setT P.inf s)) ∧
    exec (.geEq ra rb) s = .next (retire (setT
      (decide (P.inf = true ∧ Q.inf = true ∨
        P.inf = false ∧ Q.inf = false ∧ P.x.val = Q.x.val ∧ P.y.val = Q.y.val)) s))

/-- `spec/44_group.md` R209, R211: GE_NEG negates y with its own magnitude as the bound (zero limbs for infinity); GE_MULLAMBDA
multiplies x by BETA; FE_MAGNITUDE over 31, over 8. -/
def Obligations.AffineNegateMullambda : Prop :=
  ∀ (s : State) (rd ra : RegNum) (P : Ge), s.Ready → s.HoldsA ra P →
    (P.y.mag ≤ 31 →
      exec (.geNeg rd ra) s = .next (retire (writeA rd
        ⟨P.x, ⟨if P.inf then Limbs.zero else P.y.n.negated P.y.mag, P.y.mag + 1, false⟩, P.inf⟩ s))) ∧
    (31 < P.y.mag → exec (.geNeg rd ra) s = .next (takeFault .feMagnitude (encode (.geNeg rd ra)) s)) ∧
    (P.x.mag ≤ 8 →
      exec (.geMullambda rd ra) s = .next (retire (writeA rd
        ⟨⟨canon (fold3 (P.x.ival * Const.beta)), 1, false⟩, P.y, P.inf⟩ s))) ∧
    (8 < P.x.mag → exec (.geMullambda rd ra) s = .next (takeFault .feMagnitude (encode (.geMullambda rd ra)) s))

/-- `spec/44_group.md` R212, R213: GE_TOSTOR stores be32(x) and be32(y), fully reduced, in slots k and k + 1, and faults on
infinity; GE_FROMSTOR loads both coordinates mod p, OVF when either was ≥ p. -/
def Obligations.AffineStorage : Prop :=
  ∀ (s : State) (r : RegNum) (imm : Imm), s.Ready → imm.toNat ≤ 30 →
    (∀ P, s.HoldsA r P → P.inf = false →
      exec (.geTostor r imm) s =
        .next (retire (memWrite (immAddr imm) 64 (be32 P.x.val ++ be32 P.y.val) s))) ∧
    (∀ P, s.HoldsA r P → P.inf = true →
      exec (.geTostor r imm) s = .next (takeFault .pointAtInfinity (encode (.geTostor r imm)) s)) ∧
    (∀ vx vy, s.SlotHolds imm.toNat vx → s.SlotHolds (imm.toNat + 1) vy →
      exec (.geFromstor r imm) s = .next (retire (setOvf (decide (Const.p ≤ vx ∨ Const.p ≤ vy))
        (writeA r ⟨⟨canon (vx % Const.p), 1, true⟩, ⟨canon (vy % Const.p), 1, true⟩, false⟩ s))))

/-- `spec/44_group.md` R202, R214, R215: GE_SETGEJ and GE_SETGEJVAR write (X/Z², Y/Z³) with tags (1, 0), where 1/Z is the
engine's inverse, or infinity with zero limbs; FE_MAGNITUDE when a coordinate's magnitude is over 8. -/
def Obligations.AffineFromJacobian : Prop :=
  ∀ (s : State) (rd ra : RegNum) (P : Gej), s.Ready → s.HoldsJ ra P →
    (P.Within8 → P.Wf → ∀ inv i, (inv = invCt ∧ i = .geSetgej rd ra ∨ inv = invVar ∧ i = .geSetgejvar rd ra) →
      ∃ R : Ge, exec i s = .next (retire (writeA rd R s)) ∧
        R.x.mag = 1 ∧ R.y.mag = 1 ∧ R.x.norm = false ∧ R.y.norm = false ∧ R.inf = P.inf ∧
        (P.inf = true → R.x.n = Limbs.zero ∧ R.y.n = Limbs.zero) ∧
        (P.inf = false →
          R.x.mod = P.x.mod * (inv P.z.val Const.p : ZMod Const.p) ^ 2 ∧
          R.y.mod = P.y.mod * (inv P.z.val Const.p : ZMod Const.p) ^ 3)) ∧
    (¬P.Within8 →
      exec (.geSetgej rd ra) s = .next (takeFault .feMagnitude (encode (.geSetgej rd ra)) s) ∧
      exec (.geSetgejvar rd ra) s = .next (takeFault .feMagnitude (encode (.geSetgejvar rd ra)) s))

/-! ## Jacobian point commands -/

/-- `spec/44_group.md` R217 to R220, R227: GEJ_SETGE (Z = 1, or zero limbs for infinity), GEJ_SETINF, GEJ_ISINF, GEJ_MOV,
GEJ_GETC. -/
def Obligations.JacobianCopies : Prop :=
  ∀ (s : State) (rd : RegNum), s.Ready →
    (∀ ra P, s.HoldsA ra P →
      exec (.gejSetge rd ra) s = .next (retire (writeJ rd
        ⟨P.x, P.y, ⟨if P.inf then Limbs.zero else canon 1, 1, true⟩, P.inf⟩ s))) ∧
    exec (.gejSetinf rd) s = .next (retire (writeJ rd
      ⟨⟨Limbs.zero, 1, true⟩, ⟨Limbs.zero, 1, true⟩, ⟨Limbs.zero, 1, true⟩, true⟩ s)) ∧
    (∀ ra P, s.HoldsJ ra P →
      exec (.gejIsinf ra) s = .next (retire (setT P.inf s)) ∧
      exec (.gejMov rd ra) s = .next (retire (writeJ rd P s)) ∧
      exec (.gejGetc rd ra 0) s = .next (retire (writeF rd P.x s)) ∧
      exec (.gejGetc rd ra 1) s = .next (retire (writeF rd P.y s)) ∧
      exec (.gejGetc rd ra 2) s = .next (retire (writeF rd P.z s)))

/-- `spec/44_group.md` R221, R222: GEJ_NEG negates Y with its own magnitude as the bound; GEJ_DBL writes DBL with tags
(6, 4, 2), keeping the marker, with zero limbs for infinity; FE_MAGNITUDE over 31, over 8. -/
def Obligations.JacobianNegateDouble : Prop :=
  ∀ (s : State) (rd ra : RegNum) (P : Gej), s.Ready → s.HoldsJ ra P →
    (P.y.mag ≤ 31 →
      exec (.gejNeg rd ra) s = .next (retire (writeJ rd
        ⟨P.x, ⟨if P.inf then Limbs.zero else P.y.n.negated P.y.mag, P.y.mag + 1, false⟩, P.z, P.inf⟩ s))) ∧
    (31 < P.y.mag → exec (.gejNeg rd ra) s = .next (takeFault .feMagnitude (encode (.gejNeg rd ra)) s)) ∧
    (P.Within8 →
      ∃ R, gejDbl P = .ok R ∧ exec (.gejDbl rd ra) s = .next (retire (writeJ rd R s)) ∧ R.Tags 6 4 2 ∧ R.inf = P.inf ∧
        (P.inf = true → R.x.n = Limbs.zero ∧ R.y.n = Limbs.zero ∧ R.z.n = Limbs.zero)) ∧
    (¬P.Within8 → exec (.gejDbl rd ra) s = .next (takeFault .feMagnitude (encode (.gejDbl rd ra)) s))

/-- `spec/44_group.md` R200, R223: GEJ_ADDGE writes ADDGE, with tags that depend on the operands' tags only; FE_MAGNITUDE when
any of the five coordinates has magnitude over 8, also when an operand is infinite. -/
def Obligations.JacobianAddge : Prop :=
  ∀ (s : State) (rd ra rb : RegNum) (P : Gej) (b : Ge), s.Ready → s.HoldsJ ra P → s.HoldsA rb b →
    (P.Within8 → b.Within8 →
      ∃ R, gejAddGe P b = .ok R ∧ exec (.gejAddge rd ra rb) s = .next (retire (writeJ rd R s)) ∧
        R.Tags (max 6 (max P.x.mag b.x.mag)) (max 4 (max P.y.mag b.y.mag)) (max 2 P.z.mag) ∧
        (R.inf = true → R.x.n = Limbs.zero ∧ R.y.n = Limbs.zero ∧ R.z.n = Limbs.zero)) ∧
    (¬(P.Within8 ∧ b.Within8) →
      exec (.gejAddge rd ra rb) s = .next (takeFault .feMagnitude (encode (.gejAddge rd ra rb)) s))

/-- `spec/44_group.md` R198, R199, R224, R225: GEJ_ADDGEVAR and GEJ_ADDVAR return the other operand when one is infinite,
whatever its tags; with both finite they write the addition (an infinity of tags (1, 1, 1), a doubling, or tags (5, 3, 1)), and
FE_MAGNITUDE when a coordinate has magnitude over 8. -/
def Obligations.JacobianAddVariable : Prop :=
  ∀ (s : State) (rd ra rb : RegNum) (P : Gej), s.Ready → s.HoldsJ ra P →
    (∀ b, s.HoldsA rb b →
      (P.inf = true → exec (.gejAddgevar rd ra rb) s = .next (retire (writeJ rd (toJac b) s))) ∧
      (P.inf = false → b.inf = true → exec (.gejAddgevar rd ra rb) s = .next (retire (writeJ rd P s))) ∧
      (P.inf = false → b.inf = false → P.Within8 → b.Within8 →
        ∃ R, gejAddGeVar P b = .ok R ∧ exec (.gejAddgevar rd ra rb) s = .next (retire (writeJ rd R s)) ∧
          (R = Gej.infinity ∨ gejDbl P = .ok R ∨ R.Tags 5 3 1 ∧ R.inf = false)) ∧
      (P.inf = false → b.inf = false → ¬(P.Within8 ∧ b.Within8) →
        exec (.gejAddgevar rd ra rb) s = .next (takeFault .feMagnitude (encode (.gejAddgevar rd ra rb)) s))) ∧
    (∀ Q, s.HoldsJ rb Q →
      (P.inf = true → exec (.gejAddvar rd ra rb) s = .next (retire (writeJ rd Q s))) ∧
      (P.inf = false → Q.inf = true → exec (.gejAddvar rd ra rb) s = .next (retire (writeJ rd P s))) ∧
      (P.inf = false → Q.inf = false → P.Within8 → Q.Within8 →
        ∃ R, gejAddVar P Q = .ok R ∧ exec (.gejAddvar rd ra rb) s = .next (retire (writeJ rd R s)) ∧
          (R = Gej.infinity ∨ gejDbl P = .ok R ∨ R.Tags 5 3 1 ∧ R.inf = false)) ∧
      (P.inf = false → Q.inf = false → ¬(P.Within8 ∧ Q.Within8) →
        exec (.gejAddvar rd ra rb) s = .next (takeFault .feMagnitude (encode (.gejAddvar rd ra rb)) s)))

/-- `spec/44_group.md` R226: GEJ_EQ is the conjunction of the markers when one operand is infinite; else it compares
X1·Z2² with X2·Z1² and Y1·Z2³ with Y2·Z1³ mod p; FE_MAGNITUDE when both are finite and a coordinate has magnitude over 8. -/
def Obligations.JacobianEquality : Prop :=
  ∀ (s : State) (ra rb : RegNum) (P Q : Gej), s.Ready → s.HoldsJ ra P → s.HoldsJ rb Q →
    (P.inf = true ∨ Q.inf = true → exec (.gejEq ra rb) s = .next (retire (setT (P.inf && Q.inf) s))) ∧
    (P.inf = false → Q.inf = false → P.Within8 → Q.Within8 → P.Wf → Q.Wf →
      ∃ e : Bool, exec (.gejEq ra rb) s = .next (retire (setT e s)) ∧
        (e = true ↔ P.x.mod * Q.z.mod ^ 2 = Q.x.mod * P.z.mod ^ 2 ∧ P.y.mod * Q.z.mod ^ 3 = Q.y.mod * P.z.mod ^ 3)) ∧
    (P.inf = false → Q.inf = false → ¬(P.Within8 ∧ Q.Within8) →
      exec (.gejEq ra rb) s = .next (takeFault .feMagnitude (encode (.gejEq ra rb)) s))

/-! ## Multiplications -/

/-- `spec/45_ecmult_gen.md` R249, R251, R252: ECMULT_GEN under a built context writes COMBMUL of the scalar with tags (6, 4, 2),
leaves the context and reads the comb ROM in the order of R252, whatever the scalar and the context; without a built context it
faults CTX_NOT_BUILT. The premise on the offset point is an invariant of the context. R241 to R245, what COMBMUL is: the masked
lookup of an entry gives the ROM's point; each entry is on the curve of `spec/00_scope.md` R8, and so is every multiple of G
computed for the ROM, by (y/z³)² = (x/z²)³ + 7 (doubling and adding in Jacobian coordinates is the model's own way to compute an
entry: log 15, DEDUCED); the signed ROM scalars a scalar d selects sum to d − COMB_DIFF mod n; and COMBMUL is the loop over those
signed entries. -/
def Obligations.EcmultGen : Prop :=
  (∀ (s : State) (rd ra : RegNum), s.Ready →
    (∀ k, s.ctx.built = true → s.HoldsS ra k → s.ctx.geOffset.x.mag = 1 → s.ctx.geOffset.y.mag = 1 →
      (∃ R, combMul k.toNat s.ctx = .ok R ∧ exec (.ecmultGen rd ra) s = .next (retire (writeJ rd R s)) ∧ R.Tags 6 4 2) ∧
      (opsOf (.ecmultGen rd ra) s).filterMap Event.combRead = combReads) ∧
    (s.ctx.built = false → exec (.ecmultGen rd ra) s = .next (takeFault .ctxNotBuilt (encode (.ecmultGen rd ra)) s)) ∧
    (s.ctx.built = true → (s.sr.get ra).valid = false →
      exec (.ecmultGen rd ra) s = .next (takeFault .uninitOperand (encode (.ecmultGen rd ra)) s))) ∧
  (∀ b idx, b < 11 → idx < 32 →
    combLookup b idx = (⟨canon (romPoint b idx).1, 1, true⟩, ⟨canon (romPoint b idx).2, 1, true⟩)) ∧
  (∀ b idx, b < 11 → idx < 32 →
    ((romPoint b idx).2 : ZMod Const.p) ^ 2 = ((romPoint b idx).1 : ZMod Const.p) ^ 3 + 7) ∧
  (∀ bits k : Nat, let P := curveMulG bits k
    (P.y : ZMod Const.p) ^ 2 = (P.x : ZMod Const.p) ^ 3 + 7 * (P.z : ZMod Const.p) ^ 6) ∧
  (∀ d : Nat, d < 2 ^ 256 →
    (∑ off ∈ Finset.range 4, ∑ b ∈ Finset.range 11,
      (toothSign d off b * 2 ^ off * romScalar b (toothIndex d off b) : ZMod Const.n)) = d - Const.combDiff) ∧
  (∀ (k : Nat) (c : Context), combMul k c = do
    let r ← combFrom ((k + c.scalarOffset.toNat) % Const.n) 4 Gej.infinity
    gejAddGe r c.geOffset)

/-- `spec/46_ecmult.md` R266: ECMULT writes the result of the wNAF loop for A, na and the generator scalar, if one is named;
it needs no context; with no term it writes INFJ; FE_MAGNITUDE exactly when A is finite, na ≠ 0 and a coordinate has magnitude
over 8. R262 to R266, what that result is: TERMS and its halves, the odd-multiple table, its twin, a pass, what a term adds, the
order of the passes, and which terms there are. -/
def Obligations.Ecmult : Prop :=
  (∀ (s : State) (rd ra rb : RegNum) (imm : Imm) (A : Gej) (na : ScalarWord) (ng : Option Nat), s.Ready →
    s.HoldsJ ra A → s.HoldsS rb na →
    (imm = 0 ∧ ng = none ∨
      ∃ (g : RegNum) (v : ScalarWord), imm.toNat = 16 + g.toNat ∧ s.HoldsS g v ∧ ng = some v.toNat) →
    ((A.inf = true ∨ na = 0 ∨ A.Within8) →
      ∃ R, ecmult A na.toNat ng = .ok R ∧ exec (.ecmult rd ra rb imm) s = .next (retire (writeJ rd R s))) ∧
    ((A.inf = true ∨ na = 0) → (ng = none ∨ ng = some 0) →
      exec (.ecmult rd ra rb imm) s = .next (retire (writeJ rd Gej.infinity s))) ∧
    (A.inf = false → na ≠ 0 → ¬A.Within8 →
      exec (.ecmult rd ra rb imm) s = .next (takeFault .feMagnitude (encode (.ecmult rd ra rb imm)) s))) ∧
  -- R264: the signed halves of TERMS, each at most (n − 1)/2, recombine to k.
  (∀ k : Nat, k < Const.n →
    (lowHalf (splitLambda k).1).1 ≤ Const.nHalf ∧ (lowHalf (splitLambda k).2).1 ≤ Const.nHalf ∧
      (signed (lowHalf (splitLambda k).1) + signed (lowHalf (splitLambda k).2) * Const.lambda : ZMod Const.n) = k) ∧
  -- R264: TERMS is the recoding of the two halves, the first over ODDTAB, the second over its twin.
  (∀ (B : Gej) (k : Nat), B.Within8 →
    ∃ T LT, oddTab B = .ok T ∧ lamTab T = .ok LT ∧ terms B k = .ok
      [⟨wnaf (lowHalf (splitLambda k).1).1 5, (lowHalf (splitLambda k).1).2, T⟩,
        ⟨wnaf (lowHalf (splitLambda k).2).1 5, (lowHalf (splitLambda k).2).2, LT⟩]) ∧
  -- R262: ODDTAB starts at B and steps by ADDVAR with DBL(B).
  (∀ B : Gej, B.Within8 →
    ∃ D T, gejDbl B = .ok D ∧ oddTab B = .ok T ∧ T.length = 8 ∧ T[0]? = some B ∧
      ∀ i < 7, ∃ P Q, T[i]? = some P ∧ T[i + 1]? = some Q ∧ gejAddVar P D = .ok Q) ∧
  -- R263: LAMTAB multiplies X by BETA on values, tags (1, 0), and keeps Y, Z and inf.
  (∀ T : List Gej, (∀ P ∈ T, P.Wf ∧ P.Within8) →
    ∃ LT, lamTab T = .ok LT ∧ LT.length = T.length ∧
      ∀ (i : Nat) (P : Gej), T[i]? = some P → ∃ Q : Gej, LT[i]? = some Q ∧
        Q.x.mod = P.x.mod * Const.beta ∧ Q.x.mag = 1 ∧ Q.x.norm = false ∧ Q.y = P.y ∧ Q.z = P.z ∧ Q.inf = P.inf) ∧
  -- R266: a pass is DBL, then what each term adds, in list order.
  (∀ (r D : Gej) (i : Nat), gejDbl r = .ok D → ecmultPass [] r i = .ok D) ∧
  (∀ (ts : List Term) (t : Term) (r R : Gej) (i : Nat), ecmultPass ts r i = .ok R →
    ecmultPass (ts ++ [t]) r i = addTerm i R t) ∧
  -- R266: a term adds its signed digit's odd multiple by ADDVAR: entry (e − 1)/2, or NEGJ of entry (−e − 1)/2; 0 adds nothing.
  (∀ (i j : Nat) (r P : Gej) (t : Term), let e := if t.negative then -(t.digits.getD i 0) else t.digits.getD i 0
    (e = 0 → addTerm i r t = .ok r) ∧
    (e = 2 * j + 1 → t.table[j]? = some P → addTerm i r t = gejAddVar r P) ∧
    (e = -(2 * j + 1) → t.table[j]? = some P → ∀ M, negJ P = .ok M → addTerm i r t = gejAddVar r M)) ∧
  -- R266: the passes run from the longest digit list's top position down to 0, over the terms of A, then those of G.
  (∀ ts : List Term, ecmultLoop ts = ecmultFrom ts (longest ts) Gej.infinity ∧
    (∀ t ∈ ts, t.digits.length ≤ longest ts) ∧ (ts ≠ [] → ∃ t ∈ ts, t.digits.length = longest ts)) ∧
  (∀ (A : Gej) (na g : Nat) (ta tg : List Term), g ≠ 0 →
    terms ⟨⟨canon Const.gx, 1, true⟩, ⟨canon Const.gy, 1, true⟩, ⟨canon 1, 1, true⟩, false⟩ g = .ok tg →
    (A.inf = true ∨ na = 0 → ecmult A na (some g) = ecmultLoop tg) ∧
    (A.inf = false → na ≠ 0 → A.Within8 → terms ⟨feNorm A.x, feNorm A.y, feNorm A.z, false⟩ na = .ok ta →
      ecmult A na none = ecmultLoop ta ∧ ecmult A na (some 0) = ecmultLoop ta ∧
        ecmult A na (some g) = ecmultLoop (ta ++ tg)))

/-! ## What the helpers compute -/

/-- `spec/41_field.md` R132: on contents that meet the register invariant ADD, TIMES, NEG, MUL, SQR and NORM are addition,
multiplication by k, negation, multiplication, squaring and the identity mod p; a normalized register has canonical limbs. -/
def Obligations.FieldHelpersComputeModP : Prop :=
  ∀ a b : Fe, a.Wf → b.Wf →
    (a.mag + b.mag ≤ 32 → ∃ r, feAdd a b = .ok r ∧ r.Wf ∧ r.val = (a.val + b.val) % Const.p) ∧
    (∀ k, 1 ≤ k → a.mag * k ≤ 32 → ∃ r, feTimes a k = .ok r ∧ r.Wf ∧ r.val = k * a.val % Const.p) ∧
    (∀ m, a.mag ≤ m → m ≤ 31 → ∃ r, feNeg a m = .ok r ∧ r.Wf ∧ r.val = (Const.p - a.val) % Const.p) ∧
    (a.mag ≤ 8 → b.mag ≤ 8 → ∃ r, feMul a b = .ok r ∧ r.Wf ∧ r.val = a.val * b.val % Const.p) ∧
    (a.mag ≤ 8 → ∃ r, feSqr a = .ok r ∧ r.Wf ∧ r.val = a.val * a.val % Const.p) ∧
    ((feNorm a).Wf ∧ (feNorm a).val = a.val) ∧
    (a.norm = true → a.n = canon a.val)

/-- `spec/44_group.md` R196: on values DBL is the tangent formula for a = 0: with M = 3X², S = 4XY²,
X3 = M² − 2S, Y3 = M(S − X3) − 8Y⁴, Z3 = 2YZ. -/
def Obligations.DoublingIsTheTangentFormula : Prop :=
  ∀ P : Gej, P.Wf → P.Within8 →
    ∃ R, gejDbl P = .ok R ∧ R.Wf ∧ R.inf = P.inf ∧
      (P.inf = false →
        R.x.mod = (3 * P.x.mod ^ 2) ^ 2 - 2 * (4 * P.x.mod * P.y.mod ^ 2) ∧
        R.y.mod = 3 * P.x.mod ^ 2 * (4 * P.x.mod * P.y.mod ^ 2 - R.x.mod) - 8 * P.y.mod ^ 4 ∧
        R.z.mod = 2 * P.y.mod * P.z.mod)

/-- `spec/44_group.md` R197, R198, R200, on values. ADDVAR of finite contents, with U1 = X1·Z2², S1 = Y1·Z2³, H = X2·Z1² − U1,
I = Y2·Z1³ − S1: for H ≠ 0 the chord formula X3 = I² − H³ − 2·U1·H², Y3 = (U1·H² − X3)·I − S1·H³, Z3 = Z1·Z2·H; for H = 0, I ≠ 0
infinity; for H = I = 0 the doubling. ADDGEVAR of finite contents (R199) is the same with Z2 = 1. ADDGE is that too, complete: P
for b infinite, b for P infinite. -/
def Obligations.AdditionIsTheChordFormula : Prop :=
  (∀ P Q : Gej, P.Wf → Q.Wf → P.Within8 → Q.Within8 → P.inf = false → Q.inf = false →
    ∀ U S H I : ZMod Const.p, U = P.x.mod * Q.z.mod ^ 2 → S = P.y.mod * Q.z.mod ^ 3 →
      H = Q.x.mod * P.z.mod ^ 2 - U → I = Q.y.mod * P.z.mod ^ 3 - S →
      (H ≠ 0 → ∃ R, gejAddVar P Q = .ok R ∧ R.inf = false ∧ R.x.mod = I ^ 2 - H ^ 3 - 2 * U * H ^ 2 ∧
        R.y.mod = (U * H ^ 2 - R.x.mod) * I - S * H ^ 3 ∧ R.z.mod = P.z.mod * Q.z.mod * H) ∧
      (H = 0 → I ≠ 0 → gejAddVar P Q = .ok Gej.infinity) ∧
      (H = 0 → I = 0 → gejAddVar P Q = gejDbl P)) ∧
  (∀ (P : Gej) (b : Ge), P.Wf → b.Wf → P.Within8 → b.Within8 → P.inf = false → b.inf = false →
    ∀ H I : ZMod Const.p, H = b.x.mod * P.z.mod ^ 2 - P.x.mod → I = b.y.mod * P.z.mod ^ 3 - P.y.mod →
      (H ≠ 0 → ∃ R, gejAddGeVar P b = .ok R ∧ R.inf = false ∧ R.x.mod = I ^ 2 - H ^ 3 - 2 * P.x.mod * H ^ 2 ∧
        R.y.mod = (P.x.mod * H ^ 2 - R.x.mod) * I - P.y.mod * H ^ 3 ∧ R.z.mod = P.z.mod * H) ∧
      (H = 0 → I ≠ 0 → gejAddGeVar P b = .ok Gej.infinity) ∧
      (H = 0 → I = 0 → gejAddGeVar P b = gejDbl P)) ∧
  (∀ (P : Gej) (b : Ge), P.Wf → b.Wf → P.Within8 → b.Within8 → ∃ R, gejAddGe P b = .ok R ∧
    (P.inf = true → b.inf = true → R.inf = true) ∧
    (P.inf = true → b.inf = false → R.inf = false ∧ R.x.mod = b.x.mod ∧ R.y.mod = b.y.mod ∧ R.z.mod = 1) ∧
    (P.inf = false → b.inf = true → R.inf = false ∧ R.x.mod = P.x.mod ∧ R.y.mod = P.y.mod ∧ R.z.mod = P.z.mod) ∧
    (P.inf = false → b.inf = false →
      ∀ H I : ZMod Const.p, H = b.x.mod * P.z.mod ^ 2 - P.x.mod → I = b.y.mod * P.z.mod ^ 3 - P.y.mod →
        (H ≠ 0 → R.inf = false ∧ R.x.mod = I ^ 2 - H ^ 3 - 2 * P.x.mod * H ^ 2 ∧
          R.y.mod = (P.x.mod * H ^ 2 - R.x.mod) * I - P.y.mod * H ^ 3 ∧ R.z.mod = P.z.mod * H) ∧
        (H = 0 → I ≠ 0 → R.inf = true) ∧
        (H = 0 → I = 0 → R.inf = false ∧ ∃ D, gejDbl P = .ok D ∧ R.x.mod = D.x.mod ∧ R.y.mod = D.y.mod ∧
          R.z.mod = D.z.mod)))

/-- `spec/43_inversion.md` R171, R172: a batch satisfies u·f + v·g = 2^62·f' and q·f + r·g = 2^62·g' exactly, f' is odd, and
the entries of its matrix are at most 2^62 in size. -/
def Obligations.DivstepBatchMatrix : Prop :=
  ∀ delta f g : Int, f % 2 = 1 →
    let b := divBatch delta f g
    b.u * f + b.v * g = 2 ^ 62 * b.f ∧ b.q * f + b.r * g = 2 ^ 62 * b.g ∧ b.f % 2 = 1 ∧
    |b.u| ≤ 2 ^ 62 ∧ |b.v| ≤ 2 ^ 62 ∧ |b.q| ≤ 2 ^ 62 ∧ |b.r| ≤ 2 ^ 62

/-- `spec/43_inversion.md` R173, R174, R179, R180: for an odd modulus, when the twelve batches have brought g to 0 and f to ±1,
INV_CT is the inverse; when INV_VAR stopped at g = 0 within twelve batches, INV_VAR = INV_CT; the inverse of 0 is 0. That
twelve batches always suffice is a fact the spec takes from general knowledge (log 13). `spec/70_reset_and_hazards.md` R330,
`spec/00_scope.md` R13: INV_CT always runs 12 batches of 62 divsteps and reads one correction constant, INV_VAR as many batches
as its count says. That the count is at most 12 for every operand is the model's bound on the loop (log 12, DEDUCED); the exact
records rest on what the model counts as an event (log 18). -/
def Obligations.InversionEngine : Prop :=
  (∀ x M : Nat, M % 2 = 1 → x < M →
    ((invBatches M 12 (invStart x M)).g = 0 →
      ((invBatches M 12 (invStart x M)).f = 1 ∨ (invBatches M 12 (invStart x M)).f = -1) →
      x * invCt x M % M = 1 % M) ∧
    ((invVarRun x M).1.g = 0 → invVar x M = invCt x M) ∧
    invCt 0 M = 0 ∧ invVar 0 M = 0) ∧
  (∀ x M : Nat,
    (traceOf fun dp => dp.invCt x M).events =
      (List.replicate 12 [Event.passes .batch 1, Event.passes .divstep 62]).flatten ++ [Event.correction M 12] ∧
    (traceOf fun dp => dp.invVar x M).events =
      (List.replicate (invVarRun x M).2 [Event.passes .batch 1, Event.passes .divstep 62]).flatten ++
        [Event.correction M (invVarRun x M).2] ∧
    1 ≤ (invVarRun x M).2 ∧ (invVarRun x M).2 ≤ 12)

/-- `spec/46_ecmult.md` R260: WNAF(k, w) recodes k: the digits sum to k; a nonzero digit is odd and at most 2^(w−1) − 1 in
size, and is followed by at least w − 1 zeros; the last digit is nonzero; there are at most bitlength(k) + 1 digits; the list
is empty for k = 0. -/
def Obligations.WnafRecodes : Prop :=
  ∀ k w : Nat, 2 ≤ w →
    (wnaf k w).foldr (fun d acc => d + 2 * acc) 0 = (k : Int) ∧
    (∀ d ∈ wnaf k w, d ≠ 0 → d % 2 = 1 ∧ |d| ≤ 2 ^ (w - 1) - 1) ∧
    (∀ i j, i < j → j < i + w → (wnaf k w).getD i 0 ≠ 0 → (wnaf k w).getD j 0 = 0) ∧
    (∀ d, (wnaf k w).getLast? = some d → d ≠ 0) ∧
    (wnaf k w).length ≤ Nat.size k + 1 ∧
    wnaf 0 w = []
end

