-- ==== Sys2Proof/Laws/Memory.lean ====
section
/-! SUPPORT. Memory: a read after a write, and the canonical form under every memory operation. -/

namespace Sys2Proof.Machine

/-! ## One byte -/

theorem read_write_same (m : List Host.Cell) (a : Nat) (v : Byte) (h : Memory.wf m) :
    Memory.read (Memory.write m a v) a = v := by
  induction m with
  | nil => by_cases hv : v = Memory.unlisted <;> simp [Memory.write, Memory.read, hv]
  | cons c rest ih =>
    obtain ⟨b, w⟩ := c
    have hrest : Memory.wf rest := ⟨(List.pairwise_cons.1 h.1).2, fun c hc => h.2 c (List.mem_cons_of_mem _ hc)⟩
    have hlow : ∀ c ∈ rest, b < c.1 := (List.pairwise_cons.1 h.1).1
    have hfar : ∀ l : List Host.Cell, (∀ c ∈ l, a < c.1) → Memory.read l a = Memory.unlisted := by
      intro l hl
      induction l with
      | nil => rfl
      | cons d l ihl =>
        obtain ⟨e, x⟩ := d
        have he : a < e := hl (e, x) (List.mem_cons_self ..)
        simp [Memory.read, Nat.ne_of_gt he, ihl fun c hc => hl c (List.mem_cons_of_mem _ hc)]
    unfold Memory.write
    split
    · next hab =>
      split
      · next hv =>
        rw [hv]
        refine hfar _ fun c hc => ?_
        rcases List.mem_cons.1 hc with rfl | hc
        · exact hab
        · exact lt_trans hab (hlow c hc)
      · simp [Memory.read]
    · split
      · next hab =>
        split
        · next hv => rw [hv]; exact hfar _ fun c hc => hab ▸ hlow c hc
        · simp [Memory.read]
      · next hab => simp [Memory.read, Ne.symm hab, ih hrest]

theorem read_write_other (m : List Host.Cell) {a x : Nat} (v : Byte) (h : x ≠ a) :
    Memory.read (Memory.write m a v) x = Memory.read m x := by
  induction m with
  | nil => by_cases hv : v = Memory.unlisted <;> simp [Memory.write, Memory.read, hv, Ne.symm h]
  | cons c rest ih =>
    obtain ⟨b, w⟩ := c
    unfold Memory.write
    split
    · split
      · rfl
      · simp [Memory.read, Ne.symm h]
    · split
      · next hab =>
        subst hab
        split <;> simp [Memory.read, Ne.symm h]
      · by_cases hb : b = x <;> simp [Memory.read, hb, ih]

/-- A cell of the memory after a write is a cell from before, or the one written. -/
theorem mem_write {m : List Host.Cell} {a : Nat} {v : Byte} {c : Host.Cell} (hc : c ∈ Memory.write m a v) :
    c ∈ m ∨ (c = (a, v) ∧ v ≠ Memory.unlisted) := by
  induction m with
  | nil =>
    unfold Memory.write at hc
    split at hc
    · exact .inl hc
    · exact .inr ⟨by simpa using hc, ‹_›⟩
  | cons d rest ih =>
    obtain ⟨b, w⟩ := d
    unfold Memory.write at hc
    split at hc
    · split at hc
      · exact .inl hc
      · rcases List.mem_cons.1 hc with rfl | hc
        · exact .inr ⟨rfl, ‹_›⟩
        · exact .inl hc
    · split at hc
      · split at hc
        · exact .inl (List.mem_cons_of_mem _ hc)
        · rcases List.mem_cons.1 hc with rfl | hc
          · exact .inr ⟨rfl, ‹_›⟩
          · exact .inl (List.mem_cons_of_mem _ hc)
      · rcases List.mem_cons.1 hc with rfl | hc
        · exact .inl (List.mem_cons_self ..)
        · rcases ih hc with h | h
          · exact .inl (List.mem_cons_of_mem _ h)
          · exact .inr h

theorem wf_write {m : List Host.Cell} (a : Nat) (v : Byte) (h : Memory.wf m) (ha : a < 1024) :
    Memory.wf (Memory.write m a v) := by
  refine ⟨?_, fun c hc => ?_⟩
  · clear ha
    induction m with
    | nil => unfold Memory.write; split <;> simp
    | cons c rest ih =>
      obtain ⟨b, w⟩ := c
      have hp := List.pairwise_cons.1 h.1
      have hrest : Memory.wf rest := ⟨hp.2, fun c hc => h.2 c (List.mem_cons_of_mem _ hc)⟩
      unfold Memory.write
      split
      · next hab =>
        split
        · exact h.1
        · refine List.pairwise_cons.2 ⟨fun c hc => ?_, h.1⟩
          rcases List.mem_cons.1 hc with rfl | hc
          · exact hab
          · exact lt_trans hab (hp.1 c hc)
      · next hab =>
        split
        · next hab' =>
          subst hab'
          split
          · exact hp.2
          · exact List.pairwise_cons.2 ⟨fun c hc => hp.1 c hc, hp.2⟩
        · next hab' =>
          refine List.pairwise_cons.2 ⟨fun c hc => ?_, ih hrest⟩
          rcases mem_write hc with hc | ⟨rfl, -⟩
          · exact hp.1 c hc
          · show b < a; omega
  · rcases mem_write hc with hc | ⟨rfl, hv⟩
    · exact h.2 c hc
    · exact ⟨hv, ha⟩

/-! ## Strings of bytes -/

theorem wf_writeBytes {m : List Host.Cell} (a : Nat) (bs : List Byte) (h : Memory.wf m) (ha : a + bs.length ≤ 1024) :
    Memory.wf (Memory.writeBytes m a bs) := by
  induction bs generalizing m a with
  | nil => exact h
  | cons b rest ih =>
    simp only [List.length_cons] at ha
    exact ih (a + 1) (wf_write a b h (by omega)) (by omega)

/-- A byte outside the string written is as it was. -/
theorem read_writeBytes_outside (m : List Host.Cell) (a : Nat) (bs : List Byte) {x : Nat}
    (h : x < a ∨ a + bs.length ≤ x) : Memory.read (Memory.writeBytes m a bs) x = Memory.read m x := by
  induction bs generalizing m a with
  | nil => rfl
  | cons b rest ih =>
    simp only [List.length_cons] at h
    rw [Memory.writeBytes, ih _ (a + 1) (by omega), read_write_other _ _ (by omega)]

/-- Byte i of the string written reads back. -/
theorem read_writeBytes_inside (m : List Host.Cell) (a : Nat) (bs : List Byte) (h : Memory.wf m)
    (ha : a + bs.length ≤ 1024) {i : Nat} (hi : i < bs.length) :
    Memory.read (Memory.writeBytes m a bs) (a + i) = bs[i] := by
  induction bs generalizing m a i with
  | nil => simp at hi
  | cons b rest ih =>
    simp only [List.length_cons] at ha hi
    rw [Memory.writeBytes]
    cases i with
    | zero =>
      rw [read_writeBytes_outside _ _ _ (by omega), Nat.add_zero, read_write_same _ _ _ h]
      rfl
    | succ i =>
      rw [show a + (i + 1) = a + 1 + i by omega, ih _ (a + 1) (wf_write a b h (by omega)) (by omega) (by omega)]
      rfl

/-! ## 32-byte encodings -/

@[simp] theorem be32_length (v : Nat) : (be32 v).length = 32 := by simp [be32]

theorem be32_getElem (v : Nat) {j : Nat} (h : j < (be32 v).length) :
    (be32 v)[j] = BitVec.ofNat 8 (v >>> (8 * (31 - j))) := by
  simp [be32]

/-- `int_be` of a string one byte longer. -/
theorem intBe_append (l : List Byte) (x : Byte) : intBe (l ++ [x]) = 256 * intBe l + x.toNat := by
  simp [intBe]

/-- `int_be` inverts the first bytes of `be32`. -/
theorem intBe_be32_take (v : Nat) (h : v < 2 ^ 256) (k : Nat) (hk : k ≤ 32) :
    intBe ((List.range k).map fun j => BitVec.ofNat 8 (v >>> (8 * (31 - j)))) = v >>> (8 * (32 - k)) := by
  induction k with
  | zero =>
    rw [Nat.shiftRight_eq_div_pow, Nat.div_eq_of_lt h]
    rfl
  | succ k ih =>
    rw [List.range_succ, List.map_append, List.map_cons, List.map_nil, intBe_append, ih (by omega)]
    rw [show 8 * (31 - k) = 8 * (32 - (k + 1)) by omega,
      show 8 * (32 - k) = 8 * (32 - (k + 1)) + 8 by omega, Nat.shiftRight_add]
    generalize v >>> (8 * (32 - (k + 1))) = x
    simp only [BitVec.toNat_ofNat, Nat.shiftRight_eq_div_pow]
    omega

/-- `int_be(be32(v)) = v` (R11). -/
theorem intBe_be32 (v : Nat) (h : v < 2 ^ 256) : intBe (be32 v) = v := by
  exact intBe_be32_take v h 32 le_rfl

/-! ## Slots -/

theorem coveredSlots_one (k : Nat) : coveredSlots (32 * k) 32 = [k] := by
  simp [coveredSlots]

theorem coveredSlots_two (k : Nat) : coveredSlots (32 * k) 64 = [k, k + 1] := by
  have h : 32 * k / 32 = k := by omega
  simp [coveredSlots, h, List.range_succ]

/-- What a read of one slot answers. -/
theorem memRead_slot (k : Nat) (s : State) :
    memRead (32 * k) 32 s =
      if slotValid k s then .ok (Memory.readBytes s.mem (32 * k) 32) else .error .uninitOperand := by
  simp [memRead, coveredSlots_one]

theorem slotValid_setSlotValid (v : Vector Bool 32) (k j : Nat) (hk : k < 32) :
    ((setSlotValid v k)[j]?).getD false = if j = k then true else (v[j]?).getD false := by
  unfold setSlotValid
  rw [Vector.getElem?_setIfInBounds]
  by_cases h : j = k
  · subst h; simp [hk]
  · simp [h, Ne.symm h]

/-- Which slots are valid after a store of one slot. -/
theorem slotValid_memWrite_one (k j : Nat) (v : List Byte) (s : State) (hk : k < 32) :
    slotValid j (memWrite (32 * k) 32 v s) = if j = k then true else slotValid j s := by
  simp only [slotValid, memWrite, coveredSlots_one, List.foldl_cons, List.foldl_nil]
  exact slotValid_setSlotValid _ _ _ hk

/-- Which slots are valid after a store of two slots. -/
theorem slotValid_memWrite_two (k j : Nat) (v : List Byte) (s : State) (hk : k + 1 < 32) :
    slotValid j (memWrite (32 * k) 64 v s) = if j = k ∨ j = k + 1 then true else slotValid j s := by
  simp only [slotValid, memWrite, coveredSlots_two, List.foldl_cons, List.foldl_nil]
  rw [slotValid_setSlotValid _ _ _ hk, slotValid_setSlotValid _ _ _ (by omega)]
  split <;> split <;> simp_all

/-- The memory of the state after reset is in canonical form. -/
theorem wf_reset_mem : Memory.wf State.reset.mem := by decide

end Sys2Proof.Machine
end

