-- ==== Sys2Proof/Laws/Registers.lean ====
section
/-! SUPPORT. The register files: a read after a write, and what a register read answers. -/

namespace Sys2Proof.Machine

variable {α : Type}

@[simp] theorem get_put_same (file : RegFile α) (r : RegNum) (v : α) : (file.put r v).get r = ⟨true, v⟩ := by
  simp [RegFile.get, RegFile.put]

theorem get_put_other (file : RegFile α) {r q : RegNum} (v : α) (h : q ≠ r) : (file.put r v).get q = file.get q := by
  have : r.toNat ≠ q.toNat := fun e => h (BitVec.eq_of_toNat_eq e.symm)
  simp [RegFile.get, RegFile.put, this]

theorem get_put (file : RegFile α) (r q : RegNum) (v : α) :
    (file.put r v).get q = if q = r then ⟨true, v⟩ else file.get q := by
  split
  · next h => rw [h, get_put_same]
  · next h => exact get_put_other file v h

/-- A register that holds `v` reads as `v`. -/
theorem read_of_get {file : RegFile α} {r : RegNum} {v : α} (h : file.get r = ⟨true, v⟩) : file.read r = .ok v := by
  simp [RegFile.read, h]

/-- A register read answers exactly when the register is valid. -/
theorem read_eq_ok {file : RegFile α} {r : RegNum} {v : α} : file.read r = .ok v ↔ file.get r = ⟨true, v⟩ := by
  unfold RegFile.read
  generalize file.get r = x
  rcases x with ⟨_ | _, w⟩ <;> simp

theorem read_of_invalid {file : RegFile α} {r : RegNum} (h : (file.get r).valid = false) :
    file.read r = .error .uninitOperand := by
  simp [RegFile.read, h]

/-- Two files with the same register at every number are the same file. -/
theorem regFile_ext {f g : RegFile α} (h : ∀ r, f.get r = g.get r) : f = g := by
  apply Vector.ext
  intro i hi
  have := h (BitVec.ofNat 4 i)
  simpa [RegFile.get, Nat.mod_eq_of_lt hi] using this

end Sys2Proof.Machine
end

