-- ==== Sys2Proof/Laws/State.lean ====
section
/-! SUPPORT. What each update of the state does to each field: one lemma a field an update, so that no proof unfolds a
record update. -/

namespace Sys2Proof.Machine

variable (s : State)

/-! `writeF` -/

@[simp] theorem writeF_fr (r : RegNum) (v : Fe) : (writeF r v s).fr = s.fr.put r v := rfl
@[simp] theorem writeF_sr (r : RegNum) (v : Fe) : (writeF r v s).sr = s.sr := rfl
@[simp] theorem writeF_ar (r : RegNum) (v : Fe) : (writeF r v s).ar = s.ar := rfl
@[simp] theorem writeF_jr (r : RegNum) (v : Fe) : (writeF r v s).jr = s.jr := rfl
@[simp] theorem writeF_flags (r : RegNum) (v : Fe) : (writeF r v s).flags = s.flags := rfl
@[simp] theorem writeF_busy (r : RegNum) (v : Fe) : (writeF r v s).busy = s.busy := rfl
@[simp] theorem writeF_fault (r : RegNum) (v : Fe) : (writeF r v s).fault = s.fault := rfl
@[simp] theorem writeF_cause (r : RegNum) (v : Fe) : (writeF r v s).cause = s.cause := rfl
@[simp] theorem writeF_finfo (r : RegNum) (v : Fe) : (writeF r v s).finfo = s.finfo := rfl
@[simp] theorem writeF_cmdcnt (r : RegNum) (v : Fe) : (writeF r v s).cmdcnt = s.cmdcnt := rfl
@[simp] theorem writeF_ctx (r : RegNum) (v : Fe) : (writeF r v s).ctx = s.ctx := rfl
@[simp] theorem writeF_mem (r : RegNum) (v : Fe) : (writeF r v s).mem = s.mem := rfl
@[simp] theorem writeF_bufValid (r : RegNum) (v : Fe) : (writeF r v s).bufValid = s.bufValid := rfl
@[simp] theorem writeF_inbox (r : RegNum) (v : Fe) : (writeF r v s).inbox = s.inbox := rfl
@[simp] theorem writeF_reply (r : RegNum) (v : Fe) : (writeF r v s).reply = s.reply := rfl
@[simp] theorem writeF_draws (r : RegNum) (v : Fe) : (writeF r v s).draws = s.draws := rfl

/-! `writeS` -/

@[simp] theorem writeS_fr (r : RegNum) (v : Nat) : (writeS r v s).fr = s.fr := rfl
@[simp] theorem writeS_sr (r : RegNum) (v : Nat) : (writeS r v s).sr = s.sr.put r (BitVec.ofNat 256 v) := rfl
@[simp] theorem writeS_ar (r : RegNum) (v : Nat) : (writeS r v s).ar = s.ar := rfl
@[simp] theorem writeS_jr (r : RegNum) (v : Nat) : (writeS r v s).jr = s.jr := rfl
@[simp] theorem writeS_flags (r : RegNum) (v : Nat) : (writeS r v s).flags = s.flags := rfl
@[simp] theorem writeS_busy (r : RegNum) (v : Nat) : (writeS r v s).busy = s.busy := rfl
@[simp] theorem writeS_fault (r : RegNum) (v : Nat) : (writeS r v s).fault = s.fault := rfl
@[simp] theorem writeS_cause (r : RegNum) (v : Nat) : (writeS r v s).cause = s.cause := rfl
@[simp] theorem writeS_finfo (r : RegNum) (v : Nat) : (writeS r v s).finfo = s.finfo := rfl
@[simp] theorem writeS_cmdcnt (r : RegNum) (v : Nat) : (writeS r v s).cmdcnt = s.cmdcnt := rfl
@[simp] theorem writeS_ctx (r : RegNum) (v : Nat) : (writeS r v s).ctx = s.ctx := rfl
@[simp] theorem writeS_mem (r : RegNum) (v : Nat) : (writeS r v s).mem = s.mem := rfl
@[simp] theorem writeS_bufValid (r : RegNum) (v : Nat) : (writeS r v s).bufValid = s.bufValid := rfl
@[simp] theorem writeS_inbox (r : RegNum) (v : Nat) : (writeS r v s).inbox = s.inbox := rfl
@[simp] theorem writeS_reply (r : RegNum) (v : Nat) : (writeS r v s).reply = s.reply := rfl
@[simp] theorem writeS_draws (r : RegNum) (v : Nat) : (writeS r v s).draws = s.draws := rfl

/-! `writeA` -/

@[simp] theorem writeA_fr (r : RegNum) (v : Ge) : (writeA r v s).fr = s.fr := rfl
@[simp] theorem writeA_sr (r : RegNum) (v : Ge) : (writeA r v s).sr = s.sr := rfl
@[simp] theorem writeA_ar (r : RegNum) (v : Ge) : (writeA r v s).ar = s.ar.put r v := rfl
@[simp] theorem writeA_jr (r : RegNum) (v : Ge) : (writeA r v s).jr = s.jr := rfl
@[simp] theorem writeA_flags (r : RegNum) (v : Ge) : (writeA r v s).flags = s.flags := rfl
@[simp] theorem writeA_busy (r : RegNum) (v : Ge) : (writeA r v s).busy = s.busy := rfl
@[simp] theorem writeA_fault (r : RegNum) (v : Ge) : (writeA r v s).fault = s.fault := rfl
@[simp] theorem writeA_cause (r : RegNum) (v : Ge) : (writeA r v s).cause = s.cause := rfl
@[simp] theorem writeA_finfo (r : RegNum) (v : Ge) : (writeA r v s).finfo = s.finfo := rfl
@[simp] theorem writeA_cmdcnt (r : RegNum) (v : Ge) : (writeA r v s).cmdcnt = s.cmdcnt := rfl
@[simp] theorem writeA_ctx (r : RegNum) (v : Ge) : (writeA r v s).ctx = s.ctx := rfl
@[simp] theorem writeA_mem (r : RegNum) (v : Ge) : (writeA r v s).mem = s.mem := rfl
@[simp] theorem writeA_bufValid (r : RegNum) (v : Ge) : (writeA r v s).bufValid = s.bufValid := rfl
@[simp] theorem writeA_inbox (r : RegNum) (v : Ge) : (writeA r v s).inbox = s.inbox := rfl
@[simp] theorem writeA_reply (r : RegNum) (v : Ge) : (writeA r v s).reply = s.reply := rfl
@[simp] theorem writeA_draws (r : RegNum) (v : Ge) : (writeA r v s).draws = s.draws := rfl

/-! `writeJ` -/

@[simp] theorem writeJ_fr (r : RegNum) (v : Gej) : (writeJ r v s).fr = s.fr := rfl
@[simp] theorem writeJ_sr (r : RegNum) (v : Gej) : (writeJ r v s).sr = s.sr := rfl
@[simp] theorem writeJ_ar (r : RegNum) (v : Gej) : (writeJ r v s).ar = s.ar := rfl
@[simp] theorem writeJ_jr (r : RegNum) (v : Gej) : (writeJ r v s).jr = s.jr.put r v := rfl
@[simp] theorem writeJ_flags (r : RegNum) (v : Gej) : (writeJ r v s).flags = s.flags := rfl
@[simp] theorem writeJ_busy (r : RegNum) (v : Gej) : (writeJ r v s).busy = s.busy := rfl
@[simp] theorem writeJ_fault (r : RegNum) (v : Gej) : (writeJ r v s).fault = s.fault := rfl
@[simp] theorem writeJ_cause (r : RegNum) (v : Gej) : (writeJ r v s).cause = s.cause := rfl
@[simp] theorem writeJ_finfo (r : RegNum) (v : Gej) : (writeJ r v s).finfo = s.finfo := rfl
@[simp] theorem writeJ_cmdcnt (r : RegNum) (v : Gej) : (writeJ r v s).cmdcnt = s.cmdcnt := rfl
@[simp] theorem writeJ_ctx (r : RegNum) (v : Gej) : (writeJ r v s).ctx = s.ctx := rfl
@[simp] theorem writeJ_mem (r : RegNum) (v : Gej) : (writeJ r v s).mem = s.mem := rfl
@[simp] theorem writeJ_bufValid (r : RegNum) (v : Gej) : (writeJ r v s).bufValid = s.bufValid := rfl
@[simp] theorem writeJ_inbox (r : RegNum) (v : Gej) : (writeJ r v s).inbox = s.inbox := rfl
@[simp] theorem writeJ_reply (r : RegNum) (v : Gej) : (writeJ r v s).reply = s.reply := rfl
@[simp] theorem writeJ_draws (r : RegNum) (v : Gej) : (writeJ r v s).draws = s.draws := rfl

/-! `setT` -/

@[simp] theorem setT_fr (b : Bool) : (setT b s).fr = s.fr := rfl
@[simp] theorem setT_sr (b : Bool) : (setT b s).sr = s.sr := rfl
@[simp] theorem setT_ar (b : Bool) : (setT b s).ar = s.ar := rfl
@[simp] theorem setT_jr (b : Bool) : (setT b s).jr = s.jr := rfl
@[simp] theorem setT_flags (b : Bool) : (setT b s).flags = { s.flags with t := b } := rfl
@[simp] theorem setT_busy (b : Bool) : (setT b s).busy = s.busy := rfl
@[simp] theorem setT_fault (b : Bool) : (setT b s).fault = s.fault := rfl
@[simp] theorem setT_cause (b : Bool) : (setT b s).cause = s.cause := rfl
@[simp] theorem setT_finfo (b : Bool) : (setT b s).finfo = s.finfo := rfl
@[simp] theorem setT_cmdcnt (b : Bool) : (setT b s).cmdcnt = s.cmdcnt := rfl
@[simp] theorem setT_ctx (b : Bool) : (setT b s).ctx = s.ctx := rfl
@[simp] theorem setT_mem (b : Bool) : (setT b s).mem = s.mem := rfl
@[simp] theorem setT_bufValid (b : Bool) : (setT b s).bufValid = s.bufValid := rfl
@[simp] theorem setT_inbox (b : Bool) : (setT b s).inbox = s.inbox := rfl
@[simp] theorem setT_reply (b : Bool) : (setT b s).reply = s.reply := rfl
@[simp] theorem setT_draws (b : Bool) : (setT b s).draws = s.draws := rfl

/-! `setOvf` -/

@[simp] theorem setOvf_fr (b : Bool) : (setOvf b s).fr = s.fr := rfl
@[simp] theorem setOvf_sr (b : Bool) : (setOvf b s).sr = s.sr := rfl
@[simp] theorem setOvf_ar (b : Bool) : (setOvf b s).ar = s.ar := rfl
@[simp] theorem setOvf_jr (b : Bool) : (setOvf b s).jr = s.jr := rfl
@[simp] theorem setOvf_flags (b : Bool) : (setOvf b s).flags = { s.flags with ovf := b } := rfl
@[simp] theorem setOvf_busy (b : Bool) : (setOvf b s).busy = s.busy := rfl
@[simp] theorem setOvf_fault (b : Bool) : (setOvf b s).fault = s.fault := rfl
@[simp] theorem setOvf_cause (b : Bool) : (setOvf b s).cause = s.cause := rfl
@[simp] theorem setOvf_finfo (b : Bool) : (setOvf b s).finfo = s.finfo := rfl
@[simp] theorem setOvf_cmdcnt (b : Bool) : (setOvf b s).cmdcnt = s.cmdcnt := rfl
@[simp] theorem setOvf_ctx (b : Bool) : (setOvf b s).ctx = s.ctx := rfl
@[simp] theorem setOvf_mem (b : Bool) : (setOvf b s).mem = s.mem := rfl
@[simp] theorem setOvf_bufValid (b : Bool) : (setOvf b s).bufValid = s.bufValid := rfl
@[simp] theorem setOvf_inbox (b : Bool) : (setOvf b s).inbox = s.inbox := rfl
@[simp] theorem setOvf_reply (b : Bool) : (setOvf b s).reply = s.reply := rfl
@[simp] theorem setOvf_draws (b : Bool) : (setOvf b s).draws = s.draws := rfl

/-! `setSgn` -/

@[simp] theorem setSgn_fr (b : Bool) : (setSgn b s).fr = s.fr := rfl
@[simp] theorem setSgn_sr (b : Bool) : (setSgn b s).sr = s.sr := rfl
@[simp] theorem setSgn_ar (b : Bool) : (setSgn b s).ar = s.ar := rfl
@[simp] theorem setSgn_jr (b : Bool) : (setSgn b s).jr = s.jr := rfl
@[simp] theorem setSgn_flags (b : Bool) : (setSgn b s).flags = { s.flags with sgn := b } := rfl
@[simp] theorem setSgn_busy (b : Bool) : (setSgn b s).busy = s.busy := rfl
@[simp] theorem setSgn_fault (b : Bool) : (setSgn b s).fault = s.fault := rfl
@[simp] theorem setSgn_cause (b : Bool) : (setSgn b s).cause = s.cause := rfl
@[simp] theorem setSgn_finfo (b : Bool) : (setSgn b s).finfo = s.finfo := rfl
@[simp] theorem setSgn_cmdcnt (b : Bool) : (setSgn b s).cmdcnt = s.cmdcnt := rfl
@[simp] theorem setSgn_ctx (b : Bool) : (setSgn b s).ctx = s.ctx := rfl
@[simp] theorem setSgn_mem (b : Bool) : (setSgn b s).mem = s.mem := rfl
@[simp] theorem setSgn_bufValid (b : Bool) : (setSgn b s).bufValid = s.bufValid := rfl
@[simp] theorem setSgn_inbox (b : Bool) : (setSgn b s).inbox = s.inbox := rfl
@[simp] theorem setSgn_reply (b : Bool) : (setSgn b s).reply = s.reply := rfl
@[simp] theorem setSgn_draws (b : Bool) : (setSgn b s).draws = s.draws := rfl

/-! `setLtGt` -/

@[simp] theorem setLtGt_fr (l g : Bool) : (setLtGt l g s).fr = s.fr := rfl
@[simp] theorem setLtGt_sr (l g : Bool) : (setLtGt l g s).sr = s.sr := rfl
@[simp] theorem setLtGt_ar (l g : Bool) : (setLtGt l g s).ar = s.ar := rfl
@[simp] theorem setLtGt_jr (l g : Bool) : (setLtGt l g s).jr = s.jr := rfl
@[simp] theorem setLtGt_flags (l g : Bool) : (setLtGt l g s).flags = { s.flags with lt := l, gt := g } := rfl
@[simp] theorem setLtGt_busy (l g : Bool) : (setLtGt l g s).busy = s.busy := rfl
@[simp] theorem setLtGt_fault (l g : Bool) : (setLtGt l g s).fault = s.fault := rfl
@[simp] theorem setLtGt_cause (l g : Bool) : (setLtGt l g s).cause = s.cause := rfl
@[simp] theorem setLtGt_finfo (l g : Bool) : (setLtGt l g s).finfo = s.finfo := rfl
@[simp] theorem setLtGt_cmdcnt (l g : Bool) : (setLtGt l g s).cmdcnt = s.cmdcnt := rfl
@[simp] theorem setLtGt_ctx (l g : Bool) : (setLtGt l g s).ctx = s.ctx := rfl
@[simp] theorem setLtGt_mem (l g : Bool) : (setLtGt l g s).mem = s.mem := rfl
@[simp] theorem setLtGt_bufValid (l g : Bool) : (setLtGt l g s).bufValid = s.bufValid := rfl
@[simp] theorem setLtGt_inbox (l g : Bool) : (setLtGt l g s).inbox = s.inbox := rfl
@[simp] theorem setLtGt_reply (l g : Bool) : (setLtGt l g s).reply = s.reply := rfl
@[simp] theorem setLtGt_draws (l g : Bool) : (setLtGt l g s).draws = s.draws := rfl

/-! `memWrite` -/

@[simp] theorem memWrite_fr (a n : Nat) (v : List Byte) : (memWrite a n v s).fr = s.fr := rfl
@[simp] theorem memWrite_sr (a n : Nat) (v : List Byte) : (memWrite a n v s).sr = s.sr := rfl
@[simp] theorem memWrite_ar (a n : Nat) (v : List Byte) : (memWrite a n v s).ar = s.ar := rfl
@[simp] theorem memWrite_jr (a n : Nat) (v : List Byte) : (memWrite a n v s).jr = s.jr := rfl
@[simp] theorem memWrite_flags (a n : Nat) (v : List Byte) : (memWrite a n v s).flags = s.flags := rfl
@[simp] theorem memWrite_busy (a n : Nat) (v : List Byte) : (memWrite a n v s).busy = s.busy := rfl
@[simp] theorem memWrite_fault (a n : Nat) (v : List Byte) : (memWrite a n v s).fault = s.fault := rfl
@[simp] theorem memWrite_cause (a n : Nat) (v : List Byte) : (memWrite a n v s).cause = s.cause := rfl
@[simp] theorem memWrite_finfo (a n : Nat) (v : List Byte) : (memWrite a n v s).finfo = s.finfo := rfl
@[simp] theorem memWrite_cmdcnt (a n : Nat) (v : List Byte) : (memWrite a n v s).cmdcnt = s.cmdcnt := rfl
@[simp] theorem memWrite_ctx (a n : Nat) (v : List Byte) : (memWrite a n v s).ctx = s.ctx := rfl
@[simp] theorem memWrite_mem (a n : Nat) (v : List Byte) : (memWrite a n v s).mem = Memory.writeBytes s.mem a v := rfl
@[simp] theorem memWrite_bufValid (a n : Nat) (v : List Byte) : (memWrite a n v s).bufValid = (coveredSlots a n).foldl setSlotValid s.bufValid := rfl
@[simp] theorem memWrite_inbox (a n : Nat) (v : List Byte) : (memWrite a n v s).inbox = s.inbox := rfl
@[simp] theorem memWrite_reply (a n : Nat) (v : List Byte) : (memWrite a n v s).reply = s.reply := rfl
@[simp] theorem memWrite_draws (a n : Nat) (v : List Byte) : (memWrite a n v s).draws = s.draws := rfl

/-! `retire` -/

@[simp] theorem retire_fr : (retire s).fr = s.fr := rfl
@[simp] theorem retire_sr : (retire s).sr = s.sr := rfl
@[simp] theorem retire_ar : (retire s).ar = s.ar := rfl
@[simp] theorem retire_jr : (retire s).jr = s.jr := rfl
@[simp] theorem retire_flags : (retire s).flags = s.flags := rfl
@[simp] theorem retire_busy : (retire s).busy = s.busy := rfl
@[simp] theorem retire_fault : (retire s).fault = s.fault := rfl
@[simp] theorem retire_cause : (retire s).cause = s.cause := rfl
@[simp] theorem retire_finfo : (retire s).finfo = s.finfo := rfl
@[simp] theorem retire_cmdcnt : (retire s).cmdcnt = s.cmdcnt + 1 := rfl
@[simp] theorem retire_ctx : (retire s).ctx = s.ctx := rfl
@[simp] theorem retire_mem : (retire s).mem = s.mem := rfl
@[simp] theorem retire_bufValid : (retire s).bufValid = s.bufValid := rfl
@[simp] theorem retire_inbox : (retire s).inbox = s.inbox := rfl
@[simp] theorem retire_reply : (retire s).reply = s.reply := rfl
@[simp] theorem retire_draws : (retire s).draws = s.draws := rfl

/-! `takeFault` -/

@[simp] theorem takeFault_fr (c : Cause) (w : Word) : (takeFault c w s).fr = s.fr := rfl
@[simp] theorem takeFault_sr (c : Cause) (w : Word) : (takeFault c w s).sr = s.sr := rfl
@[simp] theorem takeFault_ar (c : Cause) (w : Word) : (takeFault c w s).ar = s.ar := rfl
@[simp] theorem takeFault_jr (c : Cause) (w : Word) : (takeFault c w s).jr = s.jr := rfl
@[simp] theorem takeFault_flags (c : Cause) (w : Word) : (takeFault c w s).flags = s.flags := rfl
@[simp] theorem takeFault_busy (c : Cause) (w : Word) : (takeFault c w s).busy = s.busy := rfl
@[simp] theorem takeFault_fault (c : Cause) (w : Word) : (takeFault c w s).fault = true := rfl
@[simp] theorem takeFault_cause (c : Cause) (w : Word) : (takeFault c w s).cause = c.code := rfl
@[simp] theorem takeFault_finfo (c : Cause) (w : Word) : (takeFault c w s).finfo = w := rfl
@[simp] theorem takeFault_cmdcnt (c : Cause) (w : Word) : (takeFault c w s).cmdcnt = s.cmdcnt := rfl
@[simp] theorem takeFault_ctx (c : Cause) (w : Word) : (takeFault c w s).ctx = s.ctx := rfl
@[simp] theorem takeFault_mem (c : Cause) (w : Word) : (takeFault c w s).mem = s.mem := rfl
@[simp] theorem takeFault_bufValid (c : Cause) (w : Word) : (takeFault c w s).bufValid = s.bufValid := rfl
@[simp] theorem takeFault_inbox (c : Cause) (w : Word) : (takeFault c w s).inbox = s.inbox := rfl
@[simp] theorem takeFault_reply (c : Cause) (w : Word) : (takeFault c w s).reply = s.reply := rfl
@[simp] theorem takeFault_draws (c : Cause) (w : Word) : (takeFault c w s).draws = s.draws := rfl

/-! Stores of values are stores of bytes -/

theorem storeSlot_eq (imm : Imm) (v : Nat) : storeSlot imm v s = memWrite (immAddr imm) 32 (be32 v) s := rfl

theorem storePair_eq (imm : Imm) (x y : Nat) :
    storePair imm x y s = memWrite (immAddr imm) 64 (be32 x ++ be32 y) s := rfl

end Sys2Proof.Machine
end

