-- ==== Sys2Proof/Laws/Cycle.lean ====
section
/-! SUPPORT. The execution cycle: everything a command can do, said once, and what each read inside a command answers. -/

namespace Sys2Proof.Machine

/-! ## Computations that may fault -/

/-- A sequence of two computations answers exactly when both do. -/
theorem chk_bind_ok {α β : Type} {x : Chk α} {f : α → Chk β} {b : β} :
    (x >>= f) = .ok b ↔ ∃ a, x = .ok a ∧ f a = .ok b := by
  cases x with
  | ok a => simp [bind, Except.bind]
  | error c => simp [bind, Except.bind]

/-- A sequence of two computations faults exactly when the first does, or answers and the second does. -/
theorem chk_bind_error {α β : Type} {x : Chk α} {f : α → Chk β} {c : Cause} :
    (x >>= f) = .error c ↔ x = .error c ∨ ∃ a, x = .ok a ∧ f a = .error c := by
  cases x with
  | ok a => simp [bind, Except.bind]
  | error c => simp [bind, Except.bind]

@[simp] theorem chk_ok_bind {α β : Type} (a : α) (f : α → Chk β) : ((.ok a : Chk α) >>= f) = f a := rfl

@[simp] theorem chk_error_bind {α β : Type} (c : Cause) (f : α → Chk β) : ((.error c : Chk α) >>= f) = .error c := rfl

@[simp] theorem chk_pure {α : Type} (a : α) : (pure a : Chk α) = .ok a := rfl

@[simp] theorem require_true (c : Cause) : require true c = .ok () := rfl

@[simp] theorem require_false (c : Cause) : require false c = .error c := rfl

theorem require_eq_ok {b : Bool} {c : Cause} {u : Unit} : require b c = .ok u ↔ b = true := by
  cases b <;> simp [require]

/-! ## The cycle -/

theorem runWord_next {w : Word} {s t : State} {body : Chk State} (h : runWord w s body = .next t) :
    (s.fault = true ∧ t = s) ∨
    (s.fault = false ∧ ∃ u, body = .ok u ∧ t = retire u) ∨
    (s.fault = false ∧ ∃ c, body = .error c ∧ t = takeFault c w s) := by
  unfold runWord at h
  cases hf : s.fault with
  | true => simp only [hf, if_true, Host.Outcome.next.injEq] at h; exact .inl ⟨rfl, h.symm⟩
  | false =>
    cases body with
    | ok u => simp only [hf, Bool.false_eq_true, if_false, Host.Outcome.next.injEq] at h; exact .inr (.inl ⟨rfl, u, rfl, h.symm⟩)
    | error c => simp only [hf, Bool.false_eq_true, if_false, Host.Outcome.next.injEq] at h; exact .inr (.inr ⟨rfl, c, rfl, h.symm⟩)

/-- No command word ends in a stop of the model. -/
theorem runWord_always_next (w : Word) (s : State) (body : Chk State) : ∃ t, runWord w s body = .next t := by
  unfold runWord
  split
  · exact ⟨s, rfl⟩
  · cases body with
    | ok u => exact ⟨_, rfl⟩
    | error c => exact ⟨_, rfl⟩

@[simp] theorem runWord_fault_state {w : Word} {s : State} (body : Chk State) (h : s.fault = true) :
    runWord w s body = .next s := by simp [runWord, h]

@[simp] theorem runWord_ok {w : Word} {s : State} (u : State) (h : s.fault = false) :
    runWord w s (.ok u) = .next (retire u) := by simp [runWord, h]

@[simp] theorem runWord_error {w : Word} {s : State} (c : Cause) (h : s.fault = false) :
    runWord w s (.error c) = .next (takeFault c w s) := by simp [runWord, h]

/-- A well-formed command outside the fault state whose body answers retires. -/
theorem command_ok {i : Instr} {s u : State} {body : Chk State} (hf : s.fault = false) (hw : i.wf = true)
    (hb : body = .ok u) : command i s body = .next (retire u) := by
  simp [command, hw, hb, hf]

/-- A well-formed command outside the fault state whose body faults takes the fault. -/
theorem command_error {i : Instr} {s : State} {body : Chk State} {c : Cause} (hf : s.fault = false) (hw : i.wf = true)
    (hb : body = .error c) : command i s body = .next (takeFault c (encode i) s) := by
  simp [command, hw, hb, hf]

/-- A term that is no command raises ILLEGAL_CMD. -/
theorem command_malformed {i : Instr} {s : State} {body : Chk State} (hf : s.fault = false) (hw : i.wf = false) :
    command i s body = .next (takeFault .illegalCmd (encode i) s) := by
  simp [command, hw, hf]

/-- Everything a command can do: nothing in the fault state; retire with what its body computed; take a fault. -/
theorem command_next {i : Instr} {s t : State} {body : Chk State} (h : command i s body = .next t) :
    (s.fault = true ∧ t = s) ∨
    (s.fault = false ∧ i.wf = true ∧ ∃ u, body = .ok u ∧ t = retire u) ∨
    (s.fault = false ∧ ∃ c, (i.wf = false ∧ c = .illegalCmd ∨ i.wf = true ∧ body = .error c) ∧
      t = takeFault c (encode i) s) := by
  unfold command at h
  rcases runWord_next h with h | ⟨hf, u, hb, ht⟩ | ⟨hf, c, hb, ht⟩
  · exact .inl h
  · cases hw : i.wf with
    | true => simp only [hw, if_true] at hb; exact .inr (.inl ⟨hf, rfl, u, hb, ht⟩)
    | false => simp [hw] at hb
  · cases hw : i.wf with
    | true => simp only [hw, if_true] at hb; exact .inr (.inr ⟨hf, c, .inr ⟨rfl, hb⟩, ht⟩)
    | false =>
      simp only [hw, Bool.false_eq_true, if_false, Except.error.injEq] at hb
      exact .inr (.inr ⟨hf, c, .inl ⟨rfl, hb.symm⟩, ht⟩)

/-- Every instruction is a command over some body. -/
theorem exec_is_command (i : Instr) (s : State) : ∃ body, exec i s = command i s body := by
  cases i
  case nop => exact ⟨.ok s, rfl⟩
  case ctxBuild => exact ⟨.ok { s with ctx := ⟨true, BitVec.ofNat 256 (scSub Const.combDiff 1), Ge.generator⟩ }, rfl⟩
  case ctxClear => exact ⟨.ok { s with ctx := ⟨false, 0, ⟨Fe.zero, Fe.zero, false⟩⟩ }, rfl⟩
  case feSetint rd imm => exact ⟨.ok (writeF rd (feConst imm.toNat) s), rfl⟩
  case scSetint rd imm => exact ⟨.ok (writeS rd imm.toNat s), rfl⟩
  case geSetinf rd => exact ⟨.ok (writeA rd Ge.infinity s), rfl⟩
  case geSetg rd => exact ⟨.ok (writeA rd Ge.generator s), rfl⟩
  case gejSetinf rd => exact ⟨.ok (writeJ rd Gej.infinity s), rfl⟩
  all_goals exact ⟨_, rfl⟩

/-! ## Reads inside a command -/

theorem readF_ok {s : State} {r : RegNum} {a : Fe} (h : s.fr.get r = ⟨true, a⟩) : readF r s = .ok a := read_of_get h

theorem readS_ok {s : State} {r : RegNum} {a : ScalarWord} (h : s.sr.get r = ⟨true, a⟩) : readS r s = .ok a :=
  read_of_get h

theorem readA_ok {s : State} {r : RegNum} {a : Ge} (h : s.ar.get r = ⟨true, a⟩) : readA r s = .ok a := read_of_get h

theorem readJ_ok {s : State} {r : RegNum} {a : Gej} (h : s.jr.get r = ⟨true, a⟩) : readJ r s = .ok a := read_of_get h

/-- The address of the slot an immediate names. -/
theorem immAddr_eq (imm : Imm) : immAddr imm = 32 * imm.toNat := rfl

/-- A slot that is valid and holds the bytes of `v` loads as `v`. -/
theorem loadSlot_ok {s : State} {imm : Imm} {v : Nat} (hv : slotValid imm.toNat s = true)
    (hb : Memory.readBytes s.mem (32 * imm.toNat) 32 = be32 v) (h : v < 2 ^ 256) : loadSlot imm s = .ok v := by
  simp [loadSlot, immAddr_eq, memRead_slot, hv, hb, intBe_be32 v h]

theorem loadSlot_invalid {s : State} {imm : Imm} (hv : slotValid imm.toNat s = false) :
    loadSlot imm s = .error .uninitOperand := by
  simp [loadSlot, immAddr_eq, memRead_slot, hv]

/-- The bytes of a slot read one by one. -/
theorem readBytes_eq_be32 {m : List Host.Cell} {a v : Nat}
    (h : ∀ j < 32, Memory.read m (a + j) = BitVec.ofNat 8 (v >>> (8 * (31 - j)))) :
    Memory.readBytes m a 32 = be32 v := by
  unfold Memory.readBytes be32
  exact List.map_congr_left fun j hj => h j (List.mem_range.1 hj)

/-! ## The step -/

/-- The next step of a state in which the host issues a command word next, and no command is in progress. -/
theorem step_cmd {s : State} {w : Word} {rest : List HostOp} (hi : s.inbox = .cmd w :: rest) (hb : s.busy = false) :
    step s = hostCmd w { s with inbox := rest, reply := .none } := by
  simp [step, nextOp, hi, whenIdle, hb]

/-- A state whose host has issued everything stays as it is. -/
theorem step_idle {s : State} (hi : s.inbox = []) : step s = .next s := by simp [step, nextOp, hi]

end Sys2Proof.Machine
end

