-- ==== Sys2Proof/Laws/Datapath.lean ====
section
/-! SUPPORT. What the helpers are when nothing is noted: the equations of `spec/41_field.md` to `spec/46_ecmult.md` without
the events. Later lemmas cite these and never unfold a `Scribe` or a `Datapath`. -/

namespace Sys2Proof.Machine

/-! ## Helpers that cannot fault -/

theorem zeroize_eq (P : Gej) (c : Bool) :
    zeroize P c = ⟨feCmov P.x Fe.zero c, feCmov P.y Fe.zero c, feCmov P.z Fe.zero c, P.inf⟩ := rfl

theorem toJac_eq (a : Ge) : toJac a = ⟨a.x, a.y, feCmov Fe.one Fe.zero a.inf, a.inf⟩ := rfl

theorem selectGej_eq (r a : Gej) (c : Bool) :
    selectGej r a c = ⟨feCmov r.x a.x c, feCmov r.y a.y c, feCmov r.z a.z c, if c then a.inf else r.inf⟩ := rfl

theorem geEq_eq (P Q : Ge) : geEq P Q = ((P.inf && Q.inf) || (!P.inf && !Q.inf &&
    ((feNorm P.x).n == (feNorm Q.x).n && (feNorm P.y).n == (feNorm Q.y).n))) := rfl

theorem invBatches_succ (M k : Nat) (t : InvState) : invBatches M (k + 1) t = invBatches M k (invBatch M t) := rfl

/-- Running one computation after another when nothing is noted. -/
theorem silent_bind {α β : Type} (x : Id α) (f : α → Id β) : Id.run (x >>= f) = Id.run (f (Id.run x)) := rfl

theorem silent_invResult (M k : Nat) (t : InvState) : Id.run (silent.invResult M k t) = invResult M k t := rfl

theorem invCt_eq (x M : Nat) :
    invCt x M = invResult M Config.divstepBatches (invBatches M Config.divstepBatches (invStart x M)) := by
  unfold invCt Scribe.invCt invBatches
  rw [silent_bind, silent_invResult]

theorem invVar_eq (x M : Nat) : invVar x M = invResult M (invVarRun x M).2 (invVarRun x M).1 := by
  unfold invVar Scribe.invVar invVarRun
  rw [silent_bind, silent_invResult]

/-- The masked lookup as a fold over the 32 entries. -/
theorem combLookup_eq (b idx : Nat) :
    combLookup b idx = (List.range Config.combPoints).foldl
      (fun e j => (feCmov e.1 (feConst (romEntry b j).1) (j == idx), feCmov e.2 (feConst (romEntry b j).2) (j == idx)))
      (Fe.zero, Fe.zero) := by
  unfold combLookup Scribe.combLookup
  generalize (Fe.zero, Fe.zero) = e
  generalize List.range Config.combPoints = l
  induction l generalizing e with
  | nil => rfl
  | cons j l ih => exact ih _

/-! ## The same on `plain` -/

@[simp] theorem plain_check {α : Type} (x : Chk α) : plain.check x = x := rfl

@[simp] theorem plain_note (e : Event) : plain.note e = .ok () := rfl

@[simp] theorem plain_add (a b : Fe) : plain.add a b = feAdd a b := rfl

@[simp] theorem plain_times (a : Fe) (k : Nat) : plain.times a k = feTimes a k := rfl

@[simp] theorem plain_neg (a : Fe) (k : Nat) : plain.neg a k = feNeg a k := rfl

@[simp] theorem plain_mul (a b : Fe) : plain.mul a b = feMul a b := rfl

@[simp] theorem plain_sqr (a : Fe) : plain.sqr a = feSqr a := rfl

@[simp] theorem plain_norm (a : Fe) : plain.norm a = .ok (feNorm a) := rfl

@[simp] theorem plain_cmov (r a : Fe) (c : Bool) : plain.cmov r a c = .ok (feCmov r a c) := rfl

@[simp] theorem plain_ntz (a : Fe) : plain.ntz a = .ok (feNtz a) := rfl

@[simp] theorem plain_zeroize (P : Gej) (c : Bool) : plain.zeroize P c = .ok (zeroize P c) := rfl

@[simp] theorem plain_toJac (a : Ge) : plain.toJac a = .ok (toJac a) := rfl

@[simp] theorem plain_selectGej (r a : Gej) (c : Bool) : plain.selectGej r a c = .ok (selectGej r a c) := rfl

@[simp] theorem plain_geEq (P Q : Ge) : plain.geEq P Q = .ok (geEq P Q) := rfl

@[simp] theorem plain_negJ (P : Gej) : plain.negJ P = negJ P := rfl

@[simp] theorem plain_negA (a : Ge) : plain.negA a = negA a := rfl

@[simp] theorem plain_dbl (P : Gej) : plain.dbl P = gejDbl P := rfl

@[simp] theorem plain_diff (a b : Fe) : plain.diff a b = feDiff a b := rfl

@[simp] theorem plain_crossProducts (P Q : Gej) : plain.crossProducts P Q = crossProducts P Q := rfl

@[simp] theorem plain_addVar (P Q : Gej) : plain.addVar P Q = gejAddVar P Q := rfl

@[simp] theorem plain_addGeVar (P : Gej) (b : Ge) : plain.addGeVar P b = gejAddGeVar P b := rfl

@[simp] theorem plain_addGe (P : Gej) (b : Ge) : plain.addGe P b = gejAddGe P b := rfl

@[simp] theorem plain_gejEq (P Q : Gej) : plain.gejEq P Q = gejEq P Q := rfl

@[simp] theorem plain_combMul (k : Nat) (ctx : Context) : plain.combMul k ctx = combMul k ctx := rfl

@[simp] theorem plain_ecmult (A : Gej) (na : Nat) (ng : Option Nat) : plain.ecmult A na ng = ecmult A na ng := rfl

theorem plain_invBatches (M k : Nat) (t : InvState) : plain.invBatches M k t = .ok (invBatches M k t) := by
  induction k generalizing t with
  | zero => rfl
  | succ k ih => exact ih _

theorem plain_invResult (M k : Nat) (t : InvState) : plain.invResult M k t = .ok (invResult M k t) := rfl

@[simp] theorem plain_invCt (x M : Nat) : plain.invCt x M = .ok (invCt x M) := by
  unfold Scribe.invCt
  rw [plain_invBatches, chk_ok_bind, plain_invResult, invCt_eq]

theorem silent_invBatch (M : Nat) (t : InvState) : Id.run (silent.invBatch M t) = invBatch M t := rfl

theorem plain_invBatch (M : Nat) (t : InvState) : plain.invBatch M t = .ok (invBatch M t) := rfl

theorem plain_invVarLoop (M fuel k : Nat) (t : InvState) :
    plain.invVarLoop M fuel k t = .ok (Id.run (silent.invVarLoop M fuel k t)) := by
  induction fuel generalizing k t with
  | zero => rfl
  | succ fuel ih =>
    unfold Scribe.invVarLoop
    rw [silent_bind, silent_invBatch, plain_invBatch, chk_ok_bind]
    split
    · rfl
    · exact ih _ _

@[simp] theorem plain_invVar (x M : Nat) : plain.invVar x M = .ok (invVar x M) := by
  unfold Scribe.invVar Scribe.invVarRun
  rw [plain_invVarLoop, chk_ok_bind, plain_invResult, invVar_eq]
  rfl

@[simp] theorem plain_combLookup (b idx : Nat) : plain.combLookup b idx = .ok (combLookup b idx) := by
  unfold combLookup Scribe.combLookup
  generalize (Fe.zero, Fe.zero) = e
  generalize List.range Config.combPoints = l
  induction l generalizing e with
  | nil => rfl
  | cons j l ih => exact ih _

/-- TOAFF with an inverse that answers. -/
@[simp] theorem plain_toAff (P : Gej) (inv : Nat → Nat → Nat) : plain.toAff P (fun x M => .ok (inv x M)) = toAff P inv := rfl

@[simp] theorem plain_toAff_invCt (P : Gej) : plain.toAff P plain.invCt = toAff P invCt := by
  rw [← plain_toAff]
  exact congrArg _ (funext fun x => funext fun M => plain_invCt x M)

@[simp] theorem plain_toAff_invVar (P : Gej) : plain.toAff P plain.invVar = toAff P invVar := by
  rw [← plain_toAff]
  exact congrArg _ (funext fun x => funext fun M => plain_invVar x M)

/-! ## The point helpers -/

theorem negJ_eq (P : Gej) : negJ P = (do
    require (P.y.mag ≤ Config.feNegMag) .feMagnitude
    let y ← feNeg P.y P.y.mag
    return ⟨P.x, feCmov y Fe.zero P.inf, P.z, P.inf⟩) := by
  simp only [negJ, Datapath.negJ, Datapath.negCoordinate, plain_check, plain_neg, plain_cmov, bind_assoc, chk_ok_bind]

theorem negA_eq (a : Ge) : negA a = (do
    require (a.y.mag ≤ Config.feNegMag) .feMagnitude
    let y ← feNeg a.y a.y.mag
    return ⟨a.x, feCmov y Fe.zero a.inf, a.inf⟩) := by
  simp only [negA, Datapath.negA, Datapath.negCoordinate, plain_check, plain_neg, plain_cmov, bind_assoc, chk_ok_bind]

theorem gejDbl_eq (P : Gej) : gejDbl P = (do
    chk8 [P.x, P.y, P.z]
    let z3 ← feMul P.z P.y
    let z3 ← feAdd z3 z3
    let t1 ← feSqr P.x
    let t1 ← feTimes t1 3
    let t2 ← feSqr t1
    let t3 ← feSqr P.y
    let t3 ← feTimes t3 2
    let t4 ← feSqr t3
    let t4 ← feTimes t4 2
    let t3 ← feMul t3 P.x
    let x3 ← feTimes t3 4
    let x3 ← feNeg x3 4
    let x3 ← feAdd x3 t2
    let t2 ← feNeg t2 1
    let t3 ← feTimes t3 6
    let t3 ← feAdd t3 t2
    let y3 ← feMul t1 t3
    let t2 ← feNeg t4 2
    let y3 ← feAdd y3 t2
    return zeroize ⟨x3, y3, z3, P.inf⟩ P.inf) := rfl

theorem addCore_eq (u1 s1 h i zf : Fe) : addCore u1 s1 h i zf = (do
    let i2 ← feSqr i
    let h2 ← feSqr h
    let h3 ← feMul h h2
    let z3 ← feMul zf h
    let t ← feMul u1 h2
    let x3 ← feTimes t 2
    let x3 ← feAdd x3 h3
    let x3 ← feNeg x3 3
    let x3 ← feAdd x3 i2
    let y3 ← feNeg x3 5
    let y3 ← feAdd y3 t
    let y3 ← feMul y3 i
    let h3 ← feMul h3 s1
    let h3 ← feNeg h3 1
    let y3 ← feAdd y3 h3
    return (x3, y3, z3)) := rfl

theorem feDiff_eq (a b : Fe) : feDiff a b = (do
    let na ← feNeg a 1
    feAdd na b) := rfl

theorem crossProducts_eq (P Q : Gej) : crossProducts P Q = (do
    let z22 ← feSqr Q.z
    let z12 ← feSqr P.z
    let u1 ← feMul P.x z22
    let u2 ← feMul Q.x z12
    let s1 ← feMul P.y z22
    let s1 ← feMul s1 Q.z
    let s2 ← feMul Q.y z12
    let s2 ← feMul s2 P.z
    return (u1, u2, s1, s2)) := rfl

theorem crossJac_eq (P Q : Gej) : crossJac P Q = (do
    let (u1, u2, s1, s2) ← crossProducts P Q
    let h ← feDiff u1 u2
    let i ← feDiff s1 s2
    return (u1, s1, h, i)) := rfl

theorem crossMixed_eq (P : Gej) (b : Ge) : crossMixed P b = (do
    let z12 ← feSqr P.z
    let u2 ← feMul b.x z12
    let s2 ← feMul b.y z12
    let s2 ← feMul s2 P.z
    let h ← feDiff (feNorm P.x) u2
    let i ← feDiff (feNorm P.y) s2
    return (feNorm P.x, feNorm P.y, h, i)) := rfl

theorem finishAdd_eq (P : Gej) (u1 s1 h i : Fe) (zFactor : Chk Fe) : finishAdd P u1 s1 h i zFactor = (
    match feNtz h, feNtz i with
    | true, true => gejDbl P
    | true, false => .ok Gej.infinity
    | false, _ => do
      let zf ← zFactor
      let (x3, y3, z3) ← addCore u1 s1 h i zf
      return ⟨x3, y3, z3, false⟩) := by
  simp only [finishAdd, Datapath.finishAdd, plain_ntz, chk_ok_bind]
  cases feNtz h <;> cases feNtz i <;> rfl

theorem gejAddVar_eq (P Q : Gej) : gejAddVar P Q = (
    if P.inf then .ok Q
    else if Q.inf then .ok P
    else do
      chk8 [P.x, P.y, P.z, Q.x, Q.y, Q.z]
      let (u1, s1, h, i) ← crossJac P Q
      finishAdd P u1 s1 h i (feMul P.z Q.z)) := rfl

theorem gejAddGeVar_eq (P : Gej) (b : Ge) : gejAddGeVar P b = (
    if P.inf then .ok (toJac b)
    else if b.inf then .ok P
    else do
      chk8 [P.x, P.y, P.z, b.x, b.y]
      let (u1, s1, h, i) ← crossMixed P b
      finishAdd P u1 s1 h i (.ok P.z)) := rfl

theorem gejAddGe_eq (P : Gej) (b : Ge) : gejAddGe P b = (do
    chk8 [P.x, P.y, P.z, b.x, b.y]
    let (u1, s1, h, i) ← crossMixed P b
    let (x3, y3, z3) ← addCore u1 s1 h i P.z
    let D ← gejDbl ⟨P.x, P.y, P.z, false⟩
    let opp := feNtz h && !feNtz i
    let R := selectGej ⟨x3, y3, z3, opp⟩ ⟨D.x, D.y, D.z, opp⟩ (feNtz h && feNtz i)
    let R := selectGej R P b.inf
    let R := selectGej R ⟨b.x, b.y, Fe.one, b.inf⟩ P.inf
    return zeroize R R.inf) := rfl

theorem toAff_eq (P : Gej) (inv : Nat → Nat → Nat) : toAff P inv = (do
    chk8 [P.x, P.y, P.z]
    let zi := feConst (inv P.z.val Const.p)
    let zi2 ← feSqr zi
    let zi3 ← feMul zi2 zi
    let x ← feMul P.x zi2
    let y ← feMul P.y zi3
    return ⟨feCmov x Fe.zero P.inf, feCmov y Fe.zero P.inf, P.inf⟩) := by
  simp only [toAff, Datapath.toAff, plain_check, plain_sqr, plain_mul, plain_cmov, chk_ok_bind]

theorem gejEq_eq (P Q : Gej) : gejEq P Q = (
    if P.inf || Q.inf then .ok (P.inf && Q.inf)
    else do
      chk8 [P.x, P.y, P.z, Q.x, Q.y, Q.z]
      let (_, _, h, i) ← crossJac P Q
      return feNtz h && feNtz i) := by
  simp only [gejEq, Datapath.gejEq, plain_check, plain_ntz, plain_crossProducts, plain_diff, crossJac_eq, bind_assoc,
    chk_ok_bind, pure_bind]
  rfl

/-! ## The multipliers -/

theorem combAdd_eq (d off : Nat) (r : Gej) (b : Nat) : combAdd d off r b = (do
    let ney ← feNeg (combLookup b (combIndex d b off)).2 1
    gejAddGe r ⟨(combLookup b (combIndex d b off)).1,
      feCmov (combLookup b (combIndex d b off)).2 ney (!combTop d b off), false⟩) := by
  simp only [combAdd, Datapath.combAdd, plain_note, plain_combLookup, plain_neg, plain_cmov, plain_addGe, chk_ok_bind]

theorem combRound_eq (d off : Nat) (r : Gej) :
    combRound d off r = (List.range Config.combBlocks).foldlM (combAdd d off) r := rfl

theorem plain_combRound (d off : Nat) (r : Gej) : plain.combRound d off r = combRound d off r := rfl

theorem combOffset_eq (d : Nat) (r : Gej) (off : Nat) : combOffset d r off = (do
    let r ← combRound d off r
    if 0 < off then gejDbl r else return r) := by
  simp only [combOffset, Datapath.combOffset, plain_note, chk_ok_bind, plain_combRound, plain_dbl]

theorem plain_combOffset : plain.combOffset = combOffset := rfl

theorem combMul_eq (k : Nat) (ctx : Context) : combMul k ctx = (do
    let r ← combOffsets.foldlM (combOffset ((k + ctx.scalarOffset.toNat) % Const.n)) Gej.infinity
    gejAddGe r ctx.geOffset) := by
  simp only [combMul, Datapath.combMul, plain_combOffset, plain_addGe]

theorem oddTabFrom_succ (D last : Gej) (count : Nat) : oddTabFrom D last (count + 1) = (do
    let next ← gejAddVar last D
    let rest ← oddTabFrom D next count
    return next :: rest) := rfl

theorem oddTab_eq (B : Gej) : oddTab B = (do
    let D ← gejDbl B
    let rest ← oddTabFrom D B (Config.ecmultTableSize - 1)
    return B :: rest) := rfl

theorem lamEntry_eq (P : Gej) : lamEntry P = (do
    let x ← feMul P.x (feConst Const.beta)
    return { P with x := x }) := rfl

theorem lamTab_eq (T : List Gej) : lamTab T = T.mapM lamEntry := rfl

theorem terms_eq (B : Gej) (k : Nat) : terms B k = (do
    let T ← oddTab B
    let LT ← lamTab T
    return [termOf (splitLambda k).1 T, termOf (splitLambda k).2 LT]) := rfl

theorem addMultiple_eq (T : List Gej) (e : Int) (r : Gej) : addMultiple T e r = (
    if 0 < e then gejAddVar r (T.getD ((e - 1) / 2).toNat Gej.infinity)
    else if e < 0 then do
      let M ← negJ (T.getD ((-e - 1) / 2).toNat Gej.infinity)
      gejAddVar r M
    else .ok r) := rfl

theorem addTerm_eq (i : Nat) (r : Gej) (t : Term) : addTerm i r t = addMultiple t.table (signedDigit t i) r := rfl

theorem ecmultPass_eq (ts : List Term) (r : Gej) (i : Nat) : ecmultPass ts r i = (do
    let r ← gejDbl r
    ts.foldlM (addTerm i) r) := rfl

theorem ecmultLoop_eq (ts : List Term) :
    ecmultLoop ts = (List.range (longest ts)).reverse.foldlM (ecmultPass ts) Gej.infinity := rfl

theorem pointTerms_eq (A : Gej) (na : Nat) : pointTerms A na = (
    if A.inf || na == 0 then .ok []
    else do
      chk8 [A.x, A.y, A.z]
      terms ⟨feNorm A.x, feNorm A.y, feNorm A.z, false⟩ na) := rfl

theorem generatorTerms_eq (ng : Option Nat) : generatorTerms ng = (
    match ng with
    | none => .ok []
    | some k => if k = 0 then .ok [] else terms ⟨feConst Const.gx, feConst Const.gy, Fe.one, false⟩ k) := rfl

theorem ecmult_eq (A : Gej) (na : Nat) (ng : Option Nat) : ecmult A na ng = (do
    let pt ← pointTerms A na
    let gt ← generatorTerms ng
    ecmultLoop (pt ++ gt)) := rfl

/-! ## Commands -/

/-- A command is its work on `plain`, run by the execution cycle. -/
theorem exec_eq_body (i : Instr) (s : State) : exec i s = command i s (body plain i s) := by cases i <;> rfl

end Sys2Proof.Machine
end

