-- ==== Sys2Proof/Laws/Encoding.lean ====
section
/-! SUPPORT. The fields of a packed command word are the fields it was packed from (`spec/30_encoding.md` R81). -/

namespace Sys2Proof

variable (opc : Opcode) (rd ra rb : RegNum) (imm : Imm)

@[simp] theorem opcOf_pack : opcOf (pack opc rd ra rb imm) = opc := by
  apply BitVec.eq_of_getLsbD_eq
  intro i hi
  simp only [opcOf, pack, BitVec.getLsbD_extractLsb', BitVec.getLsbD_append]
  simp [hi, show ¬24 + i < 12 by omega, show ¬24 + i - 12 < 4 by omega, show ¬24 + i - 12 - 4 < 4 by omega, show ¬24 + i - 12 - 4 - 4 < 4 by omega,
    show 24 + i - 12 - 4 - 4 - 4 = i by omega]

@[simp] theorem rdOf_pack : rdOf (pack opc rd ra rb imm) = rd := by
  apply BitVec.eq_of_getLsbD_eq
  intro i hi
  simp only [rdOf, pack, BitVec.getLsbD_extractLsb', BitVec.getLsbD_append]
  simp [hi, show ¬20 + i < 12 by omega, show ¬20 + i - 12 < 4 by omega, show ¬20 + i - 12 - 4 < 4 by omega,
    show 20 + i - 12 - 4 - 4 = i by omega]

@[simp] theorem raOf_pack : raOf (pack opc rd ra rb imm) = ra := by
  apply BitVec.eq_of_getLsbD_eq
  intro i hi
  simp only [raOf, pack, BitVec.getLsbD_extractLsb', BitVec.getLsbD_append]
  simp [hi, show ¬16 + i < 12 by omega, show ¬16 + i - 12 < 4 by omega, show 16 + i - 12 - 4 = i by omega]

@[simp] theorem rbOf_pack : rbOf (pack opc rd ra rb imm) = rb := by
  apply BitVec.eq_of_getLsbD_eq
  intro i hi
  simp only [rbOf, pack, BitVec.getLsbD_extractLsb', BitVec.getLsbD_append]
  simp [hi, show ¬12 + i < 12 by omega, show 12 + i - 12 = i by omega]

@[simp] theorem immOf_pack : immOf (pack opc rd ra rb imm) = imm := by
  apply BitVec.eq_of_getLsbD_eq
  intro i hi
  simp only [immOf, pack, BitVec.getLsbD_extractLsb', BitVec.getLsbD_append]
  simp [hi]

/-- A word is packed from its own fields. -/
theorem pack_fields (w : Word) : pack (opcOf w) (rdOf w) (raOf w) (rbOf w) (immOf w) = w := by
  apply BitVec.eq_of_getLsbD_eq
  intro i hi
  simp only [pack, opcOf, rdOf, raOf, rbOf, immOf, BitVec.getLsbD_append, BitVec.getLsbD_extractLsb']
  by_cases h1 : i < 12
  · simp [h1]
  · by_cases h2 : i - 12 < 4
    · simp [h1, h2, show 12 + (i - 12) = i by omega]
    · by_cases h3 : i - 12 - 4 < 4
      · simp [h1, h2, h3, show 16 + (i - 12 - 4) = i by omega]
      · by_cases h4 : i - 12 - 4 - 4 < 4
        · simp [h1, h2, h3, h4, show 20 + (i - 12 - 4 - 4) = i by omega]
        · simp [h1, h2, h3, h4, show i - 12 - 4 - 4 - 4 < 8 by omega, show 24 + (i - 12 - 4 - 4 - 4) = i by omega]

end Sys2Proof
end

