-- ==== Sys2Proof/Laws/Field.lean ====
section
/-! SUPPORT. The field helpers: what each answers once its precondition holds, the value it stands for, and that it keeps the
invariant of a field content. -/

namespace Sys2Proof.Machine

/-! ## Preconditions -/

theorem chk8_ok {cs : List Fe} : chk8 cs = .ok () ↔ ∀ c ∈ cs, c.mag ≤ 8 := by
  rw [chk8, require_eq_ok, List.all_eq_true]
  exact forall₂_congr fun c _ => decide_eq_true_iff

theorem chk8_error {cs : List Fe} (h : ¬∀ c ∈ cs, c.mag ≤ 8) : chk8 cs = .error .feMagnitude := by
  have : (cs.all fun c => decide (c.mag ≤ Config.feMulMag)) = false := by
    refine Bool.eq_false_iff.2 fun e => h fun c hc => ?_
    exact of_decide_eq_true (List.all_eq_true.1 e c hc)
  simp [chk8, require, this]

theorem requireNorm_ok {a : Fe} (h : a.norm = true) : requireNorm a = .ok () := by simp [requireNorm, h]

theorem requireNorm_error {a : Fe} (h : a.norm = false) : requireNorm a = .error .feNotNormalized := by
  simp [requireNorm, h]

/-! ## Results and tags -/

theorem feAdd_ok {a b : Fe} (h : a.mag + b.mag ≤ 32) :
    feAdd a b = .ok ⟨⟨a.n.n0 + b.n.n0, a.n.n1 + b.n.n1, a.n.n2 + b.n.n2, a.n.n3 + b.n.n3, a.n.n4 + b.n.n4⟩,
      a.mag + b.mag, false⟩ := by
  simp [feAdd, Config.feMaxMag, h]

theorem feAdd_error {a b : Fe} (h : 32 < a.mag + b.mag) : feAdd a b = .error .feMagnitude := by
  simp [feAdd, Config.feMaxMag, Nat.not_le.2 h]

theorem feTimes_ok {a : Fe} {k : Nat} (h : a.mag * k ≤ 32) :
    feTimes a k = .ok ⟨⟨limbTimes a.n.n0 k, limbTimes a.n.n1 k, limbTimes a.n.n2 k, limbTimes a.n.n3 k, limbTimes a.n.n4 k⟩,
      a.mag * k, false⟩ := by
  simp [feTimes, Config.feMaxMag, h]

theorem feNeg_ok {a : Fe} {m : Nat} (h : a.mag ≤ m) (hm : m ≤ 31) :
    feNeg a m = .ok ⟨⟨limbNeg m Const.pl.n0 a.n.n0, limbNeg m Const.pl.n1 a.n.n1, limbNeg m Const.pl.n2 a.n.n2,
      limbNeg m Const.pl.n3 a.n.n3, limbNeg m Const.pl.n4 a.n.n4⟩, m + 1, false⟩ := by
  simp [feNeg, Config.feNegMag, h, hm]

theorem feNeg_error {a : Fe} {m : Nat} (h : m < a.mag) : feNeg a m = .error .feMagnitude := by
  simp [feNeg, Nat.not_le.2 h]

theorem feMul_ok {a b : Fe} (ha : a.mag ≤ 8) (hb : b.mag ≤ 8) :
    feMul a b = .ok ⟨canon (fold3 (a.ival * b.ival)), 1, false⟩ := by
  simp [feMul, Config.feMulMag, ha, hb]

theorem feMul_error {a b : Fe} (h : 8 < a.mag ∨ 8 < b.mag) : feMul a b = .error .feMagnitude := by
  have : ¬(a.mag ≤ Config.feMulMag ∧ b.mag ≤ Config.feMulMag) := by simp only [Config.feMulMag]; omega
  simp [feMul, this]

theorem feSqr_ok {a : Fe} (ha : a.mag ≤ 8) : feSqr a = .ok ⟨canon (fold3 (a.ival * a.ival)), 1, false⟩ :=
  feMul_ok ha ha

theorem feSqr_error {a : Fe} (h : 8 < a.mag) : feSqr a = .error .feMagnitude := feMul_error (.inl h)

@[simp] theorem feNorm_mag (a : Fe) : (feNorm a).mag = 1 := rfl
@[simp] theorem feNorm_norm (a : Fe) : (feNorm a).norm = true := rfl
@[simp] theorem feConst_mag (v : Nat) : (feConst v).mag = 1 := rfl
@[simp] theorem feConst_norm (v : Nat) : (feConst v).norm = true := rfl
@[simp] theorem feZero_mag : Fe.zero.mag = 1 := rfl
@[simp] theorem feZero_norm : Fe.zero.norm = true := rfl
@[simp] theorem feZero_n : Fe.zero.n = Limbs.zero := rfl
@[simp] theorem feOne_mag : Fe.one.mag = 1 := rfl
@[simp] theorem feOne_norm : Fe.one.norm = true := rfl
@[simp] theorem feCmov_mag (r a : Fe) (c : Bool) : (feCmov r a c).mag = max r.mag a.mag := rfl
@[simp] theorem feCmov_norm (r a : Fe) (c : Bool) : (feCmov r a c).norm = (r.norm && a.norm) := rfl
@[simp] theorem feCmov_n_true (r a : Fe) : (feCmov r a true).n = a.n := rfl
@[simp] theorem feCmov_n_false (r a : Fe) : (feCmov r a false).n = r.n := rfl

/-! ## Canonical limbs (R110) -/

theorem canon_toNat (v : Nat) (h : v < 2 ^ 256) :
    (canon v).n0.toNat = v % 2 ^ 52 ∧ (canon v).n1.toNat = v / 2 ^ 52 % 2 ^ 52 ∧
    (canon v).n2.toNat = v / 2 ^ 104 % 2 ^ 52 ∧ (canon v).n3.toNat = v / 2 ^ 156 % 2 ^ 52 ∧
    (canon v).n4.toNat = v / 2 ^ 208 := by
  simp only [canon, BitVec.toNat_ofNat, Nat.shiftRight_eq_div_pow]
  refine ⟨?_, ?_, ?_, ?_, ?_⟩ <;> omega

/-- `ival(CANON(v)) = v` (R110). -/
theorem canon_ival (v : Nat) (h : v < 2 ^ 256) : (canon v).ival = v := by
  obtain ⟨h0, h1, h2, h3, h4⟩ := canon_toNat v h
  simp only [Limbs.ival, h0, h1, h2, h3, h4]
  omega

@[simp] theorem canon_zero : canon 0 = Limbs.zero := by decide

@[simp] theorem zero_ival : Limbs.zero.ival = 0 := by decide

theorem val_lt (a : Fe) : a.val < Const.p := Nat.mod_lt _ (by decide)

theorem feConst_val {v : Nat} (h : v < Const.p) : (feConst v).val = v := by
  have hp : Const.p < 2 ^ 256 := by decide
  show (canon v).ival % Const.p = v
  rw [canon_ival v (by omega), Nat.mod_eq_of_lt h]

theorem feNorm_val (a : Fe) : (feNorm a).val = a.val := feConst_val (val_lt a)

/-! ## Folding (R114) -/

theorem fold_mod (t : Nat) : fold t % Const.p = t % Const.p := by
  have h : t = t % 2 ^ 256 + 2 ^ 256 * (t / 2 ^ 256) := by omega
  have hc : 2 ^ 256 % Const.p = Const.foldC % Const.p := by decide
  unfold fold
  conv_rhs => rw [h]
  rw [Nat.add_mod, Nat.mul_mod, ← hc, ← Nat.mul_mod, ← Nat.add_mod]

theorem fold3_mod (t : Nat) : fold3 t % Const.p = t % Const.p := by
  unfold fold3
  rw [fold_mod, fold_mod, fold_mod]

theorem fold3_lt (t : Nat) (h : t < 2 ^ 528) : fold3 t < 2 ^ 256 := by
  unfold fold3 fold Const.foldC
  omega

/-! ## The invariant of a field content (R22, R23) -/

theorem Fe.Wf.ival_lt {a : Fe} (h : a.Wf) : a.ival < 2 * a.mag * 2 ^ 256 := by
  obtain ⟨hp, -, h0, h1, h2, h3, h4, -⟩ := h
  simp only [Fe.ival, Limbs.ival]
  generalize a.n.n0.toNat = x0 at *
  generalize a.n.n1.toNat = x1 at *
  generalize a.n.n2.toNat = x2 at *
  generalize a.n.n3.toNat = x3 at *
  generalize a.n.n4.toNat = x4 at *
  omega

/-- A canonical limb vector is a well-formed content of magnitude 1, not normalized or of a value below p. -/
theorem wf_canon {v : Nat} (h : v < 2 ^ 256) {b : Bool} (hb : b = true → v < Const.p) : Fe.Wf ⟨canon v, 1, b⟩ := by
  obtain ⟨h0, h1, h2, h3, h4⟩ := canon_toNat v h
  refine ⟨le_rfl, by show 1 ≤ 32; decide, ?_, ?_, ?_, ?_, ?_, fun hn => ⟨rfl, ?_, ?_⟩⟩
  · rw [h0]; show _ ≤ 2 * 1 * (2 ^ 52 - 1); omega
  · rw [h1]; show _ ≤ 2 * 1 * (2 ^ 52 - 1); omega
  · rw [h2]; show _ ≤ 2 * 1 * (2 ^ 52 - 1); omega
  · rw [h3]; show _ ≤ 2 * 1 * (2 ^ 52 - 1); omega
  · rw [h4]; show _ ≤ 2 * 1 * (2 ^ 48 - 1); omega
  · show (canon v).ival < Const.p
    rw [canon_ival v h]
    exact hb hn
  · show canon v = canon (canon v).ival
    rw [canon_ival v h]

theorem wf_feConst {v : Nat} (h : v < Const.p) : (feConst v).Wf :=
  have hp : Const.p < 2 ^ 256 := by decide
  wf_canon (by omega) fun _ => h

theorem wf_feZero : Fe.zero.Wf := by
  have := wf_feConst (v := 0) (by decide)
  rwa [feConst, canon_zero] at this

theorem wf_feOne : Fe.one.Wf := wf_feConst (by decide)

theorem wf_feNorm (a : Fe) : (feNorm a).Wf := wf_feConst (val_lt a)

set_option exponentiation.threshold 600 in
/-- The product of two contents of magnitude at most 8 is in the range of FOLD3 (R114). -/
theorem product_lt {a b : Fe} (ha : a.Wf) (hb : b.Wf) (h1 : a.mag ≤ 8) (h2 : b.mag ≤ 8) : a.ival * b.ival < 2 ^ 528 := by
  have ia := ha.ival_lt
  have ib := hb.ival_lt
  have ia' : a.ival < 2 ^ 260 := by omega
  have ib' : b.ival < 2 ^ 260 := by omega
  have e : a.ival * b.ival < 2 ^ (260 + 260) := by rw [pow_add]; exact Nat.mul_lt_mul'' ia' ib'
  exact e.trans_le (Nat.pow_le_pow_right (by decide) (by decide))

theorem wf_feMul {a b r : Fe} (ha : a.Wf) (hb : b.Wf) (h : feMul a b = .ok r) : r.Wf := by
  unfold feMul at h
  split at h
  · next hm =>
    obtain ⟨h1, h2⟩ := hm
    simp only [Config.feMulMag] at h1 h2
    cases h
    exact wf_canon (fold3_lt _ (product_lt ha hb h1 h2)) (by simp)
  · cases h

theorem wf_feAdd {a b r : Fe} (ha : a.Wf) (hb : b.Wf) (h : feAdd a b = .ok r) : r.Wf := by
  unfold feAdd at h
  split at h
  · next hm =>
    simp only [Config.feMaxMag] at hm
    cases h
    obtain ⟨ap, -, a0, a1, a2, a3, a4, -⟩ := ha
    obtain ⟨bp, -, b0, b1, b2, b3, b4, -⟩ := hb
    refine ⟨?_, hm, ?_, ?_, ?_, ?_, ?_, by simp⟩ <;> simp only [BitVec.toNat_add] <;> omega
  · cases h

theorem limbTimes_toNat {x : Limb} {k : Nat} (h : x.toNat * k < 2 ^ 64) : (limbTimes x k).toNat = x.toNat * k := by
  rw [limbTimes, BitVec.toNat_ofNat, Nat.mul_comm, Nat.mod_eq_of_lt h]

theorem wf_feTimes {a r : Fe} {k : Nat} (hk : 1 ≤ k) (ha : a.Wf) (h : feTimes a k = .ok r) : r.Wf := by
  unfold feTimes at h
  split at h
  · next hm =>
    simp only [Config.feMaxMag] at hm
    cases h
    obtain ⟨ap, -, a0, a1, a2, a3, a4, -⟩ := ha
    have big : ∀ {x L : Nat}, x ≤ 2 * a.mag * L → L ≤ 2 ^ 52 → x * k < 2 ^ 64 := by
      intro x L hx hL
      have e : x * k ≤ 2 * a.mag * L * k := Nat.mul_le_mul_right k hx
      have e2 : 2 * a.mag * L * k = 2 * (a.mag * k) * L := by ring
      have e3 : 2 * (a.mag * k) * L ≤ 2 * 32 * 2 ^ 52 := Nat.mul_le_mul (by omega) hL
      omega
    have bound : ∀ {x L : Nat}, x ≤ 2 * a.mag * L → x * k ≤ 2 * (a.mag * k) * L := by
      intro x L hx
      calc x * k ≤ 2 * a.mag * L * k := Nat.mul_le_mul_right k hx
        _ = 2 * (a.mag * k) * L := by ring
    refine ⟨Nat.mul_pos ap hk, hm, ?_, ?_, ?_, ?_, ?_, by simp⟩ <;> simp only
    · rw [limbTimes_toNat (big a0 (by norm_num))]; exact bound a0
    · rw [limbTimes_toNat (big a1 (by norm_num))]; exact bound a1
    · rw [limbTimes_toNat (big a2 (by norm_num))]; exact bound a2
    · rw [limbTimes_toNat (big a3 (by norm_num))]; exact bound a3
    · rw [limbTimes_toNat (big a4 (by norm_num))]; exact bound a4
  · cases h

/-- One limb of a negation neither borrows nor wraps. -/
theorem limbNeg_toNat {m : Nat} {q x : Limb} (hx : x.toNat ≤ 2 * (m + 1) * q.toNat)
    (hq : 2 * (m + 1) * q.toNat < 2 ^ 64) : (limbNeg m q x).toNat = 2 * (m + 1) * q.toNat - x.toNat := by
  have e : (2 * ((m : Int) + 1) * (q.toNat : Int) - (x.toNat : Int)) = ((2 * (m + 1) * q.toNat - x.toNat : Nat) : Int) := by
    rw [Nat.cast_sub hx]; push_cast; ring
  simp only [limbNeg, limbOfInt, e, BitVec.toNat_ofInt]
  have : (2 * (m + 1) * q.toNat - x.toNat) < 2 ^ 64 := by omega
  norm_cast
  rw [Nat.mod_eq_of_lt this]

/-- The bounds of one limb of a negation: `Q` the limb of p, `L` the largest canonical limb. -/
theorem limbNeg_le {m mag Q L : Nat} {q x : Limb} (hq : q.toNat = Q) (hx : x.toNat ≤ 2 * mag * L) (hm : mag ≤ m)
    (hm31 : m ≤ 31) (hQL : Q ≤ L) (hL : L < 2 ^ 52) (hbig : m * L ≤ (m + 1) * Q) :
    (limbNeg m q x).toNat ≤ 2 * (m + 1) * L := by
  have e1 : 2 * mag * L ≤ 2 * m * L := Nat.mul_le_mul_right L (by omega)
  have e2 : 2 * m * L = 2 * (m * L) := by ring
  have e3 : 2 * (m + 1) * Q = 2 * ((m + 1) * Q) := by ring
  have e4 : 2 * (m + 1) * Q ≤ 2 * (m + 1) * L := Nat.mul_le_mul_left _ hQL
  have e5 : 2 * (m + 1) * L ≤ 64 * 2 ^ 52 := Nat.mul_le_mul (by omega) hL.le
  rw [limbNeg_toNat (by rw [hq]; omega) (by rw [hq]; omega), hq]
  omega

/-- Multiples of the limbs of p leave room for a subtrahend of magnitude at most m. -/
theorem limbNeg_room {m : Nat} (h : m ≤ 31) : m * (2 ^ 52 - 1) ≤ (m + 1) * 0xFFFFEFFFFFC2F ∧
    m * (2 ^ 52 - 1) ≤ (m + 1) * 0xFFFFFFFFFFFFF ∧ m * (2 ^ 48 - 1) ≤ (m + 1) * 0xFFFFFFFFFFFF := by
  refine ⟨?_, ?_, ?_⟩ <;> omega

theorem wf_feNeg {a r : Fe} {m : Nat} (ha : a.Wf) (h : feNeg a m = .ok r) : r.Wf := by
  unfold feNeg at h
  split at h
  · next hm =>
    obtain ⟨h1, h2⟩ := hm
    simp only [Config.feNegMag] at h2
    cases h
    obtain ⟨ap, -, a0, a1, a2, a3, a4, -⟩ := ha
    obtain ⟨low, mid, top⟩ := limbNeg_room h2
    refine ⟨Nat.le_add_left 1 m, Nat.succ_le_succ h2, ?_, ?_, ?_, ?_, ?_, by simp⟩
    · exact limbNeg_le (L := 2 ^ 52 - 1) (Q := 0xFFFFEFFFFFC2F) (by decide) a0 h1 h2 (by decide) (by decide) low
    · exact limbNeg_le (L := 2 ^ 52 - 1) (Q := 0xFFFFFFFFFFFFF) (by decide) a1 h1 h2 (by decide) (by decide) mid
    · exact limbNeg_le (L := 2 ^ 52 - 1) (Q := 0xFFFFFFFFFFFFF) (by decide) a2 h1 h2 (by decide) (by decide) mid
    · exact limbNeg_le (L := 2 ^ 52 - 1) (Q := 0xFFFFFFFFFFFFF) (by decide) a3 h1 h2 (by decide) (by decide) mid
    · exact limbNeg_le (L := 2 ^ 48 - 1) (Q := 0xFFFFFFFFFFFF) (by decide) a4 h1 h2 (by decide) (by decide) top
  · cases h

theorem wf_feCmov {r a : Fe} (hr : r.Wf) (ha : a.Wf) (c : Bool) : (feCmov r a c).Wf := by
  have left : ∀ {x L : Nat}, x ≤ 2 * r.mag * L → x ≤ 2 * max r.mag a.mag * L := fun h =>
    h.trans (Nat.mul_le_mul_right _ (Nat.mul_le_mul_left _ (le_max_left ..)))
  have right : ∀ {x L : Nat}, x ≤ 2 * a.mag * L → x ≤ 2 * max r.mag a.mag * L := fun h =>
    h.trans (Nat.mul_le_mul_right _ (Nat.mul_le_mul_left _ (le_max_right ..)))
  obtain ⟨rp, rle, r0, r1, r2, r3, r4, rn⟩ := hr
  obtain ⟨ap, ale, a0, a1, a2, a3, a4, an⟩ := ha
  have hn : (feCmov r a c).norm = true → r.norm = true ∧ a.norm = true := by simp
  cases c
  · refine ⟨le_max_of_le_left rp, max_le rle ale, left r0, left r1, left r2, left r3, left r4, fun h => ?_⟩
    obtain ⟨m1, v1, c1⟩ := rn (hn h).1
    obtain ⟨m2, -, -⟩ := an (hn h).2
    exact ⟨by rw [feCmov_mag, m1, m2]; rfl, v1, c1⟩
  · refine ⟨le_max_of_le_left rp, max_le rle ale, right a0, right a1, right a2, right a3, right a4, fun h => ?_⟩
    obtain ⟨m1, -, -⟩ := rn (hn h).1
    obtain ⟨m2, v2, c2⟩ := an (hn h).2
    exact ⟨by rw [feCmov_mag, m1, m2]; rfl, v2, c2⟩

/-! ## Values modulo p -/

/-- The field value of a content, as an element of the integers modulo p. -/
theorem cast_val (a : Fe) : ((a.val : Nat) : ZMod Const.p) = (a.ival : ZMod Const.p) := ZMod.natCast_mod _ _

theorem cast_canon {v : Nat} (h : v < 2 ^ 256) : ((canon v).ival : ZMod Const.p) = (v : ZMod Const.p) := by
  rw [canon_ival v h]

/-- `MUL` once its precondition holds: tags, invariant, value (R114, R131). -/
theorem feMul_spec {a b : Fe} (h1 : a.mag ≤ 8) (h2 : b.mag ≤ 8) :
    ∃ r, feMul a b = .ok r ∧ r.mag = 1 ∧ r.norm = false ∧
      (a.Wf → b.Wf → r.Wf ∧ (r.ival : ZMod Const.p) = a.ival * b.ival) := by
  refine ⟨_, feMul_ok h1 h2, rfl, rfl, fun ha hb => ⟨wf_feMul ha hb (feMul_ok h1 h2), ?_⟩⟩
  have h := product_lt ha hb h1 h2
  show ((canon (fold3 (a.ival * b.ival))).ival : ZMod Const.p) = _
  rw [cast_canon (fold3_lt _ h), ← ZMod.natCast_mod, fold3_mod, ZMod.natCast_mod, Nat.cast_mul]

/-- `SQR` (R114). -/
theorem feSqr_spec {a : Fe} (h : a.mag ≤ 8) :
    ∃ r, feSqr a = .ok r ∧ r.mag = 1 ∧ r.norm = false ∧
      (a.Wf → r.Wf ∧ (r.ival : ZMod Const.p) = a.ival * a.ival) := by
  obtain ⟨r, h1, h2, h3, h4⟩ := feMul_spec h h
  exact ⟨r, h1, h2, h3, fun ha => h4 ha ha⟩

/-- The integer of a sum of contents (R113). -/
theorem feAdd_ival {a b r : Fe} (ha : a.Wf) (hb : b.Wf) (h : feAdd a b = .ok r) : r.ival = a.ival + b.ival := by
  unfold feAdd at h
  split at h
  · next hm =>
    simp only [Config.feMaxMag] at hm
    cases h
    obtain ⟨ap, -, a0, a1, a2, a3, a4, -⟩ := ha
    obtain ⟨bp, -, b0, b1, b2, b3, b4, -⟩ := hb
    simp only [Fe.ival, Limbs.ival, BitVec.toNat_add]
    omega
  · cases h

/-- `ADD` once its precondition holds (R113). -/
theorem feAdd_spec {a b : Fe} (h : a.mag + b.mag ≤ 32) :
    ∃ r, feAdd a b = .ok r ∧ r.mag = a.mag + b.mag ∧ r.norm = false ∧
      (a.Wf → b.Wf → r.Wf ∧ (r.ival : ZMod Const.p) = a.ival + b.ival) := by
  refine ⟨_, feAdd_ok h, rfl, rfl, fun ha hb => ⟨wf_feAdd ha hb (feAdd_ok h), ?_⟩⟩
  rw [feAdd_ival ha hb (feAdd_ok h), Nat.cast_add]

/-- The integer of a small multiple (R113). -/
theorem feTimes_ival {a r : Fe} {k : Nat} (ha : a.Wf) (h : feTimes a k = .ok r) : r.ival = a.ival * k := by
  unfold feTimes at h
  split at h
  · next hm =>
    simp only [Config.feMaxMag] at hm
    cases h
    obtain ⟨ap, -, a0, a1, a2, a3, a4, -⟩ := ha
    have big : ∀ {x L : Nat}, x ≤ 2 * a.mag * L → L ≤ 2 ^ 52 → x * k < 2 ^ 64 := by
      intro x L hx hL
      have e : x * k ≤ 2 * a.mag * L * k := Nat.mul_le_mul_right k hx
      have e2 : 2 * a.mag * L * k = 2 * (a.mag * k) * L := by ring
      have e3 : 2 * (a.mag * k) * L ≤ 2 * 32 * 2 ^ 52 := Nat.mul_le_mul (by omega) hL
      omega
    simp only [Fe.ival, Limbs.ival]
    rw [limbTimes_toNat (big a0 (by norm_num)), limbTimes_toNat (big a1 (by norm_num)),
      limbTimes_toNat (big a2 (by norm_num)), limbTimes_toNat (big a3 (by norm_num)),
      limbTimes_toNat (big a4 (by norm_num))]
    ring
  · cases h

/-- `TIMES` once its precondition holds (R113). -/
theorem feTimes_spec {a : Fe} {k : Nat} (hk : 1 ≤ k) (h : a.mag * k ≤ 32) :
    ∃ r, feTimes a k = .ok r ∧ r.mag = a.mag * k ∧ r.norm = false ∧
      (a.Wf → r.Wf ∧ (r.ival : ZMod Const.p) = a.ival * k) := by
  refine ⟨_, feTimes_ok h, rfl, rfl, fun ha => ⟨wf_feTimes hk ha (feTimes_ok h), ?_⟩⟩
  rw [feTimes_ival ha (feTimes_ok h), Nat.cast_mul]

/-- One limb of a negation, over the integers. -/
theorem limbNeg_int {m mag Q L : Nat} {q x : Limb} (hq : q.toNat = Q) (hx : x.toNat ≤ 2 * mag * L) (hm : mag ≤ m)
    (hm31 : m ≤ 31) (hQL : Q ≤ L) (hL : L < 2 ^ 52) (hbig : m * L ≤ (m + 1) * Q) :
    ((limbNeg m q x).toNat : Int) = 2 * (m + 1) * Q - x.toNat := by
  have e1 : 2 * mag * L ≤ 2 * m * L := Nat.mul_le_mul_right L (by omega)
  have e2 : 2 * m * L = 2 * (m * L) := by ring
  have e3 : 2 * (m + 1) * Q = 2 * ((m + 1) * Q) := by ring
  have e4 : 2 * (m + 1) * Q ≤ 2 * (m + 1) * L := Nat.mul_le_mul_left _ hQL
  have e5 : 2 * (m + 1) * L ≤ 64 * 2 ^ 52 := Nat.mul_le_mul (by omega) hL.le
  rw [limbNeg_toNat (by rw [hq]; omega) (by rw [hq]; omega), hq, Nat.cast_sub (by omega)]
  push_cast
  ring

/-- The integer of a negation: `ival(NEG(a, m)) = 2(m+1)p − ival(a)` (R113). -/
theorem feNeg_ival {a r : Fe} {m : Nat} (ha : a.Wf) (h : feNeg a m = .ok r) :
    (r.ival : Int) = 2 * (m + 1) * Const.p - a.ival := by
  unfold feNeg at h
  split at h
  · next hm =>
    obtain ⟨h1, h2⟩ := hm
    simp only [Config.feNegMag] at h2
    cases h
    obtain ⟨ap, -, a0, a1, a2, a3, a4, -⟩ := ha
    obtain ⟨low, mid, top⟩ := limbNeg_room h2
    have i0 := limbNeg_int (L := 2 ^ 52 - 1) (Q := 0xFFFFEFFFFFC2F) (q := Const.pl.n0) (by decide) a0 h1 h2 (by decide) (by decide) low
    have i1 := limbNeg_int (L := 2 ^ 52 - 1) (Q := 0xFFFFFFFFFFFFF) (q := Const.pl.n1) (by decide) a1 h1 h2 (by decide) (by decide) mid
    have i2 := limbNeg_int (L := 2 ^ 52 - 1) (Q := 0xFFFFFFFFFFFFF) (q := Const.pl.n2) (by decide) a2 h1 h2 (by decide) (by decide) mid
    have i3 := limbNeg_int (L := 2 ^ 52 - 1) (Q := 0xFFFFFFFFFFFFF) (q := Const.pl.n3) (by decide) a3 h1 h2 (by decide) (by decide) mid
    have i4 := limbNeg_int (L := 2 ^ 48 - 1) (Q := 0xFFFFFFFFFFFF) (q := Const.pl.n4) (by decide) a4 h1 h2 (by decide) (by decide) top
    simp only [Fe.ival, Limbs.ival]
    push_cast
    rw [i0, i1, i2, i3, i4]
    simp only [Const.p]
    push_cast
    ring
  · cases h

/-- `NEG` once its precondition holds (R113). -/
theorem feNeg_spec {a : Fe} {m : Nat} (h : a.mag ≤ m) (hm : m ≤ 31) :
    ∃ r, feNeg a m = .ok r ∧ r.mag = m + 1 ∧ r.norm = false ∧
      (a.Wf → r.Wf ∧ (r.ival : ZMod Const.p) = -(a.ival : ZMod Const.p)) := by
  refine ⟨_, feNeg_ok h hm, rfl, rfl, fun ha => ⟨wf_feNeg ha (feNeg_ok h hm), ?_⟩⟩
  have e := congrArg (Int.cast : Int → ZMod Const.p) (feNeg_ival ha (feNeg_ok h hm))
  push_cast at e
  simpa using e

/-- The value of a selection. -/
theorem feCmov_ival (r a : Fe) (c : Bool) : (feCmov r a c).ival = if c then a.ival else r.ival := by
  cases c <;> rfl

/-- The value of a normalized copy. -/
theorem feNorm_ival (a : Fe) : ((feNorm a).ival : ZMod Const.p) = (a.ival : ZMod Const.p) := by
  rw [← cast_val, feNorm_val, cast_val]

end Sys2Proof.Machine
end

