-- ==== Sys2Proof/Laws/Group.lean ====
section
/-! SUPPORT. The point helpers: each answers once its stated checks pass (`spec/44_group.md` R201), with the tags its rule
gives, and keeps the invariant of point contents. -/

namespace Sys2Proof.Machine

/-! ## Small helpers -/

theorem chk8_three {a b c : Fe} (ha : a.mag ≤ 8) (hb : b.mag ≤ 8) (hc : c.mag ≤ 8) : chk8 [a, b, c] = .ok () := by
  rw [chk8_ok]; simp [ha, hb, hc]

theorem chk8_five {a b c d e : Fe} (ha : a.mag ≤ 8) (hb : b.mag ≤ 8) (hc : c.mag ≤ 8) (hd : d.mag ≤ 8)
    (he : e.mag ≤ 8) : chk8 [a, b, c, d, e] = .ok () := by
  rw [chk8_ok]; simp [ha, hb, hc, hd, he]

theorem chk8_six {a b c d e f : Fe} (ha : a.mag ≤ 8) (hb : b.mag ≤ 8) (hc : c.mag ≤ 8) (hd : d.mag ≤ 8)
    (he : e.mag ≤ 8) (hf : f.mag ≤ 8) : chk8 [a, b, c, d, e, f] = .ok () := by
  rw [chk8_ok]; simp [ha, hb, hc, hd, he, hf]

/-- Zeroizing keeps tags and inf, and the invariant holds when the infinity marker is what is zeroized (R191). -/
theorem zeroize_wf {P : Gej} (hx : P.x.Wf) (hy : P.y.Wf) (hz : P.z.Wf) : (zeroize P P.inf).Wf := by
  refine ⟨wf_feCmov hx wf_feZero _, wf_feCmov hy wf_feZero _, wf_feCmov hz wf_feZero _, fun h => ?_⟩
  have e : P.inf = true := h
  simp [zeroize_eq, e]

theorem wf_geInfinity : Ge.infinity.Wf := ⟨wf_feZero, wf_feZero, fun _ => ⟨rfl, rfl⟩⟩

theorem wf_gejInfinity : Gej.infinity.Wf := ⟨wf_feZero, wf_feZero, wf_feZero, fun _ => ⟨rfl, rfl, rfl⟩⟩

theorem wf_generator : Ge.generator.Wf := ⟨wf_feConst (by decide), wf_feConst (by decide), fun h => nomatch h⟩

theorem wf_contextClear : Context.clear.Wf :=
  ⟨by decide, ⟨wf_feZero, wf_feZero, fun h => nomatch h⟩, ⟨rfl, rfl⟩, rfl, fun _ => rfl⟩

theorem wf_toJac {a : Ge} (h : a.Wf) : (toJac a).Wf := by
  refine ⟨h.x, h.y, wf_feCmov wf_feOne wf_feZero _, fun hi => ?_⟩
  have e : a.inf = true := hi
  obtain ⟨h1, h2⟩ := h.infinite e
  exact ⟨h1, h2, by simp [toJac_eq, e]⟩

/-- `NEGJ` once its precondition holds (R194). -/
theorem negJ_spec {P : Gej} (h : P.y.mag ≤ 31) :
    ∃ R, negJ P = .ok R ∧ R.x = P.x ∧ R.y.mag = P.y.mag + 1 ∧ R.y.norm = false ∧ R.z = P.z ∧ R.inf = P.inf ∧
      (P.Wf → R.Wf) := by
  obtain ⟨y, hy, hm, hn, hw⟩ := feNeg_spec (a := P.y) le_rfl h
  refine ⟨⟨P.x, feCmov y Fe.zero P.inf, P.z, P.inf⟩, ?_, rfl, ?_, ?_, rfl, rfl, fun hP => ?_⟩
  · simp [negJ_eq, hy, Config.feNegMag, h]
  · simp [hm]
  · simp [hn]
  · refine ⟨hP.x, wf_feCmov (hw hP.y).1 wf_feZero _, hP.z, fun hi => ?_⟩
    have e : P.inf = true := hi
    obtain ⟨h1, -, h3⟩ := hP.infinite e
    exact ⟨h1, by simp [e], h3⟩

theorem negJ_error {P : Gej} (h : 31 < P.y.mag) : negJ P = .error .feMagnitude := by
  simp [negJ_eq, require, Config.feNegMag, Nat.not_le.2 h]

/-- `NEGA` once its precondition holds (R194). -/
theorem negA_spec {P : Ge} (h : P.y.mag ≤ 31) :
    ∃ R, negA P = .ok R ∧ R.x = P.x ∧ R.y.mag = P.y.mag + 1 ∧ R.y.norm = false ∧ R.inf = P.inf ∧ (P.Wf → R.Wf) := by
  obtain ⟨y, hy, hm, hn, hw⟩ := feNeg_spec (a := P.y) le_rfl h
  refine ⟨⟨P.x, feCmov y Fe.zero P.inf, P.inf⟩, ?_, rfl, ?_, ?_, rfl, fun hP => ?_⟩
  · simp [negA_eq, hy, Config.feNegMag, h]
  · simp [hm]
  · simp [hn]
  · refine ⟨hP.x, wf_feCmov (hw hP.y).1 wf_feZero _, fun hi => ?_⟩
    have e : P.inf = true := hi
    exact ⟨(hP.infinite e).1, by simp [e]⟩

theorem negA_error {P : Ge} (h : 31 < P.y.mag) : negA P = .error .feMagnitude := by
  simp [negA_eq, require, Config.feNegMag, Nat.not_le.2 h]

/-! ## The doubler (R196) -/

/-- `DBL` once CHK8 passes: tags (6, 4, 2), norm 0, inf kept, the invariant. -/
theorem gejDbl_spec {P : Gej} (hx : P.x.mag ≤ 8) (hy : P.y.mag ≤ 8) (hz : P.z.mag ≤ 8) :
    ∃ R, gejDbl P = .ok R ∧ R.x.mag = 6 ∧ R.y.mag = 4 ∧ R.z.mag = 2 ∧
      R.x.norm = false ∧ R.y.norm = false ∧ R.z.norm = false ∧ R.inf = P.inf ∧
      (P.x.Wf → P.y.Wf → P.z.Wf → R.Wf) := by
  obtain ⟨z3, e1, m1, n1, w1⟩ := feMul_spec hz hy
  obtain ⟨z3', e2, m2, n2, w2⟩ := feAdd_spec (a := z3) (b := z3) (by omega)
  obtain ⟨t1, e3, m3, n3, w3⟩ := feSqr_spec hx
  obtain ⟨t1', e4, m4, n4, w4⟩ := feTimes_spec (a := t1) (k := 3) (by omega) (by omega)
  obtain ⟨t2, e5, m5, n5, w5⟩ := feSqr_spec (a := t1') (by omega)
  obtain ⟨t3, e6, m6, n6, w6⟩ := feSqr_spec hy
  obtain ⟨t3', e7, m7, n7, w7⟩ := feTimes_spec (a := t3) (k := 2) (by omega) (by omega)
  obtain ⟨t4, e8, m8, n8, w8⟩ := feSqr_spec (a := t3') (by omega)
  obtain ⟨t4', e9, m9, n9, w9⟩ := feTimes_spec (a := t4) (k := 2) (by omega) (by omega)
  obtain ⟨t5, e10, m10, n10, w10⟩ := feMul_spec (a := t3') (b := P.x) (by omega) hx
  obtain ⟨x3, e11, m11, n11, w11⟩ := feTimes_spec (a := t5) (k := 4) (by omega) (by omega)
  obtain ⟨x3', e12, m12, n12, w12⟩ := feNeg_spec (a := x3) (m := 4) (by omega) (by omega)
  obtain ⟨x3'', e13, m13, n13, w13⟩ := feAdd_spec (a := x3') (b := t2) (by omega)
  obtain ⟨t2', e14, m14, n14, w14⟩ := feNeg_spec (a := t2) (m := 1) (by omega) (by omega)
  obtain ⟨t6, e15, m15, n15, w15⟩ := feTimes_spec (a := t5) (k := 6) (by omega) (by omega)
  obtain ⟨t6', e16, m16, n16, w16⟩ := feAdd_spec (a := t6) (b := t2') (by omega)
  obtain ⟨y3, e17, m17, n17, w17⟩ := feMul_spec (a := t1') (b := t6') (by omega) (by omega)
  obtain ⟨t7, e18, m18, n18, w18⟩ := feNeg_spec (a := t4') (m := 2) (by omega) (by omega)
  obtain ⟨y3', e19, m19, n19, w19⟩ := feAdd_spec (a := y3) (b := t7) (by omega)
  refine ⟨zeroize ⟨x3'', y3', z3', P.inf⟩ P.inf, ?_, ?_, ?_, ?_, ?_, ?_, ?_, rfl, fun wx wy wz => ?_⟩
  · simp [gejDbl_eq, chk8_three hx hy hz, e1, e2, e3, e4, e5, e6, e7, e8, e9, e10, e11, e12, e13, e14, e15, e16, e17, e18, e19]
  · simp [zeroize_eq, m13, m12, m5]
  · simp [zeroize_eq, m19, m18, m17]
  · simp [zeroize_eq, m2, m1]
  · simp [zeroize_eq, n13]
  · simp [zeroize_eq, n19]
  · simp [zeroize_eq, n2]
  · have v1 := (w1 wz wy).1
    have v3 := (w4 (w3 wx).1).1
    have v5 := (w5 v3).1
    have v7 := (w7 (w6 wy).1).1
    have v10 := (w10 v7 wx).1
    have v13 := (w13 (w12 (w11 v10).1).1 v5).1
    have v16 := (w16 (w15 v10).1 (w14 v5).1).1
    have v19 := (w19 (w17 v3 v16).1 (w18 (w9 (w8 v7).1).1).1).1
    exact zeroize_wf v13 v19 (w2 v1 v1).1

theorem gejDbl_error {P : Gej} (h : P.big = true) : gejDbl P = .error .feMagnitude := by
  have : chk8 [P.x, P.y, P.z] = .error .feMagnitude := chk8_error (by
    simp only [Gej.big, Bool.or_eq_true, decide_eq_true_eq] at h
    intro hall
    have h1 := hall P.x (by simp)
    have h2 := hall P.y (by simp)
    have h3 := hall P.z (by simp)
    omega)
  simp [gejDbl_eq, this]

/-! ## The adders (R197 to R200) -/

/-- `ADDCORE` on contents of the tags the adders give it: tags (5, 3, 1), the invariant. -/
theorem addCore_spec {u s h i z : Fe} (hu : u.mag ≤ 8) (hs : s.mag ≤ 8) (hh : h.mag ≤ 8) (hi : i.mag ≤ 8)
    (hz : z.mag ≤ 8) :
    ∃ X Y Z, addCore u s h i z = .ok (X, Y, Z) ∧ X.mag = 5 ∧ Y.mag = 3 ∧ Z.mag = 1 ∧
      X.norm = false ∧ Y.norm = false ∧ Z.norm = false ∧
      (u.Wf → s.Wf → h.Wf → i.Wf → z.Wf → X.Wf ∧ Y.Wf ∧ Z.Wf) := by
  obtain ⟨i2, e1, m1, n1, w1⟩ := feSqr_spec hi
  obtain ⟨h2, e2, m2, n2, w2⟩ := feSqr_spec hh
  obtain ⟨h3, e3, m3, n3, w3⟩ := feMul_spec (a := h) (b := h2) hh (by omega)
  obtain ⟨z3, e4, m4, n4, w4⟩ := feMul_spec hz hh
  obtain ⟨t, e5, m5, n5, w5⟩ := feMul_spec (a := u) (b := h2) hu (by omega)
  obtain ⟨x1, e6, m6, n6, w6⟩ := feTimes_spec (a := t) (k := 2) (by omega) (by omega)
  obtain ⟨x2, e7, m7, n7, w7⟩ := feAdd_spec (a := x1) (b := h3) (by omega)
  obtain ⟨x3, e8, m8, n8, w8⟩ := feNeg_spec (a := x2) (m := 3) (by omega) (by omega)
  obtain ⟨x4, e9, m9, n9, w9⟩ := feAdd_spec (a := x3) (b := i2) (by omega)
  obtain ⟨y1, e10, m10, n10, w10⟩ := feNeg_spec (a := x4) (m := 5) (by omega) (by omega)
  obtain ⟨y2, e11, m11, n11, w11⟩ := feAdd_spec (a := y1) (b := t) (by omega)
  obtain ⟨y3, e12, m12, n12, w12⟩ := feMul_spec (a := y2) (b := i) (by omega) hi
  obtain ⟨h4, e13, m13, n13, w13⟩ := feMul_spec (a := h3) (b := s) (by omega) hs
  obtain ⟨h5, e14, m14, n14, w14⟩ := feNeg_spec (a := h4) (m := 1) (by omega) (by omega)
  obtain ⟨y4, e15, m15, n15, w15⟩ := feAdd_spec (a := y3) (b := h5) (by omega)
  refine ⟨x4, y4, z3, ?_, by omega, by omega, m4, n9, n15, n4, fun wu ws wh wi wz => ?_⟩
  · simp [addCore_eq, e1, e2, e3, e4, e5, e6, e7, e8, e9, e10, e11, e12, e13, e14, e15]
  · have v2 := (w2 wh).1
    have v3 := (w3 wh v2).1
    have v5 := (w5 wu v2).1
    have v9 := (w9 (w8 (w7 (w6 v5).1 v3).1).1 (w1 wi).1).1
    have v12 := (w12 (w11 (w10 v9).1 v5).1 wi).1
    exact ⟨v9, (w15 v12 (w14 (w13 v3 ws).1).1).1, (w4 wz wh).1⟩

/-- The difference of two contents of magnitude 1 (R198 to R200). -/
theorem feDiff_spec {a b : Fe} (ha : a.mag ≤ 1) (hb : b.mag = 1) :
    ∃ r, feDiff a b = .ok r ∧ r.mag = 3 ∧ r.norm = false ∧
      (a.Wf → b.Wf → r.Wf ∧ (r.ival : ZMod Const.p) = b.ival - a.ival) := by
  obtain ⟨x, e1, m1, n1, w1⟩ := feNeg_spec ha (m := 1) (by omega)
  obtain ⟨r, e2, m2, n2, w2⟩ := feAdd_spec (a := x) (b := b) (by omega)
  refine ⟨r, by simp [feDiff_eq, e1, e2], by omega, n2, fun wa wb => ?_⟩
  obtain ⟨v1, i1⟩ := w1 wa
  obtain ⟨v2, i2⟩ := w2 v1 wb
  exact ⟨v2, by rw [i2, i1]; ring⟩

/-- The cross products of two Jacobian contents: U1, S1 of magnitude 1, H, I of magnitude 3 (R198). -/
theorem crossJac_spec {P Q : Gej} (px : P.x.mag ≤ 8) (py : P.y.mag ≤ 8) (pz : P.z.mag ≤ 8) (qx : Q.x.mag ≤ 8)
    (qy : Q.y.mag ≤ 8) (qz : Q.z.mag ≤ 8) :
    ∃ u s h i, crossJac P Q = .ok (u, s, h, i) ∧ u.mag = 1 ∧ s.mag = 1 ∧ h.mag = 3 ∧ i.mag = 3 ∧
      (P.Wf → Q.Wf → u.Wf ∧ s.Wf ∧ h.Wf ∧ i.Wf ∧
        (u.ival : ZMod Const.p) = P.x.ival * Q.z.ival ^ 2 ∧ (s.ival : ZMod Const.p) = P.y.ival * Q.z.ival ^ 3 ∧
        (h.ival : ZMod Const.p) = Q.x.ival * P.z.ival ^ 2 - P.x.ival * Q.z.ival ^ 2 ∧
        (i.ival : ZMod Const.p) = Q.y.ival * P.z.ival ^ 3 - P.y.ival * Q.z.ival ^ 3) := by
  obtain ⟨a, e1, m1, n1, w1⟩ := feSqr_spec qz
  obtain ⟨b, e2, m2, n2, w2⟩ := feSqr_spec pz
  obtain ⟨u1, e3, m3, n3, w3⟩ := feMul_spec (a := P.x) (b := a) px (by omega)
  obtain ⟨u2, e4, m4, n4, w4⟩ := feMul_spec (a := Q.x) (b := b) qx (by omega)
  obtain ⟨s1, e5, m5, n5, w5⟩ := feMul_spec (a := P.y) (b := a) py (by omega)
  obtain ⟨s1', e6, m6, n6, w6⟩ := feMul_spec (a := s1) (b := Q.z) (by omega) qz
  obtain ⟨s2, e7, m7, n7, w7⟩ := feMul_spec (a := Q.y) (b := b) qy (by omega)
  obtain ⟨s2', e8, m8, n8, w8⟩ := feMul_spec (a := s2) (b := P.z) (by omega) pz
  obtain ⟨h, e9, m9, n9, w9⟩ := feDiff_spec (a := u1) (b := u2) (by omega) m4
  obtain ⟨i, e10, m10, n10, w10⟩ := feDiff_spec (a := s1') (b := s2') (by omega) m8
  refine ⟨u1, s1', h, i, ?_, m3, m6, m9, m10, fun wP wQ => ?_⟩
  · simp [crossJac_eq, crossProducts_eq, e1, e2, e3, e4, e5, e6, e7, e8, e9, e10]
  · obtain ⟨v1, i1⟩ := w1 wQ.z
    obtain ⟨v2, i2⟩ := w2 wP.z
    obtain ⟨v3, i3⟩ := w3 wP.x v1
    obtain ⟨v4, i4⟩ := w4 wQ.x v2
    obtain ⟨v5, i5⟩ := w5 wP.y v1
    obtain ⟨v6, i6⟩ := w6 v5 wQ.z
    obtain ⟨v7, i7⟩ := w7 wQ.y v2
    obtain ⟨v8, i8⟩ := w8 v7 wP.z
    obtain ⟨v9, i9⟩ := w9 v3 v4
    obtain ⟨v10, i10⟩ := w10 v6 v8
    refine ⟨v3, v6, v9, v10, ?_, ?_, ?_, ?_⟩
    · rw [i3, i1]; ring
    · rw [i6, i5, i1]; ring
    · rw [i9, i4, i3, i2, i1]; ring
    · rw [i10, i8, i7, i6, i5, i2, i1]; ring

/-- The cross products of a Jacobian and an affine content (R199, R200). -/
theorem crossMixed_spec {P : Gej} {b : Ge} (pz : P.z.mag ≤ 8) (bx : b.x.mag ≤ 8) (byy : b.y.mag ≤ 8) :
    ∃ u s h i, crossMixed P b = .ok (u, s, h, i) ∧ u.mag = 1 ∧ s.mag = 1 ∧ h.mag = 3 ∧ i.mag = 3 ∧
      (P.Wf → b.Wf → u.Wf ∧ s.Wf ∧ h.Wf ∧ i.Wf ∧
        (u.ival : ZMod Const.p) = P.x.ival ∧ (s.ival : ZMod Const.p) = P.y.ival ∧
        (h.ival : ZMod Const.p) = b.x.ival * P.z.ival ^ 2 - P.x.ival ∧
        (i.ival : ZMod Const.p) = b.y.ival * P.z.ival ^ 3 - P.y.ival) := by
  obtain ⟨a, e1, m1, n1, w1⟩ := feSqr_spec pz
  obtain ⟨u2, e2, m2, n2, w2⟩ := feMul_spec (a := b.x) (b := a) bx (by omega)
  obtain ⟨s2, e3, m3, n3, w3⟩ := feMul_spec (a := b.y) (b := a) byy (by omega)
  obtain ⟨s2', e4, m4, n4, w4⟩ := feMul_spec (a := s2) (b := P.z) (by omega) pz
  obtain ⟨h, e5, m5, n5, w5⟩ := feDiff_spec (a := feNorm P.x) (b := u2) le_rfl m2
  obtain ⟨i, e6, m6, n6, w6⟩ := feDiff_spec (a := feNorm P.y) (b := s2') le_rfl m4
  refine ⟨feNorm P.x, feNorm P.y, h, i, ?_, rfl, rfl, m5, m6, fun wP wb => ?_⟩
  · simp [crossMixed_eq, e1, e2, e3, e4, e5, e6]
  · obtain ⟨v1, i1⟩ := w1 wP.z
    obtain ⟨v2, i2⟩ := w2 wb.x v1
    obtain ⟨v3, i3⟩ := w3 wb.y v1
    obtain ⟨v4, i4⟩ := w4 v3 wP.z
    obtain ⟨v5, i5⟩ := w5 (wf_feNorm P.x) v2
    obtain ⟨v6, i6⟩ := w6 (wf_feNorm P.y) v4
    refine ⟨wf_feNorm _, wf_feNorm _, v5, v6, feNorm_ival _, feNorm_ival _, ?_, ?_⟩
    · rw [i5, i2, i1, feNorm_ival]; ring
    · rw [i6, i4, i3, i1, feNorm_ival]; ring

/-- `ADDGE` once CHK8 passes: the tags of R200 whatever the values and the inf bits, and the invariant. -/
theorem gejAddGe_spec {P : Gej} {b : Ge} (px : P.x.mag ≤ 8) (py : P.y.mag ≤ 8) (pz : P.z.mag ≤ 8) (bx : b.x.mag ≤ 8)
    (byy : b.y.mag ≤ 8) :
    ∃ R, gejAddGe P b = .ok R ∧ R.x.mag = max (max 6 P.x.mag) b.x.mag ∧ R.y.mag = max (max 4 P.y.mag) b.y.mag ∧
      R.z.mag = max (max 2 P.z.mag) 1 ∧ R.x.norm = false ∧ R.y.norm = false ∧ R.z.norm = false ∧
      (P.Wf → b.Wf → R.Wf) := by
  obtain ⟨u, s, h, i, e1, mu, ms, mh, mi, w1⟩ := crossMixed_spec (P := P) (b := b) pz bx byy
  obtain ⟨X, Y, Z, e2, mX, mY, mZ, nX, nY, nZ, w2⟩ :=
    addCore_spec (u := u) (s := s) (h := h) (i := i) (z := P.z) (by omega) (by omega) (by omega) (by omega) pz
  obtain ⟨D, e3, mDx, mDy, mDz, nDx, nDy, nDz, -, w3⟩ := gejDbl_spec (P := ⟨P.x, P.y, P.z, false⟩) px py pz
  refine ⟨_, by simp [gejAddGe_eq, chk8_five px py pz bx byy, e1, e2, e3]; rfl, ?_, ?_, ?_, ?_, ?_, ?_, fun wP wb => ?_⟩
  · simp only [zeroize_eq, selectGej_eq, feCmov_mag, feZero_mag, mX, mDx]; omega
  · simp only [zeroize_eq, selectGej_eq, feCmov_mag, feZero_mag, mY, mDy]; omega
  · simp only [zeroize_eq, selectGej_eq, feCmov_mag, feZero_mag, feOne_mag, mZ, mDz]; omega
  · simp [zeroize_eq, selectGej_eq, nX]
  · simp [zeroize_eq, selectGej_eq, nY]
  · simp [zeroize_eq, selectGej_eq, nZ]
  · obtain ⟨vu, vs, vh, vi, -⟩ := w1 wP wb
    obtain ⟨vX, vY, vZ⟩ := w2 vu vs vh vi wP.z
    have vD := w3 wP.x wP.y wP.z
    exact zeroize_wf
      (wf_feCmov (wf_feCmov (wf_feCmov vX vD.x _) wP.x _) wb.x _)
      (wf_feCmov (wf_feCmov (wf_feCmov vY vD.y _) wP.y _) wb.y _)
      (wf_feCmov (wf_feCmov (wf_feCmov vZ vD.z _) wP.z _) wf_feOne _)

theorem gejAddGe_error {P : Gej} {b : Ge} (h : (P.big || b.big) = true) : gejAddGe P b = .error .feMagnitude := by
  have : chk8 [P.x, P.y, P.z, b.x, b.y] = .error .feMagnitude := chk8_error (by
    simp only [Gej.big, Ge.big, Bool.or_eq_true, decide_eq_true_eq] at h
    intro hall
    have h1 := hall P.x (by simp)
    have h2 := hall P.y (by simp)
    have h3 := hall P.z (by simp)
    have h4 := hall b.x (by simp)
    have h5 := hall b.y (by simp)
    omega)
  simp [gejAddGe_eq, this]

/-- What the end of a variable-time addition of two finite contents can be (R198): infinity, the doubling, or the chord. -/
def Finished (P R : Gej) : Prop :=
  R = Gej.infinity ∨ gejDbl P = .ok R ∨
    (R.x.mag = 5 ∧ R.y.mag = 3 ∧ R.z.mag = 1 ∧ R.x.norm = false ∧ R.y.norm = false ∧ R.z.norm = false ∧ R.inf = false)

theorem finishAdd_spec {P : Gej} {u s h i z : Fe} {zFactor : Chk Fe} (ez : zFactor = .ok z) (px : P.x.mag ≤ 8) (py : P.y.mag ≤ 8) (pz : P.z.mag ≤ 8)
    (hu : u.mag ≤ 8) (hs : s.mag ≤ 8) (hh : h.mag ≤ 8) (hi : i.mag ≤ 8) (hz : z.mag ≤ 8) :
    ∃ R, finishAdd P u s h i zFactor = .ok R ∧ Finished P R ∧
      (P.Wf → u.Wf → s.Wf → h.Wf → i.Wf → z.Wf → R.Wf) := by
  obtain ⟨X, Y, Z, e3, mX, mY, mZ, nX, nY, nZ, w3⟩ := addCore_spec hu hs hh hi hz
  obtain ⟨D, e4, -, -, -, -, -, -, -, w4⟩ := gejDbl_spec px py pz
  rw [finishAdd_eq, ez]
  split
  · exact ⟨D, e4, .inr (.inl e4), fun wP _ _ _ _ _ => w4 wP.x wP.y wP.z⟩
  · exact ⟨_, rfl, .inl rfl, fun _ _ _ _ _ _ => wf_gejInfinity⟩
  · refine ⟨⟨X, Y, Z, false⟩, by simp [e3], .inr (.inr ⟨mX, mY, mZ, nX, nY, nZ, rfl⟩), fun _ wu ws wh wi wz => ?_⟩
    obtain ⟨vX, vY, vZ⟩ := w3 wu ws wh wi wz
    exact ⟨vX, vY, vZ, fun h => nomatch h⟩

/-- `ADDVAR` on operands that pass its check: the other operand, or what the chord-and-tangent rule ends in; and the
invariant (R198). -/
theorem gejAddVar_spec {P Q : Gej}
    (h : P.inf = false → Q.inf = false → P.x.mag ≤ 8 ∧ P.y.mag ≤ 8 ∧ P.z.mag ≤ 8 ∧ Q.x.mag ≤ 8 ∧ Q.y.mag ≤ 8 ∧ Q.z.mag ≤ 8) :
    ∃ R, gejAddVar P Q = .ok R ∧
      ((P.inf = true ∧ R = Q) ∨ (P.inf = false ∧ Q.inf = true ∧ R = P) ∨
        (P.inf = false ∧ Q.inf = false ∧ Finished P R)) ∧
      (P.Wf → Q.Wf → R.Wf) := by
  cases hP : P.inf with
  | true => exact ⟨Q, by simp [gejAddVar_eq, hP], .inl ⟨rfl, rfl⟩, fun _ w => w⟩
  | false =>
    cases hQ : Q.inf with
    | true => exact ⟨P, by simp [gejAddVar_eq, hP, hQ], .inr (.inl ⟨rfl, rfl, rfl⟩), fun w _ => w⟩
    | false =>
      obtain ⟨px, py, pz, qx, qy, qz⟩ := h hP hQ
      obtain ⟨u, s, hh, i, e1, mu, ms, mh, mi, w1⟩ := crossJac_spec px py pz qx qy qz
      obtain ⟨zf, e2, mz, nz, w2⟩ := feMul_spec pz qz
      obtain ⟨R, e3, hR, w3⟩ := finishAdd_spec (P := P) (u := u) (s := s) (h := hh) (i := i) (z := zf) e2 px py pz
        (by omega) (by omega) (by omega) (by omega) (by omega)
      refine ⟨R, by simp [gejAddVar_eq, hP, hQ, chk8_six px py pz qx qy qz, e1, e3], .inr (.inr ⟨rfl, rfl, hR⟩),
        fun wP wQ => ?_⟩
      obtain ⟨vu, vs, vh, vi, -⟩ := w1 wP wQ
      exact w3 wP vu vs vh vi (w2 wP.z wQ.z).1

theorem gejAddVar_error {P Q : Gej} (hP : P.inf = false) (hQ : Q.inf = false) (h : (P.big || Q.big) = true) :
    gejAddVar P Q = .error .feMagnitude := by
  have : chk8 [P.x, P.y, P.z, Q.x, Q.y, Q.z] = .error .feMagnitude := chk8_error (by
    simp only [Gej.big, Bool.or_eq_true, decide_eq_true_eq] at h
    intro hall
    have h1 := hall P.x (by simp)
    have h2 := hall P.y (by simp)
    have h3 := hall P.z (by simp)
    have h4 := hall Q.x (by simp)
    have h5 := hall Q.y (by simp)
    have h6 := hall Q.z (by simp)
    omega)
  simp [gejAddVar_eq, hP, hQ, this]

/-- `ADDGEVAR` on operands that pass its check, as `gejAddVar_spec` (R199). -/
theorem gejAddGeVar_spec {P : Gej} {b : Ge}
    (h : P.inf = false → b.inf = false → P.x.mag ≤ 8 ∧ P.y.mag ≤ 8 ∧ P.z.mag ≤ 8 ∧ b.x.mag ≤ 8 ∧ b.y.mag ≤ 8) :
    ∃ R, gejAddGeVar P b = .ok R ∧
      ((P.inf = true ∧ R = toJac b) ∨ (P.inf = false ∧ b.inf = true ∧ R = P) ∨
        (P.inf = false ∧ b.inf = false ∧ Finished P R)) ∧
      (P.Wf → b.Wf → R.Wf) := by
  cases hP : P.inf with
  | true => exact ⟨toJac b, by simp [gejAddGeVar_eq, hP], .inl ⟨rfl, rfl⟩, fun _ w => wf_toJac w⟩
  | false =>
    cases hb : b.inf with
    | true => exact ⟨P, by simp [gejAddGeVar_eq, hP, hb], .inr (.inl ⟨rfl, rfl, rfl⟩), fun w _ => w⟩
    | false =>
      obtain ⟨px, py, pz, bx, byy⟩ := h hP hb
      obtain ⟨u, s, hh, i, e1, mu, ms, mh, mi, w1⟩ := crossMixed_spec (P := P) (b := b) pz bx byy
      obtain ⟨R, e3, hR, w3⟩ := finishAdd_spec (P := P) (u := u) (s := s) (h := hh) (i := i) (z := P.z) rfl px py pz
        (by omega) (by omega) (by omega) (by omega) pz
      refine ⟨R, by simp [gejAddGeVar_eq, hP, hb, chk8_five px py pz bx byy, e1, e3], .inr (.inr ⟨rfl, rfl, hR⟩),
        fun wP wb => ?_⟩
      obtain ⟨vu, vs, vh, vi, -⟩ := w1 wP wb
      exact w3 wP vu vs vh vi wP.z

theorem gejAddGeVar_error {P : Gej} {b : Ge} (hP : P.inf = false) (hb : b.inf = false) (h : (P.big || b.big) = true) :
    gejAddGeVar P b = .error .feMagnitude := by
  have : chk8 [P.x, P.y, P.z, b.x, b.y] = .error .feMagnitude := chk8_error (by
    simp only [Gej.big, Ge.big, Bool.or_eq_true, decide_eq_true_eq] at h
    intro hall
    have h1 := hall P.x (by simp)
    have h2 := hall P.y (by simp)
    have h3 := hall P.z (by simp)
    have h4 := hall b.x (by simp)
    have h5 := hall b.y (by simp)
    omega)
  simp [gejAddGeVar_eq, hP, hb, this]

/-! ## Conversion and equality -/

/-- `TOAFF` once CHK8 passes, for an inverse that answers below p: tags (1, 0), the invariant (R202). -/
theorem toAff_spec {P : Gej} {inv : Nat → Nat → Nat} (px : P.x.mag ≤ 8) (py : P.y.mag ≤ 8) (pz : P.z.mag ≤ 8) :
    ∃ R, toAff P inv = .ok R ∧ R.x.mag = 1 ∧ R.y.mag = 1 ∧ R.x.norm = false ∧ R.y.norm = false ∧ R.inf = P.inf ∧
      (P.Wf → inv P.z.val Const.p < Const.p → R.Wf) := by
  obtain ⟨z2, e1, m1, n1, w1⟩ := feSqr_spec (a := feConst (inv P.z.val Const.p)) (by simp)
  obtain ⟨z3, e2, m2, n2, w2⟩ := feMul_spec (a := z2) (b := feConst (inv P.z.val Const.p)) (by omega) (by simp)
  obtain ⟨x, e3, m3, n3, w3⟩ := feMul_spec (a := P.x) (b := z2) px (by omega)
  obtain ⟨y, e4, m4, n4, w4⟩ := feMul_spec (a := P.y) (b := z3) py (by omega)
  refine ⟨⟨feCmov x Fe.zero P.inf, feCmov y Fe.zero P.inf, P.inf⟩, ?_, ?_, ?_, ?_, ?_, rfl, fun wP hi => ?_⟩
  · simp [toAff_eq, chk8_three px py pz, e1, e2, e3, e4]
  · simp [m3]
  · simp [m4]
  · simp [n3]
  · simp [n4]
  · have vz := wf_feConst hi
    have v1 := (w1 vz).1
    refine ⟨wf_feCmov (w3 wP.x v1).1 wf_feZero _, wf_feCmov (w4 wP.y (w2 v1 vz).1).1 wf_feZero _, fun h => ?_⟩
    have e : P.inf = true := h
    simp [e]

theorem toAff_error {P : Gej} {inv : Nat → Nat → Nat} (h : P.big = true) : toAff P inv = .error .feMagnitude := by
  have : chk8 [P.x, P.y, P.z] = .error .feMagnitude := chk8_error (by
    simp only [Gej.big, Bool.or_eq_true, decide_eq_true_eq] at h
    intro hall
    have h1 := hall P.x (by simp)
    have h2 := hall P.y (by simp)
    have h3 := hall P.z (by simp)
    omega)
  simp [toAff_eq, this]

/-- The equality test of Jacobian contents answers once its check passes (R226). -/
theorem gejEq_spec {P Q : Gej}
    (h : P.inf = false → Q.inf = false → P.x.mag ≤ 8 ∧ P.y.mag ≤ 8 ∧ P.z.mag ≤ 8 ∧ Q.x.mag ≤ 8 ∧ Q.y.mag ≤ 8 ∧ Q.z.mag ≤ 8) :
    ∃ e, gejEq P Q = .ok e := by
  cases hP : P.inf with
  | true => exact ⟨_, by simp [gejEq_eq, hP]; rfl⟩
  | false =>
    cases hQ : Q.inf with
    | true => exact ⟨_, by simp [gejEq_eq, hP, hQ]; rfl⟩
    | false =>
      obtain ⟨px, py, pz, qx, qy, qz⟩ := h hP hQ
      obtain ⟨u, s, hh, i, e1, -⟩ := crossJac_spec px py pz qx qy qz
      exact ⟨_, by simp [gejEq_eq, hP, hQ, chk8_six px py pz qx qy qz, e1]; rfl⟩

theorem gejEq_error {P Q : Gej} (hP : P.inf = false) (hQ : Q.inf = false) (h : (P.big || Q.big) = true) :
    gejEq P Q = .error .feMagnitude := by
  have : chk8 [P.x, P.y, P.z, Q.x, Q.y, Q.z] = .error .feMagnitude := chk8_error (by
    simp only [Gej.big, Bool.or_eq_true, decide_eq_true_eq] at h
    intro hall
    have h1 := hall P.x (by simp)
    have h2 := hall P.y (by simp)
    have h3 := hall P.z (by simp)
    have h4 := hall Q.x (by simp)
    have h5 := hall Q.y (by simp)
    have h6 := hall Q.z (by simp)
    omega)
  simp [gejEq_eq, hP, hQ, this]

/-! ## Tag steady states (R229) -/

theorem steady_within8 {P : Gej} (h : P.Steady) : P.Within8 :=
  ⟨h.x.trans (by decide), h.y.trans (by decide), h.z.trans (by decide)⟩

theorem tags_steady {P : Gej} (h : P.Tags 6 4 2) : P.Steady := ⟨h.x.le, h.y.le, h.z.le⟩

theorem steady_infinity : Gej.infinity.Steady := ⟨by decide, by decide, by decide⟩

/-- DBL leads into the steady state (R229). -/
theorem gejDbl_steady {P : Gej} (h : P.Within8) : ∃ R, gejDbl P = .ok R ∧ R.Tags 6 4 2 := by
  obtain ⟨R, e, mx, my, mz, nx, ny, nz, -⟩ := gejDbl_spec h.x h.y h.z
  exact ⟨R, e, mx, my, mz, nx, ny, nz⟩

/-- ADDGE with an affine operand of magnitude 1 stays in it (R229). -/
theorem gejAddGe_steady {P : Gej} {b : Ge} (h : P.Steady) (bx : b.x.mag = 1) (byy : b.y.mag = 1) :
    ∃ R, gejAddGe P b = .ok R ∧ R.Tags 6 4 2 := by
  obtain ⟨hx, hy, hz⟩ := h
  obtain ⟨R, e, mx, my, mz, nx, ny, nz, -⟩ := gejAddGe_spec (P := P) (b := b) (by omega) (by omega) (by omega) (by omega)
    (by omega)
  exact ⟨R, e, by omega, by omega, by omega, nx, ny, nz⟩

end Sys2Proof.Machine
end

