-- ==== Sys2Proof/Laws/Invariant.lean ====
section
/-! SUPPORT. The invariant of the state under each update: a register write of well-formed contents, a flag write, a store, a
context write, retiring and taking a fault keep it. -/

namespace Sys2Proof.Machine

variable {s : State}

theorem inv_writeF (h : s.Inv) (r : RegNum) {v : Fe} (hv : v.Wf) : (writeF r v s).Inv := by
  refine ⟨fun q => ?_, h.scalar, h.affine, h.jacobian, h.context, h.memory, h.idle, h.noFault, h.faulted⟩
  simp only [writeF_fr, get_put]
  split
  · exact fun _ => hv
  · exact h.field q

theorem inv_writeS (h : s.Inv) (r : RegNum) {v : Nat} (hv : v < Const.n) : (writeS r v s).Inv := by
  refine ⟨h.field, fun q => ?_, h.affine, h.jacobian, h.context, h.memory, h.idle, h.noFault, h.faulted⟩
  simp only [writeS_sr, get_put]
  split
  · intro _
    have : v < 2 ^ 256 := lt_trans hv (by decide)
    rw [BitVec.toNat_ofNat, Nat.mod_eq_of_lt this]
    exact hv
  · exact h.scalar q

theorem inv_writeA (h : s.Inv) (r : RegNum) {v : Ge} (hv : v.Wf) : (writeA r v s).Inv := by
  refine ⟨h.field, h.scalar, fun q => ?_, h.jacobian, h.context, h.memory, h.idle, h.noFault, h.faulted⟩
  simp only [writeA_ar, get_put]
  split
  · exact fun _ => hv
  · exact h.affine q

theorem inv_writeJ (h : s.Inv) (r : RegNum) {v : Gej} (hv : v.Wf) : (writeJ r v s).Inv := by
  refine ⟨h.field, h.scalar, h.affine, fun q => ?_, h.context, h.memory, h.idle, h.noFault, h.faulted⟩
  simp only [writeJ_jr, get_put]
  split
  · exact fun _ => hv
  · exact h.jacobian q

theorem inv_setT (h : s.Inv) (b : Bool) : (setT b s).Inv :=
  ⟨h.field, h.scalar, h.affine, h.jacobian, h.context, h.memory, h.idle, h.noFault, h.faulted⟩

theorem inv_setOvf (h : s.Inv) (b : Bool) : (setOvf b s).Inv :=
  ⟨h.field, h.scalar, h.affine, h.jacobian, h.context, h.memory, h.idle, h.noFault, h.faulted⟩

theorem inv_setSgn (h : s.Inv) (b : Bool) : (setSgn b s).Inv :=
  ⟨h.field, h.scalar, h.affine, h.jacobian, h.context, h.memory, h.idle, h.noFault, h.faulted⟩

theorem inv_setLtGt (h : s.Inv) (l g : Bool) : (setLtGt l g s).Inv :=
  ⟨h.field, h.scalar, h.affine, h.jacobian, h.context, h.memory, h.idle, h.noFault, h.faulted⟩

/-- A store inside BUF keeps the invariant. -/
theorem inv_memWrite (h : s.Inv) {a n : Nat} {v : List Byte} (ha : a + v.length ≤ 1024) : (memWrite a n v s).Inv :=
  ⟨h.field, h.scalar, h.affine, h.jacobian, h.context, wf_writeBytes _ _ h.memory ha, h.idle, h.noFault, h.faulted⟩

/-- A well-formed context in place of the old one keeps the invariant. -/
theorem inv_context (h : s.Inv) {c : Context} (hc : c.Wf) : State.Inv { s with ctx := c } :=
  ⟨h.field, h.scalar, h.affine, h.jacobian, hc, h.memory, h.idle, h.noFault, h.faulted⟩

theorem inv_retire (h : s.Inv) : (retire s).Inv :=
  ⟨h.field, h.scalar, h.affine, h.jacobian, h.context, h.memory, h.idle, h.noFault, h.faulted⟩

theorem inv_takeFault (h : s.Inv) (c : Cause) (w : Word) : (takeFault c w s).Inv :=
  ⟨h.field, h.scalar, h.affine, h.jacobian, h.context, h.memory, h.idle, (fun e => nomatch e), fun _ => ⟨c, rfl⟩⟩

/-- The host's side of the port is no part of the invariant. -/
theorem inv_port (h : s.Inv) (inbox : List HostOp) (reply : HostReply) (draws : Nat) :
    State.Inv { s with inbox := inbox, reply := reply, draws := draws } :=
  ⟨h.field, h.scalar, h.affine, h.jacobian, h.context, h.memory, h.idle, h.noFault, h.faulted⟩

/-- The context CTX_BUILD leaves (`spec/45_ecmult_gen.md` R246). -/
theorem wf_contextBuilt : Context.Wf ⟨true, BitVec.ofNat 256 (scSub Const.combDiff 1), Ge.generator⟩ :=
  ⟨by decide, wf_generator, ⟨rfl, rfl⟩, rfl, fun e => nomatch e⟩

end Sys2Proof.Machine
end

