-- ==== Sys2Proof/Laws/Leakage.lean ====
section
/-! SUPPORT. Recorded computations: the record is that of the very computation `exec` performs, and two runs on operands of the
same tags record the same events, answer or fault alike, and answer contents of the same tags (`spec/00_scope.md` R13,
`spec/70_reset_and_hazards.md` R331). -/

namespace Sys2Proof.Machine

/-! ## The recorder -/

/-- Sequencing of recorded computations, spelled out so that `do` blocks under `traceOf` match it. -/
abbrev Traced.andThen {α β : Type} (x : Traced α) (f : α → Traced β) : Traced β := @bind Traced tracedMonad.toBind α β x f

theorem andThen_result {α β : Type} (x : Traced α) (f : α → Traced β) :
    (x.andThen f).result = x.result >>= fun a => (f a).result := rfl

theorem andThen_events {α β : Type} (x : Traced α) (f : α → Traced β) :
    (x.andThen f).events = x.events ++ Traced.rest x.result f := rfl

/-- A recorded computation ends as the plain one does. -/
def Erases {α : Type} (x : Traced α) (y : Chk α) : Prop := x.result = y

theorem erases_bind {α β : Type} {x : Traced α} {y : Chk α} {f : α → Traced β} {g : α → Chk β} (h : Erases x y)
    (k : ∀ a, Erases (f a) (g a)) : Erases (@bind Traced tracedMonad.toBind _ _ x f) (y >>= g) := by
  show x.result >>= (fun a => (f a).result) = y >>= g
  rw [h]
  exact congrArg _ (funext k)

theorem erases_foldlM {α ι : Type} {f : α → ι → Traced α} {g : α → ι → Chk α} (h : ∀ a i, Erases (f a i) (g a i))
    (l : List ι) (a : α) : Erases (@List.foldlM Traced tracedMonad _ _ f a l) (l.foldlM g a) := by
  induction l generalizing a with
  | nil => rfl
  | cons i l ih => exact erases_bind (h a i) ih

theorem erases_mapM {α β : Type} {f : α → Traced β} {g : α → Chk β} (h : ∀ a, Erases (f a) (g a)) (l : List α) :
    Erases (@List.mapM Traced tracedMonad _ _ f l) (l.mapM g) := by
  have key : ∀ acc, Erases (@List.mapM.loop Traced tracedMonad _ _ f l acc) (List.mapM.loop g l acc) := by
    induction l with
    | nil => exact fun _ => rfl
    | cons a l ih => exact fun acc => erases_bind (h a) fun b => ih _
  exact key []

theorem erases_invBatches (M k : Nat) (t : InvState) :
    Erases (@Scribe.invBatches Traced tracedMonad recorder.toScribe M k t) (plain.invBatches M k t) := by
  induction k generalizing t with
  | zero => rfl
  | succ k ih => exact ih _

theorem erases_invCt (x M : Nat) :
    Erases (@Scribe.invCt Traced tracedMonad recorder.toScribe x M) (plain.invCt x M) := by
  unfold Scribe.invCt
  exact erases_bind (erases_invBatches ..) fun _ => rfl

theorem erases_invVarLoop (M fuel k : Nat) (t : InvState) :
    Erases (@Scribe.invVarLoop Traced tracedMonad recorder.toScribe M fuel k t) (plain.invVarLoop M fuel k t) := by
  induction fuel generalizing k t with
  | zero => rfl
  | succ fuel ih =>
    unfold Scribe.invVarLoop
    refine erases_bind (y := plain.invBatch M t) rfl fun t => ?_
    split
    · rfl
    · exact ih _ _

theorem erases_invVar (x M : Nat) :
    Erases (@Scribe.invVar Traced tracedMonad recorder.toScribe x M) (plain.invVar x M) := by
  unfold Scribe.invVar Scribe.invVarRun
  exact erases_bind (erases_invVarLoop ..) fun _ => rfl

theorem erases_toAff (P : Gej) {f : Nat → Nat → Traced Nat} {g : Nat → Nat → Chk Nat} (h : ∀ x M, Erases (f x M) (g x M)) :
    Erases (@Datapath.toAff Traced tracedMonad recorder P f) (plain.toAff P g) := by
  unfold Datapath.toAff
  exact erases_bind (y := plain.check (chk8 [P.x, P.y, P.z])) rfl fun _ => erases_bind (h _ _) fun _ => rfl

theorem erases_combAdd (d off : Nat) (r : Gej) (b : Nat) :
    Erases (@Datapath.combAdd Traced tracedMonad recorder d off r b) (plain.combAdd d off r b) := by
  unfold Datapath.combAdd Scribe.combLookup
  refine erases_bind (y := plain.note _) rfl fun _ => ?_
  exact erases_bind (erases_foldlM (fun _ _ => rfl) _ _) fun _ => rfl

theorem erases_combOffset (d : Nat) (r : Gej) (off : Nat) :
    Erases (@Datapath.combOffset Traced tracedMonad recorder d r off) (plain.combOffset d r off) := by
  unfold Datapath.combOffset Datapath.combRound
  refine erases_bind (y := plain.note _) rfl fun _ => ?_
  refine erases_bind (erases_foldlM (erases_combAdd d off) _ _) fun _ => ?_
  split <;> rfl

theorem erases_combMul (k : Nat) (ctx : Context) :
    Erases (@Datapath.combMul Traced tracedMonad recorder k ctx) (plain.combMul k ctx) := by
  unfold Datapath.combMul
  exact erases_bind (erases_foldlM (erases_combOffset _) _ _) fun _ => rfl

theorem erases_finishAdd (P : Gej) (u s h i : Fe) {x : Traced Fe} {y : Chk Fe} (hz : Erases x y) :
    Erases (@Datapath.finishAdd Traced tracedMonad recorder P u s h i x) (plain.finishAdd P u s h i y) := by
  unfold Datapath.finishAdd
  refine erases_bind (y := plain.ntz h) rfl fun same => ?_
  cases same
  · exact erases_bind hz fun z => erases_bind (y := plain.addCore u s h i z) rfl fun _ => rfl
  · refine erases_bind (y := plain.ntz i) rfl fun iz => ?_
    cases iz
    · rfl
    · exact (rfl : Erases (@Datapath.dbl Traced tracedMonad recorder P) (plain.dbl P))

theorem erases_addVar (P Q : Gej) :
    Erases (@Datapath.addVar Traced tracedMonad recorder P Q) (plain.addVar P Q) := by
  unfold Datapath.addVar
  split
  · rfl
  · split
    · rfl
    · refine erases_bind (y := plain.check (chk8 [P.x, P.y, P.z, Q.x, Q.y, Q.z])) rfl fun _ => ?_
      exact erases_bind (y := plain.crossJac P Q) rfl fun _ => erases_finishAdd _ _ _ _ _ rfl

theorem erases_addGeVar (P : Gej) (b : Ge) :
    Erases (@Datapath.addGeVar Traced tracedMonad recorder P b) (plain.addGeVar P b) := by
  unfold Datapath.addGeVar
  split
  · rfl
  · split
    · rfl
    · refine erases_bind (y := plain.check (chk8 [P.x, P.y, P.z, b.x, b.y])) rfl fun _ => ?_
      exact erases_bind (y := plain.crossMixed P b) rfl fun _ => erases_finishAdd _ _ _ _ _ rfl

theorem erases_gejEq (P Q : Gej) :
    Erases (@Datapath.gejEq Traced tracedMonad recorder P Q) (plain.gejEq P Q) := by
  unfold Datapath.gejEq
  split <;> rfl

theorem erases_oddTabFrom (D last : Gej) (count : Nat) :
    Erases (@Datapath.oddTabFrom Traced tracedMonad recorder D last count) (plain.oddTabFrom D last count) := by
  induction count generalizing last with
  | zero => rfl
  | succ count ih =>
    unfold Datapath.oddTabFrom
    refine erases_bind (y := plain.note _) rfl fun _ => ?_
    exact erases_bind (erases_addVar last D) fun next => erases_bind (ih next) fun _ => rfl

theorem erases_terms (B : Gej) (k : Nat) :
    Erases (@Datapath.terms Traced tracedMonad recorder B k) (plain.terms B k) := by
  unfold Datapath.terms Datapath.oddTab Datapath.lamTab
  refine erases_bind (erases_bind (y := plain.dbl B) rfl fun D => erases_bind (erases_oddTabFrom D B _) fun _ => rfl)
    fun T => ?_
  exact erases_bind (erases_mapM (fun _ => rfl) T) fun _ => rfl

theorem erases_addTerm (i : Nat) (r : Gej) (t : Term) :
    Erases (@Datapath.addTerm Traced tracedMonad recorder i r t) (plain.addTerm i r t) := by
  unfold Datapath.addTerm Datapath.addMultiple
  refine erases_bind (y := plain.note _) rfl fun _ => ?_
  split
  · exact erases_bind (y := plain.tableEntry t.table _) rfl fun _ => erases_addVar ..
  · split
    · refine erases_bind (y := plain.tableEntry t.table _) rfl fun P => ?_
      exact erases_bind (y := plain.negJ P) rfl fun _ => erases_addVar ..
    · rfl

theorem erases_ecmultPass (ts : List Term) (r : Gej) (i : Nat) :
    Erases (@Datapath.ecmultPass Traced tracedMonad recorder ts r i) (plain.ecmultPass ts r i) := by
  unfold Datapath.ecmultPass
  refine erases_bind (y := plain.note _) rfl fun _ => ?_
  exact erases_bind (y := plain.dbl r) rfl fun _ => erases_foldlM (erases_addTerm i) _ _

theorem erases_ecmult (A : Gej) (na : Nat) (ng : Option Nat) :
    Erases (@Datapath.ecmult Traced tracedMonad recorder A na ng) (plain.ecmult A na ng) := by
  unfold Datapath.ecmult Datapath.ecmultLoop
  refine erases_bind (y := plain.pointTerms A na) ?_ fun pt => erases_bind (y := plain.generatorTerms ng) ?_ fun gt =>
    erases_foldlM (erases_ecmultPass _) _ _
  · unfold Datapath.pointTerms
    split
    · rfl
    · refine erases_bind (y := plain.check (chk8 [A.x, A.y, A.z])) rfl fun _ => ?_
      refine erases_bind (y := plain.norm A.x) rfl fun _ => erases_bind (y := plain.norm A.y) rfl fun _ => ?_
      exact erases_bind (y := plain.norm A.z) rfl fun _ => erases_terms ..
  · unfold Datapath.generatorTerms
    split
    · rfl
    · split
      · rfl
      · exact erases_terms ..

/-- Recording changes no result: the recorded work of a command ends as its work on `plain` does. -/
theorem body_result (i : Instr) (s : State) : (traceOf fun dp => body dp i s).result = body plain i s := by
  cases i
  case ctxBlind imm =>
    refine erases_bind (y := plain.check (require s.ctx.built .ctxNotBuilt)) rfl fun _ => ?_
    refine erases_bind (y := plain.check (loadSlot imm s)) rfl fun v => ?_
    refine erases_bind (erases_combMul _ _) fun gb => ?_
    exact erases_bind (erases_toAff gb erases_invCt) fun _ => rfl
  case feInv rd ra =>
    refine erases_bind (y := plain.check (readF ra s)) rfl fun a => ?_
    refine erases_bind (y := plain.check (chk8 [a])) rfl fun _ => ?_
    exact erases_bind (erases_invCt _ _) fun _ => rfl
  case feInvvar rd ra =>
    refine erases_bind (y := plain.check (readF ra s)) rfl fun a => ?_
    refine erases_bind (y := plain.check (chk8 [a])) rfl fun _ => ?_
    exact erases_bind (erases_invVar _ _) fun _ => rfl
  case scInv rd ra =>
    refine erases_bind (y := plain.check (readS ra s)) rfl fun a => ?_
    exact erases_bind (erases_invCt _ _) fun _ => rfl
  case scInvvar rd ra =>
    refine erases_bind (y := plain.check (readS ra s)) rfl fun a => ?_
    exact erases_bind (erases_invVar _ _) fun _ => rfl
  case geSetgej rd ra =>
    refine erases_bind (y := plain.check (readJ ra s)) rfl fun P => ?_
    exact erases_bind (erases_toAff P erases_invCt) fun _ => rfl
  case geSetgejvar rd ra =>
    refine erases_bind (y := plain.check (readJ ra s)) rfl fun P => ?_
    exact erases_bind (erases_toAff P erases_invVar) fun _ => rfl
  case gejAddgevar rd ra rb =>
    refine erases_bind (y := plain.check (readJ ra s)) rfl fun P => ?_
    refine erases_bind (y := plain.check (readA rb s)) rfl fun b => ?_
    exact erases_bind (erases_addGeVar P b) fun _ => rfl
  case gejAddvar rd ra rb =>
    refine erases_bind (y := plain.check (readJ ra s)) rfl fun P => ?_
    refine erases_bind (y := plain.check (readJ rb s)) rfl fun Q => ?_
    exact erases_bind (erases_addVar P Q) fun _ => rfl
  case gejEq ra rb =>
    refine erases_bind (y := plain.check (readJ ra s)) rfl fun P => ?_
    refine erases_bind (y := plain.check (readJ rb s)) rfl fun Q => ?_
    exact erases_bind (erases_gejEq P Q) fun _ => rfl
  case ecmultGen rd ra =>
    refine erases_bind (y := plain.check (require s.ctx.built .ctxNotBuilt)) rfl fun _ => ?_
    refine erases_bind (y := plain.check (readS ra s)) rfl fun k => ?_
    exact erases_bind (erases_combMul _ _) fun _ => rfl
  case ecmult rd ra rb imm =>
    refine erases_bind (y := plain.check (readJ ra s)) rfl fun A => ?_
    refine erases_bind (y := plain.check (readS rb s)) rfl fun na => ?_
    refine erases_bind (y := plain.check (readGenerator imm s)) rfl fun ng => ?_
    exact erases_bind (erases_ecmult _ _ _) fun _ => rfl
  all_goals rfl

/-! ## Runs that cannot be told apart -/

/-- The same events; both answer, with answers related by `R`, or both fault, with the same cause. -/
structure Alike {α β : Type} (R : α → β → Prop) (x : Traced α) (y : Traced β) : Prop where
  events : x.events = y.events
  result : (∃ a b, x.result = .ok a ∧ y.result = .ok b ∧ R a b) ∨ ∃ c, x.result = .error c ∧ y.result = .error c

variable {α β γ δ : Type}

theorem alike_bind {R : α → β → Prop} {S : γ → δ → Prop} {x : Traced α} {y : Traced β} {f : α → Traced γ}
    {g : β → Traced δ} (h : Alike R x y) (k : ∀ a b, R a b → Alike S (f a) (g b)) :
    Alike S (@bind Traced tracedMonad.toBind _ _ x f) (@bind Traced tracedMonad.toBind _ _ y g) := by
  obtain ⟨he, ⟨a, b, ha, hb, hR⟩ | ⟨c, ha, hb⟩⟩ := h
  · obtain ⟨ke, kr⟩ := k a b hR
    refine ⟨?_, ?_⟩
    · show x.events ++ Traced.rest x.result f = y.events ++ Traced.rest y.result g
      rw [ha, hb, he]
      exact congrArg _ ke
    · have e1 : (x.andThen f).result = (f a).result := by rw [andThen_result, ha]; rfl
      have e2 : (y.andThen g).result = (g b).result := by rw [andThen_result, hb]; rfl
      show (∃ a b, (x.andThen f).result = .ok a ∧ (y.andThen g).result = .ok b ∧ S a b) ∨ _
      rw [e1, e2]
      exact kr
  · refine ⟨?_, .inr ⟨c, ?_, ?_⟩⟩
    · show x.events ++ Traced.rest x.result f = y.events ++ Traced.rest y.result g
      rw [ha, hb, he]
      rfl
    · show x.result >>= _ = _
      rw [ha]
      rfl
    · show y.result >>= _ = _
      rw [hb]
      rfl

theorem alike_pure {R : α → β → Prop} {a : α} {b : β} (h : R a b) :
    Alike R (@pure Traced tracedMonad.toPure _ a) (@pure Traced tracedMonad.toPure _ b) :=
  ⟨rfl, .inl ⟨a, b, rfl, rfl, h⟩⟩

theorem alike_note (e : Event) : Alike (fun _ _ => True) (recorder.note e) (recorder.note e) :=
  ⟨rfl, .inl ⟨(), (), rfl, rfl, trivial⟩⟩

/-- Two checks that end alike. -/
theorem alike_check {R : α → β → Prop} {x : Chk α} {y : Chk β}
    (h : (∃ a b, x = .ok a ∧ y = .ok b ∧ R a b) ∨ ∃ c, x = .error c ∧ y = .error c) :
    Alike R (recorder.check x) (recorder.check y) := ⟨rfl, h⟩

/-- A check that looks at what is the same in both runs. -/
theorem alike_same (x : Chk α) : Alike (fun a b => a = b) (recorder.check x) (recorder.check x) := by
  refine alike_check ?_
  cases x with
  | ok a => exact .inl ⟨a, a, rfl, rfl, rfl⟩
  | error c => exact .inr ⟨c, rfl, rfl⟩

/-- An operation whose outcome is alike notes its event in both runs or in neither. -/
theorem alike_perform {R : α → β → Prop} (e : Event) {x : Chk α} {y : Chk β}
    (h : (∃ a b, x = .ok a ∧ y = .ok b ∧ R a b) ∨ ∃ c, x = .error c ∧ y = .error c) :
    Alike R (recorder.perform e x) (recorder.perform e y) := by
  refine ⟨?_, h⟩
  rcases h with ⟨a, b, rfl, rfl, -⟩ | ⟨c, rfl, rfl⟩ <;> rfl

/-- A loop over a list whose body runs alike runs alike. -/
theorem alike_foldlM {ι : Type} {R : α → β → Prop} {f : α → ι → Traced α} {g : β → ι → Traced β}
    (h : ∀ a b i, R a b → Alike R (f a i) (g b i)) (l : List ι) {a : α} {b : β} (hab : R a b) :
    Alike R (@List.foldlM Traced tracedMonad _ _ f a l) (@List.foldlM Traced tracedMonad _ _ g b l) := by
  induction l generalizing a b with
  | nil => exact alike_pure hab
  | cons i l ih => exact alike_bind (h a b i hab) fun _ _ h' => ih h'

/-! ## The field helpers -/

theorem sameTags_refl (a : Fe) : a.SameTags a := ⟨rfl, rfl⟩

variable {a b a' b' : Fe}

theorem alike_add (h : a.SameTags a') (h' : b.SameTags b') : Alike Fe.SameTags (recorder.add a b) (recorder.add a' b') := by
  refine alike_perform _ ?_
  unfold feAdd
  rw [← h.mag, ← h'.mag]
  split
  · exact .inl ⟨_, _, rfl, rfl, rfl, rfl⟩
  · exact .inr ⟨_, rfl, rfl⟩

theorem alike_times (h : a.SameTags a') (k : Nat) : Alike Fe.SameTags (recorder.times a k) (recorder.times a' k) := by
  refine alike_perform _ ?_
  unfold feTimes
  rw [← h.mag]
  split
  · exact .inl ⟨_, _, rfl, rfl, rfl, rfl⟩
  · exact .inr ⟨_, rfl, rfl⟩

theorem alike_neg (h : a.SameTags a') (k : Nat) : Alike Fe.SameTags (recorder.neg a k) (recorder.neg a' k) := by
  refine alike_perform _ ?_
  unfold feNeg
  rw [← h.mag]
  split
  · exact .inl ⟨_, _, rfl, rfl, rfl, rfl⟩
  · exact .inr ⟨_, rfl, rfl⟩

theorem alike_feMul (h : a.SameTags a') (h' : b.SameTags b') :
    (∃ r r', feMul a b = .ok r ∧ feMul a' b' = .ok r' ∧ r.SameTags r') ∨
      ∃ c, feMul a b = .error c ∧ feMul a' b' = .error c := by
  unfold feMul
  rw [← h.mag, ← h'.mag]
  split
  · exact .inl ⟨_, _, rfl, rfl, rfl, rfl⟩
  · exact .inr ⟨_, rfl, rfl⟩

theorem alike_mul (h : a.SameTags a') (h' : b.SameTags b') : Alike Fe.SameTags (recorder.mul a b) (recorder.mul a' b') :=
  alike_perform _ (alike_feMul h h')

theorem alike_sqr (h : a.SameTags a') : Alike Fe.SameTags (recorder.sqr a) (recorder.sqr a') :=
  alike_perform _ (alike_feMul h h)

theorem alike_norm (a a' : Fe) :
    Alike Fe.SameTags (@Scribe.norm Traced tracedMonad recorder.toScribe a)
      (@Scribe.norm Traced tracedMonad recorder.toScribe a') :=
  ⟨rfl, .inl ⟨_, _, rfl, rfl, rfl, rfl⟩⟩

theorem alike_cmov (h : a.SameTags a') (h' : b.SameTags b') (c c' : Bool) :
    Alike Fe.SameTags (@Scribe.cmov Traced tracedMonad recorder.toScribe a b c)
      (@Scribe.cmov Traced tracedMonad recorder.toScribe a' b' c') :=
  ⟨rfl, .inl ⟨_, _, rfl, rfl, congrArg₂ max h.mag h'.mag, congrArg₂ and h.norm h'.norm⟩⟩

theorem alike_ntz (a a' : Fe) :
    Alike (fun _ _ => True) (@Scribe.ntz Traced tracedMonad recorder.toScribe a)
      (@Scribe.ntz Traced tracedMonad recorder.toScribe a') :=
  ⟨rfl, .inl ⟨_, _, rfl, rfl, trivial⟩⟩

/-- CHK8 looks at tags only. -/
theorem alike_chk8 {cs cs' : List Fe} (h : List.Forall₂ Fe.SameTags cs cs') :
    Alike (fun _ _ => True) (recorder.check (chk8 cs)) (recorder.check (chk8 cs')) := by
  have e : chk8 cs = chk8 cs' := by
    unfold chk8
    congr 1
    induction h with
    | nil => rfl
    | cons h _ ih => rw [List.all_cons, List.all_cons, ih, h.mag]
  rw [e]
  refine alike_check ?_
  cases chk8 cs' with
  | ok u => exact .inl ⟨_, _, rfl, rfl, trivial⟩
  | error c => exact .inr ⟨_, rfl, rfl⟩

/-! ## The point helpers -/

/-- The tags of a finished point, whatever the infinity markers. -/
theorem alike_zeroize {P Q : Gej} (h : P.SameTags Q) (c c' : Bool) :
    Alike Gej.SameTags (@Scribe.zeroize Traced tracedMonad recorder.toScribe P c)
      (@Scribe.zeroize Traced tracedMonad recorder.toScribe Q c') :=
  alike_bind (alike_cmov h.x (sameTags_refl _) c c') fun _ _ hx =>
    alike_bind (alike_cmov h.y (sameTags_refl _) c c') fun _ _ hy =>
      alike_bind (alike_cmov h.z (sameTags_refl _) c c') fun _ _ hz => alike_pure ⟨hx, hy, hz⟩

theorem alike_selectGej {r r' p p' : Gej} (h : r.SameTags r') (h' : p.SameTags p') (c c' : Bool) :
    Alike Gej.SameTags (@Scribe.selectGej Traced tracedMonad recorder.toScribe r p c)
      (@Scribe.selectGej Traced tracedMonad recorder.toScribe r' p' c') :=
  alike_bind (alike_cmov h.x h'.x c c') fun _ _ hx =>
    alike_bind (alike_cmov h.y h'.y c c') fun _ _ hy =>
      alike_bind (alike_cmov h.z h'.z c c') fun _ _ hz => alike_pure ⟨hx, hy, hz⟩

/-- A coordinate is negated with its own magnitude as the bound, a tag. -/
theorem alike_negCoordinate {y y' : Fe} (h : y.SameTags y') (c c' : Bool) :
    Alike Fe.SameTags (@Datapath.negCoordinate Traced tracedMonad recorder y c)
      (@Datapath.negCoordinate Traced tracedMonad recorder y' c') := by
  unfold Datapath.negCoordinate
  rw [← h.mag]
  exact alike_bind (alike_same _) fun _ _ _ => alike_bind (alike_neg h _) fun _ _ hn =>
    alike_cmov hn (sameTags_refl _) c c'

theorem alike_dbl {P Q : Gej} (h : P.SameTags Q) :
    Alike Gej.SameTags (@Datapath.dbl Traced tracedMonad recorder P) (@Datapath.dbl Traced tracedMonad recorder Q) := by
  obtain ⟨hx, hy, hz⟩ := h
  refine alike_bind (alike_chk8 (.cons hx (.cons hy (.cons hz .nil)))) fun _ _ _ => ?_
  refine alike_bind (alike_mul hz hy) fun _ _ a1 => ?_
  refine alike_bind (alike_add a1 a1) fun _ _ z3 => ?_
  refine alike_bind (alike_sqr hx) fun _ _ a2 => ?_
  refine alike_bind (alike_times a2 3) fun _ _ t1 => ?_
  refine alike_bind (alike_sqr t1) fun _ _ t2 => ?_
  refine alike_bind (alike_sqr hy) fun _ _ a3 => ?_
  refine alike_bind (alike_times a3 2) fun _ _ t3 => ?_
  refine alike_bind (alike_sqr t3) fun _ _ a4 => ?_
  refine alike_bind (alike_times a4 2) fun _ _ t4 => ?_
  refine alike_bind (alike_mul t3 hx) fun _ _ t5 => ?_
  refine alike_bind (alike_times t5 4) fun _ _ a5 => ?_
  refine alike_bind (alike_neg a5 4) fun _ _ a6 => ?_
  refine alike_bind (alike_add a6 t2) fun _ _ x3 => ?_
  refine alike_bind (alike_neg t2 1) fun _ _ a7 => ?_
  refine alike_bind (alike_times t5 6) fun _ _ a8 => ?_
  refine alike_bind (alike_add a8 a7) fun _ _ a9 => ?_
  refine alike_bind (alike_mul t1 a9) fun _ _ a10 => ?_
  refine alike_bind (alike_neg t4 2) fun _ _ a11 => ?_
  refine alike_bind (alike_add a10 a11) fun _ _ y3 => ?_
  exact alike_zeroize ⟨x3, y3, z3⟩ _ _

/-- The same tags in three coordinates given as a triple. -/
def SameTags3 (x y : Fe × Fe × Fe) : Prop := x.1.SameTags y.1 ∧ x.2.1.SameTags y.2.1 ∧ x.2.2.SameTags y.2.2

/-- The same tags in U1, S1, H, I. -/
def SameTags4 (x y : Fe × Fe × Fe × Fe) : Prop :=
  x.1.SameTags y.1 ∧ x.2.1.SameTags y.2.1 ∧ x.2.2.1.SameTags y.2.2.1 ∧ x.2.2.2.SameTags y.2.2.2

theorem alike_addCore {u s h i z u' s' h' i' z' : Fe} (hu : u.SameTags u') (hs : s.SameTags s') (hh : h.SameTags h')
    (hi : i.SameTags i') (hz : z.SameTags z') :
    Alike SameTags3 (@Datapath.addCore Traced tracedMonad recorder u s h i z)
      (@Datapath.addCore Traced tracedMonad recorder u' s' h' i' z') := by
  refine alike_bind (alike_sqr hi) fun _ _ i2 => ?_
  refine alike_bind (alike_sqr hh) fun _ _ h2 => ?_
  refine alike_bind (alike_mul hh h2) fun _ _ h3 => ?_
  refine alike_bind (alike_mul hz hh) fun _ _ z3 => ?_
  refine alike_bind (alike_mul hu h2) fun _ _ t => ?_
  refine alike_bind (alike_times t 2) fun _ _ a1 => ?_
  refine alike_bind (alike_add a1 h3) fun _ _ a2 => ?_
  refine alike_bind (alike_neg a2 3) fun _ _ a3 => ?_
  refine alike_bind (alike_add a3 i2) fun _ _ x3 => ?_
  refine alike_bind (alike_neg x3 5) fun _ _ a4 => ?_
  refine alike_bind (alike_add a4 t) fun _ _ a5 => ?_
  refine alike_bind (alike_mul a5 hi) fun _ _ a6 => ?_
  refine alike_bind (alike_mul h3 hs) fun _ _ a7 => ?_
  refine alike_bind (alike_neg a7 1) fun _ _ a8 => ?_
  refine alike_bind (alike_add a6 a8) fun _ _ y3 => ?_
  exact alike_pure ⟨x3, y3, z3⟩

theorem alike_diff (h : a.SameTags a') (h' : b.SameTags b') :
    Alike Fe.SameTags (@Datapath.diff Traced tracedMonad recorder a b)
      (@Datapath.diff Traced tracedMonad recorder a' b') :=
  alike_bind (alike_neg h 1) fun _ _ hn => alike_add hn h'

theorem alike_crossMixed {P P' : Gej} {q q' : Ge} (h : P.SameTags P') (h' : q.SameTags q') :
    Alike SameTags4 (@Datapath.crossMixed Traced tracedMonad recorder P q)
      (@Datapath.crossMixed Traced tracedMonad recorder P' q') := by
  refine alike_bind (alike_sqr h.z) fun _ _ z2 => ?_
  refine alike_bind (alike_norm _ _) fun _ _ u1 => ?_
  refine alike_bind (alike_mul h'.x z2) fun _ _ u2 => ?_
  refine alike_bind (alike_norm _ _) fun _ _ s1 => ?_
  refine alike_bind (alike_mul h'.y z2) fun _ _ a1 => ?_
  refine alike_bind (alike_mul a1 h.z) fun _ _ s2 => ?_
  refine alike_bind (alike_diff u1 u2) fun _ _ hh => ?_
  refine alike_bind (alike_diff s1 s2) fun _ _ hi => ?_
  exact alike_pure ⟨u1, s1, hh, hi⟩

/-- ADDGE: the chord and the tangent are always computed, and all nine selections (R200). -/
theorem alike_addGe {P P' : Gej} {q q' : Ge} (h : P.SameTags P') (h' : q.SameTags q') :
    Alike Gej.SameTags (@Datapath.addGe Traced tracedMonad recorder P q)
      (@Datapath.addGe Traced tracedMonad recorder P' q') := by
  refine alike_bind (alike_chk8 (.cons h.x (.cons h.y (.cons h.z (.cons h'.x (.cons h'.y .nil)))))) fun _ _ _ => ?_
  refine alike_bind (alike_crossMixed h h') fun ⟨u, s, hh, i⟩ ⟨u', s', hh', i'⟩ hc => ?_
  refine alike_bind (alike_ntz _ _) fun hz hz' _ => ?_
  refine alike_bind (alike_ntz _ _) fun iz iz' _ => ?_
  refine alike_bind (alike_addCore hc.1 hc.2.1 hc.2.2.1 hc.2.2.2 h.z) fun ⟨x, y, z⟩ ⟨x', y', z'⟩ h3 => ?_
  refine alike_bind (alike_dbl ⟨h.x, h.y, h.z⟩) fun _ _ hD => ?_
  refine alike_bind (alike_selectGej (by exact ⟨h3.1, h3.2.1, h3.2.2⟩) (by exact ⟨hD.x, hD.y, hD.z⟩) _ _) fun _ _ h1 => ?_
  refine alike_bind (alike_selectGej h1 h _ _) fun _ _ h2 => ?_
  refine alike_bind (alike_selectGej h2 (by exact ⟨h'.x, h'.y, sameTags_refl _⟩) _ _) fun _ _ h3 => ?_
  exact alike_zeroize h3 _ _

/-! ## The constant-time inverse and the comb -/

theorem alike_invBatch (M : Nat) (t t' : InvState) :
    Alike (fun _ _ => True) (@Scribe.invBatch Traced tracedMonad recorder.toScribe M t)
      (@Scribe.invBatch Traced tracedMonad recorder.toScribe M t') :=
  alike_bind (alike_note _) fun _ _ _ => alike_bind (alike_note _) fun _ _ _ => alike_pure trivial

theorem alike_invBatches (M k : Nat) (t t' : InvState) :
    Alike (fun _ _ => True) (@Scribe.invBatches Traced tracedMonad recorder.toScribe M k t)
      (@Scribe.invBatches Traced tracedMonad recorder.toScribe M k t') := by
  induction k generalizing t t' with
  | zero => exact alike_pure trivial
  | succ k ih =>
    exact alike_bind (alike_invBatch _ _ _) fun _ _ _ => ih _ _

/-- INV_CT: twelve batches and one constant, whatever the operand (R179). -/
theorem alike_invCt (x x' M : Nat) :
    Alike (fun _ _ => True) (@Scribe.invCt Traced tracedMonad recorder.toScribe x M)
      (@Scribe.invCt Traced tracedMonad recorder.toScribe x' M) :=
  alike_bind (alike_invBatches _ _ _ _) fun _ _ _ => alike_bind (alike_note _) fun _ _ _ => alike_pure trivial

/-- TOAFF with INV_CT (R202). -/
theorem alike_toAff {P Q : Gej} (h : P.SameTags Q) :
    Alike Ge.SameTags
      (@Datapath.toAff Traced tracedMonad recorder P (@Scribe.invCt Traced tracedMonad recorder.toScribe))
      (@Datapath.toAff Traced tracedMonad recorder Q (@Scribe.invCt Traced tracedMonad recorder.toScribe)) := by
  refine alike_bind (alike_chk8 (.cons h.x (.cons h.y (.cons h.z .nil)))) fun _ _ _ => ?_
  refine alike_bind (alike_invCt _ _ _) fun v v' _ => ?_
  have hc : (feConst v).SameTags (feConst v') := ⟨rfl, rfl⟩
  refine alike_bind (alike_sqr hc) fun _ _ z2 => ?_
  refine alike_bind (alike_mul z2 hc) fun _ _ z3 => ?_
  refine alike_bind (alike_mul h.x z2) fun _ _ x => ?_
  refine alike_bind (alike_mul h.y z3) fun _ _ y => ?_
  refine alike_bind (alike_cmov x (sameTags_refl _) _ _) fun _ _ x => ?_
  refine alike_bind (alike_cmov y (sameTags_refl _) _ _) fun _ _ y => ?_
  exact alike_pure ⟨x, y⟩

/-- The masked lookup reads all 32 entries of the block, whatever the index (R245). -/
theorem alike_combLookup (b idx idx' : Nat) :
    Alike (fun e e' => e.1.SameTags e'.1 ∧ e.2.SameTags e'.2)
      (@Scribe.combLookup Traced tracedMonad recorder.toScribe b idx)
      (@Scribe.combLookup Traced tracedMonad recorder.toScribe b idx') := by
  unfold Scribe.combLookup
  generalize List.range Config.combPoints = l
  refine alike_foldlM ?_ l ⟨sameTags_refl _, sameTags_refl _⟩
  intro e e' j h
  generalize romEntry b j = c
  refine alike_bind (alike_note _) fun _ _ _ => ?_
  refine alike_bind (alike_cmov h.1 (sameTags_refl _) _ _) fun _ _ hx => ?_
  exact alike_bind (alike_cmov h.2 (sameTags_refl _) _ _) fun _ _ hy => alike_pure ⟨hx, hy⟩

theorem alike_combAdd (d d' off b : Nat) {r r' : Gej} (h : r.SameTags r') :
    Alike Gej.SameTags (@Datapath.combAdd Traced tracedMonad recorder d off r b)
      (@Datapath.combAdd Traced tracedMonad recorder d' off r' b) := by
  refine alike_bind (alike_note _) fun _ _ _ => ?_
  refine alike_bind (alike_combLookup _ _ _) fun _ _ he => ?_
  refine alike_bind (alike_neg he.2 1) fun _ _ hn => ?_
  refine alike_bind (alike_cmov he.2 hn _ _) fun _ _ hy => ?_
  exact alike_addGe h ⟨he.1, hy⟩

theorem alike_combOffset (d d' off : Nat) {r r' : Gej} (h : r.SameTags r') :
    Alike Gej.SameTags (@Datapath.combOffset Traced tracedMonad recorder d r off)
      (@Datapath.combOffset Traced tracedMonad recorder d' r' off) := by
  refine alike_bind (alike_note _) fun _ _ _ => ?_
  refine alike_bind (alike_foldlM (fun _ _ b h => alike_combAdd d d' off b h) _ h) fun _ _ h => ?_
  split
  · exact alike_dbl h
  · exact alike_pure h

/-- COMBMUL: the same operations and the same ROM reads for every scalar and every context with the same tags (R252). -/
theorem alike_combMul (k k' : Nat) {c c' : Context} (h : c.geOffset.SameTags c'.geOffset) :
    Alike Gej.SameTags (@Datapath.combMul Traced tracedMonad recorder k c)
      (@Datapath.combMul Traced tracedMonad recorder k' c') :=
  alike_bind (alike_foldlM (fun _ _ off h => alike_combOffset _ _ off h) _ ⟨sameTags_refl _, sameTags_refl _, sameTags_refl _⟩)
    fun _ _ hr => alike_addGe hr h

end Sys2Proof.Machine
end

