-- ==== Sys2Proof/Laws/Scalar.lean ====
section
/-! SUPPORT. The scalar helpers and the inversion engine: every result is below its modulus (`spec/42_scalar.md` R140). -/

namespace Sys2Proof.Machine

theorem n_pos : 0 < Const.n := by decide

theorem n_lt : Const.n < 2 ^ 256 := by decide

theorem p_pos : 0 < Const.p := by decide

theorem p_lt : Const.p < 2 ^ 256 := by decide

/-- One conditional subtraction reduces what is below twice the modulus. -/
theorem reduceOnce_lt {v M : Nat} (h : v < 2 * M) : (reduceOnce v M).1 < M := by
  unfold reduceOnce
  split <;> omega

theorem reduceOnce_eq_mod {v M : Nat} (h : v < 2 * M) : (reduceOnce v M).1 = v % M := by
  unfold reduceOnce
  show (if M ≤ v then v - M else v) = v % M
  split
  · next hle => rw [Nat.mod_eq_sub_mod hle, Nat.mod_eq_of_lt (by omega)]
  · next hlt => rw [Nat.mod_eq_of_lt (by omega)]

theorem two_n : 2 ^ 256 ≤ 2 * Const.n := by decide

theorem two_p : 2 ^ 256 ≤ 2 * Const.p := by decide

theorem scMul_lt (a b : Nat) : scMul a b < Const.n := Nat.mod_lt _ n_pos

theorem scNeg_lt (a : Nat) : scNeg a < Const.n := by
  unfold scNeg
  have := n_pos
  split <;> omega

theorem scSub_lt (a b : Nat) : scSub a b < Const.n := by
  have hn : (0 : Int) < (Const.n : Int) := by exact_mod_cast n_pos
  have h1 := Int.emod_nonneg ((a : Int) - b) hn.ne'
  have h2 := Int.emod_lt_of_pos ((a : Int) - b) hn
  unfold scSub
  omega

theorem splitLambda_lt (k : Nat) : (splitLambda k).1 < Const.n ∧ (splitLambda k).2 < Const.n :=
  ⟨scSub_lt _ _, Nat.mod_lt _ n_pos⟩

/-- A register holds a scalar as it is. -/
theorem toNat_scalar {v : Nat} (h : v < 2 ^ 256) : (BitVec.ofNat 256 v).toNat = v := by
  rw [BitVec.toNat_ofNat, Nat.mod_eq_of_lt h]

/-- The result of the inversion engine is below the modulus (R179, R180). -/
theorem invResult_lt {M : Nat} (hM : 0 < M) (k : Nat) (t : InvState) : invResult M k t < M := by
  have hm : (0 : Int) < (M : Int) := by exact_mod_cast hM
  have key : ∀ x : Int, (x % (M : Int)).toNat < M := fun x => by
    have h1 := Int.emod_nonneg x hm.ne'
    have h2 := Int.emod_lt_of_pos x hm
    omega
  exact key _

theorem invCt_lt {x M : Nat} (hM : 0 < M) : invCt x M < M := by
  rw [invCt_eq]
  exact invResult_lt hM _ _

theorem invVar_lt {x M : Nat} (hM : 0 < M) : invVar x M < M := by
  rw [invVar_eq]
  exact invResult_lt hM _ _

end Sys2Proof.Machine
end

