-- ==== Sys2Proof/Laws/Multipliers.lean ====
section
/-! SUPPORT. The two multipliers: no nested fault once the stated checks pass, the tags of the results, and the invariant
(`spec/45_ecmult_gen.md` R245, `spec/46_ecmult.md` R266). -/

namespace Sys2Proof.Machine

/-! ## Loops of computations that may fault -/

/-- A loop whose body answers and keeps `Inv` answers and keeps `Inv`. -/
theorem foldlM_spec {α β : Type} (Inv : β → Prop) (f : β → α → Chk β) (l : List α)
    (step : ∀ b a, a ∈ l → Inv b → ∃ c, f b a = .ok c ∧ Inv c) {b : β} (h : Inv b) :
    ∃ c, l.foldlM f b = .ok c ∧ Inv c := by
  induction l generalizing b with
  | nil => exact ⟨b, rfl, h⟩
  | cons a l ih =>
    obtain ⟨c, e, hc⟩ := step b a (List.mem_cons_self ..) h
    obtain ⟨d, e', hd⟩ := ih (fun b a ha => step b a (List.mem_cons_of_mem _ ha)) hc
    exact ⟨d, by rw [List.foldlM_cons, e, chk_ok_bind, e'], hd⟩

/-! ## The comb -/

/-- The masked lookup yields normalized coordinates of magnitude 1 (R245). -/
theorem combLookup_tags (b idx : Nat) :
    (combLookup b idx).1.mag = 1 ∧ (combLookup b idx).2.mag = 1 ∧
      (combLookup b idx).1.norm = true ∧ (combLookup b idx).2.norm = true := by
  rw [combLookup_eq]
  generalize List.range Config.combPoints = l
  suffices h : ∀ e : Fe × Fe, e.1.mag = 1 ∧ e.2.mag = 1 ∧ e.1.norm = true ∧ e.2.norm = true →
      let r := l.foldl (fun e j => (feCmov e.1 (feConst (romEntry b j).1) (j == idx),
        feCmov e.2 (feConst (romEntry b j).2) (j == idx))) e
      r.1.mag = 1 ∧ r.2.mag = 1 ∧ r.1.norm = true ∧ r.2.norm = true from
    h (Fe.zero, Fe.zero) ⟨rfl, rfl, rfl, rfl⟩
  induction l with
  | nil => intro e h; exact h
  | cons j l ih =>
    intro e h
    refine ih _ ?_
    obtain ⟨h1, h2, h3, h4⟩ := h
    simp [h1, h2, h3, h4]

/-- `ROM[b][idx]` inside the geometry is the point R243 defines. -/
theorem romEntry_eq {b idx : Nat} (hb : b < Config.combBlocks) (hi : idx < Config.combPoints) :
    romEntry b idx = romPoint b idx := by
  simp only [romEntry, combRom, List.getD_eq_getElem?_getD]
  rw [List.getElem?_map, List.getElem?_range hb, Option.map_some, Option.getD_some, List.getElem?_map,
    List.getElem?_range hi]
  rfl

/-! ### The teeth (R242, R243, R245) -/

theorem tooth_lt (d off b t : Nat) : tooth d off b t < 2 := Nat.mod_lt _ (by decide)

/-- `bits` is the six teeth, lowest first. -/
theorem combBits_eq (d b off : Nat) : combBits d b off = tooth d off b 0 + 2 * tooth d off b 1 + 4 * tooth d off b 2 +
    8 * tooth d off b 3 + 16 * tooth d off b 4 + 32 * tooth d off b 5 := by
  simp only [combBits, Config.combTeeth, show List.range 6 = [0, 1, 2, 3, 4, 5] from rfl, List.map_cons, List.map_nil,
    List.sum_cons, List.sum_nil, natBit, combPos, Config.combSpacing, tooth, Nat.shiftRight_eq_div_pow, Nat.mul_comm b 6]
  omega

/-- `top` is the top tooth. -/
theorem combTop_eq (d b off : Nat) : combTop d b off = decide (tooth d off b 5 = 1) := by
  have h0 := tooth_lt d off b 0
  have h1 := tooth_lt d off b 1
  have h2 := tooth_lt d off b 2
  have h3 := tooth_lt d off b 3
  have h4 := tooth_lt d off b 4
  have h5 := tooth_lt d off b 5
  rw [combTop, combBits_eq, Nat.shiftRight_eq_div_pow, Bool.eq_iff_iff]
  simp only [beq_iff_eq, decide_eq_true_eq]
  omega

/-- `idx` is the low five teeth, complemented under a top tooth of 0. -/
theorem combIndex_eq (d b off : Nat) : combIndex d b off = toothIndex d off b := by
  have h0 := tooth_lt d off b 0
  have h1 := tooth_lt d off b 1
  have h2 := tooth_lt d off b 2
  have h3 := tooth_lt d off b 3
  have h4 := tooth_lt d off b 4
  have h5 := tooth_lt d off b 5
  rw [combIndex, combTop_eq, combBits_eq, toothIndex]
  by_cases h : tooth d off b 5 = 1
  · simp only [h, decide_true, if_true]
    omega
  · simp only [h, decide_false, if_false, Bool.false_eq_true]
    omega

theorem toothIndex_lt (d off b : Nat) : toothIndex d off b < Config.combPoints := by
  have h0 := tooth_lt d off b 0
  have h1 := tooth_lt d off b 1
  have h2 := tooth_lt d off b 2
  have h3 := tooth_lt d off b 3
  have h4 := tooth_lt d off b 4
  show toothIndex d off b < 32
  unfold toothIndex
  by_cases h : tooth d off b 5 = 1
  · simp only [h, if_true]
    omega
  · simp only [h, if_false]
    omega

/-- Every coordinate the ROM holds is below p. -/
theorem romPoint_lt (b idx : Nat) : (romPoint b idx).1 < Const.p ∧ (romPoint b idx).2 < Const.p :=
  ⟨Nat.mod_lt _ p_pos, Nat.mod_lt _ p_pos⟩

theorem romEntry_lt (b idx : Nat) : (romEntry b idx).1 < Const.p ∧ (romEntry b idx).2 < Const.p := by
  have zero : (0 : Nat) < Const.p := p_pos
  unfold romEntry
  rcases lt_or_ge b Config.combBlocks with hb | hb
  · rcases lt_or_ge idx Config.combPoints with hi | hi
    · have e : (combRom.getD b []).getD idx (0, 0) = romPoint b idx := by
        simp only [combRom, List.getD_eq_getElem?_getD]
        rw [List.getElem?_map, List.getElem?_range hb]
        simp only [Option.map_some, Option.getD_some]
        rw [List.getElem?_map, List.getElem?_range hi]
        rfl
      rw [e]
      exact romPoint_lt b idx
    · have e : (combRom.getD b []).getD idx (0, 0) = (0, 0) := by
        simp only [combRom, List.getD_eq_getElem?_getD]
        rw [List.getElem?_map, List.getElem?_range hb]
        simp only [Option.map_some, Option.getD_some]
        rw [List.getElem?_eq_none (by simpa using hi)]
        rfl
      rw [e]
      exact ⟨zero, zero⟩
  · have e : (combRom.getD b []).getD idx (0, 0) = (0, 0) := by
      simp only [combRom, List.getD_eq_getElem?_getD]
      have hn : (List.range Config.combBlocks)[b]? = none := List.getElem?_eq_none (by simpa using hb)
      simp [hn]
    rw [e]
    exact ⟨zero, zero⟩

theorem combLookup_wf (b idx : Nat) : (combLookup b idx).1.Wf ∧ (combLookup b idx).2.Wf := by
  rw [combLookup_eq]
  generalize List.range Config.combPoints = l
  suffices h : ∀ e : Fe × Fe, e.1.Wf ∧ e.2.Wf →
      let r := l.foldl (fun e j => (feCmov e.1 (feConst (romEntry b j).1) (j == idx),
        feCmov e.2 (feConst (romEntry b j).2) (j == idx))) e
      r.1.Wf ∧ r.2.Wf from h (Fe.zero, Fe.zero) ⟨wf_feZero, wf_feZero⟩
  induction l with
  | nil => intro e h; exact h
  | cons j l ih =>
    intro e h
    exact ih _ ⟨wf_feCmov h.1 (wf_feConst (romEntry_lt b j).1) _, wf_feCmov h.2 (wf_feConst (romEntry_lt b j).2) _⟩

/-- One addition of the comb (R245). -/
theorem combAdd_spec (d off : Nat) {r : Gej} (b : Nat) (h : r.Steady) :
    ∃ R, combAdd d off r b = .ok R ∧ R.Tags 6 4 2 ∧ (r.Wf → R.Wf) := by
  rw [combAdd_eq]
  generalize combIndex d b off = idx
  generalize combTop d b off = top
  obtain ⟨t1, t2, n1, n2⟩ := combLookup_tags b idx
  obtain ⟨w1, w2⟩ := combLookup_wf b idx
  obtain ⟨ney, e1, m1, k1, v1⟩ := feNeg_spec (a := (combLookup b idx).2) (m := 1) t2.le (by omega)
  obtain ⟨R, e2, mx, my, mz, nx, ny, nz, w⟩ := gejAddGe_spec (P := r)
    (b := ⟨(combLookup b idx).1, feCmov (combLookup b idx).2 ney (!top), false⟩)
    (by have := h.x; omega) (by have := h.y; omega) (by have := h.z; omega)
    (by simp [t1]) (by simp [t2, m1])
  refine ⟨R, ?_, ⟨?_, ?_, ?_, nx, ny, nz⟩, fun wr => w wr ⟨w1, wf_feCmov w2 (v1 w2).1 _, fun h => nomatch h⟩⟩
  · simp only [e1, chk_ok_bind, e2]
  · have := h.x; rw [mx]; simp only [t1]; omega
  · have := h.y; rw [my]; simp only [feCmov_mag, t2, m1]; omega
  · have := h.z; rw [mz]; omega

theorem combRound_spec (d off : Nat) {r : Gej} (h : r.Steady) :
    ∃ R, combRound d off r = .ok R ∧ R.Tags 6 4 2 ∧ (r.Wf → R.Wf) := by
  have hb : List.range Config.combBlocks = 0 :: (List.range 10).map (· + 1) := by decide
  rw [combRound_eq]
  rw [hb, List.foldlM_cons]
  obtain ⟨R, e, hR, wR⟩ := combAdd_spec d off 0 h
  rw [e, chk_ok_bind]
  obtain ⟨S, e', hS, wS⟩ := foldlM_spec (fun S : Gej => S.Tags 6 4 2 ∧ (R.Wf → S.Wf)) (combAdd d off)
    ((List.range 10).map (· + 1))
    (fun S b _ hS => by
      obtain ⟨T, eT, hT, wT⟩ := combAdd_spec d off b (tags_steady hS.1)
      exact ⟨T, eT, hT, fun w => wT (hS.2 w)⟩) (b := R) ⟨hR, id⟩
  exact ⟨S, e', hS, fun w => wS (wR w)⟩

theorem combOffset_spec (d off : Nat) {r : Gej} (h : r.Steady) :
    ∃ R, combOffset d r off = .ok R ∧ R.Tags 6 4 2 ∧ (r.Wf → R.Wf) := by
  obtain ⟨S, e, hS, wS⟩ := combRound_spec d off h
  rw [combOffset_eq]
  simp only [e, chk_ok_bind]
  split
  · obtain ⟨D, eD, mx, my, mz, nx, ny, nz, -, wD⟩ := gejDbl_spec (P := S)
      (by have := hS.x; omega) (by have := hS.y; omega) (by have := hS.z; omega)
    exact ⟨D, eD, ⟨mx, my, mz, nx, ny, nz⟩, fun w => wD (wS w).x (wS w).y (wS w).z⟩
  · exact ⟨S, rfl, hS, wS⟩

/-- `COMBMUL` under a context whose offset point passes CHK8: it answers, with the tags that its last addition gives, and
the invariant (R245). -/
theorem combMul_spec (k : Nat) {c : Context} (hx : c.geOffset.x.mag ≤ 8) (hy : c.geOffset.y.mag ≤ 8) :
    ∃ R, combMul k c = .ok R ∧ R.x.mag = max 6 c.geOffset.x.mag ∧ R.y.mag = max 4 c.geOffset.y.mag ∧ R.z.mag = 2 ∧
      R.x.norm = false ∧ R.y.norm = false ∧ R.z.norm = false ∧ (c.geOffset.Wf → R.Wf) := by
  have ho : combOffsets = 3 :: [2, 1, 0] := by decide
  rw [combMul_eq]
  generalize (k + c.scalarOffset.toNat) % Const.n = d
  obtain ⟨R, e, hR, wR⟩ := combOffset_spec d 3 steady_infinity
  obtain ⟨S, e', hS, wS⟩ := foldlM_spec (fun S : Gej => S.Tags 6 4 2 ∧ S.Wf) (combOffset d) [2, 1, 0]
    (fun S off _ hS => by
      obtain ⟨T, eT, hT, wT⟩ := combOffset_spec d off (tags_steady hS.1)
      exact ⟨T, eT, hT, wT hS.2⟩) (b := R) ⟨hR, wR wf_gejInfinity⟩
  obtain ⟨T, eT, mx, my, mz, nx, ny, nz, wT⟩ := gejAddGe_spec (P := S) (b := c.geOffset)
    (by have := hS.x; omega) (by have := hS.y; omega) (by have := hS.z; omega) hx hy
  refine ⟨T, ?_, ?_, ?_, ?_, nx, ny, nz, wT wS⟩
  · simp only [ho, List.foldlM_cons, e, chk_ok_bind]
    rw [List.foldlM_cons] at e'
    simp only [List.foldlM_cons] at e'
    rw [e', chk_ok_bind, eT]
  · rw [mx, hS.x]; omega
  · rw [my, hS.y]; omega
  · rw [mz, hS.z]; rfl

/-! ## The variable-base multiplier -/

theorem fits_infinity : Gej.infinity.Within8 := ⟨by decide, by decide, by decide⟩

/-- Doubling within the bound (R196). -/
theorem gejDbl_fits {P : Gej} (h : P.Within8) : ∃ R, gejDbl P = .ok R ∧ R.Within8 ∧ (P.Wf → R.Wf) := by
  obtain ⟨R, e, mx, my, mz, -, -, -, -, w⟩ := gejDbl_spec h.x h.y h.z
  exact ⟨R, e, ⟨by omega, by omega, by omega⟩, fun v => w v.x v.y v.z⟩

/-- Addition within the bound (R198). -/
theorem gejAddVar_fits {P Q : Gej} (hP : P.Within8) (hQ : Q.Within8) :
    ∃ R, gejAddVar P Q = .ok R ∧ R.Within8 ∧ (P.Wf → Q.Wf → R.Wf) := by
  obtain ⟨R, e, h, w⟩ := gejAddVar_spec (P := P) (Q := Q) fun _ _ => ⟨hP.x, hP.y, hP.z, hQ.x, hQ.y, hQ.z⟩
  refine ⟨R, e, ?_, w⟩
  rcases h with ⟨-, rfl⟩ | ⟨-, -, rfl⟩ | ⟨-, -, h⟩
  · exact hQ
  · exact hP
  · rcases h with rfl | h | ⟨mx, my, mz, -⟩
    · exact fits_infinity
    · obtain ⟨R', e', hR', -⟩ := gejDbl_fits hP
      rw [e'] at h
      cases h
      exact hR'
    · exact ⟨by omega, by omega, by omega⟩

/-- The rest of an odd-multiple table: each entry is ADDVAR of the one before with D (R262). -/
theorem oddTabFrom_steps {D : Gej} (hD : D.Within8) (count : Nat) {last : Gej} (h : last.Within8) :
    ∃ T, oddTabFrom D last count = .ok T ∧ T.length = count ∧ (∀ P ∈ T, P.Within8) ∧ ∀ i < count, ∃ P Q,
      (last :: T)[i]? = some P ∧ (last :: T)[i + 1]? = some Q ∧ gejAddVar P D = .ok Q := by
  induction count generalizing last with
  | zero => exact ⟨[], rfl, rfl, by simp, by simp⟩
  | succ count ih =>
    obtain ⟨N, e, hN, -⟩ := gejAddVar_fits h hD
    obtain ⟨T, e', hl, hw, hT⟩ := ih hN
    refine ⟨N :: T, by simp [oddTabFrom_succ, e, e'], by simp [hl], by simpa [hN] using hw, fun i hi => ?_⟩
    rcases i with _ | i
    · exact ⟨last, N, rfl, rfl, e⟩
    · simpa using hT i (by omega)

/-- An entry of an odd-multiple table and the double it is extended by. -/
structure Entry (P : Gej) : Prop where
  x : P.x.mag ≤ 6
  y : P.y.mag ≤ 4
  z : P.z.mag ≤ 2
  wf : P.Wf

theorem gejAddVar_entry {P D : Gej} (hP : Entry P) (hD : Entry D) : ∃ R, gejAddVar P D = .ok R ∧ Entry R := by
  obtain ⟨px, py, pz, pw⟩ := hP
  obtain ⟨dx, dy, dz, dw⟩ := hD
  obtain ⟨R, e, h, w⟩ := gejAddVar_spec (P := P) (Q := D)
    fun _ _ => ⟨by omega, by omega, by omega, by omega, by omega, by omega⟩
  refine ⟨R, e, ?_⟩
  rcases h with ⟨-, rfl⟩ | ⟨-, -, rfl⟩ | ⟨-, -, h⟩
  · exact ⟨dx, dy, dz, dw⟩
  · exact ⟨px, py, pz, pw⟩
  · rcases h with rfl | h | ⟨mx, my, mz, -⟩
    · exact ⟨by decide, by decide, by decide, wf_gejInfinity⟩
    · obtain ⟨R', e', mx, my, mz, -, -, -, -, -⟩ := gejDbl_spec (P := P) (by omega) (by omega) (by omega)
      rw [e'] at h
      cases h
      exact ⟨by omega, by omega, by omega, w pw dw⟩
    · exact ⟨by omega, by omega, by omega, w pw dw⟩

theorem oddTabFrom_spec {D : Gej} (hD : Entry D) (count : Nat) {last : Gej} (h : Entry last) :
    ∃ T, oddTabFrom D last count = .ok T ∧ ∀ P ∈ T, Entry P := by
  induction count generalizing last with
  | zero => exact ⟨[], rfl, by simp⟩
  | succ count ih =>
    obtain ⟨N, e, hN⟩ := gejAddVar_entry h hD
    obtain ⟨T, e', hT⟩ := ih hN
    refine ⟨N :: T, by simp [oddTabFrom_succ, e, e'], fun P hP => ?_⟩
    rcases List.mem_cons.1 hP with rfl | hP
    · exact hN
    · exact hT P hP

/-- `ODDTAB` of a content within (6, 4, 2) (R262). -/
theorem oddTab_spec {B : Gej} (h : Entry B) : ∃ T, oddTab B = .ok T ∧ ∀ P ∈ T, Entry P := by
  obtain ⟨D, e, mx, my, mz, -, -, -, -, w⟩ := gejDbl_spec (P := B)
    (by have := h.x; omega) (by have := h.y; omega) (by have := h.z; omega)
  have hD : Entry D := ⟨by omega, by omega, by omega, w h.wf.x h.wf.y h.wf.z⟩
  obtain ⟨T, e', hT⟩ := oddTabFrom_spec hD (Config.ecmultTableSize - 1) h
  refine ⟨B :: T, by simp [oddTab_eq, e, e'], fun P hP => ?_⟩
  rcases List.mem_cons.1 hP with rfl | hP
  · exact h
  · exact hT P hP

theorem lamEntry_spec {P : Gej} (h : Entry P) :
    ∃ R, lamEntry P = .ok R ∧ R.x.mag = 1 ∧ R.y = P.y ∧ R.z = P.z ∧ R.inf = P.inf ∧ Entry R := by
  obtain ⟨hx, hy, hz, hw⟩ := h
  obtain ⟨x, e, m, n, w⟩ := feMul_spec (a := P.x) (b := feConst Const.beta) (by omega) (by simp)
  refine ⟨{ P with x := x }, by simp [lamEntry_eq, e], m, rfl, rfl, rfl, ⟨by simp only; omega, hy, hz, ?_⟩⟩
  obtain ⟨vx, -⟩ := w hw.x (wf_feConst (by decide))
  refine ⟨vx, hw.y, hw.z, fun hi => ?_⟩
  obtain ⟨h1, h2, h3⟩ := hw.infinite hi
  refine ⟨?_, h2, h3⟩
  have e' := feMul_ok (a := P.x) (b := feConst Const.beta) (by omega) (by simp)
  rw [e] at e'
  cases e'
  show canon (fold3 (P.x.n.ival * _)) = Limbs.zero
  rw [h1, zero_ival, Nat.zero_mul]
  decide

theorem lamTab_spec {T : List Gej} (h : ∀ P ∈ T, Entry P) : ∃ L, lamTab T = .ok L ∧ ∀ P ∈ L, Entry P := by
  rw [lamTab_eq]
  induction T with
  | nil => exact ⟨[], rfl, by simp⟩
  | cons P T ih =>
    obtain ⟨R, e, -, -, -, -, hR⟩ := lamEntry_spec (h P (List.mem_cons_self ..))
    obtain ⟨L, e', hL⟩ := ih fun Q hQ => h Q (List.mem_cons_of_mem _ hQ)
    refine ⟨R :: L, by simp [List.mapM_cons, e, e'], fun Q hQ => ?_⟩
    rcases List.mem_cons.1 hQ with rfl | hQ
    · exact hR
    · exact hL Q hQ

/-- Both terms of a content within the bound (R264). -/
theorem terms_spec {B : Gej} (k : Nat) (h : Entry B) :
    ∃ ts, terms B k = .ok ts ∧ ∀ t ∈ ts, ∀ P ∈ t.table, Entry P := by
  obtain ⟨T, e, hT⟩ := oddTab_spec h
  obtain ⟨L, e', hL⟩ := lamTab_spec hT
  refine ⟨[termOf (splitLambda k).1 T, termOf (splitLambda k).2 L], by simp [terms_eq, e, e'], fun t ht P hP => ?_⟩
  simp only [List.mem_cons, List.not_mem_nil, or_false] at ht
  rcases ht with rfl | rfl
  · exact hT P hP
  · exact hL P hP

/-- What the accumulator keeps: within the bound and well formed. -/
structure Acc (P : Gej) : Prop where
  fits : P.Within8
  wf : P.Wf

theorem entry_getD {T : List Gej} (h : ∀ P ∈ T, Entry P) (i : Nat) : Entry (T.getD i Gej.infinity) := by
  rw [List.getD_eq_getElem?_getD]
  rcases hT : T[i]? with _ | P
  · exact ⟨by decide, by decide, by decide, wf_gejInfinity⟩
  · exact h P (List.mem_of_getElem? hT)

theorem addTerm_spec (i : Nat) {r : Gej} {t : Term} (hr : Acc r) (ht : ∀ P ∈ t.table, Entry P) :
    ∃ R, addTerm i r t = .ok R ∧ Acc R := by
  rw [addTerm_eq, addMultiple_eq]
  generalize signedDigit t i = e
  split
  · obtain ⟨hx, hy, hz, hw⟩ := entry_getD ht ((e - 1) / 2).toNat
    obtain ⟨R, eR, fR, wR⟩ := gejAddVar_fits hr.fits (Q := t.table.getD ((e - 1) / 2).toNat Gej.infinity)
      ⟨by omega, by omega, by omega⟩
    exact ⟨R, eR, fR, wR hr.wf hw⟩
  · split
    · obtain ⟨hx, hy, hz, hw⟩ := entry_getD ht ((-e - 1) / 2).toNat
      obtain ⟨m, em, mx, my, -, mz, -, wm⟩ := negJ_spec (P := t.table.getD ((-e - 1) / 2).toNat Gej.infinity) (by omega)
      obtain ⟨R, eR, fR, wR⟩ := gejAddVar_fits hr.fits (Q := m) ⟨by rw [mx]; omega, by omega, by rw [mz]; omega⟩
      exact ⟨R, by simp only [em, chk_ok_bind, eR], fR, wR hr.wf (wm hw)⟩
    · exact ⟨r, rfl, hr⟩

theorem ecmultPass_spec {ts : List Term} (hts : ∀ t ∈ ts, ∀ P ∈ t.table, Entry P) {r : Gej} (i : Nat) (hr : Acc r) :
    ∃ R, ecmultPass ts r i = .ok R ∧ Acc R := by
  obtain ⟨D, e, fD, wD⟩ := gejDbl_fits hr.fits
  obtain ⟨R, e', hR⟩ := foldlM_spec Acc (addTerm i) ts (fun b t ht hb => addTerm_spec i hb (hts t ht)) (b := D)
    ⟨fD, wD hr.wf⟩
  exact ⟨R, by simp [ecmultPass_eq, e, e'], hR⟩

theorem ecmultLoop_spec {ts : List Term} (hts : ∀ t ∈ ts, ∀ P ∈ t.table, Entry P) :
    ∃ R, ecmultLoop ts = .ok R ∧ Acc R :=
  foldlM_spec Acc (ecmultPass ts) _ (fun _ i _ hb => ecmultPass_spec hts i hb) ⟨fits_infinity, wf_gejInfinity⟩

/-- ECMULT once its check passes: it answers, and the result is well formed (R266). -/
theorem ecmult_spec (A : Gej) (na : Nat) (ng : Option Nat)
    (h : A.inf = false → na ≠ 0 → A.x.mag ≤ 8 ∧ A.y.mag ≤ 8 ∧ A.z.mag ≤ 8) :
    ∃ R, ecmult A na ng = .ok R ∧ R.Wf := by
  have hp : ∃ pt, pointTerms A na = .ok pt ∧ ∀ t ∈ pt, ∀ P ∈ t.table, Entry P := by
    rw [pointTerms_eq]
    by_cases hc : (A.inf || na == 0) = true
    · exact ⟨[], by simp [hc], by simp⟩
    · simp only [Bool.or_eq_true, beq_iff_eq, not_or, Bool.not_eq_true] at hc
      obtain ⟨hx, hy, hz⟩ := h hc.1 hc.2
      obtain ⟨ts, e, hts⟩ := terms_spec (B := ⟨feNorm A.x, feNorm A.y, feNorm A.z, false⟩) na
        ⟨by simp, by simp, by simp, ⟨wf_feNorm _, wf_feNorm _, wf_feNorm _, fun h => nomatch h⟩⟩
      exact ⟨ts, by simp [hc.1, hc.2, chk8_three hx hy hz, e], hts⟩
  have hg : ∃ gt, generatorTerms ng = .ok gt ∧ ∀ t ∈ gt, ∀ P ∈ t.table, Entry P := by
    rw [generatorTerms_eq]
    rcases ng with _ | k
    · exact ⟨[], rfl, by simp⟩
    · by_cases hk : k = 0
      · exact ⟨[], by simp [hk], by simp⟩
      · obtain ⟨ts, e, hts⟩ := terms_spec (B := ⟨feConst Const.gx, feConst Const.gy, Fe.one, false⟩) k
          ⟨by decide, by decide, by decide,
            ⟨wf_feConst (by decide), wf_feConst (by decide), wf_feOne, fun h => nomatch h⟩⟩
        exact ⟨ts, by simp [hk, e], hts⟩
  obtain ⟨pt, e1, h1⟩ := hp
  obtain ⟨gt, e2, h2⟩ := hg
  obtain ⟨R, e3, h3⟩ := ecmultLoop_spec (ts := pt ++ gt) fun t ht => by
    rcases List.mem_append.1 ht with ht | ht
    · exact h1 t ht
    · exact h2 t ht
  exact ⟨R, by simp [ecmult_eq, e1, e2, e3], h3.wf⟩

theorem ecmult_error {A : Gej} {na : Nat} (ng : Option Nat) (hA : A.inf = false) (hn : na ≠ 0) (h : A.big = true) :
    ecmult A na ng = .error .feMagnitude := by
  have : chk8 [A.x, A.y, A.z] = .error .feMagnitude := chk8_error (by
    simp only [Gej.big, Bool.or_eq_true, decide_eq_true_eq] at h
    intro hall
    have h1 := hall A.x (by simp)
    have h2 := hall A.y (by simp)
    have h3 := hall A.z (by simp)
    omega)
  simp [ecmult_eq, pointTerms_eq, hA, hn, this]

end Sys2Proof.Machine
end

