-- ==== Sys2Proof/Laws/PerInstr.lean ====
section
/-! SUPPORT. What holds of every instruction as syntax, one lemma a constructor: its word has its own row of the opcode map,
its format's unused fields are 0, and the row builds the instruction back from the word's fields. -/

namespace Sys2Proof.Laws.Packing

set_option Elab.async false

/-- The word of an instruction names a row of the opcode map (R85), leaves the fields its format does not use 0 (R82), and
carries every operand. -/
def Statement (i : Instr) : Prop :=
  ∃ row, rowOf (opcOf (encode i)) = some row ∧
    row.fmt.unusedZero (rdOf (encode i)) (raOf (encode i)) (rbOf (encode i)) (immOf (encode i)) = true ∧
    row.build (rdOf (encode i)) (raOf (encode i)) (rbOf (encode i)) (immOf (encode i)) = i

theorem nop : Statement (.nop) := by
  simp only [Statement, encode, opcOf_pack, rdOf_pack, raOf_pack, rbOf_pack, immOf_pack]
  exact ⟨_, rfl, by simp [Format.unusedZero], rfl⟩

theorem ctxBuild : Statement (.ctxBuild) := by
  simp only [Statement, encode, opcOf_pack, rdOf_pack, raOf_pack, rbOf_pack, immOf_pack]
  exact ⟨_, rfl, by simp [Format.unusedZero], rfl⟩

theorem ctxClear : Statement (.ctxClear) := by
  simp only [Statement, encode, opcOf_pack, rdOf_pack, raOf_pack, rbOf_pack, immOf_pack]
  exact ⟨_, rfl, by simp [Format.unusedZero], rfl⟩

theorem ctxBlind (imm : Imm) : Statement (.ctxBlind imm) := by
  simp only [Statement, encode, opcOf_pack, rdOf_pack, raOf_pack, rbOf_pack, immOf_pack]
  exact ⟨_, rfl, by simp [Format.unusedZero], rfl⟩

theorem feSetb32 (rd : RegNum) (imm : Imm) : Statement (.feSetb32 rd imm) := by
  simp only [Statement, encode, opcOf_pack, rdOf_pack, raOf_pack, rbOf_pack, immOf_pack]
  exact ⟨_, rfl, by simp [Format.unusedZero], rfl⟩

theorem feGetb32 (ra : RegNum) (imm : Imm) : Statement (.feGetb32 ra imm) := by
  simp only [Statement, encode, opcOf_pack, rdOf_pack, raOf_pack, rbOf_pack, immOf_pack]
  exact ⟨_, rfl, by simp [Format.unusedZero], rfl⟩

theorem feSetint (rd : RegNum) (imm : Imm) : Statement (.feSetint rd imm) := by
  simp only [Statement, encode, opcOf_pack, rdOf_pack, raOf_pack, rbOf_pack, immOf_pack]
  exact ⟨_, rfl, by simp [Format.unusedZero], rfl⟩

theorem feMov (rd : RegNum) (ra : RegNum) : Statement (.feMov rd ra) := by
  simp only [Statement, encode, opcOf_pack, rdOf_pack, raOf_pack, rbOf_pack, immOf_pack]
  exact ⟨_, rfl, by simp [Format.unusedZero], rfl⟩

theorem feNorm (rd : RegNum) (ra : RegNum) : Statement (.feNorm rd ra) := by
  simp only [Statement, encode, opcOf_pack, rdOf_pack, raOf_pack, rbOf_pack, immOf_pack]
  exact ⟨_, rfl, by simp [Format.unusedZero], rfl⟩

theorem feAdd (rd : RegNum) (ra : RegNum) (rb : RegNum) : Statement (.feAdd rd ra rb) := by
  simp only [Statement, encode, opcOf_pack, rdOf_pack, raOf_pack, rbOf_pack, immOf_pack]
  exact ⟨_, rfl, by simp [Format.unusedZero], rfl⟩

theorem feMul (rd : RegNum) (ra : RegNum) (rb : RegNum) : Statement (.feMul rd ra rb) := by
  simp only [Statement, encode, opcOf_pack, rdOf_pack, raOf_pack, rbOf_pack, immOf_pack]
  exact ⟨_, rfl, by simp [Format.unusedZero], rfl⟩

theorem feSqr (rd : RegNum) (ra : RegNum) : Statement (.feSqr rd ra) := by
  simp only [Statement, encode, opcOf_pack, rdOf_pack, raOf_pack, rbOf_pack, immOf_pack]
  exact ⟨_, rfl, by simp [Format.unusedZero], rfl⟩

theorem feNeg (rd : RegNum) (ra : RegNum) (imm : Imm) : Statement (.feNeg rd ra imm) := by
  simp only [Statement, encode, opcOf_pack, rdOf_pack, raOf_pack, rbOf_pack, immOf_pack]
  exact ⟨_, rfl, by simp [Format.unusedZero], rfl⟩

theorem feCmov (rd : RegNum) (ra : RegNum) (imm : Imm) : Statement (.feCmov rd ra imm) := by
  simp only [Statement, encode, opcOf_pack, rdOf_pack, raOf_pack, rbOf_pack, immOf_pack]
  exact ⟨_, rfl, by simp [Format.unusedZero], rfl⟩

theorem feIszero (ra : RegNum) : Statement (.feIszero ra) := by
  simp only [Statement, encode, opcOf_pack, rdOf_pack, raOf_pack, rbOf_pack, immOf_pack]
  exact ⟨_, rfl, by simp [Format.unusedZero], rfl⟩

theorem feEq (ra : RegNum) (rb : RegNum) : Statement (.feEq ra rb) := by
  simp only [Statement, encode, opcOf_pack, rdOf_pack, raOf_pack, rbOf_pack, immOf_pack]
  exact ⟨_, rfl, by simp [Format.unusedZero], rfl⟩

theorem feIsodd (ra : RegNum) : Statement (.feIsodd ra) := by
  simp only [Statement, encode, opcOf_pack, rdOf_pack, raOf_pack, rbOf_pack, immOf_pack]
  exact ⟨_, rfl, by simp [Format.unusedZero], rfl⟩

theorem feCmp (ra : RegNum) (rb : RegNum) : Statement (.feCmp ra rb) := by
  simp only [Statement, encode, opcOf_pack, rdOf_pack, raOf_pack, rbOf_pack, immOf_pack]
  exact ⟨_, rfl, by simp [Format.unusedZero], rfl⟩

theorem feInv (rd : RegNum) (ra : RegNum) : Statement (.feInv rd ra) := by
  simp only [Statement, encode, opcOf_pack, rdOf_pack, raOf_pack, rbOf_pack, immOf_pack]
  exact ⟨_, rfl, by simp [Format.unusedZero], rfl⟩

theorem feInvvar (rd : RegNum) (ra : RegNum) : Statement (.feInvvar rd ra) := by
  simp only [Statement, encode, opcOf_pack, rdOf_pack, raOf_pack, rbOf_pack, immOf_pack]
  exact ⟨_, rfl, by simp [Format.unusedZero], rfl⟩

theorem scSetb32 (rd : RegNum) (imm : Imm) : Statement (.scSetb32 rd imm) := by
  simp only [Statement, encode, opcOf_pack, rdOf_pack, raOf_pack, rbOf_pack, immOf_pack]
  exact ⟨_, rfl, by simp [Format.unusedZero], rfl⟩

theorem scGetb32 (ra : RegNum) (imm : Imm) : Statement (.scGetb32 ra imm) := by
  simp only [Statement, encode, opcOf_pack, rdOf_pack, raOf_pack, rbOf_pack, immOf_pack]
  exact ⟨_, rfl, by simp [Format.unusedZero], rfl⟩

theorem scSetint (rd : RegNum) (imm : Imm) : Statement (.scSetint rd imm) := by
  simp only [Statement, encode, opcOf_pack, rdOf_pack, raOf_pack, rbOf_pack, immOf_pack]
  exact ⟨_, rfl, by simp [Format.unusedZero], rfl⟩

theorem scMov (rd : RegNum) (ra : RegNum) : Statement (.scMov rd ra) := by
  simp only [Statement, encode, opcOf_pack, rdOf_pack, raOf_pack, rbOf_pack, immOf_pack]
  exact ⟨_, rfl, by simp [Format.unusedZero], rfl⟩

theorem scAdd (rd : RegNum) (ra : RegNum) (rb : RegNum) : Statement (.scAdd rd ra rb) := by
  simp only [Statement, encode, opcOf_pack, rdOf_pack, raOf_pack, rbOf_pack, immOf_pack]
  exact ⟨_, rfl, by simp [Format.unusedZero], rfl⟩

theorem scMul (rd : RegNum) (ra : RegNum) (rb : RegNum) : Statement (.scMul rd ra rb) := by
  simp only [Statement, encode, opcOf_pack, rdOf_pack, raOf_pack, rbOf_pack, immOf_pack]
  exact ⟨_, rfl, by simp [Format.unusedZero], rfl⟩

theorem scSqr (rd : RegNum) (ra : RegNum) : Statement (.scSqr rd ra) := by
  simp only [Statement, encode, opcOf_pack, rdOf_pack, raOf_pack, rbOf_pack, immOf_pack]
  exact ⟨_, rfl, by simp [Format.unusedZero], rfl⟩

theorem scNeg (rd : RegNum) (ra : RegNum) : Statement (.scNeg rd ra) := by
  simp only [Statement, encode, opcOf_pack, rdOf_pack, raOf_pack, rbOf_pack, immOf_pack]
  exact ⟨_, rfl, by simp [Format.unusedZero], rfl⟩

theorem scCneg (rd : RegNum) (ra : RegNum) (imm : Imm) : Statement (.scCneg rd ra imm) := by
  simp only [Statement, encode, opcOf_pack, rdOf_pack, raOf_pack, rbOf_pack, immOf_pack]
  exact ⟨_, rfl, by simp [Format.unusedZero], rfl⟩

theorem scCmov (rd : RegNum) (ra : RegNum) (imm : Imm) : Statement (.scCmov rd ra imm) := by
  simp only [Statement, encode, opcOf_pack, rdOf_pack, raOf_pack, rbOf_pack, immOf_pack]
  exact ⟨_, rfl, by simp [Format.unusedZero], rfl⟩

theorem scIszero (ra : RegNum) : Statement (.scIszero ra) := by
  simp only [Statement, encode, opcOf_pack, rdOf_pack, raOf_pack, rbOf_pack, immOf_pack]
  exact ⟨_, rfl, by simp [Format.unusedZero], rfl⟩

theorem scEq (ra : RegNum) (rb : RegNum) : Statement (.scEq ra rb) := by
  simp only [Statement, encode, opcOf_pack, rdOf_pack, raOf_pack, rbOf_pack, immOf_pack]
  exact ⟨_, rfl, by simp [Format.unusedZero], rfl⟩

theorem scIshigh (ra : RegNum) : Statement (.scIshigh ra) := by
  simp only [Statement, encode, opcOf_pack, rdOf_pack, raOf_pack, rbOf_pack, immOf_pack]
  exact ⟨_, rfl, by simp [Format.unusedZero], rfl⟩

theorem scInv (rd : RegNum) (ra : RegNum) : Statement (.scInv rd ra) := by
  simp only [Statement, encode, opcOf_pack, rdOf_pack, raOf_pack, rbOf_pack, immOf_pack]
  exact ⟨_, rfl, by simp [Format.unusedZero], rfl⟩

theorem scInvvar (rd : RegNum) (ra : RegNum) : Statement (.scInvvar rd ra) := by
  simp only [Statement, encode, opcOf_pack, rdOf_pack, raOf_pack, rbOf_pack, immOf_pack]
  exact ⟨_, rfl, by simp [Format.unusedZero], rfl⟩

theorem scMulshift (rd : RegNum) (ra : RegNum) (rb : RegNum) (imm : Imm) : Statement (.scMulshift rd ra rb imm) := by
  simp only [Statement, encode, opcOf_pack, rdOf_pack, raOf_pack, rbOf_pack, immOf_pack]
  exact ⟨_, rfl, by simp [Format.unusedZero], rfl⟩

theorem scSplitlambda (rd : RegNum) (ra : RegNum) (rb : RegNum) : Statement (.scSplitlambda rd ra rb) := by
  simp only [Statement, encode, opcOf_pack, rdOf_pack, raOf_pack, rbOf_pack, immOf_pack]
  exact ⟨_, rfl, by simp [Format.unusedZero], rfl⟩

theorem scSplit128 (rd : RegNum) (ra : RegNum) (rb : RegNum) : Statement (.scSplit128 rd ra rb) := by
  simp only [Statement, encode, opcOf_pack, rdOf_pack, raOf_pack, rbOf_pack, immOf_pack]
  exact ⟨_, rfl, by simp [Format.unusedZero], rfl⟩

theorem geSetxy (rd : RegNum) (ra : RegNum) (rb : RegNum) : Statement (.geSetxy rd ra rb) := by
  simp only [Statement, encode, opcOf_pack, rdOf_pack, raOf_pack, rbOf_pack, immOf_pack]
  exact ⟨_, rfl, by simp [Format.unusedZero], rfl⟩

theorem geGetx (rd : RegNum) (ra : RegNum) : Statement (.geGetx rd ra) := by
  simp only [Statement, encode, opcOf_pack, rdOf_pack, raOf_pack, rbOf_pack, immOf_pack]
  exact ⟨_, rfl, by simp [Format.unusedZero], rfl⟩

theorem geGety (rd : RegNum) (ra : RegNum) : Statement (.geGety rd ra) := by
  simp only [Statement, encode, opcOf_pack, rdOf_pack, raOf_pack, rbOf_pack, immOf_pack]
  exact ⟨_, rfl, by simp [Format.unusedZero], rfl⟩

theorem geSetinf (rd : RegNum) : Statement (.geSetinf rd) := by
  simp only [Statement, encode, opcOf_pack, rdOf_pack, raOf_pack, rbOf_pack, immOf_pack]
  exact ⟨_, rfl, by simp [Format.unusedZero], rfl⟩

theorem geIsinf (ra : RegNum) : Statement (.geIsinf ra) := by
  simp only [Statement, encode, opcOf_pack, rdOf_pack, raOf_pack, rbOf_pack, immOf_pack]
  exact ⟨_, rfl, by simp [Format.unusedZero], rfl⟩

theorem geMov (rd : RegNum) (ra : RegNum) : Statement (.geMov rd ra) := by
  simp only [Statement, encode, opcOf_pack, rdOf_pack, raOf_pack, rbOf_pack, immOf_pack]
  exact ⟨_, rfl, by simp [Format.unusedZero], rfl⟩

theorem geNeg (rd : RegNum) (ra : RegNum) : Statement (.geNeg rd ra) := by
  simp only [Statement, encode, opcOf_pack, rdOf_pack, raOf_pack, rbOf_pack, immOf_pack]
  exact ⟨_, rfl, by simp [Format.unusedZero], rfl⟩

theorem geEq (ra : RegNum) (rb : RegNum) : Statement (.geEq ra rb) := by
  simp only [Statement, encode, opcOf_pack, rdOf_pack, raOf_pack, rbOf_pack, immOf_pack]
  exact ⟨_, rfl, by simp [Format.unusedZero], rfl⟩

theorem geMullambda (rd : RegNum) (ra : RegNum) : Statement (.geMullambda rd ra) := by
  simp only [Statement, encode, opcOf_pack, rdOf_pack, raOf_pack, rbOf_pack, immOf_pack]
  exact ⟨_, rfl, by simp [Format.unusedZero], rfl⟩

theorem geTostor (ra : RegNum) (imm : Imm) : Statement (.geTostor ra imm) := by
  simp only [Statement, encode, opcOf_pack, rdOf_pack, raOf_pack, rbOf_pack, immOf_pack]
  exact ⟨_, rfl, by simp [Format.unusedZero], rfl⟩

theorem geFromstor (rd : RegNum) (imm : Imm) : Statement (.geFromstor rd imm) := by
  simp only [Statement, encode, opcOf_pack, rdOf_pack, raOf_pack, rbOf_pack, immOf_pack]
  exact ⟨_, rfl, by simp [Format.unusedZero], rfl⟩

theorem geSetgej (rd : RegNum) (ra : RegNum) : Statement (.geSetgej rd ra) := by
  simp only [Statement, encode, opcOf_pack, rdOf_pack, raOf_pack, rbOf_pack, immOf_pack]
  exact ⟨_, rfl, by simp [Format.unusedZero], rfl⟩

theorem geSetgejvar (rd : RegNum) (ra : RegNum) : Statement (.geSetgejvar rd ra) := by
  simp only [Statement, encode, opcOf_pack, rdOf_pack, raOf_pack, rbOf_pack, immOf_pack]
  exact ⟨_, rfl, by simp [Format.unusedZero], rfl⟩

theorem geSetg (rd : RegNum) : Statement (.geSetg rd) := by
  simp only [Statement, encode, opcOf_pack, rdOf_pack, raOf_pack, rbOf_pack, immOf_pack]
  exact ⟨_, rfl, by simp [Format.unusedZero], rfl⟩

theorem gejSetge (rd : RegNum) (ra : RegNum) : Statement (.gejSetge rd ra) := by
  simp only [Statement, encode, opcOf_pack, rdOf_pack, raOf_pack, rbOf_pack, immOf_pack]
  exact ⟨_, rfl, by simp [Format.unusedZero], rfl⟩

theorem gejSetinf (rd : RegNum) : Statement (.gejSetinf rd) := by
  simp only [Statement, encode, opcOf_pack, rdOf_pack, raOf_pack, rbOf_pack, immOf_pack]
  exact ⟨_, rfl, by simp [Format.unusedZero], rfl⟩

theorem gejIsinf (ra : RegNum) : Statement (.gejIsinf ra) := by
  simp only [Statement, encode, opcOf_pack, rdOf_pack, raOf_pack, rbOf_pack, immOf_pack]
  exact ⟨_, rfl, by simp [Format.unusedZero], rfl⟩

theorem gejMov (rd : RegNum) (ra : RegNum) : Statement (.gejMov rd ra) := by
  simp only [Statement, encode, opcOf_pack, rdOf_pack, raOf_pack, rbOf_pack, immOf_pack]
  exact ⟨_, rfl, by simp [Format.unusedZero], rfl⟩

theorem gejNeg (rd : RegNum) (ra : RegNum) : Statement (.gejNeg rd ra) := by
  simp only [Statement, encode, opcOf_pack, rdOf_pack, raOf_pack, rbOf_pack, immOf_pack]
  exact ⟨_, rfl, by simp [Format.unusedZero], rfl⟩

theorem gejDbl (rd : RegNum) (ra : RegNum) : Statement (.gejDbl rd ra) := by
  simp only [Statement, encode, opcOf_pack, rdOf_pack, raOf_pack, rbOf_pack, immOf_pack]
  exact ⟨_, rfl, by simp [Format.unusedZero], rfl⟩

theorem gejAddge (rd : RegNum) (ra : RegNum) (rb : RegNum) : Statement (.gejAddge rd ra rb) := by
  simp only [Statement, encode, opcOf_pack, rdOf_pack, raOf_pack, rbOf_pack, immOf_pack]
  exact ⟨_, rfl, by simp [Format.unusedZero], rfl⟩

theorem gejAddgevar (rd : RegNum) (ra : RegNum) (rb : RegNum) : Statement (.gejAddgevar rd ra rb) := by
  simp only [Statement, encode, opcOf_pack, rdOf_pack, raOf_pack, rbOf_pack, immOf_pack]
  exact ⟨_, rfl, by simp [Format.unusedZero], rfl⟩

theorem gejAddvar (rd : RegNum) (ra : RegNum) (rb : RegNum) : Statement (.gejAddvar rd ra rb) := by
  simp only [Statement, encode, opcOf_pack, rdOf_pack, raOf_pack, rbOf_pack, immOf_pack]
  exact ⟨_, rfl, by simp [Format.unusedZero], rfl⟩

theorem gejEq (ra : RegNum) (rb : RegNum) : Statement (.gejEq ra rb) := by
  simp only [Statement, encode, opcOf_pack, rdOf_pack, raOf_pack, rbOf_pack, immOf_pack]
  exact ⟨_, rfl, by simp [Format.unusedZero], rfl⟩

theorem gejGetc (rd : RegNum) (ra : RegNum) (imm : Imm) : Statement (.gejGetc rd ra imm) := by
  simp only [Statement, encode, opcOf_pack, rdOf_pack, raOf_pack, rbOf_pack, immOf_pack]
  exact ⟨_, rfl, by simp [Format.unusedZero], rfl⟩

theorem ecmultGen (rd : RegNum) (ra : RegNum) : Statement (.ecmultGen rd ra) := by
  simp only [Statement, encode, opcOf_pack, rdOf_pack, raOf_pack, rbOf_pack, immOf_pack]
  exact ⟨_, rfl, by simp [Format.unusedZero], rfl⟩

theorem ecmult (rd : RegNum) (ra : RegNum) (rb : RegNum) (imm : Imm) : Statement (.ecmult rd ra rb imm) := by
  simp only [Statement, encode, opcOf_pack, rdOf_pack, raOf_pack, rbOf_pack, immOf_pack]
  exact ⟨_, rfl, by simp [Format.unusedZero], rfl⟩

end Sys2Proof.Laws.Packing
end

