-- ==== Sys2Proof/Tests/Slice0.lean ====
section
/-! SUPPORT. Tests of the model, each of one step or one helper, with results from `spec/95_test_vectors.md` and the examples
of the rules; the refusals of WellFormed; the words of every command; and one witness for every statement that has
hypotheses. -/

namespace Sys2Proof.Machine.Tests

set_option Elab.async false
set_option maxRecDepth 100000

/-! ## Helpers -/

/-- The state after the host issues one command word. -/
def after (w : Nat) (s : State) : State :=
  match step (s.withFetchWord 32 w) with
  | .next t => t
  | _ => { s with cause := 0xFF }

/-- The state after one host operation. -/
def afterOp (op : HostOp) (s : State) : State :=
  match step { s with inbox := [op] } with
  | .next t => t
  | _ => { s with cause := 0xFF }

/-- The five CSRs. -/
def csrs (s : State) : List Nat := (List.range 5).map fun i => (csrWord i s).toNat

/-- The state after reset with a value in a BUF slot. -/
def withSlot (k v : Nat) : State := memWrite (slotAddr k) 32 (be32 v) State.reset

/-- What a slot holds, if it is valid. -/
def slot (k : Nat) (s : State) : Option Nat :=
  if slotValid k s then some (intBe (Memory.readBytes s.mem (slotAddr k) 32)) else none

def fe (v : Nat) : Fe := feConst v

/-- Contents with given tags. -/
def tagged (v m : Nat) : Fe := ⟨canon v, m, false⟩

def withF (r : RegNum) (a : Fe) : State := writeF r a State.reset
def withF2 (a b : Fe) : State := writeF 1 b (withF 0 a)
def withS (r : RegNum) (v : Nat) : State := writeS r v State.reset
def withS2 (a b : Nat) : State := writeS 1 b (withS 0 a)
def withA (r : RegNum) (P : Ge) : State := writeA r P State.reset
def withJ (r : RegNum) (P : Gej) : State := writeJ r P State.reset
def withJA (P : Gej) (b : Ge) : State := writeA 0 b (withJ 1 P)

def regF (r : RegNum) (s : State) : Reg Fe := s.fr.get r
def regS (r : RegNum) (s : State) : Reg Nat := ⟨(s.sr.get r).valid, (s.sr.get r).val.toNat⟩
def regA (r : RegNum) (s : State) : Reg Ge := s.ar.get r
def regJ (r : RegNum) (s : State) : Reg Gej := s.jr.get r

/-- The value, magnitude and normalized bit of a field register. -/
def fval (r : RegNum) (s : State) : Nat × Nat × Bool := ((s.fr.get r).val.val, (s.fr.get r).val.mag, (s.fr.get r).val.norm)

/-- The values of a Jacobian register and its inf bit. -/
def jval (r : RegNum) (s : State) : Nat × Nat × Nat × Bool :=
  ((s.jr.get r).val.x.val, (s.jr.get r).val.y.val, (s.jr.get r).val.z.val, (s.jr.get r).val.inf)

/-- The magnitudes of a Jacobian register. -/
def jtags (r : RegNum) (s : State) : Nat × Nat × Nat :=
  ((s.jr.get r).val.x.mag, (s.jr.get r).val.y.mag, (s.jr.get r).val.z.mag)

/-- The values of an affine register and its inf bit. -/
def aval (r : RegNum) (s : State) : Nat × Nat × Bool :=
  ((s.ar.get r).val.x.val, (s.ar.get r).val.y.val, (s.ar.get r).val.inf)

def G : Ge := Ge.generator
def jG : Gej := toJac G

/-- DBL(G) by its values (`spec/44_group.md` R196), with its tags. -/
def dblG : Gej :=
  ⟨tagged 0x7D152C041EA8E1DC2191843D1FA9DB55B68F88FEF695E2C791D40444B365AFC2 6,
    tagged 0x56915849F52CC8F76F5FD7E4BF60DB4A43BF633E1B1383F85FE89164BFADCBDB 4,
    tagged 0x9075B4EE4D4788CABB49F7F81C221151FA2F68914D0AA833388FA11FF621A970 2, false⟩

def p : Nat := 0xFFFFFFFFFFFFFFFFFFFFFFFFFFFFFFFFFFFFFFFFFFFFFFFFFFFFFFFEFFFFFC2F
def n : Nat := 0xFFFFFFFFFFFFFFFFFFFFFFFFFFFFFFFEBAAEDCE6AF48A03BBFD25E8CD0364141
def gx : Nat := 0x79BE667EF9DCBBAC55A06295CE870B07029BFCDB2DCE28D959F2815B16F81798
def gy : Nat := 0x483ADA7726A3C4655DA4FBFC0E1108A8FD17B448A68554199C47D08FFB10D4B8

/-! ## WellFormed: an ill-formed term for each check, refused (`spec/30_encoding.md` R83, R87) -/

theorem test_slot_range : (Instr.feSetb32 0 31).wf = true ∧ (Instr.feSetb32 0 32).check = some .immediateOutOfRange ∧
    (Instr.ctxBlind 32).wf = false ∧ (Instr.feGetb32 0 32).wf = false ∧ (Instr.scSetb32 0 32).wf = false ∧
    (Instr.scGetb32 0 32).wf = false := by decide
theorem test_slot2_range : (Instr.geTostor 0 30).wf = true ∧ (Instr.geTostor 0 31).check = some .immediateOutOfRange ∧
    (Instr.geFromstor 0 31).wf = false := by decide
theorem test_u12_range : (Instr.feSetint 0 4095).wf = true ∧ (Instr.scSetint 0 4095).wf = true := by decide
theorem test_m_range : (Instr.feNeg 0 0 31).wf = true ∧ (Instr.feNeg 0 0 32).check = some .immediateOutOfRange := by decide
theorem test_cond_range : (Instr.feCmov 0 0 2).wf = true ∧ (Instr.feCmov 0 0 3).check = some .immediateOutOfRange ∧
    (Instr.scCneg 0 0 3).wf = false ∧ (Instr.scCmov 0 0 3).wf = false := by decide
theorem test_sel_range : (Instr.gejGetc 0 0 2).wf = true ∧ (Instr.gejGetc 0 0 3).check = some .immediateOutOfRange := by decide
theorem test_shift_range : (Instr.scMulshift 0 0 0 255).check = some .immediateOutOfRange ∧
    (Instr.scMulshift 0 0 0 256).wf = true ∧ (Instr.scMulshift 0 0 0 512).wf = true ∧
    (Instr.scMulshift 0 0 0 513).wf = false := by decide
theorem test_ng_range : (Instr.ecmult 0 0 0 0).wf = true ∧ (Instr.ecmult 0 0 0 1).check = some .immediateOutOfRange ∧
    (Instr.ecmult 0 0 0 15).wf = false ∧ (Instr.ecmult 0 0 0 16).wf = true ∧ (Instr.ecmult 0 0 0 31).wf = true ∧
    (Instr.ecmult 0 0 0 32).wf = false := by decide
theorem test_same_destinations : (Instr.scSplitlambda 1 0 2).wf = true ∧
    (Instr.scSplitlambda 1 0 1).check = some .sameDestinations ∧ (Instr.scSplit128 0 1 0).wf = false := by decide

/-! ## Decoding: every command's word, written out from its row of R85 and the fields of R81 -/

theorem test_decode_system :
    decode 0x00000000 = .ok .nop ∧
    decode 0x01000000 = .ok .ctxBuild ∧
    decode 0x02000000 = .ok .ctxClear ∧
    decode 0x0300001F = .ok (.ctxBlind 31) := by decide +kernel

theorem test_decode_field :
    decode 0x10D0001F = .ok (.feSetb32 13 31) ∧
    decode 0x1106001F = .ok (.feGetb32 6 31) ∧
    decode 0x12D00FFF = .ok (.feSetint 13 4095) ∧
    decode 0x13D60000 = .ok (.feMov 13 6) ∧
    decode 0x14D60000 = .ok (.feNorm 13 6) ∧
    decode 0x15D69000 = .ok (.feAdd 13 6 9) ∧
    decode 0x16D69000 = .ok (.feMul 13 6 9) ∧
    decode 0x17D60000 = .ok (.feSqr 13 6) ∧
    decode 0x18D6001F = .ok (.feNeg 13 6 31) ∧
    decode 0x19D60002 = .ok (.feCmov 13 6 2) ∧
    decode 0x1A060000 = .ok (.feIszero 6) ∧
    decode 0x1B069000 = .ok (.feEq 6 9) ∧
    decode 0x1C060000 = .ok (.feIsodd 6) ∧
    decode 0x1D069000 = .ok (.feCmp 6 9) ∧
    decode 0x1ED60000 = .ok (.feInv 13 6) ∧
    decode 0x1FD60000 = .ok (.feInvvar 13 6) := by decide +kernel

theorem test_decode_scalar :
    decode 0x20D0001F = .ok (.scSetb32 13 31) ∧
    decode 0x2106001F = .ok (.scGetb32 6 31) ∧
    decode 0x22D00FFF = .ok (.scSetint 13 4095) ∧
    decode 0x23D60000 = .ok (.scMov 13 6) ∧
    decode 0x24D69000 = .ok (.scAdd 13 6 9) ∧
    decode 0x25D69000 = .ok (.scMul 13 6 9) ∧
    decode 0x26D60000 = .ok (.scSqr 13 6) ∧
    decode 0x27D60000 = .ok (.scNeg 13 6) ∧
    decode 0x28D60002 = .ok (.scCneg 13 6 2) ∧
    decode 0x29D60002 = .ok (.scCmov 13 6 2) ∧
    decode 0x2A060000 = .ok (.scIszero 6) ∧
    decode 0x2B069000 = .ok (.scEq 6 9) ∧
    decode 0x2C060000 = .ok (.scIshigh 6) ∧
    decode 0x2DD60000 = .ok (.scInv 13 6) ∧
    decode 0x2ED60000 = .ok (.scInvvar 13 6) ∧
    decode 0x2FD69200 = .ok (.scMulshift 13 6 9 512) ∧
    decode 0x30D69000 = .ok (.scSplitlambda 13 6 9) ∧
    decode 0x31D69000 = .ok (.scSplit128 13 6 9) := by decide +kernel

theorem test_decode_affine :
    decode 0x40D69000 = .ok (.geSetxy 13 6 9) ∧
    decode 0x41D60000 = .ok (.geGetx 13 6) ∧
    decode 0x42D60000 = .ok (.geGety 13 6) ∧
    decode 0x43D00000 = .ok (.geSetinf 13) ∧
    decode 0x44060000 = .ok (.geIsinf 6) ∧
    decode 0x45D60000 = .ok (.geMov 13 6) ∧
    decode 0x46D60000 = .ok (.geNeg 13 6) ∧
    decode 0x47069000 = .ok (.geEq 6 9) ∧
    decode 0x48D60000 = .ok (.geMullambda 13 6) ∧
    decode 0x4906001E = .ok (.geTostor 6 30) ∧
    decode 0x4AD0001E = .ok (.geFromstor 13 30) ∧
    decode 0x4BD60000 = .ok (.geSetgej 13 6) ∧
    decode 0x4CD60000 = .ok (.geSetgejvar 13 6) ∧
    decode 0x4DD00000 = .ok (.geSetg 13) := by decide +kernel

theorem test_decode_jacobian :
    decode 0x50D60000 = .ok (.gejSetge 13 6) ∧
    decode 0x51D00000 = .ok (.gejSetinf 13) ∧
    decode 0x52060000 = .ok (.gejIsinf 6) ∧
    decode 0x53D60000 = .ok (.gejMov 13 6) ∧
    decode 0x54D60000 = .ok (.gejNeg 13 6) ∧
    decode 0x55D60000 = .ok (.gejDbl 13 6) ∧
    decode 0x56D69000 = .ok (.gejAddge 13 6 9) ∧
    decode 0x57D69000 = .ok (.gejAddgevar 13 6 9) ∧
    decode 0x58D69000 = .ok (.gejAddvar 13 6 9) ∧
    decode 0x59069000 = .ok (.gejEq 6 9) ∧
    decode 0x5AD60002 = .ok (.gejGetc 13 6 2) := by decide +kernel

theorem test_decode_multiplier :
    decode 0x60D60000 = .ok (.ecmultGen 13 6) ∧
    decode 0x61D6901F = .ok (.ecmult 13 6 9 31) := by decide +kernel

/-- ENC-2 to ENC-49: the words that do not decode. -/
theorem test_decode_illegal : ([0x00000001, 0x00100000, 0x04000000, 0x0F000000, 0x32000000, 0x4E000000, 0x5B000000,
    0x62000000, 0xFFFFFFFF, 0x10000020, 0x10010000, 0x12F01FFF, 0x16201001, 0x18310020, 0x19120003, 0x1A100000,
    0x1B112000, 0x2F2010FF, 0x2F201201, 0x30101000, 0x31000000, 0x4900001F, 0x4A10001F, 0x4D010000, 0x5A010003,
    0x61102001, 0x6110200F, 0x61102020, 0x60000001].all fun w => decodeTableWord 32 w = none) = true := by decide +kernel

/-- ENC-14, ENC-22, ENC-34, ENC-46: the listing lines (R90). -/
theorem test_listing : (decodeTableWord 32 0x19120002).map Instr.listing = some "FE_CMOV f1, f2, T" ∧
    (decodeTableWord 32 0x30102000).map Instr.listing = some "SC_SPLITLAMBDA s1, s2, s0" ∧
    (decodeTableWord 32 0x4900001E).map Instr.listing = some "GE_TOSTOR b30, a0" ∧
    (decodeTableWord 32 0x61102010).map Instr.listing = some "ECMULT j1, j0, s2, s0" ∧
    (expandPseudo (.scCnegt 1 1)).listing = "SC_CNEG s1, s1, T" := by decide +kernel

/-! ## The constants the rules print -/

/-- R153, R241: the constants derived from n. -/
theorem test_constants : Const.nHalf = (n - 1) / 2 ∧ Const.half * 2 % n = 1 ∧
    Const.combDiff = (2 ^ 264 - 1) * Const.half % n ∧ Const.gy ^ 2 % p = (Const.gx ^ 3 + 7) % p ∧
    Const.beta ^ 3 % p = 1 ∧ Const.lambda ^ 3 % n = 1 ∧ Const.pl.ival = p ∧ 2 ^ 256 % p = Const.foldC := by decide +kernel

/-- R174: correction constants. -/
theorem test_kInv : kInv Const.n 1 = 0x2C37FD995622C4FBFFFFFFFFFFFFFFFFC7CEE745110CB45AB558ED7C90C15A2F ∧
    kInv Const.n 12 = 0x5F4E7C14BF5E47BF4D61A88E0BDD814BDE048126A653B1FED8E294A02EC696CD ∧
    kInv Const.p 1 = 0x60E024774894D4C3FFFFFFFFFFFFFFFFFFFFFFFFFFFFFFFFFFFFFFFF9F1FDA17 ∧
    kInv Const.p 2 = 0xCB223FEDC24A059D838091DD2253530FFFFFFFFFFFFFFFFFFFFFFFFF34DDBD0B := by decide +kernel

/-- R244: sample entries of the comb ROM. -/
theorem test_rom : romScalar 0 0 = 0x7FFFFFFFFFFFFFFFFFFFFFFFFFFFFFFF5D576E7357A4501DDFE92F4668229818 ∧
    romPoint 0 0 = (0x08502D0F3468450368784822F4510C5C562AD30FBE29A792F0667E83B6F95773,
      0x32F19AEE89C98B4AA805360E449D061DCE9C5F5B30F732AD592EFF9A274FD151) ∧
    romPoint 0 31 = (0x629BEE58A391595FEB20C5344933937ACDB2EBA186D49F8B845C1B5F4CA87182,
      0x7251BE9D8C393F97D1D5121B8910579489ED3F8108DF8F2F23BB790DB816ABAA) ∧
    romPoint 1 0 = (0x569384435E5090005CF3DD18EA629078E15097E9DA7BB5C5737CFA0AA40E8818,
      0x0795E7EAB0C86FABEEFE966B64D14594B883CD47497F6E5BB4EB66F4A1714C9D) := by decide +kernel

/-- T9: the ROM reads of COMBMUL. -/
theorem test_combReads : combReads.length = 1408 ∧ combReads.take 33 = ((List.range 32).map fun k => (0, k)) ++ [(1, 0)] ∧
    combReads.getLast? = some (10, 31) := by decide +kernel

/-! ## Helpers (`spec/95_test_vectors.md` 2.3 to 2.8) -/

/-- FEH-2: the three folds. -/
theorem test_fold : let t := 0x0FFFFFFFFFFFFFFFFFFFFFFFFFFFFFFFFFFFFFFFFFFFFFFFFFFFFFFFFFFFFFFFF0 ^ 2
    fold t = 0x1000003D0FFFFFFFFFFFFFFFFFFFFFFFFFFFFFFFFFFFFFFFFFFFFFFFFFFFFFFFDFFFFF85F00 ∧
    fold (fold t) = 0x100000000000000000000000000000000000000000000010000079FFF0E88FC2F ∧
    fold3 t = 0x0000000000000000000000000000000000000000000001000007A0000E890000 := by decide +kernel

/-- FEH-5, FEH-6: the limbs of p, multiplied by one and normalized. -/
theorem test_mul_not_reduced : feMul ⟨Const.pl, 1, false⟩ Fe.one = .ok ⟨Const.pl, 1, false⟩ ∧
    feNorm ⟨Const.pl, 1, false⟩ = ⟨canon 0, 1, true⟩ := by decide +kernel

/-- FEH-8: the largest negation bound. -/
theorem test_neg_largest : feNeg Fe.one 31 = .ok ⟨⟨0x3FFFFBFFFFF0BBF, 0x3FFFFFFFFFFFFC0, 0x3FFFFFFFFFFFFC0,
    0x3FFFFFFFFFFFFC0, 0x3FFFFFFFFFFFC0⟩, 32, false⟩ := by decide +kernel

/-- FEH-9: the largest content. -/
theorem test_norm_largest : feNorm ⟨⟨0x3FFFFFFFFFFFFC0, 0x3FFFFFFFFFFFFC0, 0x3FFFFFFFFFFFFC0, 0x3FFFFFFFFFFFFC0,
    0x3FFFFFFFFFFFC0⟩, 32, false⟩ = ⟨canon 0x400000F400, 1, true⟩ := by decide +kernel

/-- FEH-11: a small multiple. -/
theorem test_times : feTimes ⟨⟨1, 2, 3, 4, 5⟩, 2, false⟩ 3 = .ok ⟨⟨3, 6, 9, 12, 15⟩, 6, false⟩ := by decide +kernel

/-- INV-14: batch counts of the variable-time inverse. -/
theorem test_batches : [0, 1, 2, n - 1].map (fun x => (invVarRun x Const.n).2) = [1, 9, 9, 9] := by decide +kernel

/-- ECM-9: digit lists. -/
theorem test_wnaf : [1, 3, 15, 16, 17, 31, 0].map (fun k => wnaf k 5) =
    [[1], [3], [15], [0, 0, 0, 0, 1], [-15, 0, 0, 0, 0, 1], [-1, 0, 0, 0, 0, 1], []] := by decide +kernel

/-! ## The cycle, the faults and the host port (2.2) -/

/-- SYS-1, SYS-16: NOP. -/
theorem test_nop : csrs (after 0 State.reset) = [0, 0, 0, 0, 1] ∧
    csrs (after 0 { State.reset with cmdcnt := 0xFFFFFFFF }) = [0, 0, 0, 0, 0] := by decide +kernel

/-- SYS-3, SYS-6, SYS-7: a command that faults, and which cause wins. -/
theorem test_fault_priority : csrs (after 0x13100000 State.reset) = [2, 0, 2, 0x13100000, 0] ∧
    csrs (after 0x60000000 State.reset) = [2, 0, 5, 0x60000000, 0] ∧
    csrs (after 0x60000001 State.reset) = [2, 0, 1, 0x60000001, 0] := by decide +kernel

/-- SYS-13: in the fault state a command is ignored, a slot write is performed. -/
theorem test_fault_state : (let t := takeFault .feNotNormalized 0x1C010000 (withF 1 (tagged 14 2))
    after 0x14110000 t = t ∧
    (let u := afterOp (.wrSlot 9 (Vector.ofFn fun i => (be32 1).getD i.val 0)) t
    slot 9 u = some 1 ∧ csrs u = [2, 0, 4, 0x1C010000, 0])) := by decide +kernel

/-- SYS-14: H_RESET leaves the fault state. -/
theorem test_reset : afterOp .reset (takeFault .illegalCmd 7 (withSlot 0 7)) = State.reset := by decide +kernel

/-- R71: the 32 bytes of a valid slot. -/
theorem test_rdSlot : (match (afterOp (.rdSlot 0) (withSlot 0 0x0102)).reply with
    | .bytes b => b[31] == 2 && b[30] == 1 && b[29] == 0
    | _ => false) = true := by decide +kernel

/-- SYS-2, SYS-15: CSRs. -/
theorem test_csr : (List.range 256).all (fun i => csrWord i State.reset = 0) = true ∧
    csrWord 1 { State.reset with flags := ⟨true, true, true, true, false⟩ } = 0x0F := by decide +kernel

/-- The first step after reset runs the word placed, whatever the mnemonic: FE_SETINT f15, #4095 (ENC-15). -/
theorem test_first_step : regF 15 (after 0x12F00FFF State.reset) = ⟨true, ⟨⟨0xFFF, 0, 0, 0, 0⟩, 1, true⟩⟩ := by decide +kernel

/-! ## Context commands (2.7) -/

/-- GEN-1. -/
theorem test_ctxBuild : csrs (after 0x01000000 State.reset) = [4, 0, 0, 0, 1] ∧
    (after 0x01000000 State.reset).ctx =
      ⟨true, 0x800000000000000000000000000000A205E8FB1BB354323DF6B9E8DE4CFA801F, ⟨fe gx, fe gy, false⟩⟩ := by decide +kernel

/-- R248. -/
theorem test_ctxClear : csrs (after 0x02000000 (after 0x01000000 State.reset)) = [0, 0, 0, 0, 2] ∧
    (after 0x02000000 (after 0x01000000 State.reset)).ctx = Context.clear := by decide +kernel

/-- GEN-10: b = (n + 5) mod n = 5. -/
theorem test_ctxBlind : (after 0x03000001 { withSlot 1 (n + 5) with ctx := (after 0x01000000 State.reset).ctx }).ctx =
    ⟨true, 0x800000000000000000000000000000A205E8FB1BB354323DF6B9E8DE4CFA801B,
      ⟨fe 0x2F8BDE4D1A07209355B4A7250A5C5128E88B84BDDC619AB7CBA8D569B240EFE4,
        fe 0xD8AC222636E5E3D6D4DBA9DDA6C9C426F788271BAB0D6840DCA87D3AA6AC62D6, false⟩⟩ := by decide +kernel

/-- GEN-13, GEN-14. -/
theorem test_ctxBlind_faults : csrs (after 0x03000001 (withSlot 1 5)) = [2, 0, 5, 0x03000001, 0] ∧
    csrs (after 0x03000001 (after 0x01000000 State.reset)) = [6, 0, 2, 0x03000001, 1] := by decide +kernel

/-! ## Field commands (2.3) -/

/-- FE-1, FE-2, FE-3. -/
theorem test_feSetb32 : regF 0 (after 0x10000000 (withSlot 0 p)) = ⟨true, fe 0⟩ ∧
    csrs (after 0x10000000 (withSlot 0 p)) = [0, 2, 0, 0, 1] ∧
    regF 0 (after 0x10000000 (withSlot 0 (2 ^ 256 - 1))) = ⟨true, fe 0x1000003D0⟩ ∧
    regF 0 (after 0x10000000 (withSlot 0 (p - 1))) = ⟨true, ⟨⟨0xFFFFEFFFFFC2E, 0xFFFFFFFFFFFFF, 0xFFFFFFFFFFFFF,
      0xFFFFFFFFFFFFF, 0xFFFFFFFFFFFF⟩, 1, true⟩⟩ := by decide +kernel
theorem test_feSetb32_invalid : csrs (after 0x10000001 (withSlot 0 5)) = [2, 0, 2, 0x10000001, 0] := by decide +kernel

/-- T5; byte 0 is the most significant (R11). -/
theorem test_feGetb32 : slot 2 (after 0x11000002 (withF 0 (fe (p - 1)))) = some (p - 1) ∧
    Memory.read (after 0x11000002 (withF 0 (fe 1))).mem 95 = 1 := by decide +kernel
/-- FE-19. -/
theorem test_feGetb32_not_normalized : csrs (after 0x11010000 (withF 1 (tagged 9 1))) = [2, 0, 4, 0x11010000, 0] := by
  decide +kernel

/-- FE-6. -/
theorem test_feSetint : regF 0 (after 0x12000FFF State.reset) = ⟨true, ⟨⟨0xFFF, 0, 0, 0, 0⟩, 1, true⟩⟩ := by decide +kernel

/-- R120: limbs and tags are copied. -/
theorem test_feMov : regF 3 (after 0x13310000 (withF 1 (tagged p 5))) = ⟨true, tagged p 5⟩ := by decide +kernel

/-- FE-14. -/
theorem test_feNorm : regF 3 (after 0x14320000 (withF 2 ⟨⟨0xFFFFEFFFFFC38, 0xFFFFFFFFFFFFF, 0xFFFFFFFFFFFFF,
    0xFFFFFFFFFFFFF, 0xFFFFFFFFFFFF⟩, 2, false⟩)) = ⟨true, fe 9⟩ := by decide +kernel

/-- FE-14: p − 1 + 10. -/
theorem test_feAdd : regF 2 (after 0x15201000 (withF2 (fe (p - 1)) (fe 10))) = ⟨true, ⟨⟨0xFFFFEFFFFFC38, 0xFFFFFFFFFFFFF,
    0xFFFFFFFFFFFFF, 0xFFFFFFFFFFFFF, 0xFFFFFFFFFFFF⟩, 2, false⟩⟩ := by decide +kernel
/-- FE-8. -/
theorem test_feAdd_magnitude : csrs (after 0x15201000 (withF2 (tagged 32 32) (fe 1))) = [2, 0, 3, 0x15201000, 0] := by
  decide +kernel

/-- FEH-4. -/
theorem test_feMul : regF 2 (after 0x16201000 (withF2 (fe (2 ^ 255)) (fe 2))) = ⟨true, tagged 0x1000003D1 1⟩ := by
  decide +kernel
/-- SYS-5: an invalid operand wins over a magnitude. -/
theorem test_feMul_uninit : csrs (after 0x16201000 (withF 1 (tagged 16 16))) = [2, 0, 2, 0x16201000, 0] := by decide +kernel

/-- FEH-1. -/
theorem test_feSqr : regF 2 (after 0x17210000 (withF 1 ⟨⟨0xFFFFFFFFFFFFF0, 0xFFFFFFFFFFFFF0, 0xFFFFFFFFFFFFF0,
    0xFFFFFFFFFFFFF0, 0xFFFFFFFFFFFF0⟩, 8, false⟩)) = ⟨true, ⟨⟨0x7A0000E890000, 0x100000, 0, 0, 0⟩, 1, false⟩⟩ := by
  decide +kernel
/-- FE-10. -/
theorem test_feSqr_magnitude : csrs (after 0x17430000 (withF 3 (tagged 7 9))) = [2, 0, 3, 0x17430000, 0] := by
  decide +kernel

/-- FE-13: a bound larger than needed. -/
theorem test_feNeg : regF 1 (after 0x18100005 (withF 0 (fe 1))) = ⟨true, ⟨⟨0xBFFFF3FFFFD233, 0xBFFFFFFFFFFFF4,
    0xBFFFFFFFFFFFF4, 0xBFFFFFFFFFFFF4, 0xBFFFFFFFFFFF4⟩, 6, false⟩⟩ := by decide +kernel
/-- FE-12. -/
theorem test_feNeg_zero_bound : csrs (after 0x18100000 (withF 0 (fe 1))) = [2, 0, 3, 0x18100000, 0] := by decide +kernel

/-- FE-20: the tags change whether or not the move happens. -/
theorem test_feCmov : regF 0 (after 0x19010002 (withF2 (fe 7) (tagged 10 2))) = ⟨true, tagged 7 2⟩ ∧
    regF 0 (after 0x19010001 (withF2 (fe 7) (tagged 10 2))) = ⟨true, tagged 10 2⟩ := by decide +kernel
/-- SYS-10: rd is read. -/
theorem test_feCmov_uninit : csrs (after 0x19100001 (withF 0 (fe 1))) = [2, 0, 2, 0x19100001, 0] := by decide +kernel

/-- FE-5. -/
theorem test_feIszero : csrs (after 0x1A000000 (withF 0 (fe 0))) = [0, 1, 0, 0, 1] ∧
    csrs (after 0x1A000000 (withF 0 (fe (p - 1)))) = [0, 0, 0, 0, 1] := by decide +kernel

/-- FE-17, FE-18. -/
theorem test_feEq : csrs (after 0x1B001000 (withF2 (fe (p - 1)) (fe 1))) = [0, 0, 0, 0, 1] ∧
    csrs (after 0x1B011000 (withF2 (fe (p - 1)) (fe 1))) = [0, 1, 0, 0, 1] := by decide +kernel
theorem test_feEq_not_normalized : csrs (after 0x1B012000 (writeF 2 (fe 9) (withF 1 (tagged 9 1)))) =
    [2, 0, 4, 0x1B012000, 0] := by decide +kernel

/-- FE-16. -/
theorem test_feIsodd : csrs (after 0x1C000000 (withF 0 (fe (p - 1)))) = [0, 0, 0, 0, 1] ∧
    csrs (after 0x1C010000 (withF 1 (fe 1))) = [0, 1, 0, 0, 1] := by decide +kernel

/-- FE-17. -/
theorem test_feCmp : csrs (after 0x1D001000 (withF2 (fe (p - 1)) (fe 1))) = [0, 16, 0, 0, 1] ∧
    csrs (after 0x1D010000 (withF2 (fe (p - 1)) (fe 1))) = [0, 8, 0, 0, 1] ∧
    csrs (after 0x1D011000 (withF2 (fe (p - 1)) (fe 1))) = [0, 0, 0, 0, 1] := by decide +kernel

/-- INV-12: an unnormalized input. -/
theorem test_feInv : regF 2 (after 0x1E210000 (withF 1 (tagged (p - gx) 2))) =
    ⟨true, fe 0xDC85020E2D6C727978F5514752889D959847186B5404F89419E2FFC878355D39⟩ := by decide +kernel
/-- INV-13. -/
theorem test_feInv_magnitude : csrs (after 0x1E100000 (withF 0 (tagged 16 16))) = [2, 0, 3, 0x1E100000, 0] := by
  decide +kernel

/-- INV-11, INV-6. -/
theorem test_feInvvar : regF 1 (after 0x1F100000 (withF 0 (fe gx))) =
    ⟨true, fe 0x237AFDF1D2938D86870AAEB8AD77626A67B8E794ABFB076BE61D003687CA9EF6⟩ ∧
    regF 1 (after 0x1F100000 (withF 0 (fe 0))) = ⟨true, fe 0⟩ := by decide +kernel

/-! ## Scalar commands (2.4, 2.5) -/

/-- SC-1, SC-2. -/
theorem test_scSetb32 : regS 0 (after 0x20000000 (withSlot 0 n)) = ⟨true, 0⟩ ∧
    regS 0 (after 0x20000000 (withSlot 0 (2 ^ 256 - 1))) = ⟨true, 0x14551231950B75FC4402DA1732FC9BEBE⟩ ∧
    csrs (after 0x20000000 (withSlot 0 n)) = [0, 2, 0, 0, 1] := by decide +kernel

/-- T5. -/
theorem test_scGetb32 : slot 3 (after 0x21000003 (withS 0 (n - 1))) = some (n - 1) := by decide +kernel

/-- R143. -/
theorem test_scSetint : regS 15 (after 0x22F00FFF State.reset) = ⟨true, 4095⟩ := by decide +kernel

/-- R144. -/
theorem test_scMov : regS 3 (after 0x23300000 (withS 0 (n - 1))) = ⟨true, n - 1⟩ := by decide +kernel

/-- SC-5, SC-6. -/
theorem test_scAdd : regS 1 (after 0x24100000 (withS 0 (n - 1))) = ⟨true, n - 2⟩ ∧
    regS 3 (after 0x24301000 (withS2 (n - 1) 1)) = ⟨true, 0⟩ ∧
    csrs (after 0x24301000 (withS2 (n - 1) 1)) = [0, 2, 0, 0, 1] ∧
    csrs (after 0x24301000 (withS2 0 0)) = [0, 0, 0, 0, 1] := by decide +kernel

/-- SC-18, SC-19. -/
theorem test_scMul : regS 2 (after 0x25201000 (withS2 0x1234567890ABCDEF 0xFEDCBA0987654321)) =
      ⟨true, 0x121FA000A3723A57C24A442FE55618CF⟩ ∧
    regS 1 (after 0x25100000 (withS 0 (2 ^ 255))) =
      ⟨true, 0x2759C7356071A6F179A5FD7916F341F19D0525B0839F3E1E225B3C8519F5F450⟩ := by decide +kernel

/-- SC-8. -/
theorem test_scSqr : regS 7 (after 0x26700000 (withS 0 (n - 1))) = ⟨true, 1⟩ := by decide +kernel

/-- SC-8. -/
theorem test_scNeg : regS 8 (after 0x27800000 (withS 0 (n - 1))) = ⟨true, 1⟩ ∧
    regS 9 (after 0x27900000 (withS 0 0)) = ⟨true, 0⟩ := by decide +kernel

/-- SC-9. -/
theorem test_scCneg : regS 1 (after 0x28100000 (withS 0 5)) = ⟨true, 5⟩ ∧
    regS 1 (after 0x28100001 (withS 0 5)) = ⟨true, n - 5⟩ := by decide +kernel
/-- SC-10: the zero scalar reports the sign too. -/
theorem test_scCneg_zero : (let t := after 0x28100002 (setT true (withS 0 0))
    regS 1 t = ⟨true, 0⟩ ∧ csrs t = [0, 5, 0, 0, 1]) := by decide +kernel

/-- SC-11. -/
theorem test_scCmov : regS 1 (after 0x29100000 (withS2 5 9)) = ⟨true, 9⟩ ∧
    regS 1 (after 0x29100001 (withS2 5 9)) = ⟨true, 5⟩ := by decide +kernel

/-- SC-10. -/
theorem test_scIszero : csrs (after 0x2A000000 (withS 0 0)) = [0, 1, 0, 0, 1] ∧
    csrs (after 0x2A000000 (withS 0 1)) = [0, 0, 0, 0, 1] := by decide +kernel

/-- R152. -/
theorem test_scEq : csrs (after 0x2B001000 (withS2 5 5)) = [0, 1, 0, 0, 1] ∧
    csrs (after 0x2B001000 (withS2 5 6)) = [0, 0, 0, 0, 1] := by decide +kernel

/-- SC-12: the boundary. -/
theorem test_scIshigh : csrs (after 0x2C000000 (withS 0 ((n - 1) / 2))) = [0, 0, 0, 0, 1] ∧
    csrs (after 0x2C000000 (withS 0 ((n + 1) / 2))) = [0, 1, 0, 0, 1] := by decide +kernel

/-- T1, INV-1. -/
theorem test_scInv : regS 1 (after 0x2D100000 (withS 0 0x1234567890ABCDEF1234567890ABCDEF1234567890ABCDEF1234567890ABCDEF)) =
      ⟨true, 0x8BC71A55B6BA006289CBAA8262D406D53E23D28D8EDAB4D9867051BE40D3C19D⟩ ∧
    regS 1 (after 0x2D100000 (withS 0 0)) = ⟨true, 0⟩ := by decide +kernel

/-- T3, INV-5. -/
theorem test_scInvvar : regS 1 (after 0x2E100000 (withS 0 0xDEADBEEF00000000000000000000000000000000000000000000000000003039)) =
      ⟨true, 0x44EB0515EF10D076E86065958AC56560F6C766D6816908A0BD7BEF9AC42FE89B⟩ ∧
    regS 1 (after 0x2E100000 (withS 0 (n - 1))) = ⟨true, n - 1⟩ := by decide +kernel

/-- SC-13. -/
theorem test_scMulshift : regS 1 (after 0x2F100100 (withS 0 (n - 1))) =
      ⟨true, 0xFFFFFFFFFFFFFFFFFFFFFFFFFFFFFFFD755DB9CD5E9140777FA4BD19A06C8281⟩ ∧
    regS 3 (after 0x2F3001FF (withS 0 (n - 1))) = ⟨true, 1⟩ ∧
    regS 4 (after 0x2F400200 (withS 0 (n - 1))) = ⟨true, 0⟩ := by decide +kernel

/-- SC-14. -/
theorem test_scSplitlambda : (let t := after 0x30102000 (withS 0 0xC0FFEE0000000000000000000000000000000000000000000000000000000007)
    regS 1 t = ⟨true, 0x87C58CB0486BAD42CC5DD2C26FAF1006⟩ ∧
    regS 2 t = ⟨true, 0xFFFFFFFFFFFFFFFFFFFFFFFFFFFFFFFE345DCFD2FC475160F0777911F8C966DA⟩) := by decide +kernel
/-- SC-16: a destination is the source. -/
theorem test_scSplitlambda_in_place : (let t := after 0x30001000 (withS 0 0xC0FFEE0000000000000000000000000000000000000000000000000000000007)
    regS 0 t = ⟨true, 0x87C58CB0486BAD42CC5DD2C26FAF1006⟩ ∧
    regS 1 t = ⟨true, 0xFFFFFFFFFFFFFFFFFFFFFFFFFFFFFFFE345DCFD2FC475160F0777911F8C966DA⟩) := by decide +kernel

/-- SC-17. -/
theorem test_scSplit128 : (let t := after 0x31102000 (withS 0 0xC0FFEE0000000000000000000000000000000000000000000000000000000007)
    regS 1 t = ⟨true, 7⟩ ∧ regS 2 t = ⟨true, 0xC0FFEE00000000000000000000000000⟩) := by decide +kernel

/-! ## Affine point commands (2.6) -/

/-- GRP-15: no check on the coordinates. -/
theorem test_geSetxy : regA 0 (after 0x40001000 (withF2 (fe 1) (tagged 32 32))) = ⟨true, ⟨fe 1, tagged 32 32, false⟩⟩ := by
  decide +kernel

/-- R204. -/
theorem test_geGetx : regF 2 (after 0x41200000 (withA 0 G)) = ⟨true, fe gx⟩ := by decide +kernel

/-- R205. -/
theorem test_geGety : regF 3 (after 0x42300000 (withA 0 G)) = ⟨true, fe gy⟩ := by decide +kernel

/-- R206. -/
theorem test_geSetinf : regA 1 (after 0x43100000 State.reset) = ⟨true, ⟨fe 0, fe 0, true⟩⟩ := by decide +kernel

/-- R207. -/
theorem test_geIsinf : csrs (after 0x44010000 (withA 1 Ge.infinity)) = [0, 1, 0, 0, 1] ∧
    csrs (after 0x44000000 (withA 0 G)) = [0, 0, 0, 0, 1] := by decide +kernel

/-- R208. -/
theorem test_geMov : regA 2 (after 0x45200000 (withA 0 G)) = ⟨true, G⟩ := by decide +kernel

/-- R209: −G, limb by limb. -/
theorem test_geNeg : regA 1 (after 0x46100000 (withA 0 G)) = ⟨true, ⟨fe gx, ⟨⟨0x382F6C04EF1C04, 0x3B7597AABE6638,
    0x31EEF75702E848, 0x33B9AA25B0403C, 0x3B7C52588D959⟩, 2, false⟩, false⟩⟩ := by decide +kernel
/-- GRP-15. -/
theorem test_geNeg_magnitude : csrs (after 0x46100000 (withA 0 ⟨fe 1, tagged 32 32, false⟩)) =
    [2, 0, 3, 0x46100000, 0] := by decide +kernel

/-- GRP-16: by value, and infinity only with infinity. -/
theorem test_geEq : csrs (after 0x47001000 (writeA 1 ⟨fe gx, ⟨⟨(canon gy).n0 + Const.pl.n0, (canon gy).n1 + Const.pl.n1,
      (canon gy).n2 + Const.pl.n2, (canon gy).n3 + Const.pl.n3, (canon gy).n4 + Const.pl.n4⟩, 2, false⟩, false⟩
      (withA 0 G))) = [0, 1, 0, 0, 1] ∧
    csrs (after 0x47001000 (writeA 1 Ge.infinity (withA 0 G))) = [0, 0, 0, 0, 1] := by decide +kernel

/-- GRP-17. -/
theorem test_geMullambda : aval 1 (after 0x48100000 (withA 0 G)) =
    (0xBCACE2E99DA01887AB0102B696902325872844067F15E98DA7BBA04400B88FCB, gy, false) := by decide +kernel

/-- GRP-18. -/
theorem test_geTostor : (let t := after 0x49000006 (withA 0 ⟨fe 2, tagged (p + 7) 3, false⟩)
    slot 6 t = some 2 ∧ slot 7 t = some 7) := by decide +kernel
/-- SYS-8. -/
theorem test_geTostor_infinity : (let t := after 0x49000000 (withA 0 Ge.infinity)
    csrs t = [2, 0, 6, 0x49000000, 0] ∧ slot 0 t = none ∧ slot 1 t = none) := by decide +kernel

/-- GRP-18: off the curve, above p, accepted. -/
theorem test_geFromstor : (let t := after 0x4A000004 (memWrite (slotAddr 5) 32 (be32 7) (withSlot 4 (p + 2)))
    regA 0 t = ⟨true, ⟨fe 2, fe 7, false⟩⟩ ∧ csrs t = [0, 2, 0, 0, 1]) := by decide +kernel
/-- GRP-19: the second slot was never written. -/
theorem test_geFromstor_uninit : csrs (after 0x4A000004 (withSlot 4 gx)) = [2, 0, 2, 0x4A000004, 0] := by decide +kernel

/-- GRP-20. -/
theorem test_geSetgej : aval 1 (after 0x4B110000 (withJ 1 dblG)) =
    (0xC6047F9441ED7D6D3045406E95C07CD85C778E4B8CEF3CA7ABAC09B95C709EE5,
      0x1AE168FEA63DC339A3C58419466CEAEEF7F632653266D0E1236431A950CFE52A, false) := by decide +kernel
/-- GRP-21. -/
theorem test_geSetgej_infinity : regA 0 (after 0x4B000000 (withJ 0 Gej.infinity)) = ⟨true, ⟨tagged 0 1, tagged 0 1, true⟩⟩ := by
  decide +kernel

/-- GRP-20. -/
theorem test_geSetgejvar : aval 2 (after 0x4C210000 (withJ 1 dblG)) =
    (0xC6047F9441ED7D6D3045406E95C07CD85C778E4B8CEF3CA7ABAC09B95C709EE5,
      0x1AE168FEA63DC339A3C58419466CEAEEF7F632653266D0E1236431A950CFE52A, false) := by decide +kernel

/-- R216. -/
theorem test_geSetg : regA 0 (after 0x4D000000 State.reset) = ⟨true, ⟨fe gx, fe gy, false⟩⟩ := by decide +kernel

/-! ## Jacobian point commands (2.6) -/

/-- R217. -/
theorem test_gejSetge : regJ 0 (after 0x50000000 (withA 0 G)) = ⟨true, ⟨fe gx, fe gy, fe 1, false⟩⟩ ∧
    regJ 0 (after 0x50000000 (withA 0 Ge.infinity)) = ⟨true, ⟨fe 0, fe 0, fe 0, true⟩⟩ := by decide +kernel

/-- R218. -/
theorem test_gejSetinf : regJ 1 (after 0x51100000 State.reset) = ⟨true, ⟨fe 0, fe 0, fe 0, true⟩⟩ := by decide +kernel

/-- R219. -/
theorem test_gejIsinf : csrs (after 0x52010000 (withJ 1 Gej.infinity)) = [0, 1, 0, 0, 1] ∧
    csrs (after 0x52010000 (withJ 1 jG)) = [0, 0, 0, 0, 1] := by decide +kernel

/-- R220. -/
theorem test_gejMov : regJ 2 (after 0x53210000 (withJ 1 dblG)) = ⟨true, dblG⟩ := by decide +kernel

/-- GRP-10: the tags of the negation. -/
theorem test_gejNeg : (let t := after 0x54710000 (withJ 1 dblG)
    jtags 7 t = (6, 5, 2) ∧ (regJ 7 t).val.x = dblG.x ∧ ((regJ 7 t).val.y.val + dblG.y.val) % p = 0) := by decide +kernel

/-- R196, R222: DBL(G), X and Y limb by limb. -/
theorem test_gejDbl : (let t := after 0x55100000 (withJ 0 jG)
    (regJ 1 t).val.x = ⟨⟨0x94043EB36598DC, 0x6FEF695E2C7914, 0x8FA9DB55B68F82, 0x9E1DC2191843C9, 0x67D152C041E9F⟩, 6, false⟩ ∧
    jval 1 t = (0x7D152C041EA8E1DC2191843D1FA9DB55B68F88FEF695E2C791D40444B365AFC2,
      0x56915849F52CC8F76F5FD7E4BF60DB4A43BF633E1B1383F85FE89164BFADCBDB,
      0x9075B4EE4D4788CABB49F7F81C221151FA2F68914D0AA833388FA11FF621A970, false) ∧
    jtags 1 t = (6, 4, 2)) := by decide +kernel
/-- GRP-13. -/
theorem test_gejDbl_magnitude : csrs (after 0x55210000 (withJ 1 ⟨tagged 1 6, tagged 1 9, tagged 1 2, false⟩)) =
    [2, 0, 3, 0x55210000, 0] := by decide +kernel

/-- GRP-1. -/
theorem test_gejAddge : (let t := after 0x56210000 (withJA dblG G)
    jval 2 t = (0x0CA90EF9B06D7EB51D650E9145E3083CBD8DF8759168862036F97A358F089848,
      0xBCA50189FE8472AA2FB007567229F4D458149078094D7E7D35BB6C27E9A22B08,
      0x6DBD0563F460DC5C401595F1492430343B7AC0165DA116B7EFA23994D564A085, false) ∧
    jtags 2 t = (6, 4, 2)) := by decide +kernel
/-- GRP-3, GRP-4: opposite points; the first operand infinite. -/
theorem test_gejAddge_cases : (let t := after 0x56410000 (withJA jG ⟨fe gx, fe (p - gy), false⟩)
    regJ 4 t = ⟨true, ⟨tagged 0 6, tagged 0 4, tagged 0 2, true⟩⟩) ∧
    (let t := after 0x56610000 (withJA Gej.infinity G)
    regJ 6 t = ⟨true, ⟨tagged gx 6, tagged gy 4, tagged 1 2, false⟩⟩) := by decide +kernel

/-- GRP-8. -/
theorem test_gejAddgevar : (let t := after 0x57210000 (withJA dblG G)
    jval 2 t = (0x0CA90EF9B06D7EB51D650E9145E3083CBD8DF8759168862036F97A358F089848,
      0xBCA50189FE8472AA2FB007567229F4D458149078094D7E7D35BB6C27E9A22B08,
      0x6DBD0563F460DC5C401595F1492430343B7AC0165DA116B7EFA23994D564A085, false) ∧
    jtags 2 t = (5, 3, 1)) := by decide +kernel

/-- GRP-8, GRP-14: the sum; an infinite operand returns the other, unchecked. -/
theorem test_gejAddvar : (let t := after 0x58210000 (writeJ 0 jG (withJ 1 dblG))
    jval 2 t = (0x0CA90EF9B06D7EB51D650E9145E3083CBD8DF8759168862036F97A358F089848,
      0xBCA50189FE8472AA2FB007567229F4D458149078094D7E7D35BB6C27E9A22B08,
      0x6DBD0563F460DC5C401595F1492430343B7AC0165DA116B7EFA23994D564A085, false) ∧
    jtags 2 t = (5, 3, 1)) ∧
    (let P : Gej := ⟨tagged 1 6, tagged 1 9, tagged 1 2, false⟩
    regJ 4 (after 0x58431000 (writeJ 3 Gej.infinity (withJ 1 P))) = ⟨true, P⟩) := by decide +kernel
/-- GRP-10: opposite points. -/
theorem test_gejAddvar_opposite : regJ 8 (after 0x58817000 (writeJ 7 ⟨fe gx, fe (p - gy), fe 1, false⟩ (withJ 1 jG))) =
    ⟨true, ⟨fe 0, fe 0, fe 0, true⟩⟩ := by decide +kernel

/-- GRP-24, and by cross-multiplication: (4x, 8y, 2) is the point (x, y, 1). -/
theorem test_gejEq : csrs (after 0x59012000 (writeJ 2 ⟨fe (4 * gx % p), fe (8 * gy % p), fe 2, false⟩ (withJ 1 jG))) =
      [0, 1, 0, 0, 1] ∧
    csrs (after 0x59012000 (writeJ 2 Gej.infinity (withJ 1 jG))) = [0, 0, 0, 0, 1] := by decide +kernel

/-- GRP-22. -/
theorem test_gejGetc : (let t := withJ 0 ⟨fe 5, fe 6, fe 1, false⟩
    regF 2 (after 0x5A200002 t) = ⟨true, fe 1⟩ ∧ regF 3 (after 0x5A300000 t) = ⟨true, fe 5⟩ ∧
    regF 4 (after 0x5A400001 t) = ⟨true, fe 6⟩) := by decide +kernel

/-! ## Multiplications (2.7, 2.8) -/

/-- GEN-4: 2·G under the default blinding. -/
theorem test_ecmultGen : (let t := after 0x60000000 { withS 0 2 with ctx := (after 0x01000000 State.reset).ctx }
    jval 0 t = (0x25C23694E031E9F5F0024B2FB7A6C77C8546ABEC30344FC87160D10F80BD6E62,
      0xE775D04D897D13727A7777AE9BA1232CFFC941FFF4EFBEC832D9BA5E3F4AD8E6,
      0xDDCD6EE383B7766603B2FD751B25D947D2C70A0FCABC8C2623CD2DB79010CA30, false) ∧
    jtags 0 t = (6, 4, 2)) := by decide +kernel

/-- ECM-1. -/
theorem test_ecmult : (let t := after 0x61100000 (writeS 0 7 (withJ 0 jG))
    jval 1 t = (0x75F04B0B855452EE0A7805F300008E68BE74FE29D5DCA0E66DD2C2C342249E8F,
      0x637DB2A6604DF9DD39B08388EFB9D86E9B24B52B9B33EFB06EDE43C77C517076,
      0x7B86A683EBFDFF065F343F2B61729B10D096339F5B6A5F6D3A84A64DE3F9A9C5, false) ∧
    jtags 1 t = (5, 3, 1)) := by decide +kernel
/-- ECM-2, ECM-7: without a term INFJ; the magnitude check only when the point has a term. -/
theorem test_ecmult_no_term : (let P : Gej := ⟨tagged 1 6, tagged 1 9, tagged 1 2, false⟩
    regJ 1 (after 0x61100000 (writeS 0 0 (withJ 0 P))) = ⟨true, Gej.infinity⟩ ∧
    csrs (after 0x61100000 (writeS 0 1 (withJ 0 P))) = [2, 0, 3, 0x61100000, 0]) := by decide +kernel

/-- R229: five negations of a DBL result take the Y magnitude from 4 to 9, over the bound of CHK8. -/
theorem test_negations : (do
      let D ← gejDbl jG
      let N ← [0, 1, 2, 3, 4].foldlM (fun P _ => negJ P) D
      return (D.y.mag, N.y.mag)) = (.ok (4, 9) : Chk (Nat × Nat)) := by decide +kernel

/-! ## What happens inside (R330, R331) -/

/-- R113, R114, R123: one operation each, none once it faults; R330: both passes of FE_NORM; R179: 12 batches of 62; INV-14: the batches of INV_VAR. -/
theorem test_opsOf : opsOf (.feMul 2 0 1) (withF2 (fe 2) (fe 3)) = [.mul] ∧
    opsOf (.feMul 2 0 1) (withF2 (tagged 2 9) (fe 3)) = [] ∧
    opsOf (.feNorm 1 0) (withF 0 (fe 3)) = [.norm, .passes .normPass 2] ∧
    opsOf (.feNorm 1 0) (withF 0 (tagged (2 ^ 256 - 1) 32)) = [.norm, .passes .normPass 2] ∧
    (let es := opsOf (.scInv 1 0) (withS 0 2)
    passCount .batch es = 12 ∧ passCount .divstep es = 744) ∧
    ([0, 1, 2, n - 1].map fun v => passCount .batch (opsOf (.scInvvar 1 0) (withS 0 v))) = [1, 9, 9, 9] := by decide +kernel

/-- R198, R226: opposite points compute no chord; GEJ_EQ tests H before it computes I. -/
theorem test_opsOf_listing :
    (let minus : Gej := ⟨fe gx, fe (p - gy), fe 1, false⟩
    let cross : List Event := [.sqr, .sqr, .mul, .mul, .mul, .mul, .mul, .mul]
    opsOf (.gejAddvar 8 7 1) (writeJ 7 minus (withJ 1 jG)) = cross ++ [.neg 1, .add, .neg 1, .add, .ntz, .ntz] ∧
    opsOf (.gejEq 7 1) (writeJ 7 minus (withJ 1 jG)) = cross ++ [.neg 1, .add, .ntz, .neg 1, .add, .ntz]) := by decide +kernel

/-- R252, R330: 4 rounds of 11 blocks of 32 reads. -/
theorem test_opsOf_ecmultGen : (let es := opsOf (.ecmultGen 1 0) { withS 0 2 with ctx := (after 0x01000000 State.reset).ctx }
    passCount .combOffset es = 4 ∧ passCount .combBlock es = 44 ∧ es.filterMap Event.combRead = combReads) := by decide +kernel


/-! ## Witnesses: a state, or contents, that meet the hypotheses of each statement -/

/-- Registers of every kind of content the statements name, the rest invalid: magnitudes 1, 8, 9, 24, 31, 32, zero, finite
and infinite points; four slots; a built context. -/
def demoF : State :=
  writeF 0 (fe 3) (writeF 1 (fe (p - 1)) (writeF 2 (tagged 3 8) (writeF 3 (tagged 3 9) (writeF 4 (tagged 3 24)
    (writeF 5 (tagged 3 31) (writeF 6 (tagged 3 32) (writeF 7 (fe 0) (after 0x01000000 State.reset))))))))

def demoS : State := writeS 0 5 (writeS 1 (n - 1) (writeS 2 0 (writeS 3 1 demoF)))

def ge8 : Ge := ⟨tagged gx 8, tagged gy 8, false⟩
def ge9 : Ge := ⟨tagged gx 9, tagged gy 31, false⟩
def ge32 : Ge := ⟨tagged gx 1, tagged gy 32, false⟩
def gej8 : Gej := ⟨tagged gx 8, tagged gy 8, tagged 1 8, false⟩
def gej9 : Gej := ⟨tagged gx 9, tagged gy 31, tagged 1 1, false⟩
def gej32 : Gej := ⟨tagged gx 1, tagged gy 32, tagged 1 1, false⟩

def demoP : State :=
  writeA 0 G (writeA 1 Ge.infinity (writeA 2 ge8 (writeA 3 ge9 (writeA 4 ge32 (writeJ 0 jG (writeJ 1 Gej.infinity
    (writeJ 2 gej8 (writeJ 3 gej9 (writeJ 4 gej32 demoS)))))))))

/-- The state of the witnesses. Slot 0 holds 5, slot 1 p, slot 30 and 31 the coordinates of G. -/
def demo : State :=
  memWrite (32 * 30) 64 (be32 gx ++ be32 gy) (memWrite 32 32 (be32 p) (memWrite 0 32 (be32 5) demoP))

/-- `demo` with one more host operation to come. -/
def demoOp (op : HostOp) : State := { demo with inbox := [op] }

/-- `demo` in the fault state. -/
def demoFault : State := takeFault .feMagnitude 0x15201000 demo

theorem wf_tagged {v m : Nat} (h : v < 2 ^ 256) (h1 : 1 ≤ m) (h2 : m ≤ 32) : (tagged v m).Wf := by
  obtain ⟨-, -, a0, a1, a2, a3, a4, -⟩ := wf_canon (b := false) h (fun e => nomatch e)
  have k : ∀ x : Nat, 2 * 1 * x ≤ 2 * m * x := fun x => Nat.mul_le_mul_right _ (by omega)
  exact ⟨h1, h2, a0.trans (k _), a1.trans (k _), a2.trans (k _), a3.trans (k _), a4.trans (k _), fun e => nomatch e⟩

theorem wf_fe {v : Nat} (h : v < p) : (fe v).Wf := wf_feConst h

theorem wf_gej8 : gej8.Wf :=
  ⟨wf_tagged (by decide) (by decide) (by decide), wf_tagged (by decide) (by decide) (by decide),
    wf_tagged (by decide) (by decide) (by decide), fun e => nomatch e⟩

theorem wf_ge8 : ge8.Wf :=
  ⟨wf_tagged (by decide) (by decide) (by decide), wf_tagged (by decide) (by decide) (by decide), fun e => nomatch e⟩

theorem within_gej8 : gej8.Within8 := ⟨by decide, by decide, by decide⟩
theorem within_ge8 : ge8.Within8 := ⟨by decide, by decide⟩
theorem within_jG : jG.Within8 := ⟨by decide, by decide, by decide⟩
theorem wf_jG : jG.Wf := wf_toJac wf_generator

/-- The context of `demo`. -/
theorem demo_ctx : demo.ctx = ⟨true, BitVec.ofNat 256 (scSub Const.combDiff 1), Ge.generator⟩ := by decide +kernel

theorem within_demo : demo.ctx.geOffset.Within8 := by rw [demo_ctx]; exact ⟨by decide, by decide⟩

/-- The state after reset with a built context meets the invariant. -/
theorem inv_built : (after 0x01000000 State.reset).Inv := by
  have e : after 0x01000000 State.reset =
      { State.reset with cmdcnt := 1, ctx := ⟨true, BitVec.ofNat 256 (scSub Const.combDiff 1), Ge.generator⟩ } := by
    decide +kernel
  rw [e]
  have hv : ∀ r, (State.reset.fr.get r).valid = false ∧ (State.reset.sr.get r).valid = false ∧
    (State.reset.ar.get r).valid = false ∧ (State.reset.jr.get r).valid = false := by decide
  refine ⟨fun r h => ?_, fun r h => ?_, fun r h => ?_, fun r h => ?_, wf_contextBuilt, wf_reset_mem, rfl,
    fun _ => ⟨rfl, rfl⟩, fun h => nomatch h⟩
  · rw [(hv r).1] at h; nomatch h
  · rw [(hv r).2.1] at h; nomatch h
  · rw [(hv r).2.2.1] at h; nomatch h
  · rw [(hv r).2.2.2] at h; nomatch h

theorem inv_demo : demo.Inv := by
  refine inv_memWrite (inv_memWrite (inv_memWrite ?_ (by decide)) (by decide)) (by decide)
  have t : ∀ {v m : Nat}, v < 2 ^ 256 → 1 ≤ m → m ≤ 32 → (tagged v m).Wf := wf_tagged
  refine inv_writeA (inv_writeA (inv_writeA (inv_writeA (inv_writeA (inv_writeJ (inv_writeJ (inv_writeJ (inv_writeJ
    (inv_writeJ ?_ 4 ?_) 3 ?_) 2 wf_gej8) 1 wf_gejInfinity) 0 wf_jG) 4 ?_) 3 ?_) 2 wf_ge8) 1 wf_geInfinity) 0 wf_generator
  · refine inv_writeS (inv_writeS (inv_writeS (inv_writeS ?_ 3 (by decide)) 2 (by decide)) 1 (by decide)) 0 (by decide)
    refine inv_writeF (inv_writeF (inv_writeF (inv_writeF (inv_writeF (inv_writeF (inv_writeF (inv_writeF inv_built
      7 (wf_fe (by decide))) 6 ?_) 5 ?_) 4 ?_) 3 ?_) 2 ?_) 1 (wf_fe (by decide))) 0 (wf_fe (by decide))
    all_goals exact t (by decide) (by decide) (by decide)
  · exact ⟨t (by decide) (by decide) (by decide), t (by decide) (by decide) (by decide),
      t (by decide) (by decide) (by decide), fun e => nomatch e⟩
  · exact ⟨t (by decide) (by decide) (by decide), t (by decide) (by decide) (by decide),
      t (by decide) (by decide) (by decide), fun e => nomatch e⟩
  · exact ⟨t (by decide) (by decide) (by decide), t (by decide) (by decide) (by decide), fun e => nomatch e⟩
  · exact ⟨t (by decide) (by decide) (by decide), t (by decide) (by decide) (by decide), fun e => nomatch e⟩

/-- Every command of these states gives some next state. -/
theorem runs (i : Instr) (s : State) : ∃ t, exec i s = .next t := by
  obtain ⟨body, e⟩ := exec_is_command i s
  rw [e]
  exact runWord_always_next _ _ _

/-! ### Host port and faults -/

theorem witness_HostResetEntersResetState : (demoOp .reset).inbox = .reset :: [] := rfl

theorem witness_StepRunsTheDecodedCommand : (demoOp (.cmd 0x16801000)).inbox = .cmd 0x16801000 :: [] ∧
    (demoOp (.cmd 0x16801000)).busy = false ∧ decode 0x16801000 = .ok (.feMul 8 0 1) := by decide +kernel

theorem witness_IllegalWordsFault : (∃ row, rowOf (opcOf 0x30101000) = some row ∧ row.fmt = .dda) ∧
    (demoOp (.cmd 0x30101000)).inbox = .cmd 0x30101000 :: [] ∧ (demoOp (.cmd 0x30101000)).busy = false ∧
    (demoOp (.cmd 0x30101000)).Ready ∧ decode 0x30101000 = .error (.malformed .sameDestinations) ∧
    decode 0x04000000 = .error .reservedOpcode ∧ decode 0x62000000 = .error .reservedOpcode ∧
    decode 0x61102020 = .error (.malformed .immediateOutOfRange) ∧ decode 0x00000001 = .error .unusedFieldNonzero :=
  ⟨⟨_, rfl, rfl⟩, by decide +kernel⟩

theorem witness_FaultStateIgnoresCommands : demoFault.fault = true ∧ demoFault.busy = false ∧
    slotValid 31 demoFault = true ∧ slotValid 2 demoFault = false ∧ { demoFault with inbox := [.cmd 0] }.inbox = .cmd 0 :: [] := by decide +kernel

theorem witness_HostSlotOperations : demo.busy = false ∧ Memory.wf demo.mem ∧ slotValid 31 demo = true ∧
    slotValid 2 demo = false ∧ (demoOp (.rdSlot 31)).inbox = .rdSlot 31 :: [] ∧
    (demoOp (.rdSlot 32)).inbox = .rdSlot 32 :: [] := by
  refine ⟨by decide +kernel, inv_demo.memory, by decide +kernel, by decide +kernel, rfl, rfl⟩

theorem witness_HostReadsCsr : (demoOp (.rdCsr 4)).inbox = .rdCsr 4 :: [] ∧ (demoOp (.rdCsr 5)).inbox = .rdCsr 5 :: [] :=
  ⟨rfl, rfl⟩

theorem witness_MemoryPrimitives : Memory.wf demo.mem ∧ 32 * 31 + 32 ≤ 1024 ∧ 32 * 30 + 64 ≤ 1024 ∧ (be32 7).length = 32 ∧
    (be32 7 ++ be32 8).length = 64 ∧ slotValid 30 demo = true ∧ slotValid 31 demo = true := by
  refine ⟨inv_demo.memory, by decide, by decide, by decide, by decide, by decide +kernel, by decide +kernel⟩

theorem witness_CommandOutcomes : demo.fault = false ∧ demoFault.fault = true := by decide +kernel

/-- Each cause, and none. -/
theorem witness_FaultTable : demo.Ready ∧ demo.ctx.geOffset.Within8 ∧
    faultOf (.feNeg 8 0 32) demo = some .illegalCmd ∧
    faultOf (.ecmultGen 8 0) { demo with ctx := Context.clear } = some .ctxNotBuilt ∧
    faultOf (.feMul 8 6 15) demo = some .uninitOperand ∧ faultOf (.feGetb32 2 0) demo = some .feNotNormalized ∧
    faultOf (.gejAddge 8 3 1) demo = some .feMagnitude ∧ faultOf (.geTostor 1 30) demo = some .pointAtInfinity ∧
    faultOf (.gejAddgevar 8 3 1) demo = none := by
  refine ⟨by decide +kernel, within_demo, ?_⟩
  decide +kernel

/-! ### Frames, encoding, whole-machine properties -/

/-- For the five frames: ContextAndMultiplierFrame (both groups), FieldFrame, ScalarFrame, AffineFrame, JacobianFrame. -/
theorem witness_frames : (∃ t, exec .ctxBuild demo = .next t) ∧ (∃ t, exec (.ecmult 8 0 0 0x13) demo = .next t) ∧
    (∃ t, exec (.feGetb32 0 31) demo = .next t) ∧ (∃ t, exec (.scSplit128 8 0 9) demo = .next t) ∧
    (∃ t, exec (.geTostor 0 30) demo = .next t) ∧ (∃ t, exec (.gejGetc 8 0 2) demo = .next t) ∧
    Instr.ctxBuild.opcode.extractLsb' 4 4 = 0#4 ∧ (Instr.ecmult 8 0 0 0x13).opcode.extractLsb' 4 4 = 6#4 ∧
    (Instr.feGetb32 0 31).opcode.extractLsb' 4 4 = 1#4 ∧ (Instr.scSplit128 8 0 9).opcode.extractLsb' 4 4 = 3#4 ∧
    (Instr.geTostor 0 30).opcode.extractLsb' 4 4 = 4#4 ∧ (Instr.gejGetc 8 0 2).opcode.extractLsb' 4 4 = 5#4 :=
  ⟨runs _ _, runs _ _, runs _ _, runs _ _, runs _ _, runs _ _, by decide +kernel⟩

theorem witness_DecodeOfEncode : (Instr.ecmult 15 15 15 31).wf = true ∧
    (Instr.scMulshift 0 0 0 513).check = some .immediateOutOfRange ∧
    (Instr.scSplit128 3 0 3).check = some .sameDestinations := by decide

theorem witness_EncodeOfDecode : decode 0x61FFF01F = .ok (.ecmult 15 15 15 31) := by decide

theorem witness_StepKeepsInvariant : (demoOp (.cmd 0x16801000)).Inv ∧ ∃ t, step (demoOp (.cmd 0x16801000)) = .next t := by
  refine ⟨inv_port inv_demo [.cmd 0x16801000] demo.reply demo.draws, ?_⟩
  rw [step_cmd (rest := []) (w := 0x16801000) rfl (by decide +kernel), hostCmd,
    show decode 0x16801000 = .ok (.feMul 8 0 1) by decide]
  exact runs _ _

/-- Another scalar in s0: the same public part. -/
theorem witness_ConstantTimeCommandsLeakNothing : (Instr.ecmultGen 8 0).cls = .ct ∧
    (∀ ra imm, Instr.ecmultGen 8 0 ≠ .geTostor ra imm) ∧ PublicEq demo (writeS 0 6 demo) := by
  refine ⟨by decide, fun _ _ h => Instr.noConfusion h, ?_⟩
  refine ⟨fun _ => ⟨rfl, rfl, rfl⟩, fun r => ?_, fun _ => ⟨rfl, ⟨rfl, rfl⟩, ⟨rfl, rfl⟩⟩,
    fun _ => ⟨rfl, ⟨rfl, rfl⟩, ⟨rfl, rfl⟩, ⟨rfl, rfl⟩⟩, rfl, rfl, ⟨⟨rfl, rfl⟩, ⟨rfl, rfl⟩⟩, rfl, rfl, rfl, rfl, rfl⟩
  rw [writeS_sr, get_put]
  split
  · next h => rw [h]; decide +kernel
  · rfl

theorem witness_InvalidRegistersAreUnreadable : (∃ t, exec (.feMov 8 0) demo = .next t) ∧ (demo.fr.get 15).valid = false :=
  ⟨runs _ _, by decide +kernel⟩

theorem witness_NopAdvancesCmdcnt : demo.Ready ∧ demoFault.fault = true ∧ opcOf 0x00000001 = 0 ∧ (0x00000001 : Word) ≠ 0 := by
  decide +kernel

/-! ### Context, field and scalar commands -/

/-- A slot of `demo` holds what was stored there. -/
theorem slot_of {k v : Nat} (h1 : slotValid k demo = true) (h2 : v < 2 ^ 256)
    (h3 : (List.range 32).all (fun i => Memory.read demo.mem (32 * k + i) = BitVec.ofNat 8 (v >>> (8 * (31 - i)))) = true) :
    demo.SlotHolds k v :=
  ⟨h1, h2, fun i hi => of_decide_eq_true (List.all_eq_true.1 h3 i (List.mem_range.2 hi))⟩

theorem slot0_demo : demo.SlotHolds 0 5 := slot_of (by decide +kernel) (by decide) (by decide +kernel)
theorem slot1_demo : demo.SlotHolds 1 p := slot_of (by decide +kernel) (by decide) (by decide +kernel)
theorem slot30_demo : demo.SlotHolds 30 gx := slot_of (by decide +kernel) (by decide) (by decide +kernel)
theorem slot31_demo : demo.SlotHolds 31 gy := slot_of (by decide +kernel) (by decide) (by decide +kernel)

theorem witness_ContextBuildAndClear : demo.Ready := by decide +kernel

theorem witness_ContextBlind : demo.Ready ∧ demo.ctx.built = true ∧ demo.ctx.geOffset.Within8 ∧
    demo.SlotHolds (31 : Imm).toNat gy ∧ { demo with ctx := Context.clear }.ctx.built = false ∧
    slotValid (2 : Imm).toNat demo = false :=
  ⟨by decide +kernel, by decide +kernel, within_demo, slot31_demo, rfl, by decide +kernel⟩

theorem witness_FieldBytes : demo.Ready ∧ (31 : Imm).toNat ≤ 31 ∧ demo.SlotHolds (1 : Imm).toNat p ∧
    demo.HoldsF 1 (fe (p - 1)) ∧ (fe (p - 1)).norm = true ∧ demo.HoldsF 2 (tagged 3 8) ∧ (tagged 3 8).norm = false :=
  ⟨by decide +kernel, by decide, slot1_demo, by decide +kernel, rfl, by decide +kernel, rfl⟩

theorem witness_BytesRoundTrip : demo.Ready ∧ Memory.wf demo.mem ∧ demo.HoldsF 1 (fe (p - 1)) ∧ (fe (p - 1)).Wf ∧
    (fe (p - 1)).norm = true ∧ (∃ t, exec (.feGetb32 1 31) demo = .next t) ∧ demo.HoldsS 1 (BitVec.ofNat 256 (n - 1)) ∧
    (BitVec.ofNat 256 (n - 1)).toNat < Const.n ∧ (∃ t, exec (.scGetb32 1 31) demo = .next t) :=
  ⟨by decide +kernel, inv_demo.memory, by decide +kernel, wf_fe (by decide), rfl, runs _ _, by decide +kernel, by decide,
    runs _ _⟩

theorem witness_FieldSetMoveNormalize : demo.Ready ∧ demo.HoldsF 6 (tagged 3 32) := by decide +kernel

theorem witness_FieldAdd : demo.Ready ∧ demo.HoldsF 2 (tagged 3 8) ∧ demo.HoldsF 4 (tagged 3 24) ∧
    (tagged 3 8).mag + (tagged 3 24).mag ≤ 32 ∧ demo.HoldsF 3 (tagged 3 9) ∧
    32 < (tagged 3 9).mag + (tagged 3 24).mag := by decide +kernel

theorem witness_FieldMultiplySquare : demo.Ready ∧ demo.HoldsF 2 (tagged 3 8) ∧ (tagged 3 8).mag ≤ 8 ∧
    demo.HoldsF 3 (tagged 3 9) ∧ 8 < (tagged 3 9).mag := by decide +kernel

theorem witness_FieldNegate : demo.Ready ∧ demo.HoldsF 5 (tagged 3 31) ∧ (tagged 3 31).mag ≤ (31 : Imm).toNat ∧
    (31 : Imm).toNat ≤ 31 ∧ (30 : Imm).toNat < (tagged 3 31).mag ∧ 31 < (32 : Imm).toNat ∧ demo.HoldsF 7 (fe 0) ∧
    (0 : Imm).toNat < (fe 0).mag := by decide +kernel

theorem witness_FieldConditionalMove : demo.Ready ∧ demo.HoldsF 6 (tagged 3 32) ∧ (2 : Imm).toNat ≤ 2 ∧
    demo.HoldsF 0 (fe 3) ∧ (demo.fr.get 15).valid = false := by decide +kernel

theorem witness_FieldTests : demo.Ready ∧ demo.HoldsF 0 (fe 3) ∧ demo.HoldsF 7 (fe 0) ∧ (fe 3).norm = true ∧
    (fe 0).norm = true ∧ demo.HoldsF 2 (tagged 3 8) ∧ (tagged 3 8).norm = false := by decide +kernel

theorem witness_FieldInversions : demo.Ready ∧ demo.HoldsF 2 (tagged 3 8) ∧ (tagged 3 8).mag ≤ 8 ∧
    demo.HoldsF 3 (tagged 3 9) ∧ 8 < (tagged 3 9).mag := by decide +kernel

theorem witness_ScalarBytes : demo.Ready ∧ demo.SlotHolds (1 : Imm).toNat p ∧ demo.HoldsS 1 (BitVec.ofNat 256 (n - 1)) :=
  ⟨by decide +kernel, slot1_demo, by decide +kernel⟩

theorem witness_ScalarSetMove : demo.Ready ∧ demo.HoldsS 0 5 := by decide +kernel

theorem witness_ScalarArithmetic : demo.Ready ∧ demo.HoldsS 1 (BitVec.ofNat 256 (n - 1)) ∧ demo.HoldsS 3 1 ∧
    demo.HoldsS 2 0 ∧ (BitVec.ofNat 256 (n - 1)).toNat < Const.n ∧ (1 : ScalarWord).toNat < Const.n := by decide +kernel

theorem witness_ScalarConditional : demo.Ready ∧ demo.HoldsS 2 0 ∧ demo.HoldsS 0 5 ∧ (2 : Imm).toNat ≤ 2 ∧
    (0 : ScalarWord).toNat < Const.n ∧ (demo.sr.get 15).valid = false := by decide +kernel

theorem witness_ScalarTests : demo.Ready ∧ demo.HoldsS 0 5 ∧ demo.HoldsS 1 (BitVec.ofNat 256 (n - 1)) ∧
    0 < (5 : ScalarWord).toNat ∧ (5 : ScalarWord).toNat < Const.n ∧ (Const.n - 1) / 2 < (BitVec.ofNat 256 (n - 1)).toNat := by
  decide +kernel

theorem witness_ScalarInversions : demo.Ready ∧ demo.HoldsS 1 (BitVec.ofNat 256 (n - 1)) := by decide +kernel

theorem witness_ScalarMulshift : demo.Ready ∧ demo.HoldsS 1 (BitVec.ofNat 256 (n - 1)) ∧ demo.HoldsS 0 5 ∧
    256 ≤ (256 : Imm).toNat ∧ (512 : Imm).toNat ≤ 512 ∧ (255 : Imm).toNat < 256 ∧ 512 < (513 : Imm).toNat := by decide +kernel

theorem witness_ScalarSplits : demo.Ready ∧ demo.HoldsS 1 (BitVec.ofNat 256 (n - 1)) ∧ (1 : RegNum) ≠ 2 := by decide +kernel

/-! ### Point commands and multiplications -/

theorem witness_AffineCopies : demo.Ready ∧ demo.HoldsF 6 (tagged 3 32) ∧ demo.HoldsF 0 (fe 3) ∧ demo.HoldsA 1 Ge.infinity := by
  decide +kernel

theorem witness_AffineTests : demo.Ready ∧ demo.HoldsA 0 G ∧ demo.HoldsA 2 ge8 ∧ demo.HoldsA 1 Ge.infinity := by
  decide +kernel

theorem witness_AffineNegateMullambda : demo.Ready ∧ demo.HoldsA 3 ge9 ∧ ge9.y.mag ≤ 31 ∧ 8 < ge9.x.mag ∧
    demo.HoldsA 4 ge32 ∧ 31 < ge32.y.mag ∧ demo.HoldsA 2 ge8 ∧ ge8.x.mag ≤ 8 ∧ demo.HoldsA 1 Ge.infinity := by decide +kernel

theorem witness_AffineStorage : demo.Ready ∧ (30 : Imm).toNat ≤ 30 ∧ demo.HoldsA 0 G ∧ G.inf = false ∧
    demo.HoldsA 1 Ge.infinity ∧ Ge.infinity.inf = true ∧ demo.SlotHolds (30 : Imm).toNat gx ∧
    demo.SlotHolds ((30 : Imm).toNat + 1) gy :=
  ⟨by decide +kernel, by decide, by decide +kernel, rfl, by decide +kernel, rfl, slot30_demo, slot31_demo⟩

theorem witness_AffineFromJacobian : demo.Ready ∧ demo.HoldsJ 2 gej8 ∧ gej8.Within8 ∧ gej8.Wf ∧ gej8.inf = false ∧
    demo.HoldsJ 1 Gej.infinity ∧ Gej.infinity.Within8 ∧ Gej.infinity.Wf ∧ demo.HoldsJ 3 gej9 ∧ ¬gej9.Within8 :=
  ⟨by decide +kernel, by decide +kernel, within_gej8, wf_gej8, rfl, by decide +kernel,
    ⟨by decide, by decide, by decide⟩, wf_gejInfinity, by decide +kernel, fun h => absurd h.x (by decide)⟩

theorem witness_JacobianCopies : demo.Ready ∧ demo.HoldsA 1 Ge.infinity ∧ demo.HoldsJ 4 gej32 := by decide +kernel

theorem witness_JacobianNegateDouble : demo.Ready ∧ demo.HoldsJ 3 gej9 ∧ gej9.y.mag ≤ 31 ∧ ¬gej9.Within8 ∧
    demo.HoldsJ 4 gej32 ∧ 31 < gej32.y.mag ∧ demo.HoldsJ 2 gej8 ∧ gej8.Within8 ∧ demo.HoldsJ 1 Gej.infinity :=
  ⟨by decide +kernel, by decide +kernel, by decide, fun h => absurd h.x (by decide), by decide +kernel, by decide,
    by decide +kernel, within_gej8, by decide +kernel⟩

theorem witness_JacobianAddge : demo.Ready ∧ demo.HoldsJ 2 gej8 ∧ demo.HoldsA 2 ge8 ∧ gej8.Within8 ∧ ge8.Within8 ∧
    demo.HoldsA 3 ge9 ∧ ¬(gej8.Within8 ∧ ge9.Within8) :=
  ⟨by decide +kernel, by decide +kernel, by decide +kernel, within_gej8, within_ge8, by decide +kernel,
    fun h => absurd h.2.x (by decide)⟩

theorem witness_JacobianAddVariable : demo.Ready ∧ demo.HoldsJ 1 Gej.infinity ∧ demo.HoldsJ 2 gej8 ∧ demo.HoldsJ 3 gej9 ∧
    demo.HoldsA 1 Ge.infinity ∧ demo.HoldsA 2 ge8 ∧ gej8.inf = false ∧ ge8.inf = false ∧ gej8.Within8 ∧ ge8.Within8 ∧
    demo.HoldsJ 0 jG ∧ jG.Within8 ∧ ¬(gej8.Within8 ∧ gej9.Within8) ∧ ¬(gej9.Within8 ∧ ge8.Within8) :=
  ⟨by decide +kernel, by decide +kernel, by decide +kernel, by decide +kernel, by decide +kernel, by decide +kernel, rfl,
    rfl, within_gej8, within_ge8, by decide +kernel, within_jG, fun h => absurd h.2.x (by decide),
    fun h => absurd h.1.x (by decide)⟩

theorem witness_JacobianEquality : demo.Ready ∧ demo.HoldsJ 2 gej8 ∧ demo.HoldsJ 0 jG ∧ gej8.inf = false ∧ jG.inf = false ∧
    gej8.Within8 ∧ jG.Within8 ∧ gej8.Wf ∧ jG.Wf ∧ demo.HoldsJ 1 Gej.infinity ∧ demo.HoldsJ 3 gej9 ∧ gej9.inf = false ∧
    ¬(gej8.Within8 ∧ gej9.Within8) :=
  ⟨by decide +kernel, by decide +kernel, by decide +kernel, rfl, rfl, within_gej8, within_jG, wf_gej8, wf_jG,
    by decide +kernel, by decide +kernel, rfl, fun h => absurd h.2.x (by decide)⟩

theorem witness_EcmultGen : demo.Ready ∧ demo.ctx.built = true ∧ demo.HoldsS 0 5 ∧ demo.ctx.geOffset.x.mag = 1 ∧
    demo.ctx.geOffset.y.mag = 1 ∧ { demo with ctx := Context.clear }.ctx.built = false ∧
    (demo.sr.get 15).valid = false := by decide +kernel

theorem witness_Ecmult_command : demo.Ready ∧ demo.HoldsJ 2 gej8 ∧ gej8.Within8 ∧ demo.HoldsS 0 5 ∧ demo.HoldsS 2 0 ∧
    (0x12 : Imm).toNat = 16 + (2 : RegNum).toNat ∧ demo.HoldsJ 1 Gej.infinity ∧ demo.HoldsJ 3 gej9 ∧ gej9.inf = false ∧
    (5 : ScalarWord) ≠ 0 ∧ ¬gej9.Within8 :=
  ⟨by decide +kernel, by decide +kernel, within_gej8, by decide +kernel, by decide +kernel, by decide, by decide +kernel,
    by decide +kernel, rfl, by decide, fun h => absurd h.x (by decide)⟩

theorem entry_jG : Entry jG := ⟨by decide, by decide, by decide, wf_jG⟩

theorem entry_norm (a b c : Fe) : Entry ⟨feNorm a, feNorm b, feNorm c, false⟩ :=
  ⟨Nat.le_of_ble_eq_true rfl, Nat.le_of_ble_eq_true rfl, Nat.le_of_ble_eq_true rfl, wf_feNorm _, wf_feNorm _, wf_feNorm _,
    fun e => nomatch e⟩

/-- The hypotheses of the helper clauses: the largest k; a bounded point, whose table and terms exist; a term with digits 0,
1, −1 and a table, in both signs; the terms of a point and of G. -/
theorem witness_Ecmult : n - 1 < Const.n ∧ gej8.Within8 ∧ (∀ P ∈ [jG, gej8], P.Wf ∧ P.Within8) ∧
    (∃ D, gejDbl jG = .ok D) ∧ (∃ R, ecmultPass [⟨[1], false, [jG]⟩] jG 0 = .ok R) ∧
    signedDigit ⟨[0, 1, -1], false, [jG]⟩ 0 = 0 ∧ signedDigit ⟨[0, 1, -1], false, [jG]⟩ 1 = 2 * (0 : Nat) + 1 ∧
    signedDigit ⟨[0, 1, -1], true, [jG]⟩ 1 = -(2 * (0 : Nat) + 1) ∧ [jG][0]? = some jG ∧ (∃ M, negJ jG = .ok M) ∧
    (∃ tg, terms ⟨⟨canon Const.gx, 1, true⟩, ⟨canon Const.gy, 1, true⟩, ⟨canon 1, 1, true⟩, false⟩ 5 = .ok tg) ∧
    gej8.inf = false ∧ (∃ ta, terms ⟨feNorm gej8.x, feNorm gej8.y, feNorm gej8.z, false⟩ 5 = .ok ta) := by
  obtain ⟨D, hD, -⟩ := gejDbl_fits within_jG
  obtain ⟨R, hR, -⟩ := ecmultPass_spec (ts := [⟨[1], false, [jG]⟩])
    (fun t ht P hP => by rw [List.mem_singleton.1 ht] at hP; rw [List.mem_singleton.1 hP]; exact entry_jG) 0
    ⟨within_jG, wf_jG⟩
  obtain ⟨M, hM, -⟩ := negJ_spec (P := jG) (by decide)
  obtain ⟨tg, hg, -⟩ := terms_spec 5 (B := ⟨feConst Const.gx, feConst Const.gy, Fe.one, false⟩)
    ⟨by decide, by decide, by decide, wf_feConst (by decide), wf_feConst (by decide), wf_feOne, fun e => nomatch e⟩
  obtain ⟨ta, ha, -⟩ := terms_spec 5 (entry_norm gej8.x gej8.y gej8.z)
  exact ⟨by decide, within_gej8, by simp [wf_jG, within_jG, wf_gej8, within_gej8], ⟨D, hD⟩, ⟨R, hR⟩, by decide, by decide,
    by decide, rfl, ⟨M, hM⟩, ⟨tg, hg⟩, rfl, ⟨ta, ha⟩⟩

/-! ### Helpers -/

theorem witness_FieldHelpersComputeModP : (tagged 3 8).Wf ∧ (fe (p - 1)).Wf ∧ (tagged 3 8).mag + (fe (p - 1)).mag ≤ 32 ∧
    (tagged 3 8).mag * 4 ≤ 32 ∧ (tagged 3 8).mag ≤ 31 ∧ (tagged 3 8).mag ≤ 8 ∧ (fe (p - 1)).norm = true :=
  ⟨wf_tagged (by decide) (by decide) (by decide), wf_fe (by decide), by decide, by decide, by decide, by decide, rfl⟩

theorem witness_DoublingIsTheTangentFormula : gej8.Wf ∧ gej8.Within8 ∧ gej8.inf = false ∧ Gej.infinity.Wf ∧
    Gej.infinity.Within8 := ⟨wf_gej8, within_gej8, rfl, wf_gejInfinity, ⟨by decide, by decide, by decide⟩⟩

/-- Contents for H ≠ 0, for H = 0 and I ≠ 0, and for H = I = 0. -/
def pt (x y : Nat) : Gej := ⟨fe x, fe y, fe 1, false⟩

/-- The same, affine. -/
def apt (x y : Nat) : Ge := ⟨fe x, fe y, false⟩

theorem wf_pt {x y : Nat} (hx : x < p) (hy : y < p) : (pt x y).Wf :=
  ⟨wf_fe hx, wf_fe hy, wf_fe (by decide), fun e => nomatch e⟩

theorem wf_apt {x y : Nat} (hx : x < p) (hy : y < p) : (apt x y).Wf := ⟨wf_fe hx, wf_fe hy, fun e => nomatch e⟩

theorem within_pt (x y : Nat) : (pt x y).Within8 :=
  ⟨Nat.le_of_ble_eq_true rfl, Nat.le_of_ble_eq_true rfl, Nat.le_of_ble_eq_true rfl⟩

theorem within_apt (x y : Nat) : (apt x y).Within8 := ⟨Nat.le_of_ble_eq_true rfl, Nat.le_of_ble_eq_true rfl⟩

theorem fe_mod {v : Nat} (h : v < p) : (fe v).mod = (v : ZMod Const.p) := by rw [Fe.mod, fe, feConst_val h]

theorem witness_AdditionIsTheChordFormula : (pt 1 1).Wf ∧ (pt 2 3).Wf ∧ (pt 1 3).Wf ∧ (pt 1 1).Within8 ∧ (pt 2 3).Within8 ∧
    (pt 1 3).Within8 ∧ (pt 1 1).inf = false ∧ Ge.infinity.Wf ∧ ge8.Wf ∧ ge8.Within8 ∧ Gej.infinity.Within8 ∧
    (pt 2 3).x.mod * (pt 1 1).z.mod ^ 2 - (pt 1 1).x.mod * (pt 2 3).z.mod ^ 2 ≠ 0 ∧
    (pt 1 3).x.mod * (pt 1 1).z.mod ^ 2 - (pt 1 1).x.mod * (pt 1 3).z.mod ^ 2 = 0 ∧
    (pt 1 3).y.mod * (pt 1 1).z.mod ^ 3 - (pt 1 1).y.mod * (pt 1 3).z.mod ^ 3 ≠ 0 := by
  refine ⟨wf_pt (by decide) (by decide), wf_pt (by decide) (by decide), wf_pt (by decide) (by decide), within_pt _ _,
    within_pt _ _, within_pt _ _, rfl, wf_geInfinity, wf_ge8, within_ge8, ⟨by decide, by decide, by decide⟩, ?_, ?_, ?_⟩
  all_goals simp only [pt, fe_mod (v := 1) (by decide), fe_mod (v := 2) (by decide), fe_mod (v := 3) (by decide)]
  · push_cast
    norm_num
    intro h
    have h1 : ((1 : Nat) : ZMod Const.p) = 0 := by push_cast; linear_combination h
    rw [ZMod.natCast_eq_zero_iff] at h1
    exact absurd h1 (by decide)
  · ring
  · push_cast
    norm_num
    intro h
    have h1 : ((2 : Nat) : ZMod Const.p) = 0 := by push_cast; linear_combination h
    rw [ZMod.natCast_eq_zero_iff] at h1
    exact absurd h1 (by decide)

/-- The mixed forms: the three cases of H and I against `pt 1 1`, by the same differences. -/
theorem witness_AdditionIsTheChordFormula_mixed : (apt 2 3).Wf ∧ (apt 1 3).Wf ∧ (apt 1 1).Wf ∧ (apt 2 3).Within8 ∧
    (apt 1 3).Within8 ∧ (apt 1 1).Within8 ∧ (apt 2 3).inf = false ∧ (pt 1 1).inf = false ∧
    (apt 2 3).x.mod * (pt 1 1).z.mod ^ 2 - (pt 1 1).x.mod ≠ 0 ∧
    (apt 1 3).x.mod * (pt 1 1).z.mod ^ 2 - (pt 1 1).x.mod = 0 ∧
    (apt 1 3).y.mod * (pt 1 1).z.mod ^ 3 - (pt 1 1).y.mod ≠ 0 ∧
    (apt 1 1).y.mod * (pt 1 1).z.mod ^ 3 - (pt 1 1).y.mod = 0 := by
  obtain ⟨-, -, -, -, -, -, -, -, -, -, -, h1, -, h3⟩ := witness_AdditionIsTheChordFormula
  have one : (fe 1).mod = 1 := by rw [fe_mod (by decide)]; exact Nat.cast_one
  refine ⟨wf_apt (by decide) (by decide), wf_apt (by decide) (by decide), wf_apt (by decide) (by decide),
    within_apt _ _, within_apt _ _, within_apt _ _, rfl, rfl, ?_, ?_, ?_, ?_⟩
  · simpa [one, pt, apt] using h1
  · simp [one, pt, apt]
  · simpa [one, pt, apt] using h3
  · simp [one, pt, apt]

theorem witness_DivstepBatchMatrix : (Const.p : Int) % 2 = 1 ∧ (-1 : Int) % 2 = 1 := by decide

theorem witness_InversionEngine : Const.n % 2 = 1 ∧ 2 < Const.n ∧ (invBatches Const.n 12 (invStart 2 Const.n)).g = 0 ∧
    ((invBatches Const.n 12 (invStart 2 Const.n)).f = 1 ∨ (invBatches Const.n 12 (invStart 2 Const.n)).f = -1) ∧
    (invVarRun 2 Const.n).1.g = 0 := by decide +kernel

theorem witness_WnafRecodes : 2 ≤ 5 ∧ (wnaf 31 5).getD 0 0 ≠ 0 ∧ (wnaf 31 5).getLast? = some 1 := by decide


end Sys2Proof.Machine.Tests
end

section
/-! SUPPORT. The state family (`spec/10_state.md`), part 1: the state after reset, and reading the CSRs. -/

namespace Sys2Proof.Machine

/-! ## The state after reset (R42) -/

/-- Every register of a file filled with one register is that register. -/
@[simp] theorem get_replicate {α : Type} (x : Reg α) (r : RegNum) : RegFile.get (Vector.replicate 16 x) r = x := by
  simp [RegFile.get]

@[simp] theorem reset_fr_get (r : RegNum) : State.reset.fr.get r = ⟨false, Fe.zero⟩ := get_replicate _ r

@[simp] theorem reset_sr_get (r : RegNum) : State.reset.sr.get r = ⟨false, 0⟩ := get_replicate _ r

@[simp] theorem reset_ar_get (r : RegNum) : State.reset.ar.get r = ⟨false, Fe.zero, Fe.zero, false⟩ := get_replicate _ r

@[simp] theorem reset_jr_get (r : RegNum) : State.reset.jr.get r = ⟨false, Fe.zero, Fe.zero, Fe.zero, false⟩ :=
  get_replicate _ r

theorem slotValid_reset (k : Nat) : slotValid k State.reset = false := by
  show ((Vector.replicate 32 false)[k]?).getD false = false
  rw [Vector.getElem?_replicate]
  split <;> rfl

/-- No register of the reset state is valid, so its invariant is that of the cleared context and of an empty BUF. -/
theorem inv_reset : State.reset.Inv where
  field := by simp
  scalar := by simp
  affine := by simp
  jacobian := by simp
  context := wf_contextClear
  memory := wf_reset_mem
  idle := rfl
  noFault _ := ⟨rfl, rfl⟩
  faulted h := nomatch h

/-- Settles O1: the registers and slots by the reads of a constant file, the rest by the definition of the reset state. -/
theorem resetState : Obligations.ResetState := by
  refine ⟨fun r => ?_, slotValid_reset, rfl, rfl, rfl, rfl, rfl, rfl, rfl, rfl, rfl, rfl⟩
  rw [reset_fr_get, reset_sr_get, reset_ar_get, reset_jr_get]
  exact ⟨rfl, rfl, rfl, rfl⟩

/-- Settles O19: no register is valid, the context is the cleared one, BUF is empty. -/
theorem resetMeetsInvariant : Obligations.ResetMeetsInvariant := inv_reset

/-! ## The CSRs (R35) -/

/-- Bit b of three bits packed from bit 0 on. -/
theorem getLsbD_pack3 (x y z : Bool) {b : Nat} (hb : b < 32) :
    (BitVec.ofNat 32 (x.toNat + 2 * y.toNat + 4 * z.toNat)).getLsbD b = (b == 0 && x || b == 1 && y || b == 2 && z) := by
  revert x y z b
  decide

/-- Bit b of five bits packed from bit 0 on. -/
theorem getLsbD_pack5 (x y z u v : Bool) {b : Nat} (hb : b < 32) :
    (BitVec.ofNat 32 (x.toNat + 2 * y.toNat + 4 * z.toNat + 8 * u.toNat + 16 * v.toNat)).getLsbD b =
      (b == 0 && x || b == 1 && y || b == 2 && z || b == 3 && u || b == 4 && v) := by
  revert x y z u v b
  decide

/-- CAUSE reads back in the low eight bits of its CSR. -/
theorem getLsbD_setWidth_cause (c : BitVec 8) {b : Nat} (hb : b < 32) :
    (c.setWidth 32).getLsbD b = (decide (b < 8) && c.getLsbD b) := by
  rw [BitVec.getLsbD_setWidth, decide_eq_true hb, Bool.true_and]
  by_cases h : b < 8
  · simp [h]
  · simp [h, BitVec.getLsbD_of_ge c b (by omega)]

theorem csrWord_of_gt {i : Nat} (s : State) (h : 4 < i) : csrWord i s = 0 := by
  obtain ⟨k, rfl⟩ := Nat.exists_eq_add_of_le' h
  rfl

theorem csrWord_reset (i : Nat) : csrWord i State.reset = 0 := by
  rcases Nat.lt_or_ge 4 i with h | h
  · exact csrWord_of_gt _ h
  · interval_cases i <;> rfl

/-- The CSRs show nothing of the host's side of the port. -/
theorem csrWord_port (i : Nat) (s : State) (inbox : List HostOp) (reply : HostReply) :
    csrWord i { s with inbox := inbox, reply := reply } = csrWord i s := by
  rcases i with _ | _ | _ | _ | _ | i <;> rfl

theorem step_rdCsr {s : State} {i : Nat} {rest : List HostOp} (hi : s.inbox = .rdCsr i :: rest) :
    step s = .next { s with inbox := rest, reply := .csr (csrWord i s) } := by
  simp only [step, nextOp, hi, hostRdCsr, csrWord_port]

/-- Settles O7: the answer is `csrWord i s`, its packed bits read off one by one. -/
theorem hostReadsCsr : Obligations.HostReadsCsr := by
  refine ⟨fun s i rest hi => ⟨csrWord i s, step_rdCsr hi, ?_, ?_, ?_, ?_, ?_, csrWord_of_gt s⟩, csrWord_reset⟩
  · rintro rfl b hb
    exact getLsbD_pack3 _ _ _ hb
  · rintro rfl b hb
    exact getLsbD_pack5 _ _ _ _ _ hb
  · rintro rfl b hb
    exact getLsbD_setWidth_cause _ hb
  · rintro rfl; rfl
  · rintro rfl; rfl

end Sys2Proof.Machine
end

section
/-! SUPPORT. The state family (`spec/10_state.md`), part 2: every step keeps the invariant. `Ensures` says what a computation
that may fault guarantees of its answer; each helper of a command gets its guarantee once, a command's work is the chain of
them, and a step is a command, a host access or nothing. -/

namespace Sys2Proof.Machine

/-! ## What an answer guarantees -/

/-- Whenever the computation answers, its answer has the property; a fault guarantees nothing. -/
def Ensures {α : Type} (x : Chk α) (P : α → Prop) : Prop := ∀ a, x = .ok a → P a

section
variable {α β : Type} {P : α → Prop} {Q : β → Prop}

theorem ensures_ok {a : α} (h : P a) : Ensures (.ok a) P := fun _ e => Except.ok.inj e ▸ h

theorem ensures_error (c : Cause) : Ensures (.error c) P := fun _ e => nomatch e

/-- A computation whose answer is known to have the property. -/
theorem ensures_of_spec {x : Chk α} (h : ∃ a, x = .ok a ∧ P a) : Ensures x P := by
  obtain ⟨a, rfl, ha⟩ := h
  exact ensures_ok ha

/-- Sequencing: the second computation may use what the first guarantees. -/
theorem ensures_bind {x : Chk α} {f : α → Chk β} (hx : Ensures x P) (hf : ∀ a, P a → Ensures (f a) Q) :
    Ensures (x >>= f) Q := by
  intro b hb
  obtain ⟨a, ha, hb⟩ := chk_bind_ok.1 hb
  exact hf a (hx a ha) b hb

/-- Sequencing when the first answer does not matter. -/
theorem ensures_then {x : Chk α} {f : α → Chk β} (hf : ∀ a, Ensures (f a) Q) : Ensures (x >>= f) Q :=
  ensures_bind (P := fun _ => True) (fun _ _ => trivial) fun a _ => hf a

end

/-! ## Immediates of a well-formed command (R83) -/

theorem legal_of_check {k : ImmKind} {imm : Imm} (h : (k.check imm).isNone = true) : k.legal imm = true := by
  unfold ImmKind.check at h
  split at h
  · assumption
  · nomatch h

theorem slot_le {imm : Imm} (h : (ImmKind.slot.check imm).isNone = true) : imm.toNat ≤ 31 :=
  of_decide_eq_true (legal_of_check h)

theorem slot2_le {imm : Imm} (h : (ImmKind.slot2.check imm).isNone = true) : imm.toNat ≤ 30 :=
  of_decide_eq_true (legal_of_check h)

theorem shift_ge {imm : Imm} (h : (ImmKind.shift.check imm).isNone = true) : 256 ≤ imm.toNat :=
  of_decide_eq_true (Bool.and_eq_true_iff.1 (legal_of_check h)).1

/-! ## Reads of a state that meets the invariant -/

section
variable {s : State}

/-- What holds of every valid register of a file holds of what a read answers. -/
theorem ensures_read {α : Type} {P : α → Prop} {file : RegFile α}
    (h : ∀ r, (file.get r).valid = true → P (file.get r).val) (r : RegNum) : Ensures (file.read r) P := by
  intro a e
  have hr := h r
  rw [read_eq_ok.1 e] at hr
  exact hr rfl

theorem ensures_readF (h : s.Inv) (r : RegNum) : Ensures (readF r s) Fe.Wf := ensures_read h.field r

theorem ensures_readS (h : s.Inv) (r : RegNum) : Ensures (readS r s) (·.toNat < Const.n) := ensures_read h.scalar r

theorem ensures_readA (h : s.Inv) (r : RegNum) : Ensures (readA r s) Ge.Wf := ensures_read h.affine r

theorem ensures_readJ (h : s.Inv) (r : RegNum) : Ensures (readJ r s) Gej.Wf := ensures_read h.jacobian r

theorem ensures_require (b : Bool) (c : Cause) : Ensures (require b c) (fun _ => b = true) := fun _ => require_eq_ok.1

/-- A big-endian string stands for a number below 256 to its length (R11). -/
theorem intBe_lt (bs : List Byte) : intBe bs < 256 ^ bs.length := by
  induction bs using List.reverseRecOn with
  | nil => exact Nat.one_pos
  | append_singleton bs b ih =>
    rw [intBe_append, List.length_append, List.length_singleton, pow_succ]
    have := b.isLt
    omega

theorem ensures_memRead_intBe (a : Nat) (s : State) : Ensures (memRead a 32 s) (intBe · < 2 ^ 256) := by
  intro bs e
  unfold memRead at e
  split at e
  · cases e
    have := intBe_lt (Memory.readBytes s.mem a 32)
    rwa [Memory.readBytes, List.length_map, List.length_range, show 256 ^ 32 = 2 ^ 256 by norm_num] at this
  · nomatch e

theorem ensures_loadSlot (imm : Imm) (s : State) : Ensures (loadSlot imm s) (· < 2 ^ 256) :=
  ensures_bind (ensures_memRead_intBe _ s) fun _ h => ensures_ok h

theorem ensures_loadPair (imm : Imm) (s : State) : Ensures (loadPair imm s) (fun v => v.1 < 2 ^ 256 ∧ v.2 < 2 ^ 256) :=
  ensures_bind (ensures_memRead_intBe _ s) fun _ hx =>
    ensures_bind (ensures_memRead_intBe _ s) fun _ hy => ensures_ok ⟨hx, hy⟩

/-! ## Stores inside BUF -/

theorem inv_storeSlot (h : s.Inv) {imm : Imm} (hi : imm.toNat ≤ 31) (v : Nat) : (storeSlot imm v s).Inv :=
  inv_memWrite h (by rw [be32_length, immAddr_eq]; omega)

theorem inv_storePair (h : s.Inv) {imm : Imm} (hi : imm.toNat ≤ 30) (x y : Nat) : (storePair imm x y s).Inv :=
  inv_memWrite h (by rw [List.length_append, be32_length, be32_length, immAddr_eq]; omega)

end

/-! ## Results of the helpers -/

/-- A value of 256 bits reduced once modulo p makes a well-formed constant (R117). -/
theorem wf_reducedConst {v : Nat} (h : v < 2 ^ 256) : (feConst (reduceOnce v Const.p).1).Wf :=
  wf_feConst (reduceOnce_lt (h.trans_le two_p))

theorem wf_smallConst (imm : Imm) : (feConst imm.toNat).Wf := wf_feConst (imm.isLt.trans (by decide))

theorem wf_finite {x y : Fe} (hx : x.Wf) (hy : y.Wf) : Ge.Wf ⟨x, y, false⟩ := ⟨hx, hy, fun e => nomatch e⟩

theorem scAdd_lt {a b : Nat} (ha : a < Const.n) (hb : b < Const.n) : (scAdd a b).1 < Const.n :=
  reduceOnce_lt (by omega)

/-- The high part of a product of scalars is a scalar (R154). -/
theorem mulShift_lt {a b k : Nat} (ha : a < Const.n) (hb : b < Const.n) (hk : 256 ≤ k) : (a * b) >>> k < Const.n := by
  rw [Nat.shiftRight_eq_div_pow, Nat.div_lt_iff_lt_mul (Nat.two_pow_pos k)]
  calc a * b < Const.n * Const.n := Nat.mul_lt_mul'' ha hb
    _ ≤ Const.n * 2 ^ k := Nat.mul_le_mul_left _ (n_lt.le.trans (Nat.pow_le_pow_right Nat.two_pos hk))

theorem low128_lt (k : Nat) : k % 2 ^ 128 < Const.n := (Nat.mod_lt k (by decide)).trans (by decide)

theorem high128_lt {k : Nat} (h : k < Const.n) : k >>> 128 < Const.n := (Nat.shiftRight_le k 128).trans_lt h

/-- A coordinate multiplied by a constant keeps the zero limbs of infinity (R211). -/
theorem feMul_zero {a b r : Fe} (ha : a.n = Limbs.zero) (h : feMul a b = .ok r) : r.n = Limbs.zero := by
  unfold feMul at h
  split at h
  · cases h
    show canon (fold3 (a.n.ival * b.ival)) = Limbs.zero
    rw [ha, zero_ival, Nat.zero_mul]
    decide
  · nomatch h

/-- The endomorphism of an affine content (R211). -/
theorem ensures_mulBeta {P : Ge} (h : P.Wf) : Ensures (feMul P.x (feConst Const.beta)) (fun x => Ge.Wf ⟨x, P.y, P.inf⟩) :=
  fun _ e => ⟨wf_feMul h.x (wf_feConst (by decide)) e, h.y,
    fun hi => ⟨feMul_zero (h.infinite hi).1 e, (h.infinite hi).2⟩⟩

theorem wf_coordinate {P : Gej} (h : P.Wf) (imm : Imm) : (coordinate imm P).Wf := by
  unfold coordinate
  split
  · exact h.x
  · split
    · exact h.y
    · exact h.z

theorem ensures_invCt {x M : Nat} (hM : 0 < M) : Ensures (plain.invCt x M) (· < M) := by
  rw [plain_invCt]
  exact ensures_ok (invCt_lt hM)

theorem ensures_invVar {x M : Nat} (hM : 0 < M) : Ensures (plain.invVar x M) (· < M) := by
  rw [plain_invVar]
  exact ensures_ok (invVar_lt hM)

/-! ## Point operations: well formed whenever they answer

The specs of `Laws/Group.lean` ask for magnitudes within the operation's check; without them it faults. -/

theorem within8_of_not_big {P : Gej} (h : ¬P.big = true) : P.Within8 := by
  simp only [Gej.big, Bool.or_eq_true, decide_eq_true_eq, not_or, Nat.not_lt] at h
  exact ⟨h.1.1, h.1.2, h.2⟩

theorem ge_within8_of_not_big {P : Ge} (h : ¬P.big = true) : P.Within8 := by
  simp only [Ge.big, Bool.or_eq_true, decide_eq_true_eq, not_or, Nat.not_lt] at h
  exact ⟨h.1, h.2⟩

theorem ensures_negJ {P : Gej} (h : P.Wf) : Ensures (negJ P) Gej.Wf := by
  rcases Nat.lt_or_ge 31 P.y.mag with hm | hm
  · rw [negJ_error hm]
    exact ensures_error _
  · obtain ⟨R, e, -, -, -, -, -, w⟩ := negJ_spec hm
    exact ensures_of_spec ⟨R, e, w h⟩

theorem ensures_negA {P : Ge} (h : P.Wf) : Ensures (negA P) Ge.Wf := by
  rcases Nat.lt_or_ge 31 P.y.mag with hm | hm
  · rw [negA_error hm]
    exact ensures_error _
  · obtain ⟨R, e, -, -, -, -, w⟩ := negA_spec hm
    exact ensures_of_spec ⟨R, e, w h⟩

theorem ensures_gejDbl {P : Gej} (h : P.Wf) : Ensures (gejDbl P) Gej.Wf := by
  by_cases hb : P.big = true
  · rw [gejDbl_error hb]
    exact ensures_error _
  · obtain ⟨R, e, hR, w⟩ := gejDbl_fits (within8_of_not_big hb)
    exact ensures_of_spec ⟨R, e, w h⟩

theorem ensures_gejAddGe {P : Gej} {b : Ge} (hP : P.Wf) (hb : b.Wf) : Ensures (gejAddGe P b) Gej.Wf := by
  by_cases h : (P.big || b.big) = true
  · rw [gejAddGe_error h]
    exact ensures_error _
  · rw [Bool.or_eq_true, not_or] at h
    obtain ⟨px, py, pz⟩ := within8_of_not_big h.1
    obtain ⟨bx, byy⟩ := ge_within8_of_not_big h.2
    obtain ⟨R, e, -, -, -, -, -, -, w⟩ := gejAddGe_spec px py pz bx byy
    exact ensures_of_spec ⟨R, e, w hP hb⟩

theorem ensures_gejAddGeVar {P : Gej} {b : Ge} (hP : P.Wf) (hb : b.Wf) : Ensures (gejAddGeVar P b) Gej.Wf := by
  by_cases h : P.inf = false ∧ b.inf = false ∧ (P.big || b.big) = true
  · rw [gejAddGeVar_error h.1 h.2.1 h.2.2]
    exact ensures_error _
  · obtain ⟨R, e, -, w⟩ := gejAddGeVar_spec (P := P) (b := b) fun iP ib => by
      have hs : ¬(P.big || b.big) = true := fun e => h ⟨iP, ib, e⟩
      rw [Bool.or_eq_true, not_or] at hs
      obtain ⟨px, py, pz⟩ := within8_of_not_big hs.1
      obtain ⟨bx, byy⟩ := ge_within8_of_not_big hs.2
      exact ⟨px, py, pz, bx, byy⟩
    exact ensures_of_spec ⟨R, e, w hP hb⟩

theorem ensures_gejAddVar {P Q : Gej} (hP : P.Wf) (hQ : Q.Wf) : Ensures (gejAddVar P Q) Gej.Wf := by
  by_cases h : P.inf = false ∧ Q.inf = false ∧ (P.big || Q.big) = true
  · rw [gejAddVar_error h.1 h.2.1 h.2.2]
    exact ensures_error _
  · obtain ⟨R, e, -, w⟩ := gejAddVar_spec (P := P) (Q := Q) fun iP iQ => by
      have hs : ¬(P.big || Q.big) = true := fun e => h ⟨iP, iQ, e⟩
      rw [Bool.or_eq_true, not_or] at hs
      obtain ⟨px, py, pz⟩ := within8_of_not_big hs.1
      obtain ⟨qx, qy, qz⟩ := within8_of_not_big hs.2
      exact ⟨px, py, pz, qx, qy, qz⟩
    exact ensures_of_spec ⟨R, e, w hP hQ⟩

theorem ensures_toAff {P : Gej} {inv : Nat → Nat → Nat} (h : P.Wf) (hi : ∀ x, inv x Const.p < Const.p) :
    Ensures (toAff P inv) Ge.Wf := by
  by_cases hb : P.big = true
  · rw [toAff_error hb]
    exact ensures_error _
  · obtain ⟨px, py, pz⟩ := within8_of_not_big hb
    obtain ⟨R, e, -, -, -, -, -, w⟩ := toAff_spec (inv := inv) px py pz
    exact ensures_of_spec ⟨R, e, w h (hi _)⟩

theorem ensures_toAff_invCt {P : Gej} (h : P.Wf) : Ensures (plain.toAff P plain.invCt) Ge.Wf := by
  rw [plain_toAff_invCt]
  exact ensures_toAff h fun _ => invCt_lt p_pos

theorem ensures_toAff_invVar {P : Gej} (h : P.Wf) : Ensures (plain.toAff P plain.invVar) Ge.Wf := by
  rw [plain_toAff_invVar]
  exact ensures_toAff h fun _ => invVar_lt p_pos

/-- A well-formed context's offset point is normalized, so COMBMUL answers (R251). -/
theorem ensures_combMul (k : Nat) {c : Context} (h : c.Wf) : Ensures (combMul k c) Gej.Wf := by
  have hx := (h.point.x.normalized h.normalized.1).1
  have hy := (h.point.y.normalized h.normalized.2).1
  obtain ⟨R, e, -, -, -, -, -, -, w⟩ := combMul_spec k (c := c) (by omega) (by omega)
  exact ensures_of_spec ⟨R, e, w h.point⟩

theorem ensures_ecmult (A : Gej) (na : Nat) (ng : Option Nat) : Ensures (ecmult A na ng) Gej.Wf := by
  by_cases h : A.inf = false ∧ na ≠ 0 ∧ A.big = true
  · rw [ecmult_error ng h.1 h.2.1 h.2.2]
    exact ensures_error _
  · refine ensures_of_spec (ecmult_spec A na ng fun hA hn => ?_)
    obtain ⟨hx, hy, hz⟩ := within8_of_not_big fun e => h ⟨hA, hn, e⟩
    exact ⟨hx, hy, hz⟩

/-! ## The work of a command -/

section
variable {s : State}

/-- A result that is guaranteed well formed may be written to its register. -/
theorem ensures_writeF (h : s.Inv) (rd : RegNum) {x : Chk Fe} (hx : Ensures x Fe.Wf) :
    Ensures (x >>= fun v => .ok (writeF rd v s)) State.Inv :=
  ensures_bind hx fun _ hv => ensures_ok (inv_writeF h rd hv)

theorem ensures_writeA (h : s.Inv) (rd : RegNum) {x : Chk Ge} (hx : Ensures x Ge.Wf) :
    Ensures (x >>= fun v => .ok (writeA rd v s)) State.Inv :=
  ensures_bind hx fun _ hv => ensures_ok (inv_writeA h rd hv)

theorem ensures_writeJ (h : s.Inv) (rd : RegNum) {x : Chk Gej} (hx : Ensures x Gej.Wf) :
    Ensures (x >>= fun v => .ok (writeJ rd v s)) State.Inv :=
  ensures_bind hx fun _ hv => ensures_ok (inv_writeJ h rd hv)

theorem ensures_writeS (h : s.Inv) (rd : RegNum) {x : Chk Nat} (hx : Ensures x (· < Const.n)) :
    Ensures (x >>= fun v => .ok (writeS rd v s)) State.Inv :=
  ensures_bind hx fun _ hv => ensures_ok (inv_writeS h rd hv)

/-- The blinded context (R247): the offset is a scalar, its point normalized and finite, and the context stays built. -/
theorem wf_contextBlinded {c : Context} (hb : c.built = true) (k : Nat) (x y : Fe) :
    Context.Wf { c with
      scalarOffset := BitVec.ofNat 256 (scSub Const.combDiff k), geOffset := ⟨feNorm x, feNorm y, false⟩ } where
  offset := by
    have hk := scSub_lt Const.combDiff k
    show (BitVec.ofNat 256 _).toNat < Const.n
    rwa [toNat_scalar (hk.trans n_lt)]
  point := wf_finite (wf_feNorm x) (wf_feNorm y)
  normalized := ⟨rfl, rfl⟩
  finite := rfl
  cleared e := by rw [show c.built = false from e] at hb; nomatch hb

theorem ensures_bodyCtxBlind (h : s.Inv) (imm : Imm) : Ensures (bodyCtxBlind plain imm s) State.Inv :=
  ensures_bind (ensures_require s.ctx.built _) fun _ hb => ensures_then fun v =>
    ensures_then fun _ => ensures_then fun A =>
      ensures_ok (inv_context h (wf_contextBlinded hb (blindScalar v) A.x A.y))

/-- The work of every well-formed command keeps the invariant. -/
theorem ensures_body (h : s.Inv) (i : Instr) (hw : i.wf = true) : Ensures (body plain i s) State.Inv := by
  have rF := ensures_readF h
  have rS := ensures_readS h
  have rA := ensures_readA h
  have rJ := ensures_readJ h
  cases i with
  | nop => exact ensures_ok h
  | ctxBuild => exact ensures_ok (inv_context h wf_contextBuilt)
  | ctxClear => exact ensures_ok (inv_context h wf_contextClear)
  | ctxBlind imm => exact ensures_bodyCtxBlind h imm
  | feSetb32 rd imm =>
    exact ensures_bind (ensures_loadSlot imm s) fun _ hv => ensures_ok (inv_setOvf (inv_writeF h rd (wf_reducedConst hv)) _)
  | feGetb32 ra imm => exact ensures_then fun _ => ensures_then fun _ => ensures_ok (inv_storeSlot h (slot_le hw) _)
  | feSetint rd imm => exact ensures_ok (inv_writeF h rd (wf_smallConst imm))
  | feMov rd ra => exact ensures_writeF h rd (rF ra)
  | feNorm rd ra => exact ensures_then fun a => ensures_ok (inv_writeF h rd (wf_feNorm a))
  | feAdd rd ra rb =>
    exact ensures_bind (rF ra) fun _ ha => ensures_bind (rF rb) fun _ hb => ensures_writeF h rd fun _ => wf_feAdd ha hb
  | feMul rd ra rb =>
    exact ensures_bind (rF ra) fun _ ha => ensures_bind (rF rb) fun _ hb => ensures_writeF h rd fun _ => wf_feMul ha hb
  | feSqr rd ra => exact ensures_bind (rF ra) fun _ ha => ensures_writeF h rd fun _ => wf_feMul ha ha
  | feNeg rd ra imm => exact ensures_bind (rF ra) fun _ ha => ensures_writeF h rd fun _ => wf_feNeg ha
  | feCmov rd ra imm =>
    exact ensures_bind (rF rd) fun _ hd => ensures_bind (rF ra) fun _ ha => ensures_ok (inv_writeF h rd (wf_feCmov hd ha _))
  | feIszero ra => exact ensures_then fun _ => ensures_then fun _ => ensures_ok (inv_setT h _)
  | feEq ra rb =>
    exact ensures_then fun _ => ensures_then fun _ => ensures_then fun _ => ensures_then fun _ => ensures_ok (inv_setT h _)
  | feIsodd ra => exact ensures_then fun _ => ensures_then fun _ => ensures_ok (inv_setT h _)
  | feCmp ra rb =>
    exact ensures_then fun _ => ensures_then fun _ => ensures_then fun _ => ensures_then fun _ => ensures_ok (inv_setLtGt h _ _)
  | feInv rd ra =>
    exact ensures_then fun _ => ensures_then fun _ => ensures_bind (ensures_invCt p_pos) fun _ hr =>
      ensures_ok (inv_writeF h rd (wf_feConst hr))
  | feInvvar rd ra =>
    exact ensures_then fun _ => ensures_then fun _ => ensures_bind (ensures_invVar p_pos) fun _ hr =>
      ensures_ok (inv_writeF h rd (wf_feConst hr))
  | scSetb32 rd imm =>
    exact ensures_bind (ensures_loadSlot imm s) fun _ hv =>
      ensures_ok (inv_setOvf (inv_writeS h rd (reduceOnce_lt (hv.trans_le two_n))) _)
  | scGetb32 ra imm => exact ensures_then fun _ => ensures_ok (inv_storeSlot h (slot_le hw) _)
  | scSetint rd imm => exact ensures_ok (inv_writeS h rd (imm.isLt.trans (by decide)))
  | scMov rd ra => exact ensures_bind (rS ra) fun _ ha => ensures_ok (inv_writeS h rd ha)
  | scAdd rd ra rb =>
    exact ensures_bind (rS ra) fun _ ha => ensures_bind (rS rb) fun _ hb =>
      ensures_ok (inv_setOvf (inv_writeS h rd (scAdd_lt ha hb)) _)
  | scMul rd ra rb => exact ensures_then fun _ => ensures_then fun _ => ensures_ok (inv_writeS h rd (scMul_lt _ _))
  | scSqr rd ra => exact ensures_then fun _ => ensures_ok (inv_writeS h rd (scMul_lt _ _))
  | scNeg rd ra => exact ensures_then fun _ => ensures_ok (inv_writeS h rd (scNeg_lt _))
  | scCneg rd ra imm =>
    refine ensures_bind (rS ra) fun _ ha => ensures_ok (inv_setSgn (inv_writeS h rd ?_) _)
    split
    · exact scNeg_lt _
    · exact ha
  | scCmov rd ra imm =>
    refine ensures_bind (rS rd) fun _ hd => ensures_bind (rS ra) fun _ ha => ensures_ok (inv_writeS h rd ?_)
    split
    · exact ha
    · exact hd
  | scIszero ra => exact ensures_then fun _ => ensures_ok (inv_setT h _)
  | scEq ra rb => exact ensures_then fun _ => ensures_then fun _ => ensures_ok (inv_setT h _)
  | scIshigh ra => exact ensures_then fun _ => ensures_ok (inv_setT h _)
  | scInv rd ra => exact ensures_then fun _ => ensures_writeS h rd (ensures_invCt n_pos)
  | scInvvar rd ra => exact ensures_then fun _ => ensures_writeS h rd (ensures_invVar n_pos)
  | scMulshift rd ra rb imm =>
    exact ensures_bind (rS ra) fun _ ha => ensures_bind (rS rb) fun _ hb =>
      ensures_ok (inv_writeS h rd (mulShift_lt ha hb (shift_ge hw)))
  | scSplitlambda rd ra rb =>
    exact ensures_then fun k => ensures_ok
      (inv_writeS (inv_writeS h rd (splitLambda_lt k.toNat).1) rb (splitLambda_lt k.toNat).2)
  | scSplit128 rd ra rb =>
    exact ensures_bind (rS ra) fun _ hk => ensures_ok (inv_writeS (inv_writeS h rd (low128_lt _)) rb (high128_lt hk))
  | geSetxy rd ra rb =>
    exact ensures_bind (rF ra) fun _ hx => ensures_bind (rF rb) fun _ hy =>
      ensures_ok (inv_writeA h rd (wf_finite hx hy))
  | geGetx rd ra => exact ensures_bind (rA ra) fun _ hP => ensures_ok (inv_writeF h rd hP.x)
  | geGety rd ra => exact ensures_bind (rA ra) fun _ hP => ensures_ok (inv_writeF h rd hP.y)
  | geSetinf rd => exact ensures_ok (inv_writeA h rd wf_geInfinity)
  | geIsinf ra => exact ensures_then fun _ => ensures_ok (inv_setT h _)
  | geMov rd ra => exact ensures_writeA h rd (rA ra)
  | geNeg rd ra => exact ensures_bind (rA ra) fun _ hP => ensures_writeA h rd (ensures_negA hP)
  | geEq ra rb => exact ensures_then fun _ => ensures_then fun _ => ensures_then fun _ => ensures_ok (inv_setT h _)
  | geMullambda rd ra =>
    exact ensures_bind (rA ra) fun _ hP => ensures_then fun _ => ensures_bind (ensures_mulBeta hP) fun _ hx =>
      ensures_ok (inv_writeA h rd hx)
  | geTostor ra imm => exact ensures_then fun _ => ensures_then fun _ => ensures_ok (inv_storePair h (slot2_le hw) _ _)
  | geFromstor rd imm =>
    exact ensures_bind (ensures_loadPair imm s) fun _ hv =>
      ensures_ok (inv_setOvf (inv_writeA h rd (wf_finite (wf_reducedConst hv.1) (wf_reducedConst hv.2))) _)
  | geSetgej rd ra => exact ensures_bind (rJ ra) fun _ hP => ensures_writeA h rd (ensures_toAff_invCt hP)
  | geSetgejvar rd ra => exact ensures_bind (rJ ra) fun _ hP => ensures_writeA h rd (ensures_toAff_invVar hP)
  | geSetg rd => exact ensures_ok (inv_writeA h rd wf_generator)
  | gejSetge rd ra => exact ensures_bind (rA ra) fun _ hP => ensures_ok (inv_writeJ h rd (wf_toJac hP))
  | gejSetinf rd => exact ensures_ok (inv_writeJ h rd wf_gejInfinity)
  | gejIsinf ra => exact ensures_then fun _ => ensures_ok (inv_setT h _)
  | gejMov rd ra => exact ensures_writeJ h rd (rJ ra)
  | gejNeg rd ra => exact ensures_bind (rJ ra) fun _ hP => ensures_writeJ h rd (ensures_negJ hP)
  | gejDbl rd ra => exact ensures_bind (rJ ra) fun _ hP => ensures_writeJ h rd (ensures_gejDbl hP)
  | gejAddge rd ra rb =>
    exact ensures_bind (rJ ra) fun _ hP => ensures_bind (rA rb) fun _ hb => ensures_writeJ h rd (ensures_gejAddGe hP hb)
  | gejAddgevar rd ra rb =>
    exact ensures_bind (rJ ra) fun _ hP => ensures_bind (rA rb) fun _ hb => ensures_writeJ h rd (ensures_gejAddGeVar hP hb)
  | gejAddvar rd ra rb =>
    exact ensures_bind (rJ ra) fun _ hP => ensures_bind (rJ rb) fun _ hQ => ensures_writeJ h rd (ensures_gejAddVar hP hQ)
  | gejEq ra rb => exact ensures_then fun _ => ensures_then fun _ => ensures_then fun _ => ensures_ok (inv_setT h _)
  | gejGetc rd ra imm => exact ensures_bind (rJ ra) fun _ hP => ensures_ok (inv_writeF h rd (wf_coordinate hP imm))
  | ecmultGen rd ra => exact ensures_then fun _ => ensures_then fun _ => ensures_writeJ h rd (ensures_combMul _ h.context)
  | ecmult rd ra rb imm =>
    exact ensures_then fun _ => ensures_then fun _ => ensures_then fun _ => ensures_writeJ h rd (ensures_ecmult _ _ _)

end

/-! ## The step -/

section
variable {s t : State}

/-- A command word's run keeps the invariant when its work does: in the fault state nothing happens, else the work's state
retires or the fault is taken. -/
theorem runWord_inv (h : s.Inv) {w : Word} {work : Chk State} (hb : Ensures work State.Inv) (e : runWord w s work = .next t) :
    t.Inv := by
  rcases runWord_next e with ⟨-, rfl⟩ | ⟨-, u, hu, rfl⟩ | ⟨-, c, -, rfl⟩
  · exact h
  · exact inv_retire (hb u hu)
  · exact inv_takeFault h c w

theorem exec_inv (h : s.Inv) {i : Instr} (e : exec i s = .next t) : t.Inv := by
  rw [exec_eq_body, command] at e
  refine runWord_inv h ?_ e
  split
  · next hw => exact ensures_body h i hw
  · exact ensures_error _

theorem hostCmd_inv (h : s.Inv) {w : Word} (e : hostCmd w s = .next t) : t.Inv := by
  unfold hostCmd at e
  split at e
  · exact exec_inv h e
  · exact runWord_inv h (ensures_error _) e

theorem hostReset_inv (s : State) : (resetBlock s).Inv := inv_port inv_reset s.inbox State.reset.reply s.draws

theorem hostWrSlot_inv (h : s.Inv) {k : Nat} {b : Bytes32} (e : hostWrSlot k b s = .next t) : t.Inv := by
  unfold hostWrSlot at e
  split at e
  · next hk =>
    cases e
    rw [Config.nSlot] at hk
    exact inv_memWrite h (by rw [Vector.length_toList, slotAddr]; omega)
  · nomatch e

theorem hostRdSlot_inv (h : s.Inv) {k : Nat} (e : hostRdSlot k s = .next t) : t.Inv := by
  unfold hostRdSlot at e
  split at e
  · split at e <;> cases e <;> exact inv_port h _ _ _
  · nomatch e

theorem whenIdle_next {r : Result} (e : whenIdle s r = .next t) : r = .next t := by
  unfold whenIdle at e
  split at e
  · nomatch e
  · exact e

/-- Taking an operation off the list keeps the invariant, which says nothing of the port. -/
theorem nextOp_inv (h : s.Inv) {op : HostOp} {u : State} (e : nextOp s = some (op, u)) : u.Inv := by
  unfold nextOp at e
  split at e
  · nomatch e
  · cases e
    exact inv_port h _ _ _

end

/-- Settles O20, by the host operation that the step performs: each keeps the invariant, a command by `ensures_body`. -/
theorem stepKeepsInvariant : Obligations.StepKeepsInvariant := by
  intro s t h e
  unfold step at e
  split at e
  · cases e
    exact h
  · cases e
    exact hostReset_inv _
  · next hn => exact hostWrSlot_inv (nextOp_inv h hn) (whenIdle_next e)
  · next hn => exact hostRdSlot_inv (nextOp_inv h hn) (whenIdle_next e)
  · next hn => exact hostCmd_inv (nextOp_inv h hn) (whenIdle_next e)
  · next hn =>
    cases e
    exact inv_port (nextOp_inv h hn) _ _ _

end Sys2Proof.Machine
end

section
/-! SUPPORT. The state family (`spec/10_state.md`), part 3: what an invalid register holds is unreadable (R29). Forgetting the
contents of invalid registers changes no answer of a read, and commutes with every update of the state; so it commutes with
every command. -/

namespace Sys2Proof.Machine

/-! ## Register files -/

section
variable {α : Type} (d : α) (file : RegFile α) (r : RegNum)

theorem get_forget : (file.forget d).get r = if (file.get r).valid then file.get r else ⟨false, d⟩ :=
  Vector.getElem_map _ _

/-- A read answers only from a valid register, which is not forgotten. -/
theorem read_forget : (file.forget d).read r = file.read r := by
  unfold RegFile.read
  rw [get_forget]
  cases h : (file.get r).valid <;> simp [h]

/-- A write makes its register valid, so it is not forgotten. -/
theorem put_forget (v : α) : (file.put r v).forget d = (file.forget d).put r v := by
  refine regFile_ext fun q => ?_
  rw [get_forget, get_put, get_put, get_forget]
  by_cases h : q = r <;> simp [h]

theorem regFile_forget_idem : (file.forget d).forget d = file.forget d := by
  refine regFile_ext fun q => ?_
  rw [get_forget, get_forget]
  cases h : (file.get q).valid <;> simp [h]

end

/-! ## Reads of the state: the same answer -/

section
variable (s : State) (imm : Imm) (r : RegNum)

theorem readF_forget : readF r s.forget = readF r s := read_forget _ _ r

theorem readS_forget : readS r s.forget = readS r s := read_forget _ _ r

theorem readA_forget : readA r s.forget = readA r s := read_forget _ _ r

theorem readJ_forget : readJ r s.forget = readJ r s := read_forget _ _ r

theorem readGenerator_forget : readGenerator imm s.forget = readGenerator imm s := by
  unfold readGenerator
  split
  · rfl
  · rw [readS_forget]

theorem loadSlot_forget : loadSlot imm s.forget = loadSlot imm s := rfl

theorem loadPair_forget : loadPair imm s.forget = loadPair imm s := rfl

theorem condBit_forget : condBit imm s.forget = condBit imm s := rfl

/-- The selection by a condition, its decision included. -/
theorem ite_condBit_forget {α : Type} (a b : α) :
    (if condBit imm s.forget then a else b) = if condBit imm s then a else b := rfl

theorem ctx_forget : s.forget.ctx = s.ctx := rfl

/-! ## Updates of the state: before or after forgetting -/

theorem writeF_forget (v : Fe) : writeF r v s.forget = (writeF r v s).forget := by
  simp only [State.forget, writeF, put_forget]

theorem writeS_forget (v : Nat) : writeS r v s.forget = (writeS r v s).forget := by
  simp only [State.forget, writeS, put_forget]

theorem writeA_forget (v : Ge) : writeA r v s.forget = (writeA r v s).forget := by
  simp only [State.forget, writeA, put_forget]

theorem writeJ_forget (v : Gej) : writeJ r v s.forget = (writeJ r v s).forget := by
  simp only [State.forget, writeJ, put_forget]

theorem setT_forget (b : Bool) : setT b s.forget = (setT b s).forget := rfl

theorem setOvf_forget (b : Bool) : setOvf b s.forget = (setOvf b s).forget := rfl

theorem setSgn_forget (b : Bool) : setSgn b s.forget = (setSgn b s).forget := rfl

theorem setLtGt_forget (l g : Bool) : setLtGt l g s.forget = (setLtGt l g s).forget := rfl

theorem memWrite_forget (a n : Nat) (v : List Byte) : memWrite a n v s.forget = (memWrite a n v s).forget := rfl

theorem storeSlot_forget (v : Nat) : storeSlot imm v s.forget = (storeSlot imm v s).forget := memWrite_forget _ _ _ _

theorem storePair_forget (x y : Nat) : storePair imm x y s.forget = (storePair imm x y s).forget := memWrite_forget _ _ _ _

theorem setCtx_forget (c : Context) : { s.forget with ctx := c } = State.forget { s with ctx := c } := rfl

theorem retire_forget : retire s.forget = (retire s).forget := rfl

theorem takeFault_forget (c : Cause) (w : Word) : takeFault c w s.forget = (takeFault c w s).forget := rfl

theorem state_forget_idem : s.forget.forget = s.forget := by
  simp only [State.forget, regFile_forget_idem]

end

/-! ## Commands -/

/-- A command's work on the state with invalid registers forgotten answers the forgotten answer, or faults alike: every command
looks at the state through the reads above and ends in the updates above, so unfolding it leaves nothing else to compare. -/
theorem body_forget (i : Instr) (s : State) : body plain i s.forget = State.forget <$> body plain i s := by
  cases i <;>
  simp only [body, bodyNop, bodyCtxBuild, bodyCtxClear, bodyCtxBlind, bodyFeSetb32, bodyFeGetb32, bodyFeSetint, bodyFeMov,
    bodyFeNorm, bodyFeAdd, bodyFeMul, bodyFeSqr, bodyFeNeg, bodyFeCmov, bodyFeIszero, bodyFeEq, bodyFeIsodd, bodyFeCmp,
    bodyFeInv, bodyFeInvvar, bodyScSetb32, bodyScGetb32, bodyScSetint, bodyScMov, bodyScAdd, bodyScMul, bodyScSqr, bodyScNeg,
    bodyScCneg, bodyScCmov, bodyScIszero, bodyScEq, bodyScIshigh, bodyScInv, bodyScInvvar, bodyScMulshift, bodyScSplitlambda,
    bodyScSplit128, bodyGeSetxy, bodyGeGetx, bodyGeGety, bodyGeSetinf, bodyGeIsinf, bodyGeMov, bodyGeNeg, bodyGeEq,
    bodyGeMullambda, bodyGeTostor, bodyGeFromstor, bodyGeSetgej, bodyGeSetgejvar, bodyGeSetg, bodyGejSetge, bodyGejSetinf,
    bodyGejIsinf, bodyGejMov, bodyGejNeg, bodyGejDbl, bodyGejAddge, bodyGejAddgevar, bodyGejAddvar, bodyGejEq, bodyGejGetc,
    bodyEcmultGen, bodyEcmult,
    map_bind, map_pure,
    readF_forget, readS_forget, readA_forget, readJ_forget, readGenerator_forget, loadSlot_forget, loadPair_forget,
    ↓ite_condBit_forget, condBit_forget, ctx_forget,
    writeF_forget, writeS_forget, writeA_forget, writeJ_forget, setT_forget, setOvf_forget, setSgn_forget, setLtGt_forget,
    storeSlot_forget, storePair_forget, setCtx_forget]

/-- The cycle around the work commutes with forgetting too. -/
theorem command_forget {i : Instr} {s t : State} {work work' : Chk State} (hw : work' = State.forget <$> work)
    (h : command i s work = .next t) : command i s.forget work' = .next t.forget := by
  rcases command_next h with ⟨hf, rfl⟩ | ⟨hf, hi, u, rfl, rfl⟩ | ⟨hf, c, ⟨hi, rfl⟩ | ⟨hi, rfl⟩, rfl⟩
  · exact runWord_fault_state _ hf
  · exact command_ok (s := s.forget) hf hi hw
  · exact command_malformed hf hi
  · exact command_error hf hi hw

/-- Forgetting before a command or after it is the same. -/
theorem exec_forget {i : Instr} {s t : State} (h : exec i s = .next t) : exec i s.forget = .next t.forget := by
  rw [exec_eq_body] at h ⊢
  exact command_forget (body_forget i s) h

/-- Settles O22: the forgotten state steps to the forgotten next state, and forgetting twice is forgetting once. -/
theorem invalidRegistersAreUnreadable : Obligations.InvalidRegistersAreUnreadable :=
  fun _ _ t h => ⟨t.forget, exec_forget h, state_forget_idem t⟩

end Sys2Proof.Machine
end

section
/-! SUPPORT. The memory family (`spec/20_memory.md`): what a read of one or two slots answers, what a store of one or two slots
validates, and the host's slot accesses as what a step performs. -/

namespace Sys2Proof.Machine

/-! ## Strings of one or two slots (R62) -/

/-- A string written reads back whole. -/
theorem readBytes_writeBytes {m : List Host.Cell} {a n : Nat} {bs : List Byte} (hm : Memory.wf m) (ha : a + n ≤ 1024)
    (hn : bs.length = n) : Memory.readBytes (Memory.writeBytes m a bs) a n = bs := by
  subst hn
  refine List.ext_getElem (by simp [Memory.readBytes]) fun i _ hi => ?_
  simp [Memory.readBytes, read_writeBytes_inside m a bs hm ha hi]

section
variable {s : State} {k n : Nat}

/-- A read of one or two slots answers exactly when each of them is valid. -/
theorem memRead_slots (s : State) (k : Nat) (hn : n = 32 ∨ n = 64) :
    memRead (32 * k) n s =
      if slotValid k s ∧ (n = 64 → slotValid (k + 1) s) then .ok (Memory.readBytes s.mem (32 * k) n)
      else .error .uninitOperand := by
  rcases hn with rfl | rfl
  · simp [memRead_slot]
  · simp [memRead, coveredSlots_two]

/-- A store of one or two slots inside BUF validates the slots that begin within it and no other. -/
theorem slotValid_memWrite_slots (s : State) (v : List Byte) (j : Nat) (hn : n = 32 ∨ n = 64) (hk : 32 * k + n ≤ 1024) :
    slotValid j (memWrite (32 * k) n v s) =
      (slotValid j s || decide (32 * k ≤ 32 * j ∧ 32 * j < 32 * k + n)) := by
  rcases hn with rfl | rfl
  · have covered : (32 * k ≤ 32 * j ∧ 32 * j < 32 * k + 32) ↔ j = k := by omega
    rw [slotValid_memWrite_one k j v s (by omega)]
    simp only [covered]
    by_cases hj : j = k <;> simp [hj]
  · have covered : (32 * k ≤ 32 * j ∧ 32 * j < 32 * k + 64) ↔ j = k ∨ j = k + 1 := by omega
    rw [slotValid_memWrite_two k j v s (by omega)]
    simp only [covered]
    by_cases hj : j = k ∨ j = k + 1 <;> simp [hj]

/-- A read of the slots just written answers the string written. -/
theorem memRead_memWrite {v : List Byte} (hm : Memory.wf s.mem) (hn : n = 32 ∨ n = 64) (hk : 32 * k + n ≤ 1024)
    (hv : v.length = n) : memRead (32 * k) n (memWrite (32 * k) n v s) = .ok v := by
  have valid (j : Nat) (hj : 32 * k ≤ 32 * j ∧ 32 * j < 32 * k + n) : slotValid j (memWrite (32 * k) n v s) = true := by
    rw [slotValid_memWrite_slots s v j hn hk, decide_eq_true hj, Bool.or_true]
  rw [memRead_slots _ _ hn, if_pos ⟨valid k (by omega), fun h => valid (k + 1) (by omega)⟩, memWrite_mem,
    readBytes_writeBytes hm hk hv]

end

/-- Settles O8: the store byte by byte, the valid bits by the slots it covers, the reads by those two. -/
theorem memoryPrimitives : Obligations.MemoryPrimitives := by
  intro s k n v hm hn hk hv
  refine ⟨wf_writeBytes _ v hm (hv ▸ hk), fun j hj => read_writeBytes_inside _ _ v hm (hv ▸ hk) hj,
    fun a ha => read_writeBytes_outside _ _ v (hv ▸ ha), fun j => slotValid_memWrite_slots s v j hn hk,
    memRead_memWrite hm hn hk hv, memRead_slots s k hn⟩

/-! ## The host's slot accesses (R71) -/

section
variable {s : State} {k : Nat} {rest : List HostOp}

theorem step_wrSlot {b : Bytes32} (hi : s.inbox = .wrSlot k b :: rest) (hb : s.busy = false) :
    step s = hostWrSlot k b { s with inbox := rest, reply := .none } := by
  simp [step, nextOp, hi, whenIdle, hb]

theorem step_rdSlot (hi : s.inbox = .rdSlot k :: rest) (hb : s.busy = false) :
    step s = hostRdSlot k { s with inbox := rest, reply := .none } := by
  simp [step, nextOp, hi, whenIdle, hb]

theorem hostWrSlot_of_lt (b : Bytes32) (s : State) (hk : k < 32) :
    hostWrSlot k b s = .next (memWrite (32 * k) 32 b.toList s) := if_pos hk

theorem hostWrSlot_of_ge (b : Bytes32) (s : State) (hk : 32 ≤ k) :
    hostWrSlot k b s = .fault (.noSuchAddress (32 * k)) := if_neg (Nat.not_lt.2 hk)

theorem hostRdSlot_of_valid (hk : k < 32) (hv : slotValid k s = true) :
    hostRdSlot k s = .next { s with
      reply := .bytes (Vector.ofFn fun j : Fin 32 => Memory.read s.mem (32 * k + j.val)) } :=
  (if_pos hk).trans (if_pos hv)

/-- The bytes answered for an invalid slot are free values (U9). -/
theorem hostRdSlot_of_invalid (hk : k < 32) (hv : slotValid k s = false) :
    ∃ b, hostRdSlot k s = .next { s with reply := .bytes b, draws := s.draws + 32 } :=
  ⟨_, (if_pos hk).trans (if_neg (Bool.eq_false_iff.1 hv))⟩

theorem hostRdSlot_of_ge (s : State) (hk : 32 ≤ k) : hostRdSlot k s = .fault (.noSuchAddress (32 * k)) :=
  if_neg (Nat.not_lt.2 hk)

end

/-- Settles O6: a step performs the access on the state without it; what the store of H_WRSLOT leaves is R62 for one slot. -/
theorem hostSlotOperations : Obligations.HostSlotOperations := by
  intro s k rest hb
  refine ⟨fun b hi hk hm => ?write, fun hi hk hv => ?read, fun hi hk hv => ?readInvalid, fun b hi hk => ?outside⟩
  case write =>
    obtain ⟨-, inside, outside, valid, -, -⟩ := memoryPrimitives { s with inbox := rest, reply := .none } k 32 b.toList hm
      (.inl rfl) (by omega) b.length_toList
    refine ⟨_, (step_wrSlot hi hb).trans (hostWrSlot_of_lt b _ hk), ?_, fun j => ?_, outside, fun j hj => ?_⟩
    · simp [valid]
    · simpa using inside j (by simp)
    · have apart : ¬(32 * k ≤ 32 * j ∧ 32 * j < 32 * k + 32) := by omega
      rw [valid, decide_eq_false apart, Bool.or_false]
      rfl
  case read => exact (step_rdSlot hi hb).trans (hostRdSlot_of_valid hk hv)
  case readInvalid => rw [step_rdSlot hi hb]; exact hostRdSlot_of_invalid hk hv
  case outside =>
    rcases hi with hi | hi
    · exact (step_wrSlot hi hb).trans (hostWrSlot_of_ge b _ hk)
    · exact (step_rdSlot hi hb).trans (hostRdSlot_of_ge _ hk)

end Sys2Proof.Machine
end

section
/-! SUPPORT. The encoding family (`spec/30_encoding.md`). `encode` and `decode` meet in the opcode map: the row of an opcode
builds a command from the fields of a word, and `OpcodeRow.Faithful` says that this command's word and check are those of the
fields. It holds of every row, and both round trips follow from it. -/

namespace Sys2Proof

open Laws

/-! ## R87 (b) and (c) -/

theorem check_eq_none_iff {k : ImmKind} {imm : Imm} : k.check imm = none ↔ k.legal imm = true := by
  simp [ImmKind.check]

/-- An immediate that a format does not use is legal when R87 (a) holds. -/
theorem check_none_zero : ImmKind.none.check 0#12 = none := rfl

/-- The immediate is looked at first. -/
theorem malformed_eq_or (row : OpcodeRow) (w : Word) : row.malformed w =
    (row.kind.check (immOf w)).or (if row.fmt = .dda then checkDestinations (rdOf w) (rbOf w) else none) := by
  unfold OpcodeRow.malformed
  split
  · next h => rw [h, Option.some_or]
  · next h => rw [h, Option.none_or]

theorem malformed_eq_none_iff {row : OpcodeRow} {w : Word} :
    row.malformed w = none ↔ row.kind.legal (immOf w) = true ∧ ¬(row.fmt = .dda ∧ rdOf w = rbOf w) := by
  rw [malformed_eq_or, Option.or_eq_none_iff, check_eq_none_iff]
  simp [checkDestinations]

/-! ## The decoder, by what the opcode map answers (R86, R87) -/

section
variable {w : Word} {row : OpcodeRow}

theorem decode_of_rowOf_none (h : rowOf (opcOf w) = none) : decode w = .error .reservedOpcode := by
  simp only [decode, h]

theorem decode_of_unused (h : rowOf (opcOf w) = some row)
    (hu : row.fmt.unusedZero (rdOf w) (raOf w) (rbOf w) (immOf w) = false) : decode w = .error .unusedFieldNonzero := by
  simp only [decode, h, hu, Bool.false_eq_true, if_false]

theorem decode_of_malformed {m : Malformed} (h : rowOf (opcOf w) = some row)
    (hu : row.fmt.unusedZero (rdOf w) (raOf w) (rbOf w) (immOf w) = true) (hm : row.malformed w = some m) :
    decode w = .error (.malformed m) := by
  simp only [decode, h, hu, hm, if_true]

theorem decode_of_row (h : rowOf (opcOf w) = some row)
    (hu : row.fmt.unusedZero (rdOf w) (raOf w) (rbOf w) (immOf w) = true) (hm : row.malformed w = none) :
    decode w = .ok (row.build (rdOf w) (raOf w) (rbOf w) (immOf w)) := by
  simp only [decode, h, hu, hm, if_true]

/-- Everything the decoder can answer. -/
theorem decode_cases (w : Word) :
    (rowOf (opcOf w) = none ∧ decode w = .error .reservedOpcode) ∨
    ∃ row, rowOf (opcOf w) = some row ∧
      ((row.fmt.unusedZero (rdOf w) (raOf w) (rbOf w) (immOf w) = false ∧ decode w = .error .unusedFieldNonzero) ∨
      row.fmt.unusedZero (rdOf w) (raOf w) (rbOf w) (immOf w) = true ∧
        ((∃ m, row.malformed w = some m ∧ decode w = .error (.malformed m)) ∨
        (row.malformed w = none ∧ decode w = .ok (row.build (rdOf w) (raOf w) (rbOf w) (immOf w))))) := by
  cases h : rowOf (opcOf w) with
  | none => exact .inl ⟨rfl, decode_of_rowOf_none h⟩
  | some row =>
    refine .inr ⟨row, rfl, ?_⟩
    cases hu : row.fmt.unusedZero (rdOf w) (raOf w) (rbOf w) (immOf w) with
    | false => exact .inl ⟨rfl, decode_of_unused h hu⟩
    | true =>
      refine .inr ⟨rfl, ?_⟩
      cases hm : row.malformed w with
      | some m => exact .inl ⟨m, rfl, decode_of_malformed h hu hm⟩
      | none => exact .inr ⟨rfl, decode_of_row h hu hm⟩

theorem decode_eq_reserved_iff : decode w = .error .reservedOpcode ↔ rowOf (opcOf w) = none := by
  rcases decode_cases w with ⟨h, e⟩ | ⟨row, h, ⟨-, e⟩ | ⟨-, ⟨m, -, e⟩ | ⟨-, e⟩⟩⟩ <;> simp [h, e]

/-- Under an opcode of the map, a word decodes exactly when it passes R87 (a), (b) and (c). -/
theorem exists_decode_error_iff (h : rowOf (opcOf w) = some row) : (∃ e, decode w = .error e) ↔
    ¬(row.fmt.unusedZero (rdOf w) (raOf w) (rbOf w) (immOf w) = true ∧ row.malformed w = none) := by
  rcases decode_cases w with ⟨hn, -⟩ | ⟨row', hr, hc⟩
  · simp [hn] at h
  · obtain rfl : row' = row := Option.some.inj (hr.symm.trans h)
    rcases hc with ⟨hu, e⟩ | ⟨hu, ⟨m, hm, e⟩ | ⟨hm, e⟩⟩
    · simp [hu, e]
    · simp [hm, e]
    · simp [hu, hm, e]

theorem exists_row_of_decode {i : Instr} (h : decode w = .ok i) : ∃ row, rowOf (opcOf w) = some row ∧
    row.fmt.unusedZero (rdOf w) (raOf w) (rbOf w) (immOf w) = true ∧ row.malformed w = none ∧
    row.build (rdOf w) (raOf w) (rbOf w) (immOf w) = i := by
  rcases decode_cases w with ⟨-, e⟩ | ⟨row, hr, ⟨-, e⟩ | ⟨hu, ⟨m, -, e⟩ | ⟨hm, e⟩⟩⟩
  · nomatch e.symm.trans h
  · nomatch e.symm.trans h
  · nomatch e.symm.trans h
  · exact ⟨row, hr, hu, hm, Except.ok.inj (e.symm.trans h)⟩

end

/-! ## The rows of the opcode map (R85) -/

/-- The command that a row builds from fields of which the unused are 0 has the word of these fields, and is refused for what
R87 (b) and (c) refuse this word. -/
def OpcodeRow.Faithful (row : OpcodeRow) : Prop :=
  ∀ rd ra rb imm, row.fmt.unusedZero rd ra rb imm = true →
    encode (row.build rd ra rb imm) = pack row.opc rd ra rb imm ∧
    (row.build rd ra rb imm).check = row.malformed (pack row.opc rd ra rb imm)

/-- Row by row: the fields that `encode` writes as 0 are the unused ones, and the immediate that `Instr.check` looks at, or the
destinations, are those of the row's kind and format. -/
theorem faithful_of_mem {row : OpcodeRow} (h : row ∈ opcodeMap) : row.Faithful := by
  intro rd ra rb imm hu
  fin_cases h
  all_goals
    simp only [Format.unusedZero, Bool.and_eq_true, beq_iff_eq] at hu
    simp [hu, encode, Instr.check, malformed_eq_or, check_none_zero]

/-- A word with a row and its unused fields 0 is the word of the command that the row builds from it, well formed or not. -/
theorem encode_build {w : Word} {row : OpcodeRow} (h : rowOf (opcOf w) = some row)
    (hu : row.fmt.unusedZero (rdOf w) (raOf w) (rbOf w) (immOf w) = true) :
    encode (row.build (rdOf w) (raOf w) (rbOf w) (immOf w)) = w ∧
      (row.build (rdOf w) (raOf w) (rbOf w) (immOf w)).check = row.malformed w := by
  have hopc : row.opc = opcOf w := by simpa using List.find?_some h
  have built := faithful_of_mem (List.mem_of_find?_eq_some h) _ _ _ _ hu
  rwa [hopc, pack_fields] at built

/-- Every instruction's word has a row, its unused fields are 0, and the row builds the instruction back from it. -/
theorem packing (i : Instr) : Packing.Statement i :=
  match i with
  | .nop => Packing.nop
  | .ctxBuild => Packing.ctxBuild
  | .ctxClear => Packing.ctxClear
  | .ctxBlind .. => Packing.ctxBlind ..
  | .feSetb32 .. => Packing.feSetb32 ..
  | .feGetb32 .. => Packing.feGetb32 ..
  | .feSetint .. => Packing.feSetint ..
  | .feMov .. => Packing.feMov ..
  | .feNorm .. => Packing.feNorm ..
  | .feAdd .. => Packing.feAdd ..
  | .feMul .. => Packing.feMul ..
  | .feSqr .. => Packing.feSqr ..
  | .feNeg .. => Packing.feNeg ..
  | .feCmov .. => Packing.feCmov ..
  | .feIszero .. => Packing.feIszero ..
  | .feEq .. => Packing.feEq ..
  | .feIsodd .. => Packing.feIsodd ..
  | .feCmp .. => Packing.feCmp ..
  | .feInv .. => Packing.feInv ..
  | .feInvvar .. => Packing.feInvvar ..
  | .scSetb32 .. => Packing.scSetb32 ..
  | .scGetb32 .. => Packing.scGetb32 ..
  | .scSetint .. => Packing.scSetint ..
  | .scMov .. => Packing.scMov ..
  | .scAdd .. => Packing.scAdd ..
  | .scMul .. => Packing.scMul ..
  | .scSqr .. => Packing.scSqr ..
  | .scNeg .. => Packing.scNeg ..
  | .scCneg .. => Packing.scCneg ..
  | .scCmov .. => Packing.scCmov ..
  | .scIszero .. => Packing.scIszero ..
  | .scEq .. => Packing.scEq ..
  | .scIshigh .. => Packing.scIshigh ..
  | .scInv .. => Packing.scInv ..
  | .scInvvar .. => Packing.scInvvar ..
  | .scMulshift .. => Packing.scMulshift ..
  | .scSplitlambda .. => Packing.scSplitlambda ..
  | .scSplit128 .. => Packing.scSplit128 ..
  | .geSetxy .. => Packing.geSetxy ..
  | .geGetx .. => Packing.geGetx ..
  | .geGety .. => Packing.geGety ..
  | .geSetinf .. => Packing.geSetinf ..
  | .geIsinf .. => Packing.geIsinf ..
  | .geMov .. => Packing.geMov ..
  | .geNeg .. => Packing.geNeg ..
  | .geEq .. => Packing.geEq ..
  | .geMullambda .. => Packing.geMullambda ..
  | .geTostor .. => Packing.geTostor ..
  | .geFromstor .. => Packing.geFromstor ..
  | .geSetgej .. => Packing.geSetgej ..
  | .geSetgejvar .. => Packing.geSetgejvar ..
  | .geSetg .. => Packing.geSetg ..
  | .gejSetge .. => Packing.gejSetge ..
  | .gejSetinf .. => Packing.gejSetinf ..
  | .gejIsinf .. => Packing.gejIsinf ..
  | .gejMov .. => Packing.gejMov ..
  | .gejNeg .. => Packing.gejNeg ..
  | .gejDbl .. => Packing.gejDbl ..
  | .gejAddge .. => Packing.gejAddge ..
  | .gejAddgevar .. => Packing.gejAddgevar ..
  | .gejAddvar .. => Packing.gejAddvar ..
  | .gejEq .. => Packing.gejEq ..
  | .gejGetc .. => Packing.gejGetc ..
  | .ecmultGen .. => Packing.ecmultGen ..
  | .ecmult .. => Packing.ecmult ..

/-! ## The round trips (R92) -/

/-- Settles O16: the row of the word builds the instruction back, and refuses the word for what `Instr.check` finds. -/
theorem decodeOfEncode : Obligations.DecodeOfEncode := by
  intro i
  obtain ⟨row, hr, hu, hb⟩ := packing i
  have hc : i.check = row.malformed (encode i) := by rw [← (encode_build hr hu).2, hb]
  constructor
  · intro hw
    rw [decode_of_row hr hu (hc ▸ Option.isNone_iff_eq_none.1 hw), hb]
  · intro m hm
    exact decode_of_malformed hr hu (hc ▸ hm)

/-- Settles O17: a word that decodes has a row and its unused fields 0, and passes the row's check. -/
theorem encodeOfDecode : Obligations.EncodeOfDecode := by
  intro w i h
  obtain ⟨row, hr, hu, hm, rfl⟩ := exists_row_of_decode h
  obtain ⟨hw, hc⟩ := encode_build hr hu
  exact ⟨hw, Option.isNone_iff_eq_none.2 (hc.trans hm)⟩

/-! ## Illegal words (R86, R87) -/

/-- The reserved opcodes (R86). -/
theorem rowOf_eq_none_iff (o : Opcode) :
    rowOf o = none ↔ 0x04 ≤ o ∧ o ≤ 0x0F ∨ 0x32 ≤ o ∧ o ≤ 0x3F ∨ o = 0x4E ∨ o = 0x4F ∨ 0x5B ≤ o ∧ o ≤ 0x5F ∨ 0x62 ≤ o := by
  revert o
  decide +kernel

/-- A word that does not decode takes the fault ILLEGAL_CMD outside the fault state. -/
theorem hostCmd_of_error {w : Word} {e : Illegal} {s : Machine.State} (h : decode w = .error e) (hs : s.Ready) :
    Machine.hostCmd w s = .next (Machine.takeFault .illegalCmd w s) := by
  simp only [Machine.hostCmd, h, Machine.illegalCommand]
  exact Machine.runWord_error _ hs

/-- Settles O4: the reserved opcodes are those without a row, the other illegal words those that R87 (a), (b) or (c) refuses. -/
theorem illegalWordsFault : Obligations.IllegalWordsFault := by
  refine ⟨fun w => ?reserved, fun w row hr => ?illegal, fun s w rest e hi hb hs he => ?fault⟩
  case reserved => rw [decode_eq_reserved_iff, rowOf_eq_none_iff]
  case illegal =>
    rw [exists_decode_error_iff hr, malformed_eq_none_iff, not_and_or, not_and_or, not_not, Bool.not_eq_true,
      Bool.not_eq_true]
  case fault =>
    rw [Machine.step_cmd hi hb]
    exact hostCmd_of_error he hs

/-! ## Words the spec prints -/

theorem decode_of_encode_eq {w : Word} {i : Instr} (h : encode i = w) (hw : i.wf = true) : decode w = .ok i :=
  h ▸ (decodeOfEncode i).1 hw

/-- Settles O18: each word is the word of its command, which is well formed. -/
theorem decodeSanityWords : Obligations.DecodeSanityWords :=
  ⟨decode_of_encode_eq rfl rfl, decode_of_encode_eq rfl rfl, decode_of_encode_eq rfl rfl, decode_of_encode_eq rfl rfl,
    decode_of_encode_eq rfl rfl, decode_of_encode_eq rfl rfl, decode_of_encode_eq rfl rfl, decode_of_encode_eq rfl rfl,
    decode_of_encode_eq rfl rfl⟩

end Sys2Proof
end

section
/-! SUPPORT. The system family (`spec/40_system.md`): what a command can do to the state. The work of a command is confined to
the command's footprint, and the cycle around it retires the work's state or takes a fault; so every frame, and the outcomes of
a command, are read off one case distinction (`exec_cases`). -/

namespace Sys2Proof.Machine

/-! ## Work within a footprint (R103) -/

/-- The state `u` that a command's work computes from `s` differs only inside the footprint: the cycle's own registers, FAULT,
CAUSE, FINFO and CMDCNT, are as they were. -/
structure Confined (fp : Footprint) (s u : State) : Prop extends Untouched fp s u where
  fault : u.fault = s.fault
  cause : u.cause = s.cause
  finfo : u.finfo = s.finfo
  cmdcnt : u.cmdcnt = s.cmdcnt

theorem untouched_refl (fp : Footprint) (s : State) : Untouched fp s s where
  fr _ _ := rfl
  sr _ _ := rfl
  ar _ _ := rfl
  jr _ _ := rfl
  t _ := rfl
  ovf _ := rfl
  sgn _ := rfl
  ltgt _ := ⟨rfl, rfl⟩
  mem _ _ := rfl
  slots _ _ := rfl
  ctx _ := rfl
  busy := rfl
  control _ := ⟨rfl, rfl⟩
  count _ := rfl
  port := ⟨rfl, rfl, rfl⟩

theorem confined_refl (fp : Footprint) (s : State) : Confined fp s s :=
  ⟨untouched_refl fp s, rfl, rfl, rfl, rfl⟩

theorem stores_iff {fp : Footprint} {addr len : Nat} (hs : fp.store = some (addr, len)) (a : Nat) :
    fp.stores a ↔ addr ≤ a ∧ a < addr + len := by
  rw [Footprint.stores, hs]

theorem storesSlot_iff {fp : Footprint} {addr len : Nat} (hs : fp.store = some (addr, len)) (k : Nat) :
    fp.storesSlot k ↔ addr ≤ 32 * k ∧ 32 * k < addr + len := by
  rw [Footprint.storesSlot, hs]

/-- A write to a register of the footprint leaves every register outside it. -/
theorem get_put_outside {α : Type} {file file' : RegFile α} {rs : List RegNum} {r : RegNum}
    (hf : ∀ q, q ∉ rs → file.get q = file'.get q) (hr : r ∈ rs) (v : α) :
    ∀ q, q ∉ rs → (file.put r v).get q = file'.get q := fun q hq =>
  (get_put_other file v fun (e : q = r) => hq (e ▸ hr)).trans (hf q hq)

/-! Each update of the state stays within a footprint that has its destination. -/

section
variable {fp : Footprint} {s u : State} (h : Confined fp s u)
include h

theorem Confined.writeF {r : RegNum} (hr : r ∈ fp.fr) (v : Fe) : Confined fp s (writeF r v u) :=
  { h with fr := get_put_outside h.fr hr v }

theorem Confined.writeS {r : RegNum} (hr : r ∈ fp.sr) (v : Nat) : Confined fp s (writeS r v u) :=
  { h with sr := get_put_outside h.sr hr _ }

theorem Confined.writeA {r : RegNum} (hr : r ∈ fp.ar) (v : Ge) : Confined fp s (writeA r v u) :=
  { h with ar := get_put_outside h.ar hr v }

theorem Confined.writeJ {r : RegNum} (hr : r ∈ fp.jr) (v : Gej) : Confined fp s (writeJ r v u) :=
  { h with jr := get_put_outside h.jr hr v }

theorem Confined.setT (hf : fp.t = true) (b : Bool) : Confined fp s (setT b u) :=
  { h with t := fun e => nomatch hf.symm.trans e }

theorem Confined.setOvf (hf : fp.ovf = true) (b : Bool) : Confined fp s (setOvf b u) :=
  { h with ovf := fun e => nomatch hf.symm.trans e }

theorem Confined.setSgn (hf : fp.sgn = true) (b : Bool) : Confined fp s (setSgn b u) :=
  { h with sgn := fun e => nomatch hf.symm.trans e }

theorem Confined.setLtGt (hf : fp.ltgt = true) (l g : Bool) : Confined fp s (setLtGt l g u) :=
  { h with ltgt := fun e => nomatch hf.symm.trans e }

theorem Confined.setCtx (hf : fp.ctx = true) (c : Context) : Confined fp s { u with ctx := c } :=
  { h with ctx := fun e => nomatch hf.symm.trans e }

/-- A store of one or two slots inside BUF changes the bytes stored and the valid bits of the slots they fill (R62). -/
theorem Confined.memWrite {k n : Nat} {v : List Byte} (hs : fp.store = some (32 * k, n)) (hn : n = 32 ∨ n = 64)
    (hk : 32 * k + n ≤ 1024) (hv : v.length = n) : Confined fp s (memWrite (32 * k) n v u) :=
  { h with
    mem := fun a ha => by
      rw [stores_iff hs] at ha
      rw [memWrite_mem, read_writeBytes_outside _ _ _ (by omega), h.mem a (by rwa [stores_iff hs])]
    slots := fun j hj => by
      rw [storesSlot_iff hs] at hj
      rw [slotValid_memWrite_slots u v j hn hk, decide_eq_false hj, Bool.or_false, h.slots j (by rwa [storesSlot_iff hs])] }

theorem Confined.storeSlot {imm : Imm} (hs : fp.store = some (immAddr imm, 32)) (hi : imm.toNat ≤ 31) (v : Nat) :
    Confined fp s (storeSlot imm v u) :=
  h.memWrite hs (.inl rfl) (by omega) (be32_length v)

theorem Confined.storePair {imm : Imm} (hs : fp.store = some (immAddr imm, 64)) (hi : imm.toNat ≤ 30) (x y : Nat) :
    Confined fp s (storePair imm x y u) :=
  h.memWrite hs (.inr rfl) (by omega) (by rw [List.length_append, be32_length, be32_length])

end

/-- The work of a well-formed command is confined to its footprint: what it reads and computes on the way changes nothing, and
its last act writes the destinations that the footprint names. -/
theorem body_confined (i : Instr) (s : State) (hw : i.wf = true) :
    Ensures (body plain i s) (Confined (footprint i) s) := by
  have h := confined_refl (footprint i) s
  cases i
  -- Whatever the work reads and computes, `s` is still the state when its last act comes.
  all_goals
    repeat refine ensures_then fun _ => ?_
    refine ensures_ok ?_
  case nop => exact h
  case ctxBuild | ctxClear | ctxBlind => exact h.setCtx rfl _
  case feSetb32 => exact (h.writeF (List.mem_singleton_self _) _).setOvf rfl _
  case feGetb32 | scGetb32 => exact h.storeSlot rfl (slot_le hw) _
  case feSetint | feMov | feNorm | feAdd | feMul | feSqr | feNeg | feCmov | feInv | feInvvar | geGetx | geGety | gejGetc =>
    exact h.writeF (List.mem_singleton_self _) _
  case feIszero | feEq | feIsodd | scIszero | scEq | scIshigh | geIsinf | geEq | gejIsinf | gejEq => exact h.setT rfl _
  case feCmp => exact h.setLtGt rfl _ _
  case scSetb32 | scAdd => exact (h.writeS (List.mem_singleton_self _) _).setOvf rfl _
  case scSetint | scMov | scMul | scSqr | scNeg | scCmov | scInv | scInvvar | scMulshift =>
    exact h.writeS (List.mem_singleton_self _) _
  case scCneg => exact (h.writeS (List.mem_singleton_self _) _).setSgn rfl _
  case scSplitlambda | scSplit128 =>
    exact (h.writeS List.mem_cons_self _).writeS (List.mem_cons_of_mem _ (List.mem_singleton_self _)) _
  case geSetxy | geSetinf | geMov | geNeg | geMullambda | geSetgej | geSetgejvar | geSetg =>
    exact h.writeA (List.mem_singleton_self _) _
  case geTostor => exact h.storePair rfl (slot2_le hw) _ _
  case geFromstor => exact (h.writeA (List.mem_singleton_self _) _).setOvf rfl _
  case gejSetge | gejSetinf | gejMov | gejNeg | gejDbl | gejAddge | gejAddgevar | gejAddvar | ecmultGen | ecmult =>
    exact h.writeJ (List.mem_singleton_self _) _

/-! ## What a command can do (R100, R106) -/

/-- In the fault state a command is ignored (`spec/60_exceptions.md` R285). -/
theorem exec_of_fault (i : Instr) {s : State} (hf : s.fault = true) : exec i s = .next s := by
  rw [exec_eq_body]
  exact runWord_fault_state _ hf

theorem exec_always_next (i : Instr) (s : State) : ∃ t, exec i s = .next t := by
  rw [exec_eq_body]
  exact runWord_always_next _ _ _

/-- Everything a command can do: nothing in the fault state; retire a state that differs inside the footprint only; take a
fault. -/
theorem exec_cases {i : Instr} {s t : State} (h : exec i s = .next t) :
    (s.fault = true ∧ t = s) ∨
    (s.fault = false ∧ ∃ u, Confined (footprint i) s u ∧ t = retire u) ∨
    (s.fault = false ∧ ∃ c, t = takeFault c (encode i) s) := by
  rw [exec_eq_body] at h
  rcases command_next h with hs | ⟨hf, hw, u, hu, ht⟩ | ⟨hf, c, -, ht⟩
  · exact .inl hs
  · exact .inr (.inl ⟨hf, u, body_confined i s hw u hu, ht⟩)
  · exact .inr (.inr ⟨hf, c, ht⟩)

/-- Settles O9: the three cases of `exec_cases`; work within a footprint leaves FAULT, CAUSE, FINFO and CMDCNT to the cycle. -/
theorem commandOutcomes : Obligations.CommandOutcomes := by
  intro i s
  obtain ⟨t, ht⟩ := exec_always_next i s
  refine ⟨t, ht, ?_⟩
  rcases exec_cases ht with ⟨hf, rfl⟩ | ⟨hf, u, hu, rfl⟩ | ⟨hf, c, rfl⟩
  · exact ⟨fun _ => rfl, fun e => nomatch hf.symm.trans e⟩
  · exact ⟨fun e => (nomatch hf.symm.trans e), fun _ =>
      .inl ⟨hu.fault.trans hf, congrArg (· + 1) hu.cmdcnt, hu.cause, hu.finfo⟩⟩
  · exact ⟨fun e => (nomatch hf.symm.trans e), fun _ => .inr ⟨c, rfl⟩⟩

/-! ## Frames -/

/-- A command that retires records no fault: CAUSE and FINFO are as before, and only CMDCNT counts on. -/
theorem Confined.untouched_retire {fp : Footprint} {s u : State} (h : Confined fp s u) (hf : s.fault = false) :
    Untouched fp s (retire u) :=
  { h with
    control := fun _ => ⟨h.cause, h.finfo⟩
    count := fun e => nomatch e.symm.trans (h.fault.trans hf) }

/-- A fault taken outside the fault state changes FAULT, and with it CAUSE and FINFO. -/
theorem untouched_takeFault (fp : Footprint) {s : State} (c : Cause) (w : Word) (hf : s.fault = false) :
    Untouched fp s (takeFault c w s) :=
  { untouched_refl fp s with
    control := fun e => nomatch e.trans hf
    count := fun _ => rfl }

/-- The frame of every command (R103, R106). -/
theorem exec_untouched {i : Instr} {s t : State} (h : exec i s = .next t) : Untouched (footprint i) s t := by
  rcases exec_cases h with ⟨-, rfl⟩ | ⟨hf, u, hu, rfl⟩ | ⟨hf, c, rfl⟩
  · exact untouched_refl _ _
  · exact hu.untouched_retire hf
  · exact untouched_takeFault _ c _ hf

/-- Settles O11: the frame holds of every command. -/
theorem contextAndMultiplierFrame : Obligations.ContextAndMultiplierFrame := fun _ _ _ _ h => exec_untouched h

/-- Settles O12: the frame holds of every command. -/
theorem fieldFrame : Obligations.FieldFrame := fun _ _ _ _ h => exec_untouched h

/-- Settles O13: the frame holds of every command. -/
theorem scalarFrame : Obligations.ScalarFrame := fun _ _ _ _ h => exec_untouched h

/-- Settles O14: the frame holds of every command. -/
theorem affineFrame : Obligations.AffineFrame := fun _ _ _ _ h => exec_untouched h

/-- Settles O15: the frame holds of every command. -/
theorem jacobianFrame : Obligations.JacobianFrame := fun _ _ _ _ h => exec_untouched h

/-! ## The step of a command word (R71, R100) -/

theorem hostCmd_of_ok {w : Word} {i : Instr} (s : State) (h : decode w = .ok i) : hostCmd w s = exec i s := by
  simp only [hostCmd, h]

/-- Placing a whole word places that word. -/
theorem withFetchWord_toNat (s : State) (w : Word) : s.withFetchWord 32 w.toNat = issueWord w s := by
  rw [State.withFetchWord, Nat.mod_eq_of_lt w.isLt, BitVec.ofNat_toNat, BitVec.setWidth_eq]

/-- Settles O3: the step hands the word to `hostCmd`, which executes what it decodes to. -/
theorem stepRunsTheDecodedCommand : Obligations.StepRunsTheDecodedCommand := by
  refine ⟨fun s w rest i hi hb hd => ?_, fun s w i hd => ?_⟩
  · rw [step_cmd hi hb, hostCmd_of_ok _ hd]
  · rw [withFetchWord_toNat, step_cmd (rest := s.inbox) rfl rfl, hostCmd_of_ok _ hd]
    rfl

/-! ## NOP (R104) -/

/-- Opcode 0x00 uses no other field, so a nonzero word with it is illegal. -/
theorem decode_opcode_zero {w : Word} (ho : opcOf w = 0) (hw : w ≠ 0) : decode w = .error .unusedFieldNonzero := by
  refine decode_of_unused (by rw [ho]; rfl) (Bool.eq_false_iff.2 fun hu => hw ?_)
  simp only [Format.unusedZero, Bool.and_eq_true, beq_iff_eq] at hu
  obtain ⟨⟨⟨hd, ha⟩, hb⟩, hi⟩ := hu
  rw [← pack_fields w, ho, hd, ha, hb, hi]
  rfl

/-- Settles O23: NOP's work answers the state itself; the words of opcode 0x00 by R87 (a). -/
theorem nopAdvancesCmdcnt : Obligations.NopAdvancesCmdcnt :=
  ⟨fun s hs => (exec_eq_body .nop s).trans (command_ok hs rfl rfl), fun _ => exec_of_fault .nop, decodeSanityWords.1,
    fun _ => decode_opcode_zero⟩

end Sys2Proof.Machine
end

section
/-! SUPPORT. The field family (`spec/41_field.md`): what a read of a register or a slot contributes to a command's work, each
field command's run once its operands are read, and the helpers' values as residues modulo p. -/

namespace Sys2Proof.Machine

/-! ## Commands whose work is known -/

/-- A well-formed command is the run of its work. -/
theorem exec_of_work {i : Instr} {s : State} {work : Chk State} (hw : i.wf = true) (hb : body plain i s = work) :
    exec i s = runWord (encode i) s work := by
  rw [exec_eq_body, command, if_pos hw, hb]

/-- The check of an immediate passes exactly when the immediate is legal (R83, R87). -/
theorem isNone_check (k : ImmKind) (imm : Imm) : (k.check imm).isNone = k.legal imm := by
  unfold ImmKind.check
  cases k.legal imm <;> rfl

theorem slot_check {imm : Imm} (h : imm.toNat ≤ 31) : (ImmKind.slot.check imm).isNone = true :=
  (isNone_check _ _).trans (decide_eq_true h)

theorem m_check (imm : Imm) : (ImmKind.m.check imm).isNone = decide (imm.toNat ≤ 31) := isNone_check _ _

theorem cond_check {imm : Imm} (h : imm.toNat ≤ 2) : (ImmKind.cond.check imm).isNone = true :=
  (isNone_check _ _).trans (decide_eq_true h)

/-! ## Operands of a command's work -/

section
variable {s : State} {r : RegNum} {work : Chk State}

theorem readF_bind {a : Fe} (h : s.HoldsF r a) {f : Fe → Chk State} (hf : f a = work) : (readF r s >>= f) = work := by
  rw [readF_ok h, chk_ok_bind, hf]

theorem readF_bind_invalid (h : (s.fr.get r).valid = false) (f : Fe → Chk State) :
    (readF r s >>= f) = .error .uninitOperand := by
  rw [show readF r s = .error .uninitOperand from read_of_invalid h, chk_error_bind]

theorem readS_bind {a : ScalarWord} (h : s.HoldsS r a) {f : ScalarWord → Chk State} (hf : f a = work) :
    (readS r s >>= f) = work := by
  rw [readS_ok h, chk_ok_bind, hf]

theorem loadSlot_bind {imm : Imm} {v : Nat} (h : loadSlot imm s = .ok v) {f : Nat → Chk State} (hf : f v = work) :
    (loadSlot imm s >>= f) = work := by
  rw [h, chk_ok_bind, hf]

end

/-- A slot that holds `v` loads as `v` (R11, R62). -/
theorem loadSlot_of_slotHolds {s : State} {imm : Imm} {v : Nat} (h : s.SlotHolds imm.toNat v) : loadSlot imm s = .ok v :=
  loadSlot_ok h.valid (readBytes_eq_be32 h.bytes) h.value

/-- A value stored in a slot loads back (R62, R63). -/
theorem loadSlot_storeSlot {s : State} {imm : Imm} {v : Nat} (hm : Memory.wf s.mem) (hi : imm.toNat ≤ 31)
    (hv : v < 2 ^ 256) : loadSlot imm (storeSlot imm v s) = .ok v := by
  have stored : memRead (immAddr imm) 32 (storeSlot imm v s) = .ok (be32 v) :=
    memRead_memWrite hm (.inl rfl) (by omega) (be32_length v)
  rw [loadSlot, stored, chk_ok_bind, chk_pure, intBe_be32 v hv]

/-- Retiring leaves what a slot loads as. -/
theorem loadSlot_retire (imm : Imm) (s : State) : loadSlot imm (retire s) = loadSlot imm s := rfl

theorem ready_retire_storeSlot {s : State} (imm : Imm) (v : Nat) (hs : s.Ready) : (retire (storeSlot imm v s)).Ready := by
  rw [State.Ready, retire_fault, storeSlot_eq, memWrite_fault, hs]

/-! ## Decoding a 32-byte value (R117, R141) -/

theorem reduceOnce_of_lt {v M : Nat} (h : v < M) : reduceOnce v M = (v, false) := by
  simp [reduceOnce, Nat.not_le.2 h]

theorem reduceOnce_eq {v M : Nat} (h : v < 2 * M) : reduceOnce v M = (v % M, decide (M ≤ v)) :=
  Prod.ext (reduceOnce_eq_mod h) rfl

/-- A normalized content is the constant of its integer (R23, R111). -/
theorem Fe.Wf.eq_feConst {a : Fe} (h : a.Wf) (hn : a.norm = true) : a = feConst a.ival := by
  obtain ⟨hm, -, hc⟩ := h.normalized hn
  obtain ⟨n, mag, norm⟩ := a
  subst hm hn
  exact congrArg (Fe.mk · 1 true) hc

theorem Fe.Wf.ival_lt_p {a : Fe} (h : a.Wf) (hn : a.norm = true) : a.ival < Const.p := (h.normalized hn).2.1

/-! ## The run of each command once its operands are read -/

section
variable {s : State} {rd ra rb : RegNum} {imm : Imm}

theorem exec_feSetb32 {v : Nat} (hi : imm.toNat ≤ 31) (hv : loadSlot imm s = .ok v) :
    exec (.feSetb32 rd imm) s = runWord (encode (.feSetb32 rd imm)) s
      (.ok (setOvf (reduceOnce v Const.p).2 (writeF rd (feConst (reduceOnce v Const.p).1) s))) :=
  exec_of_work (slot_check hi) (loadSlot_bind hv rfl)

theorem exec_scSetb32 {v : Nat} (hi : imm.toNat ≤ 31) (hv : loadSlot imm s = .ok v) :
    exec (.scSetb32 rd imm) s = runWord (encode (.scSetb32 rd imm)) s
      (.ok (setOvf (reduceOnce v Const.n).2 (writeS rd (reduceOnce v Const.n).1 s))) :=
  exec_of_work (slot_check hi) (loadSlot_bind hv rfl)

theorem exec_scGetb32 {k : ScalarWord} (hi : imm.toNat ≤ 31) (hk : s.HoldsS ra k) :
    exec (.scGetb32 ra imm) s = runWord (encode (.scGetb32 ra imm)) s (.ok (storeSlot imm k.toNat s)) :=
  exec_of_work (slot_check hi) (readS_bind hk rfl)

theorem exec_feSetint : exec (.feSetint rd imm) s = runWord (encode (.feSetint rd imm)) s
    (.ok (writeF rd (feConst imm.toNat) s)) :=
  exec_of_work rfl rfl

section
variable {a : Fe} (ha : s.HoldsF ra a)
include ha

theorem exec_feGetb32 (hi : imm.toNat ≤ 31) :
    exec (.feGetb32 ra imm) s = runWord (encode (.feGetb32 ra imm)) s
      (requireNorm a >>= fun _ => .ok (storeSlot imm a.ival s)) :=
  exec_of_work (slot_check hi) (readF_bind ha rfl)

theorem exec_feMov : exec (.feMov rd ra) s = runWord (encode (.feMov rd ra)) s (.ok (writeF rd a s)) :=
  exec_of_work rfl (readF_bind ha rfl)

theorem exec_feNorm : exec (.feNorm rd ra) s = runWord (encode (.feNorm rd ra)) s (.ok (writeF rd (feNorm a) s)) :=
  exec_of_work rfl (readF_bind ha rfl)

theorem exec_feSqr : exec (.feSqr rd ra) s = runWord (encode (.feSqr rd ra)) s
    (feSqr a >>= fun r => .ok (writeF rd r s)) :=
  exec_of_work rfl (readF_bind ha rfl)

theorem exec_feNeg (hi : imm.toNat ≤ 31) :
    exec (.feNeg rd ra imm) s = runWord (encode (.feNeg rd ra imm)) s
      (feNeg a imm.toNat >>= fun r => .ok (writeF rd r s)) :=
  exec_of_work ((m_check imm).trans (decide_eq_true hi)) (readF_bind ha rfl)

theorem exec_feCmov {d : Fe} (hd : s.HoldsF rd d) (hi : imm.toNat ≤ 2) :
    exec (.feCmov rd ra imm) s = runWord (encode (.feCmov rd ra imm)) s
      (.ok (writeF rd (feCmov d a (condBit imm s)) s)) :=
  exec_of_work (cond_check hi) (readF_bind hd (readF_bind ha rfl))

theorem exec_feIszero : exec (.feIszero ra) s = runWord (encode (.feIszero ra)) s
    (requireNorm a >>= fun _ => .ok (setT (decide (a.ival = 0)) s)) :=
  exec_of_work rfl (readF_bind ha rfl)

theorem exec_feIsodd : exec (.feIsodd ra) s = runWord (encode (.feIsodd ra)) s
    (requireNorm a >>= fun _ => .ok (setT (decide (a.n.n0.toNat % 2 = 1)) s)) :=
  exec_of_work rfl (readF_bind ha rfl)

section
variable {b : Fe} (hb : s.HoldsF rb b)
include hb

theorem exec_feAdd : exec (.feAdd rd ra rb) s = runWord (encode (.feAdd rd ra rb)) s
    (feAdd a b >>= fun r => .ok (writeF rd r s)) :=
  exec_of_work rfl (readF_bind ha (readF_bind hb rfl))

theorem exec_feMul : exec (.feMul rd ra rb) s = runWord (encode (.feMul rd ra rb)) s
    (feMul a b >>= fun r => .ok (writeF rd r s)) :=
  exec_of_work rfl (readF_bind ha (readF_bind hb rfl))

theorem exec_feEq : exec (.feEq ra rb) s = runWord (encode (.feEq ra rb)) s
    (requireNorm a >>= fun _ => requireNorm b >>= fun _ => .ok (setT (decide (a.n = b.n)) s)) :=
  exec_of_work rfl (readF_bind ha (readF_bind hb rfl))

theorem exec_feCmp : exec (.feCmp ra rb) s = runWord (encode (.feCmp ra rb)) s
    (requireNorm a >>= fun _ => requireNorm b >>= fun _ =>
      .ok (setLtGt (decide (a.ival < b.ival)) (decide (a.ival > b.ival)) s)) :=
  exec_of_work rfl (readF_bind ha (readF_bind hb rfl))

end

end

/-- FE_CMOV reads its destination first, so an invalid one faults (R126). -/
theorem exec_feCmov_invalid (hi : imm.toNat ≤ 2) (hd : (s.fr.get rd).valid = false) :
    exec (.feCmov rd ra imm) s = runWord (encode (.feCmov rd ra imm)) s (.error .uninitOperand) :=
  exec_of_work (cond_check hi) (readF_bind_invalid hd _)

end

/-! ## Loads and stores (R117, R118, R141, R142) -/

/-- Settles O27: the value stored loads back, and below the modulus decoding leaves it as it is. -/
theorem bytesRoundTrip : Obligations.BytesRoundTrip := by
  intro s t rd ra imm hs hm hi
  have back {v : Nat} (hv : v < 2 ^ 256) : loadSlot imm (retire (storeSlot imm v s)) = .ok v :=
    (loadSlot_retire _ _).trans (loadSlot_storeSlot hm hi hv)
  refine ⟨fun a ha hwf hn h => ?field, fun k hk hlt h => ?scalar⟩
  case field =>
    have hlt := hwf.ival_lt_p hn
    rw [exec_feGetb32 ha hi, requireNorm_ok hn, chk_ok_bind, runWord_ok _ hs] at h
    obtain rfl := Host.Outcome.next.inj h
    rw [exec_feSetb32 hi (back (hlt.trans p_lt)), reduceOnce_of_lt hlt, ← hwf.eq_feConst hn]
    exact runWord_ok _ (ready_retire_storeSlot imm a.ival hs)
  case scalar =>
    rw [exec_scGetb32 hi hk, runWord_ok _ hs] at h
    obtain rfl := Host.Outcome.next.inj h
    rw [exec_scSetb32 hi (back k.isLt), reduceOnce_of_lt hlt]
    exact runWord_ok _ (ready_retire_storeSlot imm k.toNat hs)

/-- Settles O26: one conditional subtraction reduces 256 bits modulo p; the store asks for a normalized register. -/
theorem fieldBytes : Obligations.FieldBytes := by
  intro s r imm hs hi
  refine ⟨fun v hv => ?set, fun a ha hn => ?get, fun a ha hn => ?notNormalized⟩
  case set =>
    rw [exec_feSetb32 hi (loadSlot_of_slotHolds hv), reduceOnce_eq (hv.value.trans_le two_p)]
    exact runWord_ok _ hs
  case get =>
    rw [exec_feGetb32 ha hi, requireNorm_ok hn]
    exact runWord_ok _ hs
  case notNormalized =>
    rw [exec_feGetb32 ha hi, requireNorm_error hn]
    exact runWord_error _ hs

/-! ## Set, copy, normalize (R119 to R121) -/

/-- Settles O28: each of the three computes without a precondition. -/
theorem fieldSetMoveNormalize : Obligations.FieldSetMoveNormalize := fun _ _ _ hs =>
  ⟨fun _ => exec_feSetint.trans (runWord_ok _ hs), fun _ ha => (exec_feMov ha).trans (runWord_ok _ hs),
    fun _ ha => (exec_feNorm ha).trans (runWord_ok _ hs)⟩

/-! ## Arithmetic (R122 to R125) -/

/-- Settles O29: ADD answers exactly when the magnitudes sum to at most 32. -/
theorem fieldAdd : Obligations.FieldAdd := by
  intro s rd ra rb a b hs ha hb
  refine ⟨fun h => ?_, fun h => ?_⟩
  · rw [exec_feAdd ha hb, feAdd_ok h]
    exact runWord_ok _ hs
  · rw [exec_feAdd ha hb, feAdd_error h]
    exact runWord_error _ hs

/-- Settles O30: MUL and SQR answer exactly when the magnitudes are at most 8. -/
theorem fieldMultiplySquare : Obligations.FieldMultiplySquare := by
  intro s rd ra rb a b hs ha hb
  refine ⟨fun h8 h8' => ?mul, fun h => ?mulFault, fun h8 => ?sqr, fun h => ?sqrFault⟩
  case mul =>
    rw [exec_feMul ha hb, feMul_ok h8 h8']
    exact runWord_ok _ hs
  case mulFault =>
    rw [exec_feMul ha hb, feMul_error h]
    exact runWord_error _ hs
  case sqr =>
    rw [exec_feSqr ha, feSqr_ok h8]
    exact runWord_ok _ hs
  case sqrFault =>
    rw [exec_feSqr ha, feSqr_error h]
    exact runWord_error _ hs

/-- Settles O31: NEG answers exactly when the magnitude is at most m, and the immediate is legal exactly when m is at
most 31. -/
theorem fieldNegate : Obligations.FieldNegate := by
  intro s rd ra imm a hs ha
  refine ⟨fun hm hi => ?neg, fun hm hi => ?magnitude, fun hi => ?illegal⟩
  case neg =>
    rw [exec_feNeg ha hi, feNeg_ok hm hi]
    exact runWord_ok _ hs
  case magnitude =>
    rw [exec_feNeg ha hi, feNeg_error hm]
    exact runWord_error _ hs
  case illegal =>
    exact command_malformed hs ((m_check imm).trans (decide_eq_false (Nat.not_le.2 hi)))

/-! ## Conditional move (R126) -/

/-- The condition of a legal selector: constant 1, or T for selector 2 (R83). -/
theorem condBit_eq {imm : Imm} (s : State) (hi : imm.toNat ≤ 2) :
    condBit imm s = decide (imm = 1 ∨ imm = 2 ∧ s.flags.t = true) := by
  obtain rfl | rfl | rfl : imm = 0 ∨ imm = 1 ∨ imm = 2 := by bv_omega
  all_goals simp [condBit]

/-- Settles O32: the helper's tags do not mention the condition; an invalid rd faults at its read. -/
theorem fieldConditionalMove : Obligations.FieldConditionalMove := by
  intro s rd ra imm a hs ha hi
  refine ⟨fun d hd => ?_, fun hd => (exec_feCmov_invalid hi hd).trans (runWord_error _ hs)⟩
  rw [exec_feCmov ha hd hi, condBit_eq s hi, runWord_ok _ hs]
  simp only [feCmov, decide_eq_true_eq]

/-! ## Tests (R127 to R130) -/

/-- A test of two registers faults when either is not normalized. -/
theorem requireNorm_both_error {a b : Fe} (h : a.norm = false ∨ b.norm = false) (work : Chk State) :
    (requireNorm a >>= fun _ => requireNorm b >>= fun _ => work) = .error .feNotNormalized := by
  cases hn : a.norm with
  | false => rw [requireNorm_error hn, chk_error_bind]
  | true =>
    have hb : b.norm = false := h.resolve_left (by simp [hn])
    rw [requireNorm_ok hn, chk_ok_bind, requireNorm_error hb, chk_error_bind]

/-- Settles O33: each test first requires its operands normalized, then writes its own flags. -/
theorem fieldTests : Obligations.FieldTests := by
  intro s ra rb a b hs ha hb
  refine ⟨fun hn => ?isZero, fun hn => ?isOdd, fun hna hnb => ?eq, fun hna hnb => ?cmp, fun hn => ⟨?isZeroFault, ?isOddFault⟩,
    fun hn => ⟨?eqFault, ?cmpFault⟩⟩
  case isZero => rw [exec_feIszero ha, requireNorm_ok hn]; exact runWord_ok _ hs
  case isOdd => rw [exec_feIsodd ha, requireNorm_ok hn]; exact runWord_ok _ hs
  case eq => rw [exec_feEq ha hb, requireNorm_ok hna, requireNorm_ok hnb]; exact runWord_ok _ hs
  case cmp => rw [exec_feCmp ha hb, requireNorm_ok hna, requireNorm_ok hnb]; exact runWord_ok _ hs
  case isZeroFault => rw [exec_feIszero ha, requireNorm_error hn]; exact runWord_error _ hs
  case isOddFault => rw [exec_feIsodd ha, requireNorm_error hn]; exact runWord_error _ hs
  case eqFault => rw [exec_feEq ha hb, requireNorm_both_error hn]; exact runWord_error _ hs
  case cmpFault => rw [exec_feCmp ha hb, requireNorm_both_error hn]; exact runWord_error _ hs

/-! ## The helpers modulo p (R132) -/

/-- A content whose integer is congruent to `x` has the value `x mod p`. -/
theorem val_eq_mod {r : Fe} {x : Nat} (h : (r.ival : ZMod Const.p) = (x : ZMod Const.p)) : r.val = x % Const.p :=
  (ZMod.natCast_eq_natCast_iff' _ _ _).1 h

/-- A computation's answer with the value of `x`, from its description over the integers modulo p. -/
theorem answers_mod {y : Chk Fe} {z : ZMod Const.p} {x : Nat}
    (h : ∃ r, y = .ok r ∧ r.Wf ∧ (r.ival : ZMod Const.p) = z) (hx : z = (x : ZMod Const.p)) :
    ∃ r, y = .ok r ∧ r.Wf ∧ r.val = x % Const.p := by
  obtain ⟨r, hr, hwf, hz⟩ := h
  exact ⟨r, hr, hwf, val_eq_mod (hz.trans hx)⟩

/-- Negation of a residue, as the difference from p. -/
theorem cast_p_sub_val (a : Fe) : ((Const.p - a.val : Nat) : ZMod Const.p) = -(a.ival : ZMod Const.p) := by
  rw [Nat.cast_sub (val_lt a).le, ZMod.natCast_self, cast_val, zero_sub]

/-- Settles O55: each helper's spec over the integers modulo p, read back as a residue; a normalized content is below p and
canonical by its invariant. -/
theorem fieldHelpersComputeModP : Obligations.FieldHelpersComputeModP := by
  intro a b ha hb
  refine ⟨fun h => ?add, fun k hk h => ?times, fun m h hm => ?neg, fun h h' => ?mul, fun h => ?sqr,
    ⟨wf_feNorm a, feNorm_val a⟩, fun hn => ?normalized⟩
  case add =>
    obtain ⟨r, hr, -, -, hv⟩ := feAdd_spec h
    refine answers_mod ⟨r, hr, hv ha hb⟩ ?_
    rw [Nat.cast_add, cast_val, cast_val]
  case times =>
    obtain ⟨r, hr, -, -, hv⟩ := feTimes_spec hk h
    refine answers_mod ⟨r, hr, hv ha⟩ ?_
    rw [Nat.cast_mul, cast_val, mul_comm]
  case neg =>
    obtain ⟨r, hr, -, -, hv⟩ := feNeg_spec h hm
    exact answers_mod ⟨r, hr, hv ha⟩ (cast_p_sub_val a).symm
  case mul =>
    obtain ⟨r, hr, -, -, hv⟩ := feMul_spec h h'
    refine answers_mod ⟨r, hr, hv ha hb⟩ ?_
    rw [Nat.cast_mul, cast_val, cast_val]
  case sqr =>
    obtain ⟨r, hr, -, -, hv⟩ := feSqr_spec h
    refine answers_mod ⟨r, hr, hv ha⟩ ?_
    rw [Nat.cast_mul, cast_val]
  case normalized =>
    rw [Fe.val, Nat.mod_eq_of_lt (ha.ival_lt_p hn)]
    exact (ha.normalized hn).2.2

end Sys2Proof.Machine
end

section
/-! SUPPORT. The scalar family (`spec/42_scalar.md`): the scalar helpers as arithmetic modulo n, and each scalar command's run
once its operands are read. -/

namespace Sys2Proof.Machine

/-! ## The helpers as arithmetic modulo n (R145 to R154, R163) -/

/-- The sum of two scalars is below 2n, so one conditional subtraction reduces it (R145). -/
theorem scAdd_eq {a b : Nat} (ha : a < Const.n) (hb : b < Const.n) :
    scAdd a b = ((a + b) % Const.n, decide (Const.n ≤ a + b)) :=
  reduceOnce_eq (by omega)

/-- Zero has its own case in the helper, and reduction gives it the same value (R148). -/
theorem scNeg_eq {a : Nat} (ha : a < Const.n) : scNeg a = (Const.n - a) % Const.n := by
  unfold scNeg
  split
  case isTrue h0 => rw [h0, Nat.sub_zero, Nat.mod_self]
  case isFalse => rw [Nat.mod_eq_of_lt (by omega)]

theorem nHalf_eq : Const.nHalf = (Const.n - 1) / 2 := by decide

theorem scIsHigh_eq (a : Nat) : scIsHigh a = decide ((Const.n - 1) / 2 < a) := by rw [scIsHigh, nHalf_eq]

/-- For an odd M, exactly one of a and M − a is above (M − 1)/2 (R153); for a = 0 the other is M itself. -/
theorem high_iff_not_high_neg {a M : Nat} (hM : M % 2 = 1) (ha : a < M) : (M - 1) / 2 < a ↔ ¬(M - 1) / 2 < M - a := by
  omega

theorem n_odd : Const.n % 2 = 1 := by decide

/-- Adding the subtrahend back gives the minuend modulo n. -/
theorem scSub_add (a b : Nat) : (scSub a b + b) % Const.n = a % Const.n := by
  have hn : (Const.n : Int) ≠ 0 := Int.natCast_ne_zero.2 n_pos.ne'
  have difference : (scSub a b : Int) = ((a : Int) - b) % Const.n := Int.toNat_of_nonneg (Int.emod_nonneg _ hn)
  apply Int.natCast_inj.1
  rw [Int.natCast_emod, Int.natCast_emod, Int.natCast_add, difference, Int.emod_add_emod, sub_add_cancel]

/-- r2 as R163 computes it; a shift by 384 is the floor of a quotient. -/
theorem splitLambda_snd (k : Nat) : (splitLambda k).2 =
    (k * Const.g1 / 2 ^ 384 * Const.minusB1 + k * Const.g2 / 2 ^ 384 * Const.minusB2) % Const.n := by
  rw [Nat.mul_comm k, Nat.mul_comm k, Nat.mul_comm _ Const.minusB1, Nat.mul_comm _ Const.minusB2,
    ← Nat.shiftRight_eq_div_pow, ← Nat.shiftRight_eq_div_pow]
  rfl

/-- r1 + r2·LAMBDA ≡ k (mod n), whatever r2 is: r1 is k less that product (R163). -/
theorem splitLambda_congr (k : Nat) :
    ((splitLambda k).1 + (splitLambda k).2 * Const.lambda) % Const.n = k % Const.n := by
  rw [Nat.mul_comm _ Const.lambda]
  exact scSub_add k _

/-! ## Immediates and destinations (R83, R87) -/

theorem shift_check (imm : Imm) : (ImmKind.shift.check imm).isNone = decide (256 ≤ imm.toNat ∧ imm.toNat ≤ 512) :=
  (isNone_check _ _).trans (Bool.decide_and _ _).symm

theorem isNone_checkDestinations (rd rb : RegNum) : (checkDestinations rd rb).isNone = decide (rd ≠ rb) := by
  unfold checkDestinations
  split <;> simp [*]

/-! ## The run of each command once its operands are read -/

theorem readS_bind_invalid {s : State} {r : RegNum} (h : (s.sr.get r).valid = false) (f : ScalarWord → Chk State) :
    (readS r s >>= f) = .error .uninitOperand := by
  rw [show readS r s = .error .uninitOperand from read_of_invalid h, chk_error_bind]

section
variable {s : State} {rd ra rb : RegNum} {imm : Imm}

theorem exec_scSetint : exec (.scSetint rd imm) s = runWord (encode (.scSetint rd imm)) s
    (.ok (writeS rd imm.toNat s)) :=
  exec_of_work rfl rfl

/-- SC_CMOV reads its destination first, so an invalid one faults (R150). -/
theorem exec_scCmov_invalid (hi : imm.toNat ≤ 2) (hd : (s.sr.get rd).valid = false) :
    exec (.scCmov rd ra imm) s = runWord (encode (.scCmov rd ra imm)) s (.error .uninitOperand) :=
  exec_of_work (cond_check hi) (readS_bind_invalid hd _)

section
variable {a : ScalarWord} (ha : s.HoldsS ra a)
include ha

theorem exec_scMov : exec (.scMov rd ra) s = runWord (encode (.scMov rd ra)) s (.ok (writeS rd a.toNat s)) :=
  exec_of_work rfl (readS_bind ha rfl)

theorem exec_scSqr : exec (.scSqr rd ra) s = runWord (encode (.scSqr rd ra)) s
    (.ok (writeS rd (a.toNat * a.toNat % Const.n) s)) :=
  exec_of_work rfl (readS_bind ha rfl)

theorem exec_scNeg : exec (.scNeg rd ra) s = runWord (encode (.scNeg rd ra)) s (.ok (writeS rd (scNeg a.toNat) s)) :=
  exec_of_work rfl (readS_bind ha rfl)

theorem exec_scCneg (hi : imm.toNat ≤ 2) :
    exec (.scCneg rd ra imm) s = runWord (encode (.scCneg rd ra imm)) s
      (.ok (setSgn (condBit imm s) (writeS rd (if condBit imm s then scNeg a.toNat else a.toNat) s))) :=
  exec_of_work (cond_check hi) (readS_bind ha rfl)

theorem exec_scCmov {d : ScalarWord} (hd : s.HoldsS rd d) (hi : imm.toNat ≤ 2) :
    exec (.scCmov rd ra imm) s = runWord (encode (.scCmov rd ra imm)) s
      (.ok (writeS rd (if condBit imm s then a.toNat else d.toNat) s)) :=
  exec_of_work (cond_check hi) (readS_bind hd (readS_bind ha rfl))

theorem exec_scIszero : exec (.scIszero ra) s = runWord (encode (.scIszero ra)) s
    (.ok (setT (a.toNat == 0) s)) :=
  exec_of_work rfl (readS_bind ha rfl)

theorem exec_scIshigh : exec (.scIshigh ra) s = runWord (encode (.scIshigh ra)) s
    (.ok (setT (scIsHigh a.toNat) s)) :=
  exec_of_work rfl (readS_bind ha rfl)

theorem exec_scSplitlambda (h : rd ≠ rb) :
    exec (.scSplitlambda rd ra rb) s = runWord (encode (.scSplitlambda rd ra rb)) s
      (.ok (writeS rb (splitLambda a.toNat).2 (writeS rd (splitLambda a.toNat).1 s))) :=
  exec_of_work ((isNone_checkDestinations rd rb).trans (decide_eq_true h)) (readS_bind ha rfl)

theorem exec_scSplit128 (h : rd ≠ rb) :
    exec (.scSplit128 rd ra rb) s = runWord (encode (.scSplit128 rd ra rb)) s
      (.ok (writeS rb (a.toNat >>> 128) (writeS rd (a.toNat % 2 ^ 128) s))) :=
  exec_of_work ((isNone_checkDestinations rd rb).trans (decide_eq_true h)) (readS_bind ha rfl)

section
variable {b : ScalarWord} (hb : s.HoldsS rb b)
include hb

theorem exec_scAdd : exec (.scAdd rd ra rb) s = runWord (encode (.scAdd rd ra rb)) s
    (.ok (setOvf (scAdd a.toNat b.toNat).2 (writeS rd (scAdd a.toNat b.toNat).1 s))) :=
  exec_of_work rfl (readS_bind ha (readS_bind hb rfl))

theorem exec_scMul : exec (.scMul rd ra rb) s = runWord (encode (.scMul rd ra rb)) s
    (.ok (writeS rd (a.toNat * b.toNat % Const.n) s)) :=
  exec_of_work rfl (readS_bind ha (readS_bind hb rfl))

theorem exec_scEq : exec (.scEq ra rb) s = runWord (encode (.scEq ra rb)) s
    (.ok (setT (a.toNat == b.toNat) s)) :=
  exec_of_work rfl (readS_bind ha (readS_bind hb rfl))

theorem exec_scMulshift (hi : 256 ≤ imm.toNat ∧ imm.toNat ≤ 512) :
    exec (.scMulshift rd ra rb imm) s = runWord (encode (.scMulshift rd ra rb imm)) s
      (.ok (writeS rd ((a.toNat * b.toNat) >>> imm.toNat) s)) :=
  exec_of_work ((shift_check imm).trans (decide_eq_true hi)) (readS_bind ha (readS_bind hb rfl))

end

end

end

/-! ## The endomorphism split and the split in halves (R163, R164) -/

/-- Settles O42: the split's congruence holds by construction of r1; both commands are of format DDA, whose check is that the
destinations differ. -/
theorem scalarSplits : Obligations.ScalarSplits := by
  intro s rd ra rb k hs hk
  refine ⟨fun hne => ⟨⟨_, _, splitLambda_snd k.toNat, (splitLambda_lt k.toNat).1, splitLambda_congr k.toNat,
      (exec_scSplitlambda hk hne).trans (runWord_ok _ hs)⟩, ?halves⟩, fun he => ⟨?lambdaIllegal, ?halvesIllegal⟩⟩
  case halves => rw [exec_scSplit128 hk hne, Nat.shiftRight_eq_div_pow]; exact runWord_ok _ hs
  case lambdaIllegal | halvesIllegal =>
    exact command_malformed hs ((isNone_checkDestinations rd rb).trans (decide_eq_false (not_not.2 he)))

/-! ## Loads and stores (R141, R142) -/

/-- Settles O35: one conditional subtraction reduces 256 bits modulo n. -/
theorem scalarBytes : Obligations.ScalarBytes := by
  intro s r imm hs hi
  refine ⟨fun v hv => ?set, fun a ha => (exec_scGetb32 hi ha).trans (runWord_ok _ hs)⟩
  rw [exec_scSetb32 hi (loadSlot_of_slotHolds hv), reduceOnce_eq (hv.value.trans_le two_n)]
  exact runWord_ok _ hs

/-! ## Set and copy (R143, R144) -/

/-- Settles O36: neither of the two has a precondition beyond a valid operand. -/
theorem scalarSetMove : Obligations.ScalarSetMove := fun _ _ _ hs =>
  ⟨fun _ => exec_scSetint.trans (runWord_ok _ hs), fun _ ha => (exec_scMov ha).trans (runWord_ok _ hs)⟩

/-! ## Arithmetic (R145 to R148) -/

/-- Settles O37: the products are reduced by definition, the sum and the negation by their helpers' equations. -/
theorem scalarArithmetic : Obligations.ScalarArithmetic := by
  intro s rd ra rb a b hs ha hb hla hlb
  refine ⟨?add, (exec_scMul ha hb).trans (runWord_ok _ hs), (exec_scSqr ha).trans (runWord_ok _ hs), ?neg⟩
  case add => rw [exec_scAdd ha hb, scAdd_eq hla hlb]; exact runWord_ok _ hs
  case neg => rw [exec_scNeg ha, scNeg_eq hla]; exact runWord_ok _ hs

/-! ## Conditional negation and move (R149, R150) -/

/-- Settles O38: both commands act by the condition bit; an invalid rd of SC_CMOV faults at its read. -/
theorem scalarConditional : Obligations.ScalarConditional := by
  intro s rd ra imm a hs ha hi
  refine ⟨fun hla => ?cneg, fun d hd => ?cmov, fun hd => (exec_scCmov_invalid hi hd).trans (runWord_error _ hs)⟩
  case cneg =>
    rw [exec_scCneg ha hi, condBit_eq s hi, scNeg_eq hla, runWord_ok _ hs]
    simp only [decide_eq_true_eq]
  case cmov =>
    rw [exec_scCmov ha hd hi, condBit_eq s hi, runWord_ok _ hs]
    simp only [decide_eq_true_eq]

/-! ## Tests (R151 to R153) -/

/-- Settles O39: T is the helper's bit; that exactly one of a and n − a is high rests on n being odd. -/
theorem scalarTests : Obligations.ScalarTests := by
  intro s ra rb a b hs ha hb
  refine ⟨(exec_scIszero ha).trans (runWord_ok _ hs), ?eq, ?isHigh, fun _ => high_iff_not_high_neg n_odd⟩
  case eq =>
    have sameBits : (a.toNat == b.toNat) = decide (a = b) := decide_eq_decide.2 BitVec.toNat_inj
    rw [exec_scEq ha hb, sameBits]
    exact runWord_ok _ hs
  case isHigh =>
    rw [exec_scIshigh ha, scIsHigh_eq]
    exact runWord_ok _ hs

/-! ## The high part of a product (R154) -/

/-- Settles O41: a right shift is the floor of a quotient; the immediate is legal exactly in 256..512. -/
theorem scalarMulshift : Obligations.ScalarMulshift := by
  intro s rd ra rb imm a b hs ha hb
  refine ⟨fun hlo hhi hla hlb => ⟨?shift, ?below⟩, fun hout => ?illegal⟩
  case shift =>
    rw [exec_scMulshift ha hb ⟨hlo, hhi⟩, Nat.shiftRight_eq_div_pow]
    exact runWord_ok _ hs
  case below =>
    rw [← Nat.shiftRight_eq_div_pow]
    exact mulShift_lt hla hlb hlo
  case illegal =>
    exact command_malformed hs ((shift_check imm).trans (decide_eq_false (by omega)))

end Sys2Proof.Machine
end

section
/-! SUPPORT. The inversion family (`spec/43_inversion.md`): the matrix of a batch of divsteps, the engine over the integers
modulo an odd M, the passes it makes, and the four inversion commands. -/

namespace Sys2Proof.Machine

/-! ## The matrix of a run of divsteps (R171, R172) -/

/-- `k` divsteps after the start (f, g) with the unit matrix, state `x` relates to (f, g) by its matrix, its f is odd, and each
row of the matrix is at most 2^k in size. -/
structure DivState.Follows (f g : Int) (k : Nat) (x : DivState) : Prop where
  top : x.u * f + x.v * g = 2 ^ k * x.f
  bottom : x.q * f + x.r * g = 2 ^ k * x.g
  odd : x.f % 2 = 1
  topSize : |x.u| + |x.v| ≤ 2 ^ k
  bottomSize : |x.q| + |x.r| ≤ 2 ^ k

theorem follows_start (delta : Int) {f : Int} (g : Int) (hf : f % 2 = 1) :
    DivState.Follows f g 0 ⟨delta, f, g, 1, 0, 0, 1⟩ where
  top := by ring
  bottom := by ring
  odd := hf
  topSize := by simp
  bottomSize := by simp

section
variable {a b c d : Int} {k : Nat} (h : |a| + |b| ≤ 2 ^ k)
include h

theorem rowSize_keep : |a| + |b| ≤ 2 ^ (k + 1) := h.trans (pow_le_pow_right₀ (by decide) k.le_succ)

theorem rowSize_double : |2 * a| + |2 * b| ≤ 2 ^ (k + 1) := by
  rw [abs_mul, abs_mul, abs_two, pow_succ']; omega

theorem rowSize_add (h' : |c| + |d| ≤ 2 ^ k) : |a + c| + |b + d| ≤ 2 ^ (k + 1) := by
  have := abs_add_le a c
  have := abs_add_le b d
  rw [pow_succ']; omega

theorem rowSize_sub (h' : |c| + |d| ≤ 2 ^ k) : |a - c| + |b - d| ≤ 2 ^ (k + 1) := by
  have := abs_sub a c
  have := abs_sub b d
  rw [pow_succ']; omega

end

/-- One divstep, by its three cases; what it halves is even, so the halves are exact (R171). -/
theorem follows_divstep {f g : Int} {k : Nat} {x : DivState} (h : x.Follows f g k) : (divstep x).Follows f g (k + 1) := by
  obtain ⟨top, bottom, odd, topSize, bottomSize⟩ := h
  unfold divstep
  split
  case isTrue swap =>
    have halved : 2 * ((x.g - x.f) / 2) = x.g - x.f := by omega
    refine ⟨?_, ?_, swap.2, rowSize_double bottomSize, rowSize_sub bottomSize topSize⟩
    · linear_combination 2 * bottom
    · linear_combination bottom - top - 2 ^ k * halved
  case isFalse =>
    split
    case isTrue gOdd =>
      have halved : 2 * ((x.g + x.f) / 2) = x.g + x.f := by omega
      refine ⟨?_, ?_, odd, rowSize_double topSize, rowSize_add bottomSize topSize⟩
      · linear_combination 2 * top
      · linear_combination bottom + top - 2 ^ k * halved
    case isFalse gEven =>
      have halved : 2 * (x.g / 2) = x.g := by omega
      refine ⟨?_, ?_, odd, rowSize_double topSize, rowSize_keep bottomSize⟩
      · linear_combination 2 * top
      · linear_combination bottom - 2 ^ k * halved

theorem follows_divsteps {f g : Int} (j : Nat) {k : Nat} {x : DivState} (h : x.Follows f g k) :
    (divsteps j x).Follows f g (k + j) := by
  induction j generalizing k x with
  | zero => exact h
  | succ j ih =>
    rw [← Nat.succ_add_eq_add_succ]
    exact ih (follows_divstep h)

theorem follows_divBatch (delta : Int) {f : Int} (g : Int) (hf : f % 2 = 1) : (divBatch delta f g).Follows f g 62 :=
  follows_divsteps 62 (follows_start delta g hf)

/-- Settles O58: every divstep doubles what the rows of the matrix may be and keeps both equations; a row bounds its entries. -/
theorem divstepBatchMatrix : Obligations.DivstepBatchMatrix := by
  intro delta f g hf
  obtain ⟨top, bottom, odd, topSize, bottomSize⟩ := follows_divBatch delta g hf
  exact ⟨top, bottom, odd, (le_add_of_nonneg_right (abs_nonneg _)).trans topSize,
    (le_add_of_nonneg_left (abs_nonneg _)).trans topSize, (le_add_of_nonneg_right (abs_nonneg _)).trans bottomSize,
    (le_add_of_nonneg_left (abs_nonneg _)).trans bottomSize⟩

/-- Once g = 0 a divstep only doubles the upper row (R179). -/
theorem divsteps_of_g_zero (k : Nat) (delta f u v q r : Int) :
    divsteps k ⟨delta, f, 0, u, v, q, r⟩ = ⟨delta + k, f, 0, 2 ^ k * u, 2 ^ k * v, q, r⟩ := by
  induction k generalizing delta u v with
  | zero => simp [divsteps]
  | succ k ih =>
    have step : divstep ⟨delta, f, 0, u, v, q, r⟩ = ⟨1 + delta, f, 0, 2 * u, 2 * v, q, r⟩ := by simp [divstep]
    rw [divsteps, step, ih, pow_succ, mul_assoc, mul_assoc, Nat.cast_succ, add_assoc, add_left_comm, add_comm 1]

/-! ## Batches -/

theorem invBatches_add (M j i : Nat) (t : InvState) : invBatches M (j + i) t = invBatches M i (invBatches M j t) := by
  induction j generalizing t with
  | zero => rw [Nat.zero_add]; rfl
  | succ j ih => rw [Nat.succ_add, invBatches_succ, invBatches_succ, ih]

/-- A batch that starts at g = 0 leaves f and g and multiplies d by 2^62 (R179). -/
theorem invBatch_of_g_zero (M : Nat) {t : InvState} (h : t.g = 0) :
    (invBatch M t).f = t.f ∧ (invBatch M t).g = 0 ∧ (invBatch M t).d = 2 ^ 62 * t.d % M := by
  have batch : divBatch t.delta t.f t.g = ⟨t.delta + 62, t.f, 0, 2 ^ 62 * 1, 2 ^ 62 * 0, 0, 1⟩ := by
    rw [h]
    exact divsteps_of_g_zero 62 ..
  unfold invBatch
  rw [batch]
  exact ⟨rfl, rfl, by simp only [mul_one, mul_zero, zero_mul, add_zero]⟩

/-! ## The engine over the integers modulo M (R173, R174, R179) -/

/-- `k` batches after the start: d·x ≡ 2^(62k)·f and e·x ≡ 2^(62k)·g modulo M, f odd (R173). -/
structure InvState.Tracks (x M k : Nat) (t : InvState) : Prop where
  odd : t.f % 2 = 1
  d : (t.d : ZMod M) * x = 2 ^ (62 * k) * t.f
  e : (t.e : ZMod M) * x = 2 ^ (62 * k) * t.g

theorem tracks_start (x : Nat) {M : Nat} (hM : M % 2 = 1) : (invStart x M).Tracks x M 0 where
  odd := by simp only [invStart]; omega
  d := by simp [invStart]
  e := by simp [invStart]

/-- A row of a batch's matrix takes d and e to what it takes f and g to, and adds 2^62 to the factor (R173). -/
theorem tracks_row {x M k : Nat} {t : InvState} (h : t.Tracks x M k) {a b c : Int}
    (row : a * t.f + b * t.g = 2 ^ 62 * c) :
    (((a * t.d + b * t.e) % M : Int) : ZMod M) * x = 2 ^ (62 * (k + 1)) * c := by
  have rowM := congrArg (Int.cast : Int → ZMod M) row
  push_cast at rowM
  rw [ZMod.intCast_mod, Nat.mul_succ, pow_add]
  push_cast
  linear_combination (a : ZMod M) * h.d + (b : ZMod M) * h.e + 2 ^ (62 * k) * rowM

theorem tracks_invBatch {x M k : Nat} {t : InvState} (h : t.Tracks x M k) : (invBatch M t).Tracks x M (k + 1) := by
  obtain ⟨top, bottom, odd, -, -⟩ := follows_divBatch t.delta t.g h.odd
  unfold invBatch
  generalize divBatch t.delta t.f t.g = b at *
  exact ⟨odd, tracks_row h top, tracks_row h bottom⟩

theorem tracks_invBatches {x M : Nat} (j : Nat) {k : Nat} {t : InvState} (h : t.Tracks x M k) :
    (invBatches M j t).Tracks x M (k + j) := by
  induction j generalizing k t with
  | zero => exact h
  | succ j ih =>
    rw [← Nat.succ_add_eq_add_succ]
    exact ih (tracks_invBatch h)

/-- (M + 1)/2 is the inverse of 2 modulo an odd M (R174). -/
theorem half_mul_two {M : Nat} (hM : M % 2 = 1) : (((M + 1) / 2 : Nat) : ZMod M) * 2 = 1 := by
  have double : (M + 1) / 2 * 2 = M + 1 := by omega
  calc (((M + 1) / 2 : Nat) : ZMod M) * 2 = (((M + 1) / 2 * 2 : Nat) : ZMod M) := by push_cast; rfl
    _ = 1 := by rw [double, Nat.cast_add, ZMod.natCast_self, zero_add, Nat.cast_one]

theorem cast_kInv (M k : Nat) : (kInv M k : ZMod M) = (((M + 1) / 2 : Nat) : ZMod M) ^ (62 * k) := by
  rw [← Nat.cast_pow]
  exact ZMod.natCast_mod _ _

/-- K_M(k) undoes the factor of k batches (R174). -/
theorem kInv_mul_pow {M : Nat} (hM : M % 2 = 1) (k : Nat) : (kInv M k : ZMod M) * 2 ^ (62 * k) = 1 := by
  rw [cast_kInv, ← mul_pow, half_mul_two hM, one_pow]

/-- One batch more, and K_M takes the 2^62 it adds away again (R174). -/
theorem kInv_succ_mul {M : Nat} (hM : M % 2 = 1) (k : Nat) : (kInv M (k + 1) : ZMod M) * 2 ^ 62 = kInv M k := by
  rw [cast_kInv, cast_kInv, Nat.mul_add, pow_add, mul_assoc, Nat.mul_one, ← mul_pow, half_mul_two hM, one_pow, mul_one]

/-- The sign the post-correction takes from f (R179). -/
def correctionSign (f : Int) : Int := if 0 < f then 1 else -1

theorem cast_invResult {M : Nat} (hM : 0 < M) (k : Nat) (t : InvState) :
    (invResult M k t : ZMod M) = correctionSign t.f * t.d * kInv M k := by
  have reduced : ((invResult M k t : Nat) : Int) = correctionSign t.f * t.d * kInv M k % M :=
    Int.toNat_of_nonneg (Int.emod_nonneg _ (by omega))
  rw [← Int.cast_natCast, reduced, ZMod.intCast_mod]
  push_cast
  rfl

/-- Two results are equal when they are congruent, being below M. -/
theorem invResult_eq_of_cast {M k k' : Nat} (hM : 0 < M) {t t' : InvState}
    (h : (invResult M k t : ZMod M) = invResult M k' t') : invResult M k t = invResult M k' t' := by
  have congruent := (ZMod.natCast_eq_natCast_iff' _ _ _).1 h
  rwa [Nat.mod_eq_of_lt (invResult_lt hM k t), Nat.mod_eq_of_lt (invResult_lt hM k' t')] at congruent

/-- Batches after g = 0 do not change the corrected result (R180). -/
theorem invResult_invBatches {M : Nat} (hM : M % 2 = 1) (j k : Nat) {t : InvState} (h : t.g = 0) :
    invResult M (k + j) (invBatches M j t) = invResult M k t := by
  induction j generalizing k t with
  | zero => rfl
  | succ j ih =>
    have hpos : 0 < M := by omega
    obtain ⟨hf, hg, hd⟩ := invBatch_of_g_zero M h
    rw [← Nat.succ_add_eq_add_succ, invBatches_succ, ih (k + 1) hg]
    apply invResult_eq_of_cast hpos
    rw [cast_invResult hpos, cast_invResult hpos, hf, hd, ZMod.intCast_mod]
    push_cast
    linear_combination (correctionSign t.f : ZMod M) * t.d * kInv_succ_mul hM k

theorem correctionSign_mul_self {f : Int} (h : f = 1 ∨ f = -1) : correctionSign f * f = 1 := by
  obtain rfl | rfl := h <;> rfl

/-- When f = ±1 after k batches, the corrected result is the inverse of x modulo M (R179). -/
theorem invResult_mul {x M k : Nat} (hM : M % 2 = 1) {t : InvState} (ht : t.Tracks x M k) (hf : t.f = 1 ∨ t.f = -1) :
    x * invResult M k t % M = 1 % M := by
  apply (ZMod.natCast_eq_natCast_iff' _ _ _).1
  have sign := congrArg (Int.cast : Int → ZMod M) (correctionSign_mul_self hf)
  push_cast at sign ⊢
  rw [cast_invResult (by omega)]
  linear_combination (correctionSign t.f : ZMod M) * kInv M k * ht.d +
    (correctionSign t.f : ZMod M) * t.f * kInv_mul_pow hM k + sign

/-- The start with x = 0 has g = 0 and d = 0, so every number of batches gives 0 (R179). -/
theorem invResult_zero {M : Nat} (hM : M % 2 = 1) (k : Nat) : invResult M k (invBatches M k (invStart 0 M)) = 0 := by
  have untouched := invResult_invBatches hM k 0 (t := invStart 0 M) rfl
  rw [Nat.zero_add] at untouched
  rw [untouched]
  simp [invResult, invStart]

/-! ## The record of the engine (R13, R330) -/

/-- A recorded computation answers `a` and notes exactly `es`. -/
def Records {α : Type} (x : Traced α) (a : α) (es : List Event) : Prop := x = ⟨.ok a, es⟩

theorem records_bind {α β : Type} {x : Traced α} {f : α → Traced β} {a : α} {b : β} {es es' : List Event}
    (hx : Records x a es) (hf : Records (f a) b es') :
    Records (@bind Traced tracedMonad.toBind α β x f) b (es ++ es') := by
  unfold Records at hx hf ⊢
  show Traced.mk (x.result >>= fun c => (f c).result) (x.events ++ Traced.rest x.result f) = _
  rw [hx]
  show Traced.mk (f a).result (es ++ (f a).events) = _
  rw [hf]

theorem Records.events {α : Type} {x : Traced α} {a : α} {es : List Event} (h : Records x a es) : x.events = es :=
  congrArg Traced.events h

/-- The recorded answer is that of the plain computation. -/
theorem Records.value {α : Type} {x : Traced α} {a b : α} {es : List Event} (h : Records x a es)
    (hb : Erases x (.ok b)) : b = a :=
  Except.ok.inj (hb.symm.trans (congrArg Traced.result h))

/-- What `k` batches note. -/
def batchEvents (k : Nat) : List Event := (List.replicate k [Event.passes .batch 1, Event.passes .divstep 62]).flatten

theorem records_invBatch (M : Nat) (t : InvState) :
    Records (@Scribe.invBatch Traced tracedMonad recorder.toScribe M t) (invBatch M t)
      [Event.passes .batch 1, Event.passes .divstep 62] := rfl

theorem records_invBatches (M k : Nat) (t : InvState) :
    Records (@Scribe.invBatches Traced tracedMonad recorder.toScribe M k t) (invBatches M k t) (batchEvents k) := by
  induction k generalizing t with
  | zero => rfl
  | succ k ih => exact records_bind (records_invBatch M t) (ih _)

theorem records_invResult (M k : Nat) (t : InvState) :
    Records (@Scribe.invResult Traced tracedMonad recorder.toScribe M k t) (invResult M k t) [Event.correction M k] := rfl

theorem records_invCt (x M : Nat) :
    Records (@Scribe.invCt Traced tracedMonad recorder.toScribe x M) (invCt x M)
      (batchEvents 12 ++ [Event.correction M 12]) := by
  rw [invCt_eq]
  exact records_bind (records_invBatches M 12 _) (records_invResult M 12 _)

/-- The loop of INV_VAR performs some number of batches within its bound, at least one when the bound allows one, and notes
just those (R180). -/
theorem records_invVarLoop (M fuel k : Nat) (t : InvState) : ∃ j ≤ fuel, (0 < fuel → 0 < j) ∧
    Records (@Scribe.invVarLoop Traced tracedMonad recorder.toScribe M fuel k t) (invBatches M j t, k + j)
      (batchEvents j) := by
  induction fuel generalizing k t with
  | zero => exact ⟨0, le_rfl, id, rfl⟩
  | succ fuel ih =>
    unfold Scribe.invVarLoop
    by_cases hg : (invBatch M t).g = 0
    case pos =>
      exact ⟨1, by omega, fun _ => by omega, records_bind (records_invBatch M t) (by rw [if_pos hg]; rfl)⟩
    case neg =>
      obtain ⟨j, hj, -, hr⟩ := ih (k + 1) (invBatch M t)
      refine ⟨j + 1, by omega, fun _ => by omega, records_bind (records_invBatch M t) ?_⟩
      rw [if_neg hg, invBatches_succ, Nat.add_comm j 1, ← Nat.add_assoc]
      exact hr

/-- The run of INV_VAR is as many batches as its count says, between 1 and 12 (R180, log 12). -/
theorem records_invVarRun (x M : Nat) : 1 ≤ (invVarRun x M).2 ∧ (invVarRun x M).2 ≤ 12 ∧
    (invVarRun x M).1 = invBatches M (invVarRun x M).2 (invStart x M) ∧
    Records (@Scribe.invVarRun Traced tracedMonad recorder.toScribe x M) (invVarRun x M)
      (batchEvents (invVarRun x M).2) := by
  obtain ⟨k, hk, hpos, hr⟩ := records_invVarLoop M 12 0 (invStart x M)
  rw [Nat.zero_add] at hr
  have value : invVarRun x M = (invBatches M k (invStart x M), k) :=
    hr.value ((erases_invVarLoop M 12 0 _).trans (plain_invVarLoop M 12 0 _))
  rw [value]
  exact ⟨hpos (by decide), hk, rfl, hr⟩

theorem records_invVar (x M : Nat) :
    Records (@Scribe.invVar Traced tracedMonad recorder.toScribe x M) (invVar x M)
      (batchEvents (invVarRun x M).2 ++ [Event.correction M (invVarRun x M).2]) := by
  obtain ⟨-, -, -, hr⟩ := records_invVarRun x M
  rw [invVar_eq]
  exact records_bind hr (records_invResult M _ _)

/-! ## The two engines (R179, R180) -/

/-- When INV_VAR stopped at g = 0, the batches INV_CT still makes are corrected away (R180). -/
theorem invVar_eq_invCt {x M : Nat} (hM : M % 2 = 1) (h : (invVarRun x M).1.g = 0) : invVar x M = invCt x M := by
  obtain ⟨-, hk, state, -⟩ := records_invVarRun x M
  have rest := invResult_invBatches hM (12 - (invVarRun x M).2) (invVarRun x M).2 h
  rw [state, ← invBatches_add, Nat.add_sub_cancel' hk] at rest
  rw [invVar_eq, state, invCt_eq]
  exact rest.symm

theorem invCt_zero {M : Nat} (hM : M % 2 = 1) : invCt 0 M = 0 := by
  rw [invCt_eq]
  exact invResult_zero hM _

theorem invVar_zero {M : Nat} (hM : M % 2 = 1) : invVar 0 M = 0 := by
  obtain ⟨-, -, state, -⟩ := records_invVarRun 0 M
  rw [invVar_eq, state]
  exact invResult_zero hM _

/-- Settles O59: the batches keep R173's congruences, the correction takes their power of two away, and the records are those
of the loops. -/
theorem inversionEngine : Obligations.InversionEngine := by
  refine ⟨fun x M hM _ => ⟨fun _ hf => ?inverse, invVar_eq_invCt hM, invCt_zero hM, invVar_zero hM⟩, fun x M => ?records⟩
  case inverse =>
    have tracks := tracks_invBatches 12 (tracks_start x hM)
    rw [Nat.zero_add] at tracks
    rw [invCt_eq]
    exact invResult_mul hM tracks hf
  case records =>
    obtain ⟨hpos, hk, -, -⟩ := records_invVarRun x M
    exact ⟨(records_invCt x M).events, (records_invVar x M).events, hpos, hk⟩

/-! ## The field commands (R175, R176) -/

section
variable {s : State} {rd ra : RegNum}

section
variable {a : Fe} (ha : s.HoldsF ra a)
include ha

theorem exec_feInv : exec (.feInv rd ra) s = runWord (encode (.feInv rd ra)) s
    (chk8 [a] >>= fun _ => .ok (writeF rd (feConst (invCt a.val Const.p)) s)) := by
  refine exec_of_work rfl (readF_bind ha ?_)
  rw [plain_invCt]
  rfl

theorem exec_feInvvar : exec (.feInvvar rd ra) s = runWord (encode (.feInvvar rd ra)) s
    (chk8 [a] >>= fun _ => .ok (writeF rd (feConst (invVar a.val Const.p)) s)) := by
  refine exec_of_work rfl (readF_bind ha ?_)
  rw [plain_invVar]
  rfl

end

/-! ## The scalar commands (R177, R178) -/

section
variable {a : ScalarWord} (ha : s.HoldsS ra a)
include ha

theorem exec_scInv : exec (.scInv rd ra) s = runWord (encode (.scInv rd ra)) s
    (.ok (writeS rd (invCt a.toNat Const.n) s)) := by
  refine exec_of_work rfl (readS_bind ha ?_)
  rw [plain_invCt]
  rfl

theorem exec_scInvvar : exec (.scInvvar rd ra) s = runWord (encode (.scInvvar rd ra)) s
    (.ok (writeS rd (invVar a.toNat Const.n) s)) := by
  refine exec_of_work rfl (readS_bind ha ?_)
  rw [plain_invVar]
  rfl

end

end

theorem p_odd : Const.p % 2 = 1 := by decide

theorem chk8_one {a : Fe} (h : a.mag ≤ 8) : chk8 [a] = .ok () := chk8_ok.2 (by simpa using h)

theorem chk8_one_error {a : Fe} (h : 8 < a.mag) : chk8 [a] = .error .feMagnitude := chk8_error (by simpa using h)

/-- Settles O34: both commands check the magnitude first; p is odd, so the engine gives 0 for 0. -/
theorem fieldInversions : Obligations.FieldInversions := by
  refine ⟨fun s rd ra a hs ha => ⟨fun h => ⟨?inv, ?invvar⟩, fun h => ⟨?invFault, ?invvarFault⟩⟩, invCt_zero p_odd,
    invVar_zero p_odd⟩
  case inv => rw [exec_feInv ha, chk8_one h]; exact runWord_ok _ hs
  case invvar => rw [exec_feInvvar ha, chk8_one h]; exact runWord_ok _ hs
  case invFault => rw [exec_feInv ha, chk8_one_error h]; exact runWord_error _ hs
  case invvarFault => rw [exec_feInvvar ha, chk8_one_error h]; exact runWord_error _ hs

/-- Settles O40: neither command has a precondition beyond a valid operand; n is odd, so the engine gives 0 for 0. -/
theorem scalarInversions : Obligations.ScalarInversions :=
  ⟨fun _ _ _ _ hs ha => ⟨(exec_scInv ha).trans (runWord_ok _ hs), (exec_scInvvar ha).trans (runWord_ok _ hs)⟩,
    invCt_zero n_odd, invVar_zero n_odd⟩

end Sys2Proof.Machine
end

section
/-! SUPPORT. The group family (`spec/44_group.md`), part 1: what the doubler and the adders compute modulo p (R196 to R200). Each
helper of a chain keeps track of the residue its content stands for (`Fe.Is`), so a formula is read off the chain; that the chain
answers is `Laws/Group.lean`. -/

namespace Sys2Proof.Machine

/-! ## Contents and the residues they stand for -/

/-- A well-formed content of value `v` modulo p. -/
structure Fe.Is (a : Fe) (v : ZMod Const.p) : Prop where
  wf : a.Wf
  value : a.mod = v

theorem Fe.Wf.is_mod {a : Fe} (h : a.Wf) : a.Is a.mod := ⟨h, rfl⟩

/-- The form in which the field helpers' specs give a value. -/
theorem is_of_ival {a : Fe} {v : ZMod Const.p} (h : a.Wf ∧ (a.ival : ZMod Const.p) = v) : a.Is v :=
  ⟨h.1, (cast_val a).trans h.2⟩

theorem Fe.Is.ival {a : Fe} {v : ZMod Const.p} (h : a.Is v) : (a.ival : ZMod Const.p) = v := (cast_val a).symm.trans h.value

theorem is_feConst {v : Nat} (h : v < Const.p) : (feConst v).Is v :=
  ⟨wf_feConst h, congrArg Nat.cast (feConst_val h)⟩

theorem feOne_mod : Fe.one.mod = 1 := (is_feConst (by decide)).value.trans Nat.cast_one

/-- NTZ tests the residue (R116). -/
theorem feNtz_eq (a : Fe) : feNtz a = decide (a.mod = 0) := by
  have zero : a.mod = 0 ↔ a.val = 0 :=
    (ZMod.natCast_eq_zero_iff a.val Const.p).trans ⟨fun h => Nat.eq_zero_of_dvd_of_lt h (val_lt a), fun h => h ▸ dvd_zero _⟩
  exact decide_eq_decide.2 zero.symm

section
variable {a b : Fe} {v w : ZMod Const.p} (ha : a.Is v)
include ha

theorem ensures_feMul (hb : b.Is w) : Ensures (feMul a b) (·.Is (v * w)) := by
  by_cases hm : a.mag ≤ 8 ∧ b.mag ≤ 8
  · obtain ⟨r, hr, -, -, spec⟩ := feMul_spec hm.1 hm.2
    obtain ⟨hwf, hi⟩ := spec ha.wf hb.wf
    exact ensures_of_spec ⟨r, hr, is_of_ival ⟨hwf, by rw [hi, ha.ival, hb.ival]⟩⟩
  · rw [feMul_error (by omega)]
    exact ensures_error _

theorem ensures_feSqr : Ensures (feSqr a) (·.Is (v * v)) := ensures_feMul ha ha

theorem ensures_feAdd (hb : b.Is w) : Ensures (feAdd a b) (·.Is (v + w)) := fun r hr =>
  is_of_ival ⟨wf_feAdd ha.wf hb.wf hr, by rw [feAdd_ival ha.wf hb.wf hr, Nat.cast_add, ha.ival, hb.ival]⟩

theorem ensures_feTimes {k : Nat} (hk : 1 ≤ k) : Ensures (feTimes a k) (·.Is (v * k)) := fun r hr =>
  is_of_ival ⟨wf_feTimes hk ha.wf hr, by rw [feTimes_ival ha.wf hr, Nat.cast_mul, ha.ival]⟩

theorem ensures_feNeg (m : Nat) : Ensures (feNeg a m) (·.Is (-v)) := fun r hr => by
  have residue := congrArg (Int.cast : Int → ZMod Const.p) (feNeg_ival ha.wf hr)
  push_cast [ZMod.natCast_self] at residue
  exact is_of_ival ⟨wf_feNeg ha.wf hr, by rw [residue, ha.ival, mul_zero, zero_sub]⟩

end

/-! ## The doubler (R196) -/

/-- The coordinates of `R` are those of the tangent formula at (a, b, c). -/
structure Gej.IsTangent (R : Gej) (a b c : ZMod Const.p) : Prop where
  x : R.x.mod = (3 * a ^ 2) ^ 2 - 2 * (4 * a * b ^ 2)
  y : R.y.mod = 3 * a ^ 2 * (4 * a * b ^ 2 - R.x.mod) - 8 * b ^ 4
  z : R.z.mod = 2 * b * c

/-- A finite content is not zeroized, so the chain's coordinates are the answer's (R191). -/
theorem ensures_gejDbl_tangent {P : Gej} {x y z : ZMod Const.p} (hx : P.x.Is x) (hy : P.y.Is y) (hz : P.z.Is z)
    (hi : P.inf = false) : Ensures (gejDbl P) (·.IsTangent x y z) := by
  rw [gejDbl_eq, hi]
  refine ensures_then fun _ =>
    ensures_bind (ensures_feMul hz hy) fun _ hzy =>
    ensures_bind (ensures_feAdd hzy hzy) fun _ hz3 =>
    ensures_bind (ensures_feSqr hx) fun _ hx2 =>
    ensures_bind (ensures_feTimes hx2 (by decide)) fun _ hM =>
    ensures_bind (ensures_feSqr hM) fun _ hM2 =>
    ensures_bind (ensures_feSqr hy) fun _ hy2 =>
    ensures_bind (ensures_feTimes hy2 (by decide)) fun _ h2y2 =>
    ensures_bind (ensures_feSqr h2y2) fun _ h4y4 =>
    ensures_bind (ensures_feTimes h4y4 (by decide)) fun _ h8y4 =>
    ensures_bind (ensures_feMul h2y2 hx) fun _ h2xy2 =>
    ensures_bind (ensures_feTimes h2xy2 (by decide)) fun _ h2S =>
    ensures_bind (ensures_feNeg h2S 4) fun _ hneg2S =>
    ensures_bind (ensures_feAdd hneg2S hM2) fun _ hx3 =>
    ensures_bind (ensures_feNeg hM2 1) fun _ hnegM2 =>
    ensures_bind (ensures_feTimes h2xy2 (by decide)) fun _ h3S =>
    ensures_bind (ensures_feAdd h3S hnegM2) fun _ hSx3 =>
    ensures_bind (ensures_feMul hM hSx3) fun _ hMSx3 =>
    ensures_bind (ensures_feNeg h8y4 2) fun _ hneg8y4 =>
    ensures_bind (ensures_feAdd hMSx3 hneg8y4) fun _ hy3 => ensures_ok ⟨?_, ?_, ?_⟩
  · refine hx3.value.trans ?_
    push_cast
    ring
  · refine hy3.value.trans (Eq.trans ?_ (congrArg (fun v => 3 * x ^ 2 * (4 * x * y ^ 2 - v) - 8 * y ^ 4) hx3.value).symm)
    push_cast
    ring
  · refine hz3.value.trans ?_
    ring

/-- Settles O56: `gejDbl_spec` gives the answer, the tags and the invariant; the chain of field operations the formula. -/
theorem doublingIsTheTangentFormula : Obligations.DoublingIsTheTangentFormula := by
  intro P hP h8
  obtain ⟨R, hR, -, -, -, -, -, -, hinf, hwf⟩ := gejDbl_spec h8.x h8.y h8.z
  refine ⟨R, hR, hwf hP.x hP.y hP.z, hinf, fun hi => ?_⟩
  obtain ⟨hx, hy, hz⟩ := ensures_gejDbl_tangent hP.x.is_mod hP.y.is_mod hP.z.is_mod hi R hR
  exact ⟨hx, hy, hz⟩

/-! ## The chord formula (R197) -/

/-- `R` is finite and its coordinates are those of the chord formula for U1 = u, S1 = s, H = h, I = i, ZF = f. -/
structure Gej.IsChord (R : Gej) (u s h i f : ZMod Const.p) : Prop where
  finite : R.inf = false
  x : R.x.mod = i ^ 2 - h ^ 3 - 2 * u * h ^ 2
  y : R.y.mod = (u * h ^ 2 - R.x.mod) * i - s * h ^ 3
  z : R.z.mod = f * h

section
variable {U S H I Z : Fe} {u s h i z : ZMod Const.p} (hU : U.Is u) (hS : S.Is s) (hH : H.Is h) (hI : I.Is i)
include hU hS hH hI

theorem ensures_addCore_chord (hZ : Z.Is z) :
    Ensures (addCore U S H I Z) (fun c => Gej.IsChord ⟨c.1, c.2.1, c.2.2, false⟩ u s h i z) := by
  rw [addCore_eq]
  refine ensures_bind (ensures_feSqr hI) fun _ hI2 =>
    ensures_bind (ensures_feSqr hH) fun _ hH2 =>
    ensures_bind (ensures_feMul hH hH2) fun _ hH3 =>
    ensures_bind (ensures_feMul hZ hH) fun _ hz3 =>
    ensures_bind (ensures_feMul hU hH2) fun _ ht =>
    ensures_bind (ensures_feTimes ht (by decide)) fun _ h2t =>
    ensures_bind (ensures_feAdd h2t hH3) fun _ hsum =>
    ensures_bind (ensures_feNeg hsum 3) fun _ hnegSum =>
    ensures_bind (ensures_feAdd hnegSum hI2) fun _ hx3 =>
    ensures_bind (ensures_feNeg hx3 5) fun _ hnegx3 =>
    ensures_bind (ensures_feAdd hnegx3 ht) fun _ hdiff =>
    ensures_bind (ensures_feMul hdiff hI) fun _ hprod =>
    ensures_bind (ensures_feMul hH3 hS) fun _ hSH3 =>
    ensures_bind (ensures_feNeg hSH3 1) fun _ hnegSH3 =>
    ensures_bind (ensures_feAdd hprod hnegSH3) fun _ hy3 => ensures_ok ⟨rfl, ?_, ?_, hz3.value⟩
  · refine hx3.value.trans ?_
    push_cast
    ring
  · refine hy3.value.trans (Eq.trans ?_ (congrArg (fun v => (u * h ^ 2 - v) * i - s * h ^ 3) hx3.value).symm)
    ring

/-- How the two variable-time adders end, by the residues of H and I (R198, R199). -/
theorem finishAdd_value {P : Gej} (h8 : U.mag ≤ 8 ∧ S.mag ≤ 8 ∧ H.mag ≤ 8 ∧ I.mag ≤ 8 ∧ Z.mag ≤ 8) (hZ : Z.Is z) :
    (h ≠ 0 → ∃ R, finishAdd P U S H I (.ok Z) = .ok R ∧ R.IsChord u s h i z) ∧
    (h = 0 → i ≠ 0 → finishAdd P U S H I (.ok Z) = .ok Gej.infinity) ∧
    (h = 0 → i = 0 → finishAdd P U S H I (.ok Z) = gejDbl P) := by
  rw [finishAdd_eq, feNtz_eq, feNtz_eq, hH.value, hI.value]
  refine ⟨fun hh => ?chord, fun hh hi => ?opposite, fun hh hi => ?same⟩
  case chord =>
    obtain ⟨mU, mS, mH, mI, mZ⟩ := h8
    obtain ⟨X, Y, Z3, hc, -⟩ := addCore_spec mU mS mH mI mZ
    refine ⟨⟨X, Y, Z3, false⟩, ?_, ensures_addCore_chord hU hS hH hI hZ _ hc⟩
    simp only [decide_eq_false hh, chk_ok_bind, hc, chk_pure]
  case opposite => rw [decide_eq_true hh, decide_eq_false hi]
  case same => rw [decide_eq_true hh, decide_eq_true hi]

end

/-! ## The variable-time adders (R198, R199) -/

theorem crossJac_value {P Q : Gej} (hP : P.Wf) (hQ : Q.Wf) (hP8 : P.Within8) (hQ8 : Q.Within8) :
    ∃ U S H I, crossJac P Q = .ok (U, S, H, I) ∧ (U.mag ≤ 8 ∧ S.mag ≤ 8 ∧ H.mag ≤ 8 ∧ I.mag ≤ 8) ∧
      U.Is (P.x.mod * Q.z.mod ^ 2) ∧ S.Is (P.y.mod * Q.z.mod ^ 3) ∧
      H.Is (Q.x.mod * P.z.mod ^ 2 - P.x.mod * Q.z.mod ^ 2) ∧ I.Is (Q.y.mod * P.z.mod ^ 3 - P.y.mod * Q.z.mod ^ 3) := by
  obtain ⟨U, S, H, I, hc, mU, mS, mH, mI, spec⟩ := crossJac_spec hP8.x hP8.y hP8.z hQ8.x hQ8.y hQ8.z
  obtain ⟨wU, wS, wH, wI, vU, vS, vH, vI⟩ := spec hP hQ
  simp only [cast_val]
  exact ⟨U, S, H, I, hc, by omega, is_of_ival ⟨wU, vU⟩, is_of_ival ⟨wS, vS⟩, is_of_ival ⟨wH, vH⟩, is_of_ival ⟨wI, vI⟩⟩

theorem crossMixed_value {P : Gej} {b : Ge} (hP : P.Wf) (hb : b.Wf) (hP8 : P.Within8) (hb8 : b.Within8) :
    ∃ U S H I, crossMixed P b = .ok (U, S, H, I) ∧ (U.mag ≤ 8 ∧ S.mag ≤ 8 ∧ H.mag ≤ 8 ∧ I.mag ≤ 8) ∧
      U.Is P.x.mod ∧ S.Is P.y.mod ∧
      H.Is (b.x.mod * P.z.mod ^ 2 - P.x.mod) ∧ I.Is (b.y.mod * P.z.mod ^ 3 - P.y.mod) := by
  obtain ⟨U, S, H, I, hc, mU, mS, mH, mI, spec⟩ := crossMixed_spec (P := P) (b := b) hP8.z hb8.x hb8.y
  obtain ⟨wU, wS, wH, wI, vU, vS, vH, vI⟩ := spec hP hb
  simp only [cast_val]
  exact ⟨U, S, H, I, hc, by omega, is_of_ival ⟨wU, vU⟩, is_of_ival ⟨wS, vS⟩, is_of_ival ⟨wH, vH⟩, is_of_ival ⟨wI, vI⟩⟩

theorem gejAddVar_value {P Q : Gej} (hP : P.Wf) (hQ : Q.Wf) (hP8 : P.Within8) (hQ8 : Q.Within8) (iP : P.inf = false)
    (iQ : Q.inf = false) {u s h i : ZMod Const.p} (hu : u = P.x.mod * Q.z.mod ^ 2) (hs : s = P.y.mod * Q.z.mod ^ 3)
    (hh : h = Q.x.mod * P.z.mod ^ 2 - u) (hi : i = Q.y.mod * P.z.mod ^ 3 - s) :
    (h ≠ 0 → ∃ R, gejAddVar P Q = .ok R ∧ R.IsChord u s h i (P.z.mod * Q.z.mod)) ∧
    (h = 0 → i ≠ 0 → gejAddVar P Q = .ok Gej.infinity) ∧ (h = 0 → i = 0 → gejAddVar P Q = gejDbl P) := by
  obtain ⟨U, S, H, I, hc, mags, hU, hS, hH, hI⟩ := crossJac_value hP hQ hP8 hQ8
  obtain ⟨Z, hZ, mZ, -⟩ := feMul_spec hP8.z hQ8.z
  have ends : gejAddVar P Q = finishAdd P U S H I (.ok Z) := by
    rw [gejAddVar_eq, iP, iQ, chk8_six hP8.x hP8.y hP8.z hQ8.x hQ8.y hQ8.z, hc, hZ]
    rfl
  subst hi hh hs hu
  rw [ends]
  exact finishAdd_value hU hS hH hI (by omega) (ensures_feMul hP.z.is_mod hQ.z.is_mod _ hZ)

theorem gejAddGeVar_value {P : Gej} {b : Ge} (hP : P.Wf) (hb : b.Wf) (hP8 : P.Within8) (hb8 : b.Within8)
    (iP : P.inf = false) (ib : b.inf = false) {h i : ZMod Const.p} (hh : h = b.x.mod * P.z.mod ^ 2 - P.x.mod)
    (hi : i = b.y.mod * P.z.mod ^ 3 - P.y.mod) :
    (h ≠ 0 → ∃ R, gejAddGeVar P b = .ok R ∧ R.IsChord P.x.mod P.y.mod h i P.z.mod) ∧
    (h = 0 → i ≠ 0 → gejAddGeVar P b = .ok Gej.infinity) ∧ (h = 0 → i = 0 → gejAddGeVar P b = gejDbl P) := by
  obtain ⟨U, S, H, I, hc, mags, hU, hS, hH, hI⟩ := crossMixed_value hP hb hP8 hb8
  have ends : gejAddGeVar P b = finishAdd P U S H I (.ok P.z) := by
    rw [gejAddGeVar_eq, iP, ib, chk8_five hP8.x hP8.y hP8.z hb8.x hb8.y, hc]
    rfl
  have mz := hP8.z
  subst hi hh
  rw [ends]
  exact finishAdd_value hU hS hH hI (by omega) hP.z.is_mod

/-! ## The constant-time adder (R200) -/

/-- `R` has the inf bit of `Q` and, when that is 0, its coordinates modulo p. -/
structure Gej.SamePoint (R Q : Gej) : Prop where
  inf : R.inf = Q.inf
  coordinates : Q.inf = false → R.x.mod = Q.x.mod ∧ R.y.mod = Q.y.mod ∧ R.z.mod = Q.z.mod

theorem samePoint_refl (P : Gej) : P.SamePoint P := ⟨rfl, fun _ => ⟨rfl, rfl, rfl⟩⟩

theorem samePoint_selectGej {r q : Gej} (h : r.SamePoint q) (a : Gej) (c : Bool) :
    (selectGej r a c).SamePoint (if c then a else q) := by
  cases c
  · exact ⟨h.inf, h.coordinates⟩
  · exact ⟨rfl, fun _ => ⟨rfl, rfl, rfl⟩⟩

/-- Zeroizing what is infinite changes no finite content. -/
theorem samePoint_zeroize {r q : Gej} (h : r.SamePoint q) : (zeroize r r.inf).SamePoint q := by
  refine ⟨h.inf, fun hq => ?_⟩
  rw [h.inf, hq]
  exact h.coordinates hq

/-- The content ADDGE selects of the chord C, the tangent D, P and b: three CMOVs, the last one winning. -/
def addGeSelection (P : Gej) (b : Ge) (C D : Gej) (same : Bool) : Gej :=
  selectGej (selectGej (selectGej C D same) P b.inf) ⟨b.x, b.y, Fe.one, b.inf⟩ P.inf

theorem samePoint_addGeSelection (P : Gej) (b : Ge) (C D : Gej) (same : Bool) :
    (addGeSelection P b C D same).SamePoint (
      if P.inf then ⟨b.x, b.y, Fe.one, b.inf⟩ else if b.inf then P else if same then D else C) :=
  samePoint_selectGej (samePoint_selectGej (samePoint_selectGej (samePoint_refl C) D same) P b.inf) _ _

/-- ADDGE computes the chord C and the tangent D, and of C (infinite for opposite points), D, P and b selects the one that the
inf bits and the residues H, I call for. -/
theorem gejAddGe_value {P : Gej} {b : Ge} (hP : P.Wf) (hb : b.Wf) (hP8 : P.Within8) (hb8 : b.Within8)
    {h i : ZMod Const.p} (hh : h = b.x.mod * P.z.mod ^ 2 - P.x.mod) (hi : i = b.y.mod * P.z.mod ^ 3 - P.y.mod) :
    ∃ R C D : Gej, gejAddGe P b = .ok R ∧ C.IsChord P.x.mod P.y.mod h i P.z.mod ∧ gejDbl ⟨P.x, P.y, P.z, false⟩ = .ok D ∧
      R.SamePoint (
        if P.inf then ⟨b.x, b.y, Fe.one, b.inf⟩
        else if b.inf then P
        else if decide (h = 0) && decide (i = 0) then { D with inf := decide (h = 0) && !decide (i = 0) }
        else { C with inf := decide (h = 0) && !decide (i = 0) }) := by
  obtain ⟨U, S, H, I, hc, mags, hU, hS, hH, hI⟩ := crossMixed_value hP hb hP8 hb8
  obtain ⟨X, Y, Z, hC, -⟩ := addCore_spec (u := U) (s := S) (h := H) (i := I) (by omega) (by omega) (by omega) (by omega) hP8.z
  obtain ⟨D, hD, -⟩ := gejDbl_spec (P := ⟨P.x, P.y, P.z, false⟩) hP8.x hP8.y hP8.z
  subst hi hh
  refine ⟨zeroize _ _, ⟨X, Y, Z, false⟩, D, ?_, ensures_addCore_chord hU hS hH hI hP.z.is_mod _ hC, hD,
    samePoint_zeroize (samePoint_addGeSelection P b _ _ _)⟩
  rw [gejAddGe_eq, chk8_five hP8.x hP8.y hP8.z hb8.x hb8.y, hc]
  simp only [chk_ok_bind, hC, hD, feNtz_eq, hH.value, hI.value]
  rfl

/-- Settles O57: the two variable-time adders by `finishAdd_value`; ADDGE by the content it selects. -/
theorem additionIsTheChordFormula : Obligations.AdditionIsTheChordFormula := by
  refine ⟨fun P Q hP hQ hP8 hQ8 iP iQ u s h i hu hs hh hi => ?jacobian, fun P b hP hb hP8 hb8 iP ib h i hh hi => ?mixed,
    fun P b hP hb hP8 hb8 => ?complete⟩
  case jacobian =>
    obtain ⟨chord, rest⟩ := gejAddVar_value hP hQ hP8 hQ8 iP iQ hu hs hh hi
    refine ⟨fun hne => ?_, rest⟩
    obtain ⟨R, hR, hc⟩ := chord hne
    exact ⟨R, hR, hc.finite, hc.x, hc.y, hc.z⟩
  case mixed =>
    obtain ⟨chord, rest⟩ := gejAddGeVar_value hP hb hP8 hb8 iP ib hh hi
    refine ⟨fun hne => ?_, rest⟩
    obtain ⟨R, hR, hc⟩ := chord hne
    exact ⟨R, hR, hc.finite, hc.x, hc.y, hc.z⟩
  case complete =>
    obtain ⟨R, C, D, hR, hC, hD, same⟩ := gejAddGe_value hP hb hP8 hb8 rfl rfl
    refine ⟨R, hR, fun iP ib => ?bothInfinite, fun iP ib => ?leftInfinite, fun iP ib => ?rightInfinite,
      fun iP ib h i hh hi => ?bothFinite⟩
    case bothInfinite =>
      rw [iP, if_pos rfl] at same
      exact same.inf.trans ib
    case leftInfinite =>
      rw [iP, if_pos rfl] at same
      obtain ⟨hx, hy, hz⟩ := same.coordinates ib
      exact ⟨same.inf.trans ib, hx, hy, hz.trans feOne_mod⟩
    case rightInfinite =>
      rw [iP, ib, if_neg Bool.false_ne_true, if_pos rfl] at same
      exact ⟨same.inf.trans iP, same.coordinates iP⟩
    case bothFinite =>
      rw [← hh, ← hi] at hC same
      rw [iP, ib, if_neg Bool.false_ne_true, if_neg Bool.false_ne_true] at same
      refine ⟨fun hne => ?chord, fun h0 hne => ?opposite, fun h0 i0 => ?tangent⟩
      case chord =>
        rw [decide_eq_false hne] at same
        obtain ⟨hx, hy, hz⟩ := same.coordinates rfl
        exact ⟨same.inf, hx.trans hC.x, by rw [hx]; exact hy.trans hC.y, hz.trans hC.z⟩
      case opposite =>
        rw [decide_eq_true h0, decide_eq_false hne] at same
        exact same.inf
      case tangent =>
        rw [decide_eq_true h0, decide_eq_true i0] at same
        obtain ⟨hx, hy, hz⟩ := same.coordinates rfl
        rw [← iP] at hD
        exact ⟨same.inf, D, hD, hx, hy, hz⟩

end Sys2Proof.Machine
end

section
/-! SUPPORT. The group family (`spec/44_group.md`), part 2: the affine point commands, each as its run once its operands are read
(R203 to R216). -/

namespace Sys2Proof.Machine

/-! ## Operands of a command's work -/

section
variable {s : State} {r : RegNum} {work : Chk State}

theorem readA_bind {P : Ge} (h : s.HoldsA r P) {f : Ge → Chk State} (hf : f P = work) : (readA r s >>= f) = work := by
  rw [readA_ok h, chk_ok_bind, hf]

theorem readJ_bind {P : Gej} (h : s.HoldsJ r P) {f : Gej → Chk State} (hf : f P = work) : (readJ r s >>= f) = work := by
  rw [readJ_ok h, chk_ok_bind, hf]

end

theorem slot2_check {imm : Imm} (h : imm.toNat ≤ 30) : (ImmKind.slot2.check imm).isNone = true :=
  (isNone_check _ _).trans (decide_eq_true h)

/-- Two slots that hold `vx` and `vy` load as that pair (R65). -/
theorem loadPair_of_slotHolds {s : State} {imm : Imm} {vx vy : Nat} (hx : s.SlotHolds imm.toNat vx)
    (hy : s.SlotHolds (imm.toNat + 1) vy) : loadPair imm s = .ok (vx, vy) := by
  have slot {k v : Nat} (h : s.SlotHolds k v) : memRead (32 * k) 32 s = .ok (be32 v) := by
    rw [memRead_slot, if_pos h.valid, readBytes_eq_be32 h.bytes]
  rw [loadPair, immAddr_eq, ← Nat.mul_succ, slot hx, slot hy, chk_ok_bind, chk_ok_bind, chk_pure, intBe_be32 vx hx.value,
    intBe_be32 vy hy.value]

/-! ## Helpers of the affine commands -/

/-- A coordinate negated with its own magnitude as the bound (R194). -/
theorem feNeg_own {y : Fe} (h : y.mag ≤ 31) : feNeg y y.mag = .ok ⟨y.n.negated y.mag, y.mag + 1, false⟩ :=
  feNeg_ok le_rfl h

/-- A negated coordinate with the zero limbs of infinity (R194). -/
theorem feCmov_negated (l : Limbs) (m : Nat) (inf : Bool) :
    feCmov ⟨l, m + 1, false⟩ Fe.zero inf = ⟨if inf then Limbs.zero else l, m + 1, false⟩ := by
  simp [feCmov]

theorem require_negMag {y : Fe} (h : y.mag ≤ 31) : require (y.mag ≤ Config.feNegMag) .feMagnitude = .ok () :=
  require_eq_ok.2 (decide_eq_true h)

theorem negA_eq_ok {P : Ge} (h : P.y.mag ≤ 31) :
    negA P = .ok ⟨P.x, ⟨if P.inf then Limbs.zero else P.y.n.negated P.y.mag, P.y.mag + 1, false⟩, P.inf⟩ := by
  rw [negA_eq, require_negMag h, chk_ok_bind, feNeg_own h, chk_ok_bind, feCmov_negated, chk_pure]

theorem feConst_ival {v : Nat} (h : v < Const.p) : (feConst v).ival = v := canon_ival v (h.trans p_lt)

/-- Normalized contents have the same limbs exactly when they have the same value (R23). -/
theorem feNorm_n_inj (a b : Fe) : (feNorm a).n = (feNorm b).n ↔ a.val = b.val := by
  refine ⟨fun h => ?_, fun h => congrArg canon h⟩
  have ivals := congrArg Limbs.ival h
  rwa [feNorm, feNorm, canon_ival _ ((val_lt a).trans p_lt), canon_ival _ ((val_lt b).trans p_lt)] at ivals

theorem geEq_eq_decide (P Q : Ge) : geEq P Q = decide (P.inf = true ∧ Q.inf = true ∨
    P.inf = false ∧ Q.inf = false ∧ P.x.val = Q.x.val ∧ P.y.val = Q.y.val) := by
  rw [geEq_eq, Bool.eq_iff_iff]
  simp [feNorm_n_inj, and_assoc]

/-! ## The run of each command once its operands are read -/

section
variable {s : State} {rd ra rb : RegNum} {imm : Imm}

theorem exec_geSetxy {x y : Fe} (hx : s.HoldsF ra x) (hy : s.HoldsF rb y) :
    exec (.geSetxy rd ra rb) s = runWord (encode (.geSetxy rd ra rb)) s (.ok (writeA rd ⟨x, y, false⟩ s)) :=
  exec_of_work rfl (readF_bind hx (readF_bind hy rfl))

theorem exec_geSetinf :
    exec (.geSetinf rd) s = runWord (encode (.geSetinf rd)) s (.ok (writeA rd Ge.infinity s)) :=
  exec_of_work rfl rfl

theorem exec_geSetg : exec (.geSetg rd) s = runWord (encode (.geSetg rd)) s (.ok (writeA rd Ge.generator s)) :=
  exec_of_work rfl rfl

theorem exec_geFromstor {v : Nat × Nat} (hi : imm.toNat ≤ 30) (hv : loadPair imm s = .ok v) :
    exec (.geFromstor rd imm) s = runWord (encode (.geFromstor rd imm)) s
      (.ok (setOvf ((reduceOnce v.1 Const.p).2 || (reduceOnce v.2 Const.p).2)
        (writeA rd ⟨feConst (reduceOnce v.1 Const.p).1, feConst (reduceOnce v.2 Const.p).1, false⟩ s))) := by
  refine exec_of_work (slot2_check hi) ?_
  show (loadPair imm s >>= _) = _
  rw [hv]
  rfl

section
variable {P : Ge} (hP : s.HoldsA ra P)
include hP

theorem exec_geGetx : exec (.geGetx rd ra) s = runWord (encode (.geGetx rd ra)) s (.ok (writeF rd P.x s)) :=
  exec_of_work rfl (readA_bind hP rfl)

theorem exec_geGety : exec (.geGety rd ra) s = runWord (encode (.geGety rd ra)) s (.ok (writeF rd P.y s)) :=
  exec_of_work rfl (readA_bind hP rfl)

theorem exec_geMov : exec (.geMov rd ra) s = runWord (encode (.geMov rd ra)) s (.ok (writeA rd P s)) :=
  exec_of_work rfl (readA_bind hP rfl)

theorem exec_geIsinf : exec (.geIsinf ra) s = runWord (encode (.geIsinf ra)) s (.ok (setT P.inf s)) :=
  exec_of_work rfl (readA_bind hP rfl)

theorem exec_geEq {Q : Ge} (hQ : s.HoldsA rb Q) :
    exec (.geEq ra rb) s = runWord (encode (.geEq ra rb)) s (.ok (setT (geEq P Q) s)) :=
  exec_of_work rfl (readA_bind hP (readA_bind hQ rfl))

theorem exec_geNeg : exec (.geNeg rd ra) s = runWord (encode (.geNeg rd ra)) s
    (negA P >>= fun r => .ok (writeA rd r s)) :=
  exec_of_work rfl (readA_bind hP rfl)

theorem exec_geMullambda : exec (.geMullambda rd ra) s = runWord (encode (.geMullambda rd ra)) s
    (chk8 [P.x] >>= fun _ => feMul P.x (feConst Const.beta) >>= fun x => .ok (writeA rd ⟨x, P.y, P.inf⟩ s)) :=
  exec_of_work rfl (readA_bind hP rfl)

theorem exec_geTostor (hi : imm.toNat ≤ 30) :
    exec (.geTostor ra imm) s = runWord (encode (.geTostor ra imm)) s
      (require (!P.inf) .pointAtInfinity >>= fun _ =>
        .ok (storePair imm (feConst P.x.val).ival (feConst P.y.val).ival s)) :=
  exec_of_work (slot2_check hi) (readA_bind hP rfl)

end

section
variable {P : Gej} (hP : s.HoldsJ ra P)
include hP

theorem exec_geSetgej : exec (.geSetgej rd ra) s = runWord (encode (.geSetgej rd ra)) s
    (toAff P invCt >>= fun r => .ok (writeA rd r s)) := by
  refine exec_of_work rfl (readJ_bind hP ?_)
  rw [plain_toAff_invCt]
  rfl

theorem exec_geSetgejvar : exec (.geSetgejvar rd ra) s = runWord (encode (.geSetgejvar rd ra)) s
    (toAff P invVar >>= fun r => .ok (writeA rd r s)) := by
  refine exec_of_work rfl (readJ_bind hP ?_)
  rw [plain_toAff_invVar]
  rfl

end

end

/-! ## Copies and tests (R203 to R208, R210, R216) -/

/-- Settles O43: none of the six has a precondition beyond valid operands. -/
theorem affineCopies : Obligations.AffineCopies := fun _ _ hs =>
  ⟨fun _ _ _ _ hx hy => (exec_geSetxy hx hy).trans (runWord_ok _ hs),
    fun _ _ hP => ⟨(exec_geGetx hP).trans (runWord_ok _ hs), (exec_geGety hP).trans (runWord_ok _ hs),
      (exec_geMov hP).trans (runWord_ok _ hs)⟩,
    exec_geSetinf.trans (runWord_ok _ hs), exec_geSetg.trans (runWord_ok _ hs)⟩

/-- Settles O44: GE_EQ compares normalized limbs, which are the values. -/
theorem affineTests : Obligations.AffineTests := by
  intro s ra rb P Q hs hP hQ
  refine ⟨(exec_geIsinf hP).trans (runWord_ok _ hs), ?_⟩
  rw [exec_geEq hP hQ, geEq_eq_decide]
  exact runWord_ok _ hs

/-! ## Negation and the endomorphism (R209, R211) -/

/-- Settles O45: each command answers exactly when its own coordinate's magnitude is within the bound. -/
theorem affineNegateMullambda : Obligations.AffineNegateMullambda := by
  intro s rd ra P hs hP
  refine ⟨fun h => ?neg, fun h => ?negFault, fun h => ?mul, fun h => ?mulFault⟩
  case neg => rw [exec_geNeg hP, negA_eq_ok h]; exact runWord_ok _ hs
  case negFault => rw [exec_geNeg hP, negA_error h]; exact runWord_error _ hs
  case mul =>
    rw [exec_geMullambda hP, chk8_one h, chk_ok_bind, feMul_ok h (by decide), feConst_ival (by decide)]
    exact runWord_ok _ hs
  case mulFault => rw [exec_geMullambda hP, chk8_one_error h]; exact runWord_error _ hs

/-! ## Storage form (R212, R213) -/

/-- Settles O46: the values stored are the normalized coordinates; one conditional subtraction reduces 256 bits modulo p. -/
theorem affineStorage : Obligations.AffineStorage := by
  intro s r imm hs hi
  refine ⟨fun P hP hf => ?store, fun P hP hinf => ?infinite, fun vx vy hx hy => ?load⟩
  case store =>
    rw [exec_geTostor hP hi, hf, feConst_ival (val_lt _), feConst_ival (val_lt _)]
    exact runWord_ok _ hs
  case infinite =>
    rw [exec_geTostor hP hi, hinf]
    exact runWord_error _ hs
  case load =>
    rw [exec_geFromstor hi (loadPair_of_slotHolds hx hy), reduceOnce_eq (hx.value.trans_le two_p),
      reduceOnce_eq (hy.value.trans_le two_p), ← Bool.decide_or]
    exact runWord_ok _ hs

/-! ## Conversion from Jacobian form (R202, R214, R215) -/

/-- A content that is not small enough for CHK8 is big. -/
theorem big_of_not_within8 {P : Gej} (h : ¬P.Within8) : P.big = true := by
  by_contra hb
  exact h (within8_of_not_big hb)

/-- TOAFF of a finite content multiplies by the square and the cube of the inverse it is given (R202). -/
theorem ensures_toAff_value {P : Gej} {inv : Nat → Nat → Nat} (hP : P.Wf) (hf : P.inf = false)
    (hi : inv P.z.val Const.p < Const.p) : Ensures (toAff P inv) (fun R =>
      R.x.mod = P.x.mod * (inv P.z.val Const.p : ZMod Const.p) ^ 2 ∧
      R.y.mod = P.y.mod * (inv P.z.val Const.p : ZMod Const.p) ^ 3) := by
  rw [toAff_eq, hf]
  refine ensures_then fun _ =>
    ensures_bind (ensures_feSqr (is_feConst hi)) fun _ hzi2 =>
    ensures_bind (ensures_feMul hzi2 (is_feConst hi)) fun _ hzi3 =>
    ensures_bind (ensures_feMul hP.x.is_mod hzi2) fun _ hx =>
    ensures_bind (ensures_feMul hP.y.is_mod hzi3) fun _ hy => ensures_ok ⟨hx.value.trans ?_, hy.value.trans ?_⟩
  · ring
  · ring

/-- Settles O47: both commands are TOAFF, with the one engine or the other; both engines answer below p. -/
theorem affineFromJacobian : Obligations.AffineFromJacobian := by
  intro s rd ra P hs hP
  refine ⟨fun h8 hwf inv i hi => ?answer, fun h => ⟨?fault, ?faultVar⟩⟩
  case answer =>
    have below : inv P.z.val Const.p < Const.p := by
      obtain ⟨rfl, -⟩ | ⟨rfl, -⟩ := hi
      · exact invCt_lt p_pos
      · exact invVar_lt p_pos
    have run : exec i s = runWord (encode i) s (toAff P inv >>= fun r => .ok (writeA rd r s)) := by
      obtain ⟨rfl, rfl⟩ | ⟨rfl, rfl⟩ := hi
      · exact exec_geSetgej hP
      · exact exec_geSetgejvar hP
    obtain ⟨R, hR, mx, my, nx, ny, inf, wf⟩ := toAff_spec (inv := inv) h8.x h8.y h8.z
    refine ⟨R, ?_, mx, my, nx, ny, inf, fun hinf => (wf hwf below).infinite (inf.trans hinf), fun hf =>
      ensures_toAff_value hwf hf below R hR⟩
    rw [run, hR]
    exact runWord_ok _ hs
  case fault => rw [exec_geSetgej hP, toAff_error (big_of_not_within8 h)]; exact runWord_error _ hs
  case faultVar => rw [exec_geSetgejvar hP, toAff_error (big_of_not_within8 h)]; exact runWord_error _ hs

end Sys2Proof.Machine
end

section
/-! SUPPORT. The group family (`spec/44_group.md`), part 3: the Jacobian point commands (R217 to R227): their run once their
operands are read, and the helpers' answers in the terms of the statements. -/

namespace Sys2Proof.Machine

/-! ## Helpers of the Jacobian commands -/

theorem negJ_eq_ok {P : Gej} (h : P.y.mag ≤ 31) :
    negJ P = .ok ⟨P.x, ⟨if P.inf then Limbs.zero else P.y.n.negated P.y.mag, P.y.mag + 1, false⟩, P.z, P.inf⟩ := by
  rw [negJ_eq, require_negMag h, chk_ok_bind, feNeg_own h, chk_ok_bind, feCmov_negated, chk_pure]

/-- Z of a converted affine content: 1, or zero limbs for infinity, with the tags of either (R193). -/
theorem toJac_eq_ite (a : Ge) : toJac a = ⟨a.x, a.y, ⟨if a.inf then Limbs.zero else canon 1, 1, true⟩, a.inf⟩ := rfl

/-- Zero limbs in all three coordinates when the content is infinite (R28). -/
def Gej.ZeroWhenInfinite (P : Gej) : Prop :=
  P.inf = true → P.x.n = Limbs.zero ∧ P.y.n = Limbs.zero ∧ P.z.n = Limbs.zero

theorem zeroize_zeroWhenInfinite (P : Gej) : (zeroize P P.inf).ZeroWhenInfinite := by
  intro h
  have hi : P.inf = true := h
  rw [hi]
  exact ⟨rfl, rfl, rfl⟩

/-- DBL ends by zeroizing (R196). -/
theorem ensures_gejDbl_zero (P : Gej) : Ensures (gejDbl P) Gej.ZeroWhenInfinite := by
  rw [gejDbl_eq]
  repeat refine ensures_then fun _ => ?_
  exact ensures_ok (zeroize_zeroWhenInfinite ⟨_, _, _, P.inf⟩)

/-- ADDGE ends by zeroizing (R200). -/
theorem ensures_gejAddGe_zero (P : Gej) (b : Ge) : Ensures (gejAddGe P b) Gej.ZeroWhenInfinite := by
  rw [gejAddGe_eq]
  exact ensures_then fun _ => ensures_then fun _ => ensures_then fun _ => ensures_then fun _ =>
    ensures_ok (zeroize_zeroWhenInfinite _)

/-- How an addition of two finite contents ends, in the terms of R198. -/
theorem Finished.cases {P R : Gej} (h : Finished P R) :
    R = Gej.infinity ∨ gejDbl P = .ok R ∨ R.Tags 5 3 1 ∧ R.inf = false := by
  obtain h | h | ⟨mx, my, mz, nx, ny, nz, hi⟩ := h
  · exact .inl h
  · exact .inr (.inl h)
  · exact .inr (.inr ⟨⟨mx, my, mz, nx, ny, nz⟩, hi⟩)

theorem gejAddVar_finite {P Q : Gej} (hP8 : P.Within8) (hQ8 : Q.Within8) (iP : P.inf = false) (iQ : Q.inf = false) :
    ∃ R, gejAddVar P Q = .ok R ∧ Finished P R := by
  obtain ⟨R, hR, ends, -⟩ := gejAddVar_spec fun _ _ => ⟨hP8.x, hP8.y, hP8.z, hQ8.x, hQ8.y, hQ8.z⟩
  exact ⟨R, hR, by simpa [iP, iQ] using ends⟩

theorem gejAddGeVar_finite {P : Gej} {b : Ge} (hP8 : P.Within8) (hb8 : b.Within8) (iP : P.inf = false)
    (ib : b.inf = false) : ∃ R, gejAddGeVar P b = .ok R ∧ Finished P R := by
  obtain ⟨R, hR, ends, -⟩ := gejAddGeVar_spec fun _ _ => ⟨hP8.x, hP8.y, hP8.z, hb8.x, hb8.y⟩
  exact ⟨R, hR, by simpa [iP, ib] using ends⟩

/-- A pair of contents that is not small enough for CHK8 has a big one. -/
theorem big_or_of_not_within8 {P Q : Gej} (h : ¬(P.Within8 ∧ Q.Within8)) : (P.big || Q.big) = true := by
  by_contra hb
  rw [Bool.or_eq_true, not_or] at hb
  exact h ⟨within8_of_not_big hb.1, within8_of_not_big hb.2⟩

theorem big_or_of_not_within8_mixed {P : Gej} {b : Ge} (h : ¬(P.Within8 ∧ b.Within8)) : (P.big || b.big) = true := by
  by_contra hb
  rw [Bool.or_eq_true, not_or] at hb
  exact h ⟨within8_of_not_big hb.1, ge_within8_of_not_big hb.2⟩

/-- The equality test of finite contents: both cross differences are 0 modulo p (R226). -/
theorem gejEq_value {P Q : Gej} (hP : P.Wf) (hQ : Q.Wf) (hP8 : P.Within8) (hQ8 : Q.Within8) (iP : P.inf = false)
    (iQ : Q.inf = false) : ∃ e, gejEq P Q = .ok e ∧
      (e = true ↔ P.x.mod * Q.z.mod ^ 2 = Q.x.mod * P.z.mod ^ 2 ∧ P.y.mod * Q.z.mod ^ 3 = Q.y.mod * P.z.mod ^ 3) := by
  obtain ⟨U, S, H, I, hc, -, -, -, hH, hI⟩ := crossJac_value hP hQ hP8 hQ8
  refine ⟨feNtz H && feNtz I, ?_, ?_⟩
  · rw [gejEq_eq, iP, iQ, chk8_six hP8.x hP8.y hP8.z hQ8.x hQ8.y hQ8.z, hc]
    rfl
  · rw [feNtz_eq, feNtz_eq, hH.value, hI.value, Bool.and_eq_true, decide_eq_true_eq, decide_eq_true_eq, sub_eq_zero,
      sub_eq_zero]
    exact and_congr eq_comm eq_comm

theorem gejEq_infinite {P Q : Gej} (h : P.inf = true ∨ Q.inf = true) : gejEq P Q = .ok (P.inf && Q.inf) := by
  rw [gejEq_eq, if_pos (Bool.or_eq_true_iff.2 h)]

/-! ## The run of each command once its operands are read -/

section
variable {s : State} {rd ra rb : RegNum}

theorem exec_gejSetge {a : Ge} (ha : s.HoldsA ra a) :
    exec (.gejSetge rd ra) s = runWord (encode (.gejSetge rd ra)) s (.ok (writeJ rd (toJac a) s)) :=
  exec_of_work rfl (readA_bind ha rfl)

theorem exec_gejSetinf :
    exec (.gejSetinf rd) s = runWord (encode (.gejSetinf rd)) s (.ok (writeJ rd Gej.infinity s)) :=
  exec_of_work rfl rfl

section
variable {P : Gej} (hP : s.HoldsJ ra P)
include hP

theorem exec_gejIsinf : exec (.gejIsinf ra) s = runWord (encode (.gejIsinf ra)) s (.ok (setT P.inf s)) :=
  exec_of_work rfl (readJ_bind hP rfl)

theorem exec_gejMov : exec (.gejMov rd ra) s = runWord (encode (.gejMov rd ra)) s (.ok (writeJ rd P s)) :=
  exec_of_work rfl (readJ_bind hP rfl)

theorem exec_gejGetc {imm : Imm} (hi : (Instr.gejGetc rd ra imm).wf = true) :
    exec (.gejGetc rd ra imm) s = runWord (encode (.gejGetc rd ra imm)) s (.ok (writeF rd (coordinate imm P) s)) :=
  exec_of_work hi (readJ_bind hP rfl)

theorem exec_gejNeg : exec (.gejNeg rd ra) s = runWord (encode (.gejNeg rd ra)) s
    (negJ P >>= fun r => .ok (writeJ rd r s)) :=
  exec_of_work rfl (readJ_bind hP rfl)

theorem exec_gejDbl : exec (.gejDbl rd ra) s = runWord (encode (.gejDbl rd ra)) s
    (gejDbl P >>= fun r => .ok (writeJ rd r s)) :=
  exec_of_work rfl (readJ_bind hP rfl)

theorem exec_gejAddge {b : Ge} (hb : s.HoldsA rb b) :
    exec (.gejAddge rd ra rb) s = runWord (encode (.gejAddge rd ra rb)) s
      (gejAddGe P b >>= fun r => .ok (writeJ rd r s)) :=
  exec_of_work rfl (readJ_bind hP (readA_bind hb rfl))

theorem exec_gejAddgevar {b : Ge} (hb : s.HoldsA rb b) :
    exec (.gejAddgevar rd ra rb) s = runWord (encode (.gejAddgevar rd ra rb)) s
      (gejAddGeVar P b >>= fun r => .ok (writeJ rd r s)) :=
  exec_of_work rfl (readJ_bind hP (readA_bind hb rfl))

theorem exec_gejAddvar {Q : Gej} (hQ : s.HoldsJ rb Q) :
    exec (.gejAddvar rd ra rb) s = runWord (encode (.gejAddvar rd ra rb)) s
      (gejAddVar P Q >>= fun r => .ok (writeJ rd r s)) :=
  exec_of_work rfl (readJ_bind hP (readJ_bind hQ rfl))

theorem exec_gejEq {Q : Gej} (hQ : s.HoldsJ rb Q) :
    exec (.gejEq ra rb) s = runWord (encode (.gejEq ra rb)) s (gejEq P Q >>= fun e => .ok (setT e s)) :=
  exec_of_work rfl (readJ_bind hP (readJ_bind hQ rfl))

end

end

/-! ## Copies (R217 to R220, R227) -/

/-- Settles O48: none of the five has a precondition beyond a valid operand and a legal selector. -/
theorem jacobianCopies : Obligations.JacobianCopies := by
  intro s rd hs
  refine ⟨fun ra P hP => ?_, exec_gejSetinf.trans (runWord_ok _ hs), fun ra P hP =>
    ⟨(exec_gejIsinf hP).trans (runWord_ok _ hs), (exec_gejMov hP).trans (runWord_ok _ hs),
      (exec_gejGetc hP rfl).trans (runWord_ok _ hs), (exec_gejGetc hP rfl).trans (runWord_ok _ hs),
      (exec_gejGetc hP rfl).trans (runWord_ok _ hs)⟩⟩
  rw [exec_gejSetge hP, toJac_eq_ite]
  exact runWord_ok _ hs

/-! ## Negation and doubling (R221, R222) -/

/-- Settles O49: each command answers exactly when its check passes; DBL's answer is that of `gejDbl_spec`, zeroized last. -/
theorem jacobianNegateDouble : Obligations.JacobianNegateDouble := by
  intro s rd ra P hs hP
  refine ⟨fun h => ?neg, fun h => ?negFault, fun h8 => ?dbl, fun h => ?dblFault⟩
  case neg => rw [exec_gejNeg hP, negJ_eq_ok h]; exact runWord_ok _ hs
  case negFault => rw [exec_gejNeg hP, negJ_error h]; exact runWord_error _ hs
  case dbl =>
    obtain ⟨R, hR, mx, my, mz, nx, ny, nz, inf, -⟩ := gejDbl_spec h8.x h8.y h8.z
    refine ⟨R, hR, ?_, ⟨mx, my, mz, nx, ny, nz⟩, inf, fun hi => ensures_gejDbl_zero P R hR (inf.trans hi)⟩
    rw [exec_gejDbl hP, hR]
    exact runWord_ok _ hs
  case dblFault => rw [exec_gejDbl hP, gejDbl_error (big_of_not_within8 h)]; exact runWord_error _ hs

/-! ## Addition (R223 to R225) -/

/-- Settles O50: `gejAddGe_spec` gives the tags, which mention neither values nor inf bits; ADDGE zeroizes last. -/
theorem jacobianAddge : Obligations.JacobianAddge := by
  intro s rd ra rb P b hs hP hb
  refine ⟨fun hP8 hb8 => ?add, fun h => ?fault⟩
  case add =>
    obtain ⟨R, hR, mx, my, mz, nx, ny, nz, -⟩ := gejAddGe_spec hP8.x hP8.y hP8.z hb8.x hb8.y
    refine ⟨R, hR, ?_, ⟨by omega, by omega, by omega, nx, ny, nz⟩, ensures_gejAddGe_zero P b R hR⟩
    rw [exec_gejAddge hP hb, hR]
    exact runWord_ok _ hs
  case fault => rw [exec_gejAddge hP hb, gejAddGe_error (big_or_of_not_within8_mixed h)]; exact runWord_error _ hs

/-- Settles O51: both adders look at the inf bits before any check; of two finite contents `Finished` says how they end. -/
theorem jacobianAddVariable : Obligations.JacobianAddVariable := by
  intro s rd ra rb P hs hP
  refine ⟨fun b hb => ⟨fun iP => ?leftMixed, fun iP ib => ?rightMixed, fun iP ib hP8 hb8 => ?addMixed,
      fun iP ib h => ?faultMixed⟩,
    fun Q hQ => ⟨fun iP => ?left, fun iP iQ => ?right, fun iP iQ hP8 hQ8 => ?add, fun iP iQ h => ?fault⟩⟩
  case leftMixed => rw [exec_gejAddgevar hP hb, gejAddGeVar_eq, iP]; exact runWord_ok _ hs
  case rightMixed => rw [exec_gejAddgevar hP hb, gejAddGeVar_eq, iP, ib]; exact runWord_ok _ hs
  case addMixed =>
    obtain ⟨R, hR, ends⟩ := gejAddGeVar_finite hP8 hb8 iP ib
    refine ⟨R, hR, ?_, ends.cases⟩
    rw [exec_gejAddgevar hP hb, hR]
    exact runWord_ok _ hs
  case faultMixed =>
    rw [exec_gejAddgevar hP hb, gejAddGeVar_error iP ib (big_or_of_not_within8_mixed h)]
    exact runWord_error _ hs
  case left => rw [exec_gejAddvar hP hQ, gejAddVar_eq, iP]; exact runWord_ok _ hs
  case right => rw [exec_gejAddvar hP hQ, gejAddVar_eq, iP, iQ]; exact runWord_ok _ hs
  case add =>
    obtain ⟨R, hR, ends⟩ := gejAddVar_finite hP8 hQ8 iP iQ
    refine ⟨R, hR, ?_, ends.cases⟩
    rw [exec_gejAddvar hP hQ, hR]
    exact runWord_ok _ hs
  case fault =>
    rw [exec_gejAddvar hP hQ, gejAddVar_error iP iQ (big_or_of_not_within8 h)]
    exact runWord_error _ hs

/-! ## Equality (R226) -/

/-- Settles O52: with an infinite operand by the inf bits; else both cross differences are tested for 0. -/
theorem jacobianEquality : Obligations.JacobianEquality := by
  intro s ra rb P Q hs hP hQ
  refine ⟨fun h => ?infinite, fun iP iQ hP8 hQ8 wP wQ => ?finite, fun iP iQ h => ?fault⟩
  case infinite => rw [exec_gejEq hP hQ, gejEq_infinite h]; exact runWord_ok _ hs
  case finite =>
    obtain ⟨e, he, iff⟩ := gejEq_value wP wQ hP8 hQ8 iP iQ
    refine ⟨e, ?_, iff⟩
    rw [exec_gejEq hP hQ, he]
    exact runWord_ok _ hs
  case fault => rw [exec_gejEq hP hQ, gejEq_error iP iQ (big_or_of_not_within8 h)]; exact runWord_error _ hs

end Sys2Proof.Machine
end

section
/-! SUPPORT. The fixed-base multiplier family (`spec/45_ecmult_gen.md`), part 1: p is prime (R6), so that z^(p − 2), with which
the ROM's definition divides (R243), is an inverse. The certificate is Pocklington's: prime factors of N − 1 whose product exceeds
the square root of N, and for each a power modulo N. -/

namespace Sys2Proof.Machine

/-- A witness `a` for a prime `q`: modulo each prime factor `r` of `N` its order divides `q·R` and not `R`, so `q` divides it, and
with it `r − 1`. -/
theorem dvd_pred_of_witness {N q R r : Nat} {a : ZMod N} (hq : q.Prime) (one : a ^ (q * R) = 1) (unit : IsUnit (a ^ R - 1))
    (hr : r.Prime) (hrN : r ∣ N) : q ∣ r - 1 := by
  have : Fact r.Prime := ⟨hr⟩
  let φ := ZMod.castHom hrN (ZMod r)
  have oneR : φ a ^ (q * R) = 1 := by rw [← map_pow, one, map_one]
  have neR : φ a ^ R ≠ 1 := fun h => by
    have zero : φ (a ^ R - 1) = 0 := by rw [map_sub, map_pow, h, map_one, sub_self]
    exact (unit.map φ).ne_zero zero
  have R0 : R ≠ 0 := fun h => neR (by rw [h, pow_zero])
  have a0 : φ a ≠ 0 := fun h => zero_ne_one (by rwa [h, zero_pow (mul_ne_zero hq.ne_zero R0)] at oneR)
  refine dvd_trans ?_ (ZMod.orderOf_dvd_card_sub_one a0)
  by_contra hnd
  exact neR (orderOf_dvd_iff_pow_eq_one.1
    ((hq.coprime_iff_not_dvd.2 hnd).symm.dvd_of_dvd_mul_left (orderOf_dvd_of_pow_eq_one oneR)))

/-- When a divisor `F` of every `r − 1` exceeds the square root of `N`, then `N` has no prime factor below itself. -/
theorem prime_of_dvd_pred {N F : Nat} (hN : 1 < N) (big : N < F * F) (h : ∀ r, r.Prime → r ∣ N → F ∣ r - 1) : N.Prime := by
  by_contra composite
  have hr := Nat.minFac_prime hN.ne'
  have large : F ≤ N.minFac - 1 := Nat.le_of_dvd (by have := hr.two_le; omega) (h _ hr (Nat.minFac_dvd N))
  have small := Nat.minFac_sq_le_self (by omega) composite
  have large' : F ≤ N.minFac := large.trans (Nat.sub_le ..)
  exact absurd ((Nat.mul_le_mul large' large').trans (sq N.minFac ▸ small)) (not_le.2 big)

/-- The prime factor of `pFactor − 1` from which the certificate climbs. -/
abbrev pFactorFactor : Nat := 255515944373312847190720520512484175977

/-- The large prime factor of p − 1. -/
abbrev pFactor : Nat := 205115282021455665897114700593932402728804164701536103180137503955397371

theorem prime_pFactorFactor : pFactorFactor.Prime := by
  refine prime_of_dvd_pred (F := 96557 * 7240687 * 107590001) (by decide) (by decide) fun r hr hrN => ?_
  have h1 : 96557 ∣ r - 1 :=
    dvd_pred_of_witness (a := 3) (R := 2646270538369179315748423423599368) (by norm_num) (by reduce_mod_char)
      (.of_mul_eq_one 184108091102941940584049121061405354308 (by reduce_mod_char)) hr hrN
  have h2 : 7240687 ∣ r - 1 :=
    dvd_pred_of_witness (a := 3) (R := 35288908963101546467996824129048) (by norm_num) (by reduce_mod_char)
      (.of_mul_eq_one 175115735900290266367456151301010786887 (by reduce_mod_char)) hr hrN
  have h3 : 107590001 ∣ r - 1 :=
    dvd_pred_of_witness (a := 3) (R := 2374904191824599455024826335976) (by norm_num) (by reduce_mod_char)
      (.of_mul_eq_one 85541964129442142127229066965300281067 (by reduce_mod_char)) hr hrN
  exact Nat.Coprime.mul_dvd_of_dvd_of_dvd (by norm_num) (Nat.Coprime.mul_dvd_of_dvd_of_dvd (by norm_num) h1 h2) h3

theorem prime_pFactor : pFactor.Prime :=
  prime_of_dvd_pred (by decide) (by decide) fun _ =>
    dvd_pred_of_witness (a := 2) (R := 802749442992798076634733441528810) prime_pFactorFactor (by reduce_mod_char)
      (.of_mul_eq_one 81475874003799270243122483189086420723726815346591292526890606927317739 (by reduce_mod_char))

theorem prime_p : Const.p.Prime :=
  prime_of_dvd_pred (by decide) (by decide) fun _ =>
    dvd_pred_of_witness (a := 2) (R := 564522) prime_pFactor (by unfold Const.p; reduce_mod_char)
      (.of_mul_eq_one 38738227534097492269493948901333532538630784921480042032654553727346127695815
        (by unfold Const.p; reduce_mod_char))

end Sys2Proof.Machine
end

section
/-! SUPPORT. The fixed-base multiplier family (`spec/45_ecmult_gen.md`), part 2: the Jacobian arithmetic modulo p by which the
model computes the ROM (log 15), coordinate by coordinate, and that it stays on the curve (R8). -/

namespace Sys2Proof.Machine

/-! ## Arithmetic modulo p -/

theorem cast_mod_p (a : Nat) : ((a % Const.p : Nat) : ZMod Const.p) = a := ZMod.natCast_mod a Const.p

theorem mod_p_eq_zero_iff (a : Nat) : a % Const.p = 0 ↔ (a : ZMod Const.p) = 0 := by
  rw [ZMod.natCast_eq_zero_iff, Nat.dvd_iff_mod_eq_zero]

theorem cast_subModP (a b : Nat) : (subModP a b : ZMod Const.p) = a - b := by
  have below : b % Const.p ≤ Const.p := (Nat.mod_lt b p_pos).le
  rw [subModP, cast_mod_p, Nat.cast_add, Nat.cast_sub below, cast_mod_p, ZMod.natCast_self]
  ring

theorem subModP_eq_zero_iff (a b : Nat) : subModP a b = 0 ↔ (a : ZMod Const.p) = b := by
  rw [← sub_eq_zero (a := (a : ZMod Const.p)), ← cast_subModP, ← mod_p_eq_zero_iff, subModP, Nat.mod_mod]

theorem cast_powModP (bits b e : Nat) (h : e < 2 ^ bits) : (powModP bits b e : ZMod Const.p) = (b : ZMod Const.p) ^ e := by
  induction bits generalizing e with
  | zero => rw [Nat.lt_one_iff.1 h, powModP, Nat.cast_one, pow_zero]
  | succ bits ih =>
    have half := ih (e / 2) (by omega)
    have parts : e = e / 2 + e / 2 + e % 2 := by omega
    rw [powModP]
    split
    case isTrue odd =>
      rw [cast_mod_p, Nat.cast_mul, cast_mod_p, Nat.cast_mul, half]
      conv_rhs => rw [parts, odd, pow_succ, pow_add]
    case isFalse even =>
      rw [cast_mod_p, Nat.cast_mul, half]
      conv_rhs => rw [parts, show e % 2 = 0 by omega, add_zero, pow_add]

/-! ## Doubling and adding G, coordinate by coordinate -/

section
variable {P : CurvePoint}

theorem cast_double_x : (P.double.x : ZMod Const.p) = (3 * P.x ^ 2) ^ 2 - 8 * P.x * P.y ^ 2 := by
  simp only [CurvePoint.double, cast_subModP, cast_mod_p, Nat.cast_mul, Nat.cast_ofNat]
  ring

theorem cast_double_y :
    (P.double.y : ZMod Const.p) = 3 * P.x ^ 2 * (4 * P.x * P.y ^ 2 - P.double.x) - 8 * P.y ^ 4 := by
  simp only [CurvePoint.double, cast_subModP, cast_mod_p, Nat.cast_mul, Nat.cast_ofNat]
  ring

theorem cast_double_z : (P.double.z : ZMod Const.p) = 2 * P.y * P.z := by
  simp only [CurvePoint.double, cast_mod_p, Nat.cast_mul, Nat.cast_ofNat]

/-- h of the chord: 0 exactly when P and G have the same x. -/
def CurvePoint.chordH (P : CurvePoint) : Nat := subModP (Const.gx * (P.z * P.z % Const.p)) P.x

/-- r of the chord: 0 exactly when P and G have the same y. -/
def CurvePoint.chordR (P : CurvePoint) : Nat := subModP (Const.gy * (P.z * P.z % Const.p) * P.z) P.y

theorem cast_chordH : (P.chordH : ZMod Const.p) = Const.gx * P.z ^ 2 - P.x := by
  simp only [CurvePoint.chordH, cast_subModP, cast_mod_p, Nat.cast_mul]
  ring

theorem cast_chordR : (P.chordR : ZMod Const.p) = Const.gy * P.z ^ 3 - P.y := by
  simp only [CurvePoint.chordR, cast_subModP, cast_mod_p, Nat.cast_mul]
  ring

/-- P + G by the chord, for different x. -/
def CurvePoint.chord (P : CurvePoint) : CurvePoint :=
  let h2 := P.chordH * P.chordH % Const.p
  let v := P.x * h2 % Const.p
  let x3 := subModP (P.chordR * P.chordR) (P.chordH * h2 % Const.p + 2 * v)
  ⟨x3, subModP (P.chordR * subModP v x3) (P.y * (P.chordH * h2 % Const.p)), P.z * P.chordH % Const.p⟩

theorem chordH_eq_zero_iff : P.chordH = 0 ↔ (P.chordH : ZMod Const.p) = 0 := by
  rw [CurvePoint.chordH, subModP_eq_zero_iff, cast_subModP, sub_eq_zero]

theorem chordR_eq_zero_iff : P.chordR = 0 ↔ (P.chordR : ZMod Const.p) = 0 := by
  rw [CurvePoint.chordR, subModP_eq_zero_iff, cast_subModP, sub_eq_zero]

theorem cast_chord_x : (P.chord.x : ZMod Const.p) = P.chordR ^ 2 - P.chordH ^ 3 - 2 * P.x * P.chordH ^ 2 := by
  simp only [CurvePoint.chord, cast_subModP, cast_mod_p, Nat.cast_mul, Nat.cast_add, Nat.cast_ofNat]
  ring

theorem cast_chord_y : (P.chord.y : ZMod Const.p) =
    P.chordR * (P.x * P.chordH ^ 2 - P.chord.x) - P.y * P.chordH ^ 3 := by
  simp only [CurvePoint.chord, cast_subModP, cast_mod_p, Nat.cast_mul, Nat.cast_add, Nat.cast_ofNat]
  ring

theorem cast_chord_z : (P.chord.z : ZMod Const.p) = P.z * P.chordH := by
  simp only [CurvePoint.chord, cast_mod_p, Nat.cast_mul]

/-- The four ways `addG` ends. -/
theorem addG_cases (P : CurvePoint) :
    (P.z = 0 ∧ P.addG = ⟨Const.gx, Const.gy, 1⟩) ∨
    (P.z ≠ 0 ∧ P.chordH = 0 ∧ P.chordR = 0 ∧ P.addG = P.double) ∨
    (P.z ≠ 0 ∧ P.chordH = 0 ∧ P.chordR ≠ 0 ∧ P.addG = CurvePoint.infinity) ∨
    (P.z ≠ 0 ∧ P.chordH ≠ 0 ∧ P.addG = P.chord) := by
  by_cases hz : P.z = 0
  case pos => exact .inl ⟨hz, if_pos hz⟩
  have finite : P.addG =
      if P.chordH = 0 then (if P.chordR = 0 then P.double else CurvePoint.infinity) else P.chord := if_neg hz
  by_cases hh : P.chordH = 0
  case neg => exact .inr (.inr (.inr ⟨hz, hh, by rw [finite, if_neg hh]⟩))
  by_cases hr : P.chordR = 0
  case pos => exact .inr (.inl ⟨hz, hh, hr, by rw [finite, if_pos hh, if_pos hr]⟩)
  case neg => exact .inr (.inr (.inl ⟨hz, hh, hr, by rw [finite, if_pos hh, if_neg hr]⟩))

end

/-! ## The curve equation -/

/-- The curve equation in Jacobian form: (y/z³)² = (x/z²)³ + 7. -/
def CurvePoint.OnCurve (P : CurvePoint) : Prop :=
  (P.y : ZMod Const.p) ^ 2 = (P.x : ZMod Const.p) ^ 3 + 7 * (P.z : ZMod Const.p) ^ 6

theorem generator_onCurve : (Const.gy : ZMod Const.p) ^ 2 = (Const.gx : ZMod Const.p) ^ 3 + 7 := by
  have h : Const.gy ^ 2 % Const.p = (Const.gx ^ 3 + 7) % Const.p := by decide
  exact_mod_cast (ZMod.natCast_eq_natCast_iff' _ _ _).2 h

section
variable {P : CurvePoint}

theorem onCurve_double (hP : P.OnCurve) : P.double.OnCurve := by
  unfold CurvePoint.OnCurve at hP ⊢
  rw [cast_double_y, cast_double_x, cast_double_z]
  linear_combination (64 * (P.y : ZMod Const.p) ^ 6) * hP

theorem onCurve_infinity : CurvePoint.infinity.OnCurve := by
  simp [CurvePoint.OnCurve, CurvePoint.infinity]

/-- The chord through P and G ends on the curve: `key` is what h and r say of the difference of the two curve equations. -/
theorem onCurve_chord (hP : P.OnCurve) : P.chord.OnCurve := by
  have key : (3 * P.x * P.chordH ^ 2 + P.chordH ^ 3 - P.chordR ^ 2 - 2 * P.chordR * P.y + 3 * P.x ^ 2 * P.chordH : ZMod Const.p) =
      (P.y ^ 2 - P.x ^ 3) - P.z ^ 6 * (Const.gy ^ 2 - Const.gx ^ 3) := by
    rw [cast_chordH, cast_chordR]
    ring
  unfold CurvePoint.OnCurve at hP ⊢
  rw [cast_chord_y, cast_chord_x, cast_chord_z]
  generalize (P.chordH : ZMod Const.p) = h at *
  generalize (P.chordR : ZMod Const.p) = r at *
  linear_combination h ^ 6 * hP +
    (3 * P.x * h ^ 2 + h ^ 3 - r ^ 2) * h ^ 3 * (key + hP - (P.z : ZMod Const.p) ^ 6 * generator_onCurve)

theorem onCurve_addG (hP : P.OnCurve) : P.addG.OnCurve := by
  obtain ⟨-, e⟩ | ⟨-, -, -, e⟩ | ⟨-, -, -, e⟩ | ⟨-, -, e⟩ := addG_cases P <;> rw [e]
  · simpa [CurvePoint.OnCurve] using generator_onCurve
  · exact onCurve_double hP
  · exact onCurve_infinity
  · exact onCurve_chord hP

theorem onCurve_curveMulG (bits k : Nat) : (curveMulG bits k).OnCurve := by
  induction bits generalizing k with
  | zero => exact onCurve_infinity
  | succ bits ih =>
    rw [curveMulG]
    split
    · exact onCurve_addG (onCurve_double (ih _))
    · exact onCurve_double (ih _)

end

end Sys2Proof.Machine
end

section
/-! SUPPORT. The fixed-base multiplier family (`spec/45_ecmult_gen.md`), part 3: what the ROM holds. The doubling and adding by
which the model computes it (log 15) is that of the group of points of y² = x³ + 7, so an entry is the multiple of G that R243
names. -/

namespace Sys2Proof.Machine

open WeierstrassCurve.Affine (Point)

/-! ## The group of the curve -/

/-- The curve of R8, y² = x³ + 7 over the integers modulo p. -/
abbrev curve : WeierstrassCurve.Affine (ZMod Const.p) := ⟨0, 0, 0, 0, 7⟩

theorem curve_equation_iff (x y : ZMod Const.p) : curve.Equation x y ↔ y ^ 2 = x ^ 3 + 7 := by
  simp [WeierstrassCurve.Affine.equation_iff]

theorem curve_negY (x y : ZMod Const.p) : curve.negY x y = -y := by simp [WeierstrassCurve.Affine.negY]

theorem curve_addX (x₁ x₂ l : ZMod Const.p) : curve.addX x₁ x₂ l = l ^ 2 - x₁ - x₂ := by
  simp [WeierstrassCurve.Affine.addX]

theorem curve_addY (x₁ x₂ y₁ l : ZMod Const.p) :
    curve.addY x₁ x₂ y₁ l = l * (x₁ - curve.addX x₁ x₂ l) - y₁ := by
  rw [WeierstrassCurve.Affine.addY, WeierstrassCurve.Affine.negAddY, curve_negY]
  ring

theorem two_mul_ne_zero {y : ZMod Const.p} [Fact Const.p.Prime] (h : y ≠ 0) : 2 * y ≠ 0 := by
  refine mul_ne_zero (fun two => ?_) h
  exact absurd ((mod_p_eq_zero_iff 2).2 (by exact_mod_cast two)) (by decide)

theorem generator_nonsingular : curve.Nonsingular (Const.gx : ZMod Const.p) (Const.gy : ZMod Const.p) := by
  refine (WeierstrassCurve.Affine.nonsingular_iff' _ _).2 ⟨(curve_equation_iff _ _).2 generator_onCurve, .inr fun h => ?_⟩
  exact absurd ((mod_p_eq_zero_iff (2 * Const.gy)).2 (by simpa using h)) (by decide)

/-- The generator G (R8). -/
def generatorPoint : Point curve := .some _ _ generator_nonsingular

/-- A triple (x, y, z) with z ≠ 0 stands for the point (x/z², y/z³), one with z = 0 for infinity. -/
def CurvePoint.Represents (P : CurvePoint) : Point curve → Prop
  | .zero => P.z = 0
  | .some x y _ => (P.z : ZMod Const.p) ≠ 0 ∧ (P.x : ZMod Const.p) = x * P.z ^ 2 ∧ (P.y : ZMod Const.p) = y * P.z ^ 3

theorem represents_some {P : CurvePoint} {x y : ZMod Const.p} (h : curve.Nonsingular x y) : P.Represents (.some x y h) ↔
    (P.z : ZMod Const.p) ≠ 0 ∧ (P.x : ZMod Const.p) = x * P.z ^ 2 ∧ (P.y : ZMod Const.p) = y * P.z ^ 3 := Iff.rfl

theorem CurvePoint.Represents.eq_zero {P : CurvePoint} {A : Point curve} (h : P.Represents A) (hz : P.z = 0) : A = 0 := by
  rcases A with _ | ⟨x, y, hxy⟩
  · rfl
  · exact absurd (by rw [hz, Nat.cast_zero]) h.1

/-! ## The scalars of the ROM -/

theorem curveMulG_n_z : (curveMulG 256 Const.n).z = 0 := by decide +kernel

theorem romScalar_coprime : ∀ b < 11, ∀ idx < 32, (romScalar b idx).Coprime Const.n := by decide +kernel

theorem romScalar_lt (b idx : Nat) : romScalar b idx < Const.n := by
  have positive : (0 : Int) < Const.n := by exact_mod_cast n_pos
  rw [romScalar, Int.toNat_lt (Int.emod_nonneg _ positive.ne')]
  exact Int.emod_lt_of_pos _ positive

/-! ## Doubling and adding -/

section
variable [Fact Const.p.Prime] {P : CurvePoint} {A : Point curve}

/-- The tangent: for y ≠ 0 with the group's slope, for y = 0 and for infinity with z = 0. -/
theorem represents_double (h : P.Represents A) : P.double.Represents (A + A) := by
  rcases A with _ | ⟨x, y, hA⟩
  case zero =>
    have hz : P.z = 0 := h
    show 2 * P.y * P.z % Const.p = 0
    rw [hz, Nat.mul_zero, Nat.zero_mod]
  obtain ⟨hz, hx, hy⟩ := h
  by_cases vertical : y = curve.negY x y
  case pos =>
    rw [Point.add_self_of_Y_eq vertical]
    refine (mod_p_eq_zero_iff _).2 ?_
    rw [curve_negY, eq_neg_iff_add_eq_zero] at vertical
    push_cast
    rw [hy]
    linear_combination (P.z : ZMod Const.p) ^ 4 * vertical
  case neg =>
    rw [Point.add_self_of_Y_ne vertical, represents_some]
    have slope := WeierstrassCurve.Affine.slope_of_Y_ne (rfl : x = x) vertical
    generalize curve.slope x x y y = l at slope ⊢
    have y0 : y ≠ 0 := by
      rintro rfl
      exact vertical (by rw [curve_negY, neg_zero])
    replace slope : l * (2 * y) = 3 * x ^ 2 := by
      rw [slope, curve_negY, sub_neg_eq_add, ← two_mul, div_mul_cancel₀ _ (two_mul_ne_zero y0)]
      ring
    have ex : (P.double.x : ZMod Const.p) = curve.addX x x l * P.double.z ^ 2 := by
      rw [cast_double_x, cast_double_z, hx, hy, curve_addX]
      linear_combination -(l * (2 * y) + 3 * x ^ 2) * (P.z : ZMod Const.p) ^ 8 * slope
    refine ⟨?_, ex, ?_⟩
    · rw [cast_double_z, hy, mul_assoc]
      exact two_mul_ne_zero (mul_ne_zero (mul_ne_zero y0 (pow_ne_zero _ hz)) hz)
    · rw [cast_double_y, ex, curve_addY, cast_double_z, hx, hy]
      linear_combination -(4 * y ^ 2 * (x - curve.addX x x l)) * (P.z : ZMod Const.p) ^ 12 * slope

/-- Adding G, by the four ways of `addG_cases`: from infinity, the tangent, opposite points, the chord with the group's slope. -/
theorem represents_addG (h : P.Represents A) : P.addG.Represents (A + generatorPoint) := by
  rcases A with _ | ⟨x, y, hA⟩
  case zero =>
    rw [← Point.zero_def, zero_add, show P.addG = ⟨Const.gx, Const.gy, 1⟩ from if_pos h, generatorPoint, represents_some]
    simp
  obtain ⟨hz, hx, hy⟩ := h
  have castH : (P.chordH : ZMod Const.p) = (Const.gx - x) * P.z ^ 2 := by rw [cast_chordH, hx, sub_mul]
  have castR : (P.chordR : ZMod Const.p) = (Const.gy - y) * P.z ^ 3 := by rw [cast_chordR, hy, sub_mul]
  have sameX : P.chordH = 0 ↔ x = Const.gx := by
    rw [chordH_eq_zero_iff, castH, mul_eq_zero_iff_right (pow_ne_zero 2 hz), sub_eq_zero, eq_comm]
  have sameY : P.chordR = 0 ↔ y = Const.gy := by
    rw [chordR_eq_zero_iff, castR, mul_eq_zero_iff_right (pow_ne_zero 3 hz), sub_eq_zero, eq_comm]
  obtain ⟨z0, -⟩ | ⟨-, hh, hr, e⟩ | ⟨-, hh, hr, e⟩ | ⟨-, hh, e⟩ := addG_cases P
  case inl => exact absurd (by rw [z0, Nat.cast_zero]) hz
  case inr.inl =>
    obtain rfl := sameX.1 hh
    obtain rfl := sameY.1 hr
    rw [e]
    exact represents_double ⟨hz, hx, hy⟩
  case inr.inr.inl =>
    obtain rfl := sameX.1 hh
    have squares : y ^ 2 = (Const.gy : ZMod Const.p) ^ 2 :=
      ((curve_equation_iff _ _).1 hA.left).trans generator_onCurve.symm
    have opposite : y = curve.negY Const.gx Const.gy :=
      ((sq_eq_sq_iff_eq_or_eq_neg.1 squares).resolve_left (mt sameY.2 hr)).trans (curve_negY _ _).symm
    rw [e, generatorPoint, Point.add_of_Y_eq rfl opposite]
    rfl
  case inr.inr.inr =>
    have otherX := mt sameX.2 hh
    have slope := WeierstrassCurve.Affine.slope_of_X_ne (W := curve) (y₁ := y) (y₂ := Const.gy) otherX
    rw [e, generatorPoint, Point.add_of_X_ne otherX, represents_some]
    generalize curve.slope x Const.gx y Const.gy = l at slope ⊢
    rw [eq_div_iff (sub_ne_zero.2 otherX)] at slope
    have ex : (P.chord.x : ZMod Const.p) = curve.addX x Const.gx l * P.chord.z ^ 2 := by
      rw [cast_chord_x, cast_chord_z, castH, castR, hx, curve_addX]
      linear_combination -(l * (x - Const.gx) + (y - Const.gy)) * (P.z : ZMod Const.p) ^ 6 * slope
    refine ⟨?_, ex, ?_⟩
    · rw [cast_chord_z, castH]
      exact mul_ne_zero hz (mul_ne_zero (sub_ne_zero.2 (Ne.symm otherX)) (pow_ne_zero 2 hz))
    · rw [cast_chord_y, ex, curve_addY, cast_chord_z, castH, castR, hx, hy]
      linear_combination (P.z : ZMod Const.p) ^ 9 * (Const.gx - x) ^ 2 * (x - curve.addX x Const.gx l) * slope

/-- Doubling and adding computes the multiple of G (R243, log 15). -/
theorem represents_curveMulG (bits k : Nat) : (curveMulG bits k).Represents ((k % 2 ^ bits) • generatorPoint) := by
  induction bits generalizing k with
  | zero =>
    rw [pow_zero, Nat.mod_one, zero_nsmul]
    rfl
  | succ bits ih =>
    have twice := represents_double (ih (k / 2))
    have digits : k % 2 ^ (bits + 1) = k / 2 % 2 ^ bits + k / 2 % 2 ^ bits + k % 2 := by
      have := Nat.mod_mul (a := 2) (b := 2 ^ bits) (x := k)
      rw [pow_succ']
      omega
    rw [digits, add_nsmul, add_nsmul, curveMulG]
    split
    case isTrue odd => rw [odd, one_nsmul]; exact represents_addG twice
    case isFalse even => rw [show k % 2 = 0 by omega, zero_nsmul, add_zero]; exact twice

theorem represents_curveMulG_of_lt {bits k : Nat} (h : k < 2 ^ bits) : (curveMulG bits k).Represents (k • generatorPoint) := by
  have all := represents_curveMulG bits k
  rwa [Nat.mod_eq_of_lt h] at all

/-! ## The ROM's points -/

/-- The affine form of a triple: z^(p − 2) is the inverse of z, as p is prime. -/
theorem cast_affine {x y : ZMod Const.p} {h : curve.Nonsingular x y} (hP : P.Represents (.some x y h)) :
    (P.affine.1 : ZMod Const.p) = x ∧ (P.affine.2 : ZMod Const.p) = y := by
  obtain ⟨hz, hx, hy⟩ := hP
  have inverse : (powModP 256 P.z (Const.p - 2) : ZMod Const.p) * P.z = 1 := by
    rw [cast_powModP 256 P.z (Const.p - 2) (by decide), ← pow_succ]
    exact ZMod.pow_card_sub_one_eq_one hz
  simp only [CurvePoint.affine, cast_mod_p, Nat.cast_mul]
  generalize (powModP 256 P.z (Const.p - 2) : ZMod Const.p) = i at inverse ⊢
  constructor
  · rw [hx]
    linear_combination x * (i * P.z + 1) * inverse
  · rw [hy]
    linear_combination y * ((i * P.z) ^ 2 + i * P.z + 1) * inverse

/-- The order of G divides n: n·G is infinity (R7, R8). -/
theorem n_nsmul_generatorPoint : Const.n • generatorPoint = 0 :=
  (represents_curveMulG_of_lt n_lt).eq_zero curveMulG_n_z

/-- A multiple of G by a number coprime to n is finite. -/
theorem nsmul_generatorPoint_ne_zero {k : Nat} (hk : k.Coprime Const.n) : k • generatorPoint ≠ 0 := by
  intro h
  have order := Nat.dvd_gcd (addOrderOf_dvd_of_nsmul_eq_zero h) (addOrderOf_dvd_of_nsmul_eq_zero n_nsmul_generatorPoint)
  rw [hk, Nat.dvd_one, AddMonoid.addOrderOf_eq_one_iff] at order
  exact Point.some_ne_zero _ order

/-- An entry of the ROM is the affine form of rom_scalar·G (R243). -/
theorem romPoint_spec {b idx : Nat} (hb : b < 11) (hi : idx < 32) : ∃ x y h, romScalar b idx • generatorPoint = .some x y h ∧
    ((romPoint b idx).1 : ZMod Const.p) = x ∧ ((romPoint b idx).2 : ZMod Const.p) = y := by
  have h := represents_curveMulG_of_lt ((romScalar_lt b idx).trans n_lt)
  rcases hA : romScalar b idx • generatorPoint with _ | ⟨x, y, hxy⟩
  · exact absurd hA (nsmul_generatorPoint_ne_zero (romScalar_coprime b hb idx hi))
  · rw [hA] at h
    exact ⟨x, y, hxy, rfl, cast_affine h⟩

end

/-- Every entry of the ROM is on the curve (R8, R243). -/
theorem romPoint_onCurve {b idx : Nat} (hb : b < 11) (hi : idx < 32) :
    ((romPoint b idx).2 : ZMod Const.p) ^ 2 = ((romPoint b idx).1 : ZMod Const.p) ^ 3 + 7 := by
  have : Fact Const.p.Prime := ⟨prime_p⟩
  obtain ⟨x, y, h, -, hx, hy⟩ := romPoint_spec hb hi
  rw [hx, hy]
  exact (curve_equation_iff x y).1 h.left

end Sys2Proof.Machine
end

section
/-! SUPPORT. The fixed-base multiplier family (`spec/45_ecmult_gen.md`), part 4: the masked lookup, the signed digits a scalar
selects, and the loop (R242 to R245). -/

namespace Sys2Proof.Machine

/-! ## The masked lookup (R245) -/

/-- A selection between two normalized constants is one of them. -/
theorem feCmov_feConst (v w : Nat) (c : Bool) : feCmov (feConst v) (feConst w) c = feConst (if c then w else v) := by
  cases c <;> rfl

theorem feConst_zero : feConst 0 = Fe.zero := by rw [feConst, canon_zero, Fe.zero]

/-- After `count` entries the lookup holds entry `idx`, if it was among them, else zero. -/
theorem foldl_select (x y : Nat → Nat) (idx count : Nat) :
    (List.range count).foldl (fun e j => (feCmov e.1 (feConst (x j)) (j == idx), feCmov e.2 (feConst (y j)) (j == idx)))
      (Fe.zero, Fe.zero) = (feConst (if idx < count then x idx else 0), feConst (if idx < count then y idx else 0)) := by
  induction count with
  | zero => simp only [Nat.not_lt_zero, if_false, feConst_zero]; rfl
  | succ count ih =>
    rw [List.range_succ, List.foldl_append, ih, List.foldl_cons, List.foldl_nil, feCmov_feConst, feCmov_feConst]
    obtain h | rfl | h := lt_trichotomy idx count
    · simp [h, h.ne', h.trans (Nat.lt_succ_self _)]
    · simp
    · simp [h.not_gt, h.ne, show ¬idx < count + 1 by omega]

/-- The masked lookup yields the ROM's point, as normalized constants. -/
theorem combLookup_eq_romPoint {b idx : Nat} (hb : b < 11) (hi : idx < 32) :
    combLookup b idx = (feConst (romPoint b idx).1, feConst (romPoint b idx).2) := by
  have inBlock : idx < Config.combPoints := hi
  rw [combLookup_eq, foldl_select (fun j => (romEntry b j).1) (fun j => (romEntry b j).2), if_pos inBlock, if_pos inBlock,
    romEntry_eq hb inBlock]

/-! ## The signed digits (R242, R243) -/

/-- n is odd: HALF is the inverse of 2. -/
theorem two_mul_half : (2 : ZMod Const.n) * Const.half = 1 := by
  have h : 2 * Const.half % Const.n = 1 % Const.n := by decide
  exact_mod_cast (ZMod.natCast_eq_natCast_iff' _ _ _).2 h

theorem cast_combDiff : (Const.combDiff : ZMod Const.n) = (2 ^ 264 - 1) * Const.half := by
  have h : (Const.combDiff + Const.half) % Const.n = 2 ^ 132 * 2 ^ 132 * Const.half % Const.n := by decide
  have cast : (Const.combDiff + Const.half : ZMod Const.n) = 2 ^ 264 * Const.half := by
    rw [show (2 : ZMod Const.n) ^ 264 = 2 ^ 132 * 2 ^ 132 from pow_add 2 132 132]
    exact_mod_cast (ZMod.natCast_eq_natCast_iff' _ _ _).2 h
  rw [sub_mul, one_mul, ← cast, add_sub_cancel_right]

/-- rom_scalar modulo n: half the signed sum of the block's positions. -/
theorem cast_romScalar (b idx : Nat) : (romScalar b idx : ZMod Const.n) =
    (2 ^ combPos b 5 + ∑ t ∈ Finset.range 5, (2 * (natBit idx t : ZMod Const.n) - 1) * 2 ^ combPos b t) * Const.half := by
  have positive : (0 : Int) < Const.n := by exact_mod_cast n_pos
  have nonneg := Int.emod_nonneg
    (((2 : Int) ^ combPos b 5 + ((List.range 5).map fun t => (2 * (natBit idx t : Int) - 1) * (2 : Int) ^ combPos b t).sum) *
      (Const.half : Int)) positive.ne'
  have cast : ((romScalar b idx : Int) : ZMod Const.n) = _ := congrArg _ (Int.toNat_of_nonneg nonneg)
  rw [Int.cast_natCast, ZMod.intCast_mod] at cast
  rw [cast]
  simp [Finset.sum_range_succ, List.range_succ, add_assoc]

/-- Five bits are those of the number they make. -/
theorem natBit_of_bits {c : Nat → Nat} (hc : ∀ t, c t < 2) {t : Nat} (ht : t < 5) :
    natBit (c 0 + 2 * c 1 + 4 * c 2 + 8 * c 3 + 16 * c 4) t = c t := by
  have h0 := hc 0
  have h1 := hc 1
  have h2 := hc 2
  have h3 := hc 3
  have h4 := hc 4
  rw [natBit, Nat.shiftRight_eq_div_pow]
  interval_cases t <;> simp only [Nat.reducePow] <;> omega

section
variable (d off b : Nat)

theorem tooth_eq_zero_or_one (t : Nat) : tooth d off b t = 0 ∨ tooth d off b t = 1 := by
  have := tooth_lt d off b t
  omega

/-- The low teeth in the index, complemented under a top tooth of 0 (R245). -/
theorem natBit_toothIndex {t : Nat} (ht : t < 5) : natBit (toothIndex d off b) t =
    if tooth d off b 5 = 1 then tooth d off b t else 1 - tooth d off b t := by
  refine natBit_of_bits (c := fun t => if tooth d off b 5 = 1 then tooth d off b t else 1 - tooth d off b t) (fun t => ?_) ht
  have := tooth_lt d off b t
  split <;> omega

theorem cast_toothSign : (toothSign d off b : ZMod Const.n) = 2 * tooth d off b 5 - 1 := by
  obtain top | top := tooth_eq_zero_or_one d off b 5
  · simp [toothSign, top]
  · rw [toothSign, if_pos top, top]
    norm_num

/-- The sign undoes the complement: each low tooth counts as ±1 by its own value. -/
theorem toothSign_mul_natBit {t : Nat} (ht : t < 5) : (toothSign d off b : ZMod Const.n) *
    (2 * natBit (toothIndex d off b) t - 1) = 2 * tooth d off b t - 1 := by
  rw [natBit_toothIndex d off b ht, cast_toothSign]
  obtain top | top := tooth_eq_zero_or_one d off b 5
  · rw [top, if_neg Nat.zero_ne_one, Nat.cast_sub (Nat.le_of_lt_succ (tooth_lt d off b t))]
    push_cast
    ring
  · rw [top, if_pos rfl]
    push_cast
    ring

/-- What block b selects at one offset: half the signed sum of its six teeth (R243). -/
theorem toothSign_mul_romScalar : (toothSign d off b : ZMod Const.n) * romScalar b (toothIndex d off b) =
    (∑ t ∈ Finset.range 6, (2 * (tooth d off b t : ZMod Const.n) - 1) * 2 ^ combPos b t) * Const.half := by
  rw [cast_romScalar, ← mul_assoc, mul_add, Finset.mul_sum, Finset.sum_range_succ _ 5, add_comm, ← cast_toothSign]
  congr 2
  refine Finset.sum_congr rfl fun t ht => ?_
  rw [← mul_assoc, toothSign_mul_natBit d off b (Finset.mem_range.1 ht)]

end

/-- A sum over the numbers below m·n, by quotient and remainder. -/
theorem sum_range_mul {M : Type} [AddCommMonoid M] (f : Nat → M) (m n : Nat) :
    ∑ i ∈ Finset.range (m * n), f i = ∑ j ∈ Finset.range m, ∑ r ∈ Finset.range n, f (j * n + r) := by
  induction m with
  | zero => simp
  | succ m ih => rw [Nat.succ_mul, Finset.sum_range_add, ih, Finset.sum_range_succ]

/-- Bit i of d as a digit ±1 at its place. -/
def signedBit (d i : Nat) : ZMod Const.n := (2 * (d / 2 ^ i % 2 : Nat) - 1) * 2 ^ i

theorem sum_signedBit (d N : Nat) : ∑ i ∈ Finset.range N, signedBit d i = 2 * (d % 2 ^ N : Nat) - (2 ^ N - 1) := by
  induction N with
  | zero => simp [Nat.mod_one]
  | succ N ih =>
    rw [Finset.sum_range_succ, ih, Nat.mod_pow_succ, signedBit]
    push_cast
    ring

/-- Over the 44 selections the signed ROM scalars sum to d − COMB_DIFF (R241, R243). -/
theorem sum_romScalar {d : Nat} (hd : d < 2 ^ 256) :
    (∑ off ∈ Finset.range 4, ∑ b ∈ Finset.range 11,
      (toothSign d off b * 2 ^ off * romScalar b (toothIndex d off b) : ZMod Const.n)) = d - Const.combDiff := by
  calc _ = ∑ off ∈ Finset.range 4, ∑ b ∈ Finset.range 11, ∑ t ∈ Finset.range 6,
        signedBit d ((b * 6 + t) * 4 + off) * Const.half := ?selections
    _ = (∑ i ∈ Finset.range (11 * 6 * 4), signedBit d i) * Const.half := ?positions
    _ = (2 * d - (2 ^ 264 - 1)) * Const.half := ?bits
    _ = d - Const.combDiff := by rw [sub_mul, mul_right_comm, two_mul_half, one_mul, cast_combDiff]
  case selections =>
    refine Finset.sum_congr rfl fun off _ => Finset.sum_congr rfl fun b _ => ?_
    rw [mul_right_comm, toothSign_mul_romScalar, Finset.sum_mul, Finset.sum_mul]
    refine Finset.sum_congr rfl fun t _ => ?_
    rw [mul_right_comm, tooth, Nat.mul_comm 6 b, signedBit, pow_add (2 : ZMod Const.n) _ off, ← mul_assoc]
    rfl
  case positions =>
    rw [sum_range_mul, sum_range_mul, Finset.sum_mul, Finset.sum_comm]
    refine Finset.sum_congr rfl fun b _ => ?_
    rw [Finset.sum_comm, Finset.sum_mul]
    exact Finset.sum_congr rfl fun t _ => (Finset.sum_mul ..).symm
  case bits =>
    rw [sum_signedBit, Nat.mod_eq_of_lt (hd.trans (Nat.pow_lt_pow_right (by decide) (by decide)))]

/-! ## The loop (R245) -/

/-- One addition of the loop is that of the signed entry. -/
theorem combAdd_eq_combPoint (d off : Nat) (r : Gej) {b : Nat} (hb : b < 11) :
    combAdd d off r b = gejAddGe r (combPoint d off b) := by
  have negated := feNeg_own (y := feConst (romPoint b (toothIndex d off b)).2) (le_of_eq_of_le (feConst_mag _) (by decide))
  rw [feConst_mag] at negated
  rw [combAdd_eq, combIndex_eq, combTop_eq, combLookup_eq_romPoint hb (toothIndex_lt d off b)]
  simp only [negated, chk_ok_bind]
  rw [combPoint]
  by_cases top : tooth d off b 5 = 1 <;> simp [top, feCmov, feConst]

/-- A loop depends on its body at the list's members only. -/
theorem foldlM_congr {α β : Type} {f g : β → α → Chk β} {l : List α} (h : ∀ a ∈ l, ∀ b, f b a = g b a) (b : β) :
    l.foldlM f b = l.foldlM g b := by
  induction l generalizing b with
  | nil => rfl
  | cons a l ih =>
    rw [List.foldlM_cons, List.foldlM_cons, h a (List.mem_cons_self ..)]
    exact bind_congr fun b => ih (fun a ha => h a (List.mem_cons_of_mem _ ha)) b

theorem combRound_eq_combPoint (d off : Nat) (r : Gej) : combRound d off r =
    [0, 1, 2, 3, 4, 5, 6, 7, 8, 9, 10].foldlM (fun r b => gejAddGe r (combPoint d off b)) r := by
  rw [combRound_eq]
  exact foldlM_congr (fun b hb r => combAdd_eq_combPoint d off r (List.mem_range.1 hb)) r

/-- The loop from offset `count` − 1 down, by recursion. -/
theorem foldlM_combOffset (d count : Nat) (r : Gej) :
    (List.range count).reverse.foldlM (combOffset d) r = combFrom d count r := by
  induction count generalizing r with
  | zero => rfl
  | succ off ih =>
    rw [List.range_succ, List.reverse_append, List.reverse_singleton, List.singleton_append, List.foldlM_cons, combOffset_eq,
      combRound_eq_combPoint, combFrom, bind_assoc]
    refine bind_congr fun r => ?_
    rcases off with _ | off
    · rfl
    · rw [if_pos (Nat.succ_pos off), if_neg (Nat.succ_ne_zero off)]
      exact bind_congr fun r => ih r

theorem combMul_eq_combFrom (k : Nat) (c : Context) : combMul k c = (do
    let r ← combFrom ((k + c.scalarOffset.toNat) % Const.n) 4 Gej.infinity
    gejAddGe r c.geOffset) := by
  rw [combMul_eq]
  exact congrArg (· >>= _) (foldlM_combOffset _ 4 _)

end Sys2Proof.Machine
end

section
/-! SUPPORT. The fixed-base multiplier family (`spec/45_ecmult_gen.md`), part 5: the comb ROM reads of a recorded run (R252). -/

namespace Sys2Proof.Machine

/-- When the recorded computation answers, its comb ROM reads are `l`, in order. -/
def ReadsRom {α : Type} (x : Traced α) (l : List (Nat × Nat)) : Prop :=
  ∀ a, x.result = .ok a → x.events.filterMap Event.combRead = l

section
variable {α β : Type} {x : Traced α} {f : α → Traced β} {l l' : List (Nat × Nat)}

theorem readsRom_bind (hx : ReadsRom x l) (hf : ∀ a, ReadsRom (f a) l') :
    ReadsRom (@bind Traced tracedMonad.toBind _ _ x f) (l ++ l') := by
  intro b hb
  obtain ⟨a, ha, hfa⟩ := chk_bind_ok.1 hb
  show (x.events ++ Traced.rest x.result f).filterMap Event.combRead = _
  rw [ha, List.filterMap_append, hx a ha]
  exact congrArg _ (hf a b hfa)

/-- After a computation without reads. -/
theorem readsRom_quiet_bind (hx : ReadsRom x []) (hf : ∀ a, ReadsRom (f a) l) :
    ReadsRom (@bind Traced tracedMonad.toBind _ _ x f) l := readsRom_bind hx hf

/-- Before a computation without reads. -/
theorem readsRom_bind_quiet (hx : ReadsRom x l) (hf : ∀ a, ReadsRom (f a) []) :
    ReadsRom (@bind Traced tracedMonad.toBind _ _ x f) l := List.append_nil l ▸ readsRom_bind hx hf

theorem readsRom_pure (a : α) : ReadsRom (@pure Traced tracedMonad.toPure _ a) [] := fun _ _ => rfl

theorem readsRom_check (y : Chk α) : ReadsRom (recorder.check y) [] := fun _ _ => rfl

theorem readsRom_note (e : Event) : ReadsRom (recorder.note e) ([e].filterMap Event.combRead) := fun _ _ => rfl

theorem readsRom_foldlM {ι : Type} {f : α → ι → Traced α} {g : ι → List (Nat × Nat)} (h : ∀ a i, ReadsRom (f a i) (g i))
    (is : List ι) (a : α) : ReadsRom (@List.foldlM Traced tracedMonad _ _ f a is) (is.flatMap g) := by
  induction is generalizing a with
  | nil => exact readsRom_pure a
  | cons i is ih => exact readsRom_bind (h a i) ih

/-! ## Operations without reads -/

/-- An operation of the field unit. -/
theorem readsRom_perform {e : Event} (he : e.combRead = none) (y : Chk α) : ReadsRom (recorder.perform e y) [] := by
  intro a ha
  cases y with
  | ok a => exact List.filterMap_cons_none he
  | error c => nomatch ha

end

section
variable (a b : Fe) (k : Nat) (c : Bool)

theorem quiet_add : ReadsRom (recorder.add a b) [] := readsRom_perform rfl _
theorem quiet_neg : ReadsRom (recorder.neg a k) [] := readsRom_perform rfl _
theorem quiet_mul : ReadsRom (recorder.mul a b) [] := readsRom_perform rfl _
theorem quiet_sqr : ReadsRom (recorder.sqr a) [] := readsRom_perform rfl _
theorem quiet_norm : ReadsRom (@Scribe.norm Traced tracedMonad recorder.toScribe a) [] := fun _ _ => rfl
theorem quiet_cmov : ReadsRom (@Scribe.cmov Traced tracedMonad recorder.toScribe a b c) [] := fun _ _ => rfl
theorem quiet_ntz : ReadsRom (@Scribe.ntz Traced tracedMonad recorder.toScribe a) [] := fun _ _ => rfl

theorem quiet_diff : ReadsRom (@Datapath.diff Traced tracedMonad recorder a b) [] :=
  readsRom_quiet_bind (quiet_neg _ _) fun _ => quiet_add _ _

end

theorem quiet_selectGej (r a : Gej) (c : Bool) :
    ReadsRom (@Scribe.selectGej Traced tracedMonad recorder.toScribe r a c) [] := fun _ _ => rfl

theorem quiet_zeroize (P : Gej) (c : Bool) :
    ReadsRom (@Scribe.zeroize Traced tracedMonad recorder.toScribe P c) [] := fun _ _ => rfl

theorem quiet_dbl (P : Gej) : ReadsRom (@Datapath.dbl Traced tracedMonad recorder P) [] := by
  refine readsRom_quiet_bind (readsRom_check _) fun _ => ?_
  iterate 19 refine readsRom_quiet_bind (readsRom_perform rfl _) fun _ => ?_
  exact quiet_zeroize _ _

theorem quiet_addCore (u s h i z : Fe) : ReadsRom (@Datapath.addCore Traced tracedMonad recorder u s h i z) [] := by
  iterate 15 refine readsRom_quiet_bind (readsRom_perform rfl _) fun _ => ?_
  exact readsRom_pure _

theorem quiet_crossMixed (P : Gej) (b : Ge) : ReadsRom (@Datapath.crossMixed Traced tracedMonad recorder P b) [] :=
  readsRom_quiet_bind (quiet_sqr _) fun _ => readsRom_quiet_bind (quiet_norm _) fun _ =>
  readsRom_quiet_bind (quiet_mul _ _) fun _ => readsRom_quiet_bind (quiet_norm _) fun _ =>
  readsRom_quiet_bind (quiet_mul _ _) fun _ => readsRom_quiet_bind (quiet_mul _ _) fun _ =>
  readsRom_quiet_bind (quiet_diff _ _) fun _ => readsRom_quiet_bind (quiet_diff _ _) fun _ => readsRom_pure _

theorem quiet_addGe (P : Gej) (b : Ge) : ReadsRom (@Datapath.addGe Traced tracedMonad recorder P b) [] :=
  readsRom_quiet_bind (readsRom_check _) fun _ => readsRom_quiet_bind (quiet_crossMixed P b) fun _ =>
  readsRom_quiet_bind (quiet_ntz _) fun _ => readsRom_quiet_bind (quiet_ntz _) fun _ =>
  readsRom_quiet_bind (quiet_addCore _ _ _ _ _) fun _ => readsRom_quiet_bind (quiet_dbl _) fun _ =>
  readsRom_quiet_bind (quiet_selectGej _ _ _) fun _ => readsRom_quiet_bind (quiet_selectGej _ _ _) fun _ =>
  readsRom_quiet_bind (quiet_selectGej _ _ _) fun _ => quiet_zeroize _ _

/-! ## The comb -/

/-- The masked lookup reads the block's 32 entries, whatever the index (R245). -/
theorem readsRom_combLookup (b idx : Nat) : ReadsRom (@Scribe.combLookup Traced tracedMonad recorder.toScribe b idx)
    ((List.range Config.combPoints).map fun j => (b, j)) := by
  rw [← List.flatMap_pure_eq_map]
  refine readsRom_foldlM (fun e j => ?_) _ _
  generalize romEntry b j = c
  exact readsRom_bind_quiet (readsRom_note _) fun _ => readsRom_quiet_bind (quiet_cmov _ _ _) fun _ =>
    readsRom_quiet_bind (quiet_cmov _ _ _) fun _ => readsRom_pure _

theorem readsRom_combAdd (d off : Nat) (r : Gej) (b : Nat) :
    ReadsRom (@Datapath.combAdd Traced tracedMonad recorder d off r b)
      ((List.range Config.combPoints).map fun j => (b, j)) :=
  readsRom_quiet_bind (readsRom_note _) fun _ => readsRom_bind_quiet (readsRom_combLookup b _) fun _ =>
    readsRom_quiet_bind (quiet_neg _ _) fun _ => readsRom_quiet_bind (quiet_cmov _ _ _) fun _ => quiet_addGe _ _

theorem readsRom_combOffset (d : Nat) (r : Gej) (off : Nat) :
    ReadsRom (@Datapath.combOffset Traced tracedMonad recorder d r off)
      ((List.range Config.combBlocks).flatMap fun b => (List.range Config.combPoints).map fun j => (b, j)) := by
  refine readsRom_quiet_bind (readsRom_note _) fun _ =>
    readsRom_bind_quiet (readsRom_foldlM (readsRom_combAdd d off) _ r) fun _ => ?_
  split
  · exact quiet_dbl _
  · exact readsRom_pure _

/-- COMBMUL reads the whole ROM four times, in one order (R252). -/
theorem readsRom_combMul (k : Nat) (c : Context) :
    ReadsRom (@Datapath.combMul Traced tracedMonad recorder k c) combReads :=
  readsRom_bind_quiet (readsRom_foldlM (readsRom_combOffset _) _ _) fun _ => quiet_addGe _ _

end Sys2Proof.Machine
end

section
/-! SUPPORT. The fixed-base multiplier family (`spec/45_ecmult_gen.md`), part 6: the commands (R246 to R249, R252). -/

namespace Sys2Proof.Machine

/-! ## CTX_BUILD and CTX_CLEAR (R246, R248) -/

section
variable {s : State}

theorem exec_ctxBuild : exec .ctxBuild s = runWord (encode .ctxBuild) s
    (.ok { s with ctx := ⟨true, BitVec.ofNat 256 (scSub Const.combDiff 1), Ge.generator⟩ }) :=
  exec_of_work rfl rfl

theorem exec_ctxClear : exec .ctxClear s = runWord (encode .ctxClear) s (.ok { s with ctx := Context.clear }) :=
  exec_of_work rfl rfl

/-- (COMB_DIFF − 1) mod n, the scalar offset of the default blinding b = 1 (R246). -/
theorem scSub_combDiff_one :
    BitVec.ofNat 256 (scSub Const.combDiff 1) = 0x800000000000000000000000000000A205E8FB1BB354323DF6B9E8DE4CFA801F := by
  decide

/-- Settles O24: neither command reads anything, so each has just its one outcome. -/
theorem contextBuildAndClear : Obligations.ContextBuildAndClear := by
  refine fun s hs => ⟨?build, exec_ctxClear.trans (runWord_ok _ hs)⟩
  rw [exec_ctxBuild, scSub_combDiff_one]
  exact runWord_ok _ hs

end

/-! ## CTX_BLIND (R247) -/

theorem require_built {s : State} (h : s.ctx.built = true) : require s.ctx.built .ctxNotBuilt = .ok () := by
  rw [h, require_true]

theorem require_not_built {s : State} (h : s.ctx.built = false) : require s.ctx.built .ctxNotBuilt = .error .ctxNotBuilt := by
  rw [h, require_false]

/-- The blinding scalar of a 256-bit value: one subtraction reduces it mod n, and 0 becomes 1. -/
theorem blindScalar_eq {v : Nat} (h : v < 2 ^ 256) : blindScalar v = if v % Const.n = 0 then 1 else v % Const.n := by
  rw [blindScalar, reduceOnce_eq_mod (h.trans_le two_n)]

theorem blindScalar_le {v : Nat} (h : v < 2 ^ 256) : blindScalar v ≤ Const.n := by
  have := Nat.mod_lt v n_pos
  rw [blindScalar_eq h]
  split <;> omega

/-- The difference of scalars as a difference of natural numbers. -/
theorem scSub_eq {a b : Nat} (hb : b ≤ Const.n) : scSub a b = (a + (Const.n - b)) % Const.n := by
  have shift : ((a + (Const.n - b) : Nat) : Int) = (a : Int) - b + Const.n := by omega
  rw [scSub, ← Int.add_emod_right, ← shift]
  rfl

section
variable {s : State} {imm : Imm} (hi : imm.toNat ≤ 31)
include hi

theorem exec_ctxBlind : exec (.ctxBlind imm) s = runWord (encode (.ctxBlind imm)) s
    (require s.ctx.built .ctxNotBuilt >>= fun _ => loadSlot imm s >>= fun v =>
      combMul (blindScalar v) s.ctx >>= fun gb => toAff gb invCt >>= fun A =>
        .ok { s with
          ctx := ⟨s.ctx.built, BitVec.ofNat 256 (scSub Const.combDiff (blindScalar v)), ⟨feNorm A.x, feNorm A.y, false⟩⟩ }) := by
  refine exec_of_work (slot_check hi) ?_
  simp only [body, bodyCtxBlind, plain_check, plain_combMul, plain_toAff_invCt, plain_norm, chk_ok_bind, chk_pure]

end

/-- Settles O25: COMBMUL under the old context has coordinates small enough for TOAFF, so no later step faults. -/
theorem contextBlind : Obligations.ContextBlind := by
  intro s imm hs hi
  refine ⟨fun v built h8 hv => ?blind, fun unbuilt => ?notBuilt, fun built invalid => ?invalid⟩
  case blind =>
    obtain ⟨gb, egb, mx, my, mz, -⟩ := combMul_spec (blindScalar v) h8.x h8.y
    obtain ⟨A, eA, -⟩ := toAff_spec (P := gb) (inv := invCt) (mx ▸ max_le (by decide) h8.x) (my ▸ max_le (by decide) h8.y)
      (mz ▸ by decide)
    rw [← blindScalar_eq hv.value, ← scSub_eq (blindScalar_le hv.value)]
    refine ⟨gb, A, egb, eA, ?_⟩
    rw [exec_ctxBlind hi, require_built built, loadSlot_of_slotHolds hv, built]
    simp only [chk_ok_bind, egb, eA]
    exact runWord_ok _ hs
  case notBuilt => rw [exec_ctxBlind hi, require_not_built unbuilt]; exact runWord_error _ hs
  case invalid =>
    rw [exec_ctxBlind hi, require_built built, loadSlot_invalid invalid]
    exact runWord_error _ hs

/-! ## ECMULT_GEN (R249, R252) -/

theorem body_ecmultGen (rd ra : RegNum) (s : State) : body plain (.ecmultGen rd ra) s =
    (require s.ctx.built .ctxNotBuilt >>= fun _ => readS ra s >>= fun k =>
      combMul k.toNat s.ctx >>= fun r => .ok (writeJ rd r s)) := rfl

/-- The comb ROM reads of the recorded work of ECMULT_GEN (R252). -/
theorem readsRom_ecmultGen (rd ra : RegNum) (s : State) :
    ReadsRom (traceOf fun dp => body dp (.ecmultGen rd ra) s) combReads :=
  readsRom_quiet_bind (readsRom_check _) fun _ => readsRom_quiet_bind (readsRom_check _) fun _ =>
    readsRom_bind_quiet (readsRom_combMul _ _) fun _ => readsRom_pure _

/-- A run of ECMULT_GEN that answers reads the whole ROM four times in one order, whatever the scalar. -/
theorem combReads_ecmultGen {rd ra : RegNum} {s u : State} (hs : s.Ready) (answer : body plain (.ecmultGen rd ra) s = .ok u) :
    (opsOf (.ecmultGen rd ra) s).filterMap Event.combRead = combReads := by
  rw [opsOf, hs]
  exact readsRom_ecmultGen rd ra s u ((body_result _ _).trans answer)

/-- Settles O53: the command answers as `combMul_spec` says and reads as its record; the other clauses are the lookup, the ROM's
points as multiples of G, the curve equation kept by doubling and adding, the ±1 digits of d, and the loop by recursion. -/
theorem ecmultGen : Obligations.EcmultGen := by
  refine ⟨fun s rd ra hs => ⟨fun k built hk mx my => ?run, fun unbuilt => ?notBuilt, fun built invalid => ?invalid⟩,
    fun b idx hb hi => combLookup_eq_romPoint hb hi, fun b idx hb hi => romPoint_onCurve hb hi,
    fun bits k => onCurve_curveMulG bits k, fun d hd => sum_romScalar hd, combMul_eq_combFrom⟩
  case run =>
    obtain ⟨R, eR, hx, hy, hz, nx, ny, nz, -⟩ := combMul_spec k.toNat (c := s.ctx) (by omega) (by omega)
    have work : body plain (.ecmultGen rd ra) s = .ok (writeJ rd R s) := by
      rw [body_ecmultGen, require_built built, chk_ok_bind, readS_ok hk, chk_ok_bind, eR, chk_ok_bind]
    refine ⟨⟨R, eR, ?_, by omega, by omega, hz, nx, ny, nz⟩, combReads_ecmultGen hs work⟩
    rw [exec_of_work rfl work]
    exact runWord_ok _ hs
  case notBuilt =>
    rw [exec_of_work rfl (body_ecmultGen ..), require_not_built unbuilt]
    exact runWord_error _ hs
  case invalid =>
    rw [exec_of_work rfl (body_ecmultGen ..), require_built built, chk_ok_bind, readS_bind_invalid invalid]
    exact runWord_error _ hs

end Sys2Proof.Machine
end

section
/-! SUPPORT. The variable-base multiplier family (`spec/46_ecmult.md`), part 1: the recoding (R260). The digit of an odd number is
odd, small and congruent to it modulo 2^w; the recoding goes on with the number less its digit, halved. -/

namespace Sys2Proof.Machine

/-! ## One digit -/

/-- What the loop of R260 goes on with after the digit of k. -/
def wnafRest (w k : Nat) : Nat := (((k : Int) - wnafDigit w k) / 2).toNat

@[simp] theorem wnafLoop_of_zero (w fuel : Nat) : wnafLoop w fuel 0 = [] := by cases fuel <;> rfl

theorem wnafLoop_succ (w fuel : Nat) {k : Nat} (hk : k ≠ 0) :
    wnafLoop w (fuel + 1) k = wnafDigit w k :: wnafLoop w fuel (wnafRest w k) := if_neg hk

theorem wnafDigit_even (w : Nat) {k : Nat} (hk : k % 2 = 0) : wnafDigit w k = 0 := if_neg (by omega)

/-- Multiples of M less than M apart are in order. -/
theorem le_of_dvd_of_lt_add {M x y : Int} (hx : M ∣ x) (hy : M ∣ y) (h : x < y + M) : x ≤ y := by
  have := Int.le_of_dvd (sub_pos.2 h) (dvd_sub (dvd_add hy dvd_rfl) hx)
  omega

section
variable {w : Nat} (hw : 2 ≤ w)
include hw

theorem two_pow_eq_two_mul : (2 : Int) ^ w = 2 * 2 ^ (w - 1) := by rw [← pow_succ', Nat.sub_add_cancel (by omega)]

/-- The digit of an odd number: odd, small, and congruent to the number modulo 2^w. -/
theorem wnafDigit_odd {k : Nat} (hk : k % 2 = 1) :
    wnafDigit w k % 2 = 1 ∧ |wnafDigit w k| < 2 ^ (w - 1) ∧ (2 ^ w : Int) ∣ k - wnafDigit w k := by
  have odd : k % 2 ^ w % 2 = 1 := (Nat.mod_mod_of_dvd k (dvd_pow_self 2 (by omega))).trans hk
  have below : k % 2 ^ w < 2 ^ w := Nat.mod_lt k (by positivity)
  have residue : (2 ^ w : Int) ∣ k - (k % 2 ^ w : Nat) := by
    push_cast
    exact Int.dvd_self_sub_emod
  have full : 2 ^ w = 2 * 2 ^ (w - 1) := by rw [← pow_succ', Nat.sub_add_cancel (by omega)]
  have half : 2 ^ (w - 1) = 2 * 2 ^ (w - 2) := by rw [← pow_succ', show w - 2 + 1 = w - 1 by omega]
  have cast : (2 ^ (w - 1) : Int) = (2 ^ (w - 1) : Nat) := by push_cast; rfl
  rw [wnafDigit, if_pos hk, abs_lt, cast]
  split
  case isTrue high =>
    refine ⟨by omega, by omega, ?_⟩
    rw [sub_sub_eq_add_sub, add_sub_right_comm, Nat.cast_pow, Nat.cast_ofNat]
    exact dvd_add residue dvd_rfl
  case isFalse low => exact ⟨by omega, by omega, residue⟩

/-- A number less its digit is natural and even. -/
theorem wnafDigit_add_two_mul_rest (k : Nat) : wnafDigit w k + 2 * wnafRest w k = k := by
  suffices h : 0 ≤ k - wnafDigit w k ∧ (2 : Int) ∣ k - wnafDigit w k by
    rw [wnafRest]
    omega
  rcases Nat.mod_two_eq_zero_or_one k with even | odd
  · rw [wnafDigit_even w even]
    omega
  · obtain ⟨-, small, multiple⟩ := wnafDigit_odd hw odd
    have := abs_lt.1 small
    have := two_pow_eq_two_mul hw
    exact ⟨le_of_dvd_of_lt_add (dvd_zero _) multiple (by omega), dvd_trans (dvd_pow_self 2 (by omega)) multiple⟩

/-- After an odd number the rest has w − 1 zeros at its end. -/
theorem two_pow_dvd_wnafRest {k : Nat} (hk : k % 2 = 1) : 2 ^ (w - 1) ∣ wnafRest w k := by
  obtain ⟨-, -, multiple⟩ := wnafDigit_odd hw hk
  rw [← wnafDigit_add_two_mul_rest hw k, add_sub_cancel_left, two_pow_eq_two_mul hw] at multiple
  exact_mod_cast Int.dvd_of_mul_dvd_mul_left (by decide) multiple

/-- The rest is shorter by a bit, although a negative digit makes it more than half of the number. -/
theorem two_mul_wnafRest_le {k f : Nat} (h : k ≤ 2 ^ f) : 2 * wnafRest w k ≤ 2 ^ f := by
  have parts := wnafDigit_add_two_mul_rest hw k
  rcases Nat.mod_two_eq_zero_or_one k with even | odd
  · rw [wnafDigit_even w even] at parts
    omega
  · obtain ⟨-, small, multiple⟩ := wnafDigit_odd hw odd
    have := abs_lt.1 small
    have full := two_pow_eq_two_mul hw
    zify at h ⊢
    rcases Nat.lt_or_ge f w with hf | hf
    · have : (2 : Int) ^ f ≤ 2 ^ (w - 1) := pow_le_pow_right₀ (by decide) (by omega)
      have := le_of_dvd_of_lt_add multiple (dvd_zero _) (by omega)
      omega
    · have := le_of_dvd_of_lt_add multiple (pow_dvd_pow 2 hf) (by omega)
      omega

end

/-! ## The list of digits -/

/-- The recoding without its fuel: 0 has no digits; any other number has its digit, then those of the rest. -/
inductive Recodes (w : Nat) : Nat → List Int → Prop
  | zero : Recodes w 0 []
  | digit {k : Nat} {ds : List Int} : k ≠ 0 → Recodes w (wnafRest w k) ds → Recodes w k (wnafDigit w k :: ds)

theorem length_wnafLoop_le (w fuel k : Nat) : (wnafLoop w fuel k).length ≤ fuel := by
  induction fuel generalizing k with
  | zero => exact le_rfl
  | succ fuel ih =>
    rcases eq_or_ne k 0 with rfl | hk
    · exact Nat.zero_le _
    · rw [wnafLoop_succ w fuel hk]
      exact Nat.succ_le_succ (ih _)

theorem bitLength_le_size (k : Nat) : bitLength k ≤ Nat.size k := by
  unfold bitLength
  split
  case isTrue => exact Nat.zero_le _
  case isFalse h0 => exact (Nat.log2_lt h0).2 (Nat.lt_size_self k)

theorem lt_two_pow_bitLength (k : Nat) : k < 2 ^ bitLength k := by
  unfold bitLength
  split
  case isTrue h0 => rw [h0]; decide
  case isFalse => exact Nat.lt_log2_self

section
variable {w : Nat} (hw : 2 ≤ w)
include hw

theorem recodes_wnafLoop {fuel k : Nat} (h : 2 * k ≤ 2 ^ fuel) : Recodes w k (wnafLoop w fuel k) := by
  induction fuel generalizing k with
  | zero =>
    obtain rfl : k = 0 := by omega
    exact .zero
  | succ fuel ih =>
    rcases eq_or_ne k 0 with rfl | hk
    · exact .zero
    · rw [wnafLoop_succ w fuel hk]
      exact .digit hk (ih (two_mul_wnafRest_le hw (by omega)))

/-- One pass more than the bit length is enough fuel. -/
theorem recodes_wnaf (k : Nat) : Recodes w k (wnaf k w) :=
  recodes_wnafLoop hw (by have := lt_two_pow_bitLength k; omega)

end

section
variable {w k : Nat} {ds : List Int} (h : Recodes w k ds)
include h

/-- Only 0 has no digits. -/
theorem Recodes.eq_zero (hn : ds = []) : k = 0 := by
  cases h with
  | zero => rfl
  | digit => nomatch hn

variable (hw : 2 ≤ w)
include hw

/-- The digits stand for the number. -/
theorem Recodes.sum : ds.foldr (fun d acc => d + 2 * acc) 0 = (k : Int) := by
  induction h with
  | zero => rfl
  | digit _ _ ih => rw [List.foldr_cons, ih, wnafDigit_add_two_mul_rest hw]

theorem Recodes.digit_odd_small {d : Int} (hd : d ∈ ds) (h0 : d ≠ 0) : d % 2 = 1 ∧ |d| < 2 ^ (w - 1) := by
  induction h with
  | zero => nomatch hd
  | @digit k _ _ _ ih =>
    rcases List.mem_cons.1 hd with rfl | hd
    · rcases Nat.mod_two_eq_zero_or_one k with even | odd
      · exact absurd (wnafDigit_even w even) h0
      · obtain ⟨odd, small, -⟩ := wnafDigit_odd hw odd
        exact ⟨odd, small⟩
    · exact ih hd

/-- Zero bits at the number's end are zero digits. -/
theorem Recodes.getD_eq_zero_of_dvd {m j : Nat} (hm : 2 ^ m ∣ k) (hj : j < m) : ds.getD j 0 = 0 := by
  induction h generalizing m j with
  | zero => rfl
  | @digit k _ _ _ ih =>
    obtain ⟨m, rfl⟩ := Nat.exists_eq_add_one.2 (Nat.zero_lt_of_lt hj)
    rw [pow_succ'] at hm
    have zero := wnafDigit_even w (Nat.mod_eq_zero_of_dvd (dvd_of_mul_right_dvd hm))
    cases j with
    | zero => exact zero
    | succ j =>
      have double : k = 2 * wnafRest w k := by
        have := wnafDigit_add_two_mul_rest hw k
        omega
      rw [double] at hm
      exact ih (Nat.dvd_of_mul_dvd_mul_left (by decide) hm) (Nat.lt_of_succ_lt_succ hj)

/-- w − 1 zeros follow a nonzero digit: those at the end of the rest. -/
theorem Recodes.getD_eq_zero {i j : Nat} (hij : i < j) (hj : j < i + w) (hi : ds.getD i 0 ≠ 0) : ds.getD j 0 = 0 := by
  induction h generalizing i j with
  | zero => rfl
  | @digit k _ _ rest ih =>
    obtain ⟨j, rfl⟩ := Nat.exists_eq_add_one.2 (Nat.zero_lt_of_lt hij)
    cases i with
    | zero =>
      have odd : k % 2 = 1 := Nat.mod_two_ne_zero.1 fun even => hi (wnafDigit_even w even)
      exact rest.getD_eq_zero_of_dvd hw (two_pow_dvd_wnafRest hw odd) (by omega)
    | succ i => exact ih (by omega) (by omega) hi

/-- The last digit is its number, which is not 0. -/
theorem Recodes.getLast_ne_zero {d : Int} (hd : ds.getLast? = some d) : d ≠ 0 := by
  induction h with
  | zero => nomatch hd
  | @digit k ds hk rest ih =>
    cases ds with
    | nil =>
      obtain rfl : wnafDigit w k = d := Option.some.inj hd
      have := wnafDigit_add_two_mul_rest hw k
      have := rest.eq_zero rfl
      omega
    | cons => exact ih (List.getLast?_cons_cons ▸ hd)

end

/-- Settles O60: each property by induction over the digits; the fuel is one more than the bit length. -/
theorem wnafRecodes : Obligations.WnafRecodes := by
  intro k w hw
  have h := recodes_wnaf hw k
  refine ⟨h.sum hw, fun d hd h0 => ?digit, fun i j => h.getD_eq_zero hw, fun d => h.getLast_ne_zero hw, ?length, rfl⟩
  case digit =>
    obtain ⟨odd, small⟩ := h.digit_odd_small hw hd h0
    exact ⟨odd, Int.le_sub_one_of_lt small⟩
  case length => exact (length_wnafLoop_le ..).trans (Nat.succ_le_succ (bitLength_le_size k))

end Sys2Proof.Machine
end

section
/-! SUPPORT. The variable-base multiplier family (`spec/46_ecmult.md`), part 2: the command, its terms, their tables and the loop
(R262 to R266). -/

namespace Sys2Proof.Machine

/-! ## The halves (R264) -/

/-- A half-scalar made low is at most (n − 1)/2. -/
theorem lowHalf_le {k : Nat} (h : k < Const.n) : (lowHalf k).1 ≤ Const.nHalf := by
  rw [lowHalf, scIsHigh_eq, nHalf_eq]
  split
  case isTrue high => exact Nat.not_lt.1 ((high_iff_not_high_neg n_odd h).1 (of_decide_eq_true high))
  case isFalse low => exact Nat.not_lt.1 fun high => low (decide_eq_true high)

/-- A half-scalar made low is, with its sign, the half-scalar modulo n. -/
theorem cast_signed_lowHalf {k : Nat} (h : k < Const.n) : (signed (lowHalf k) : ZMod Const.n) = k := by
  unfold lowHalf
  split
  case isTrue => simp [signed, Nat.cast_sub h.le]
  case isFalse => simp [signed]

theorem cast_splitLambda (k : Nat) :
    ((splitLambda k).1 : ZMod Const.n) + (splitLambda k).2 * Const.lambda = k := by
  exact_mod_cast (ZMod.natCast_eq_natCast_iff' _ _ _).2 (splitLambda_congr k)

/-! ## The tables (R262, R263) -/

/-- `ODDTAB` of a content within the bound. -/
theorem oddTab_steps {B : Gej} (h : B.Within8) : ∃ D T, gejDbl B = .ok D ∧ oddTab B = .ok T ∧ T.length = 8 ∧
    T[0]? = some B ∧ (∀ P ∈ T, P.Within8) ∧
    ∀ i < 7, ∃ P Q, T[i]? = some P ∧ T[i + 1]? = some Q ∧ gejAddVar P D = .ok Q := by
  obtain ⟨D, hD, fits, -⟩ := gejDbl_fits h
  obtain ⟨T, hT, length, within, steps⟩ := oddTabFrom_steps fits 7 h
  exact ⟨D, B :: T, hD, by simp [oddTab_eq, Config.ecmultTableSize, hD, hT], by simp [length], rfl,
    List.forall_mem_cons.2 ⟨h, within⟩, steps⟩

/-- What `Q` is to a table entry `P` (R263). -/
structure Gej.IsTwin (P Q : Gej) : Prop where
  x : P.x.Wf → Q.x.mod = P.x.mod * Const.beta
  mag : Q.x.mag = 1
  norm : Q.x.norm = false
  y : Q.y = P.y
  z : Q.z = P.z
  inf : Q.inf = P.inf

theorem lamEntry_isTwin {P : Gej} (h : P.x.mag ≤ 8) : ∃ Q, lamEntry P = .ok Q ∧ P.IsTwin Q := by
  obtain ⟨x, e, mag, norm, -⟩ := feMul_spec (b := feConst Const.beta) h (by decide)
  refine ⟨{ P with x := x }, ?_, fun wf => ?_, mag, norm, rfl, rfl, rfl⟩
  · rw [lamEntry_eq, e]
    rfl
  · exact (ensures_feMul wf.is_mod (is_feConst (by decide)) x e).value

theorem lamTab_isTwin {T : List Gej} (h : ∀ P ∈ T, P.x.mag ≤ 8) :
    ∃ LT, lamTab T = .ok LT ∧ List.Forall₂ Gej.IsTwin T LT := by
  rw [lamTab_eq]
  induction T with
  | nil => exact ⟨[], rfl, .nil⟩
  | cons P T ih =>
    obtain ⟨hP, hT⟩ := List.forall_mem_cons.1 h
    obtain ⟨Q, eQ, twin⟩ := lamEntry_isTwin hP
    obtain ⟨LT, eLT, twins⟩ := ih hT
    exact ⟨Q :: LT, by rw [List.mapM_cons, eQ, chk_ok_bind, eLT]; rfl, .cons twin twins⟩

theorem getElem?_of_isTwin {T LT : List Gej} (h : List.Forall₂ Gej.IsTwin T LT) {i : Nat} {P : Gej} (hP : T[i]? = some P) :
    ∃ Q, LT[i]? = some Q ∧ P.IsTwin Q := by
  obtain ⟨hi, rfl⟩ := List.getElem?_eq_some_iff.1 hP
  exact ⟨_, List.getElem?_eq_getElem (h.length_eq ▸ hi), h.get hi _⟩

theorem terms_eq_ok {B : Gej} {T LT : List Gej} (k : Nat) (hT : oddTab B = .ok T) (hLT : lamTab T = .ok LT) :
    terms B k = .ok [termOf (splitLambda k).1 T, termOf (splitLambda k).2 LT] := by
  rw [terms_eq, hT, chk_ok_bind, hLT]
  rfl

/-! ## A pass (R266) -/

theorem ecmultPass_of_dbl {r D : Gej} (ts : List Term) (i : Nat) (h : gejDbl r = .ok D) :
    ecmultPass ts r i = ts.foldlM (addTerm i) D := by
  rw [ecmultPass_eq, h, chk_ok_bind]

theorem ecmultPass_append (ts us : List Term) (r : Gej) (i : Nat) :
    ecmultPass (ts ++ us) r i = ecmultPass ts r i >>= us.foldlM (addTerm i) := by
  simp only [ecmultPass_eq, List.foldlM_append, bind_assoc]

section
variable {i : Nat} {t : Term} (r : Gej)

theorem addTerm_zero (h : signedDigit t i = 0) : addTerm i r t = .ok r := by
  rw [addTerm_eq, h]
  rfl

theorem addTerm_positive {j : Nat} {P : Gej} (h : signedDigit t i = 2 * j + 1) (hP : t.table[j]? = some P) :
    addTerm i r t = gejAddVar r P := by
  have entry : ((signedDigit t i - 1) / 2).toNat = j := by omega
  rw [addTerm_eq, addMultiple_eq, if_pos (by omega), entry, List.getD_eq_getElem?_getD, hP, Option.getD_some]

theorem addTerm_negative {j : Nat} {P M : Gej} (h : signedDigit t i = -(2 * j + 1)) (hP : t.table[j]? = some P)
    (hM : negJ P = .ok M) : addTerm i r t = gejAddVar r M := by
  have entry : ((-signedDigit t i - 1) / 2).toNat = j := by omega
  rw [addTerm_eq, addMultiple_eq, if_neg (by omega), if_pos (by omega), entry, List.getD_eq_getElem?_getD, hP,
    Option.getD_some, hM, chk_ok_bind]

end

/-! ## The loop (R266) -/

theorem foldlM_ecmultPass (ts : List Term) (count : Nat) (r : Gej) :
    (List.range count).reverse.foldlM (ecmultPass ts) r = ecmultFrom ts count r := by
  induction count generalizing r with
  | zero => rfl
  | succ i ih =>
    rw [List.range_succ, List.reverse_append, List.reverse_singleton, List.singleton_append, List.foldlM_cons, ecmultFrom]
    exact bind_congr ih

/-- L is the largest length, or 0 without terms. -/
theorem longest_spec (ts : List Term) :
    (longest ts = 0 ∨ ∃ t ∈ ts, t.digits.length = longest ts) ∧ ∀ t ∈ ts, t.digits.length ≤ longest ts := by
  have largest := List.max?_eq_some_iff.1 (List.max?_cons' (x := 0) (xs := ts.map fun t => t.digits.length))
  obtain ⟨attained, bound⟩ := largest
  refine ⟨?_, fun t ht => bound _ (List.mem_cons_of_mem _ (List.mem_map_of_mem ht))⟩
  rcases List.mem_cons.1 attained with zero | h
  · exact .inl zero
  · exact .inr (List.mem_map.1 h)

theorem exists_length_eq_longest {ts : List Term} (h : ts ≠ []) : ∃ t ∈ ts, t.digits.length = longest ts := by
  obtain ⟨attained, bound⟩ := longest_spec ts
  rcases attained with zero | attained
  · obtain ⟨t, ht⟩ := List.exists_mem_of_ne_nil ts h
    exact ⟨t, ht, Nat.le_antisymm (bound t ht) (zero ▸ Nat.zero_le _)⟩
  · exact attained

/-! ## The terms (R266) -/

theorem pointTerms_none {A : Gej} {na : Nat} (h : A.inf = true ∨ na = 0) : pointTerms A na = .ok [] := by
  rw [pointTerms_eq, if_pos (by simpa using h)]

theorem pointTerms_some {A : Gej} {na : Nat} (hA : A.inf = false) (hn : na ≠ 0) (h8 : A.Within8) :
    pointTerms A na = terms ⟨feNorm A.x, feNorm A.y, feNorm A.z, false⟩ na := by
  rw [pointTerms_eq, if_neg (by simp [hA, hn]), chk8_three h8.x h8.y h8.z, chk_ok_bind]

theorem generatorTerms_none {ng : Option Nat} (h : ng = none ∨ ng = some 0) : generatorTerms ng = .ok [] := by
  rcases h with rfl | rfl <;> rfl

theorem generatorTerms_some {g : Nat} (h : g ≠ 0) : generatorTerms (some g) =
    terms ⟨⟨canon Const.gx, 1, true⟩, ⟨canon Const.gy, 1, true⟩, ⟨canon 1, 1, true⟩, false⟩ g :=
  if_neg h

theorem ecmult_of_terms {A : Gej} {na : Nat} {ng : Option Nat} {ta tg : List Term} (ha : pointTerms A na = .ok ta)
    (hg : generatorTerms ng = .ok tg) : ecmult A na ng = ecmultLoop (ta ++ tg) := by
  rw [ecmult_eq, ha, chk_ok_bind, hg, chk_ok_bind]

theorem ecmult_of_point {A : Gej} {na : Nat} {ng : Option Nat} {ta : List Term} (ha : pointTerms A na = .ok ta)
    (hg : ng = none ∨ ng = some 0) : ecmult A na ng = ecmultLoop ta := by
  rw [ecmult_of_terms ha (generatorTerms_none hg), List.append_nil]

/-! ## The command -/

section
variable {s : State} {rd ra rb : RegNum} {imm : Imm} {A : Gej} {na : ScalarWord} {ng : Option Nat}

/-- The generator scalar that a legal immediate names is absent, or that of a valid register. -/
abbrev NamesGenerator (s : State) (imm : Imm) (ng : Option Nat) : Prop :=
  imm = 0 ∧ ng = none ∨ ∃ (g : RegNum) (v : ScalarWord), imm.toNat = 16 + g.toNat ∧ s.HoldsS g v ∧ ng = some v.toNat

theorem ng_check (h : NamesGenerator s imm ng) : (ImmKind.ng.check imm).isNone = true := by
  rw [isNone_check]
  rcases h with ⟨rfl, -⟩ | ⟨g, v, hg, -⟩
  · rfl
  · have := g.isLt
    simp only [ImmKind.legal, Bool.or_eq_true, Bool.and_eq_true, decide_eq_true_eq]
    omega

theorem readGenerator_ok (h : NamesGenerator s imm ng) : readGenerator imm s = .ok ng := by
  rcases h with ⟨rfl, rfl⟩ | ⟨g, v, hg, hv, rfl⟩
  · rfl
  · have named : generatorReg imm = some g := by
      have := g.isLt
      have present : imm.getLsbD 4 = true := by
        rw [BitVec.getLsbD, Nat.testBit_eq_decide_div_mod_eq, hg, decide_eq_true_eq]
        omega
      have number : imm.setWidth 4 = g := by
        apply BitVec.eq_of_toNat_eq
        rw [BitVec.toNat_setWidth, hg]
        omega
      rw [generatorReg, if_pos present, number]
    rw [readGenerator, named]
    exact congrArg (· >>= _) (readS_ok hv)

theorem exec_ecmult (hA : s.HoldsJ ra A) (hna : s.HoldsS rb na) (hng : NamesGenerator s imm ng) :
    exec (.ecmult rd ra rb imm) s = runWord (encode (.ecmult rd ra rb imm)) s
      (ecmult A na.toNat ng >>= fun R => .ok (writeJ rd R s)) := by
  refine exec_of_work (ng_check hng) (readJ_bind hA (readS_bind hna ?_))
  simp only [plain_check, readGenerator_ok hng, chk_ok_bind]
  rfl

end

end Sys2Proof.Machine

namespace Sys2Proof.Machine.VariableBase

/-- Settles O54: once the operands are read the command is the loop's result or its one fault; each further clause is the lemma
about the helper it speaks of. It stands in a namespace of its own, because `Machine.ecmult` is that helper. -/
theorem ecmult : Obligations.Ecmult := by
  refine ⟨fun s rd ra rb imm A na ng hs hA hna hng => ⟨fun h => ?answer, fun h noScalar => ?noTerm, fun hf hn h => ?fault⟩,
    fun k hk => ?halves, fun B k h8 => ?terms, fun B h8 => ?oddTab, fun T hT => ?lamTab,
    fun r D i hD => ecmultPass_of_dbl [] i hD, fun ts t r R i hR => ?pass,
    fun i j r P t => ⟨addTerm_zero r, addTerm_positive r, fun h hP _ => addTerm_negative r h hP⟩,
    fun ts => ⟨foldlM_ecmultPass ts _ _, (longest_spec ts).2, exists_length_eq_longest⟩,
    fun A na g ta tg hg htg => ⟨fun h => ?generator, fun hf hn h8 hta => ?point⟩⟩
  case answer =>
    obtain ⟨R, hR, -⟩ := ecmult_spec A na.toNat ng fun hf hn => by
      obtain ⟨hx, hy, hz⟩ := (h.resolve_left (by simp [hf])).resolve_left fun zero => hn (congrArg BitVec.toNat zero)
      exact ⟨hx, hy, hz⟩
    refine ⟨R, hR, ?_⟩
    rw [exec_ecmult hA hna hng, hR]
    exact runWord_ok _ hs
  case noTerm =>
    have result := ecmult_of_point (pointTerms_none (h.imp_right (congrArg BitVec.toNat))) noScalar
    rw [exec_ecmult hA hna hng, result]
    exact runWord_ok _ hs
  case fault =>
    rw [exec_ecmult hA hna hng, ecmult_error ng hf (by bv_omega) (big_of_not_within8 h)]
    exact runWord_error _ hs
  case halves =>
    obtain ⟨h1, h2⟩ := splitLambda_lt k
    refine ⟨lowHalf_le h1, lowHalf_le h2, ?_⟩
    rw [cast_signed_lowHalf h1, cast_signed_lowHalf h2]
    exact cast_splitLambda k
  case terms =>
    obtain ⟨-, T, -, hT, -, -, within, -⟩ := oddTab_steps h8
    obtain ⟨LT, hLT, -⟩ := lamTab_isTwin fun P hP => (within P hP).x
    exact ⟨T, LT, hT, hLT, terms_eq_ok k hT hLT⟩
  case oddTab =>
    obtain ⟨D, T, hD, hT, length, first, -, steps⟩ := oddTab_steps h8
    exact ⟨D, T, hD, hT, length, first, steps⟩
  case lamTab =>
    obtain ⟨LT, hLT, twins⟩ := lamTab_isTwin fun P hP => (hT P hP).2.x
    refine ⟨LT, hLT, twins.length_eq.symm, fun i P hP => ?_⟩
    obtain ⟨Q, hQ, x, mag, norm, y, z, inf⟩ := getElem?_of_isTwin twins hP
    exact ⟨Q, hQ, x (hT P (List.mem_of_getElem? hP)).1.x, mag, norm, y, z, inf⟩
  case pass =>
    rw [ecmultPass_append, hR, chk_ok_bind, List.foldlM_cons]
    exact bind_pure _
  case generator => exact ecmult_of_terms (pointTerms_none h) ((generatorTerms_some hg).trans htg)
  case point =>
    have ha := (pointTerms_some hf hn h8).trans hta
    exact ⟨ecmult_of_point ha (.inl rfl), ecmult_of_point ha (.inr rfl),
      ecmult_of_terms ha ((generatorTerms_some hg).trans htg)⟩

end Sys2Proof.Machine.VariableBase
end

section
/-! SUPPORT. The exception family (`spec/60_exceptions.md`). The cause of a command's work is the chain of the causes of the
checks it makes, in their order; the fault table (R282, R283) is the same chain, so the two agree command by command. In the
fault state commands are ignored (R285). -/

namespace Sys2Proof.Machine

/-! ## The cause of a computation -/

/-- The cause a computation faults with; none when it answers. -/
def causeOf {α : Type} (x : Chk α) : Option Cause :=
  match x with
  | .ok _ => none
  | .error c => some c

/-- The cause `c` when its condition `b` holds. -/
def causeIf (b : Bool) (c : Cause) : Option Cause := if b then some c else none

section
variable {b : Bool} {c : Cause}

theorem causeIf_false : causeIf false c = none := rfl

/-- A condition that comes before others. -/
theorem causeIf_or_eq_ite (o : Option Cause) : (causeIf b c).or o = if b then some c else o := by
  cases b <;> rfl

/-- Two conditions with one cause. -/
theorem causeIf_or {b' : Bool} : causeIf (b || b') c = (causeIf b c).or (causeIf b' c) := by
  cases b <;> rfl

end

section
variable {α β : Type} {x : Chk α} {f : α → Chk β} {o o' : Option Cause} {b : Bool} {c : Cause}

/-- A computation that faults exactly under a condition. -/
theorem causeOf_eq_causeIf (fault : b = true → x = .error c) (answer : ¬b = true → ∃ a, x = .ok a) :
    causeOf x = causeIf b c := by
  by_cases h : b = true
  · rw [fault h, h]; rfl
  · obtain ⟨a, e⟩ := answer h
    rw [e, Bool.eq_false_iff.2 h]; rfl

/-- A sequence whose second cause is the same whatever the first answers: the first cause, else the second. -/
theorem causeOf_bind (hx : causeOf x = o) (hf : ∀ a, causeOf (f a) = o') : causeOf (x >>= f) = o.or o' := by
  subst hx
  cases x with
  | ok a => exact hf a
  | error c => rfl

/-- A sequence whose second computation does not fault. -/
theorem causeOf_bind_answers (hx : causeOf x = o) (hf : ∀ a, causeOf (f a) = none) : causeOf (x >>= f) = o :=
  (causeOf_bind hx hf).trans Option.or_none

end

/-! ## Operands (column "UO on" of R282) -/

section
variable {α β : Type} {file : RegFile α} {r : RegNum} {f : α → Chk β} {o : Option Cause}

theorem causeOf_read : causeOf (file.read r) = causeIf (!(file.get r).valid) .uninitOperand := by
  unfold RegFile.read
  cases (file.get r).valid <;> rfl

/-- What follows a read may depend on the contents read. -/
theorem causeOf_read_bind (hf : causeOf (f (file.get r).val) = o) :
    causeOf (file.read r >>= f) = (causeIf (!(file.get r).valid) .uninitOperand).or o := by
  unfold RegFile.read
  cases (file.get r).valid
  · rfl
  · exact hf

end

section
variable {s : State} {imm : Imm}

theorem causeOf_memRead_slot (k : Nat) (s : State) :
    causeOf (memRead (32 * k) 32 s) = causeIf (!slotValid k s) .uninitOperand := by
  rw [memRead_slot]
  cases slotValid k s <;> rfl

theorem causeOf_loadSlot : causeOf (loadSlot imm s) = causeIf (!slotValid imm.toNat s) .uninitOperand :=
  causeOf_bind_answers (causeOf_memRead_slot _ s) fun _ => rfl

theorem causeOf_loadPair : causeOf (loadPair imm s) =
    (causeIf (!slotValid imm.toNat s) .uninitOperand).or (causeIf (!slotValid (imm.toNat + 1) s) .uninitOperand) :=
  causeOf_bind (causeOf_memRead_slot _ s) fun _ => causeOf_bind_answers (causeOf_memRead_slot (imm.toNat + 1) s) fun _ => rfl

/-- The generator scalar's register, when the immediate names one. -/
theorem causeOf_readGenerator : causeOf (readGenerator imm s) =
    causeIf (((generatorReg imm).toList.map (RegKind.s, ·)).any fun kr => !s.regValid kr) .uninitOperand := by
  unfold readGenerator
  cases generatorReg imm with
  | none => rfl
  | some r =>
    rw [Option.toList_some, List.map_singleton, List.any_cons, List.any_nil, Bool.or_false]
    exact causeOf_bind_answers causeOf_read fun _ => rfl

end

/-! ## Checks and helpers (columns "NN" and "MAG" of R282): each faults exactly when its own check fails (R201) -/

theorem causeOf_require (b : Bool) (c : Cause) : causeOf (require b c) = causeIf (!b) c := by cases b <;> rfl

theorem causeOf_require_not (b : Bool) (c : Cause) : causeOf (require (!b) c) = causeIf b c := by cases b <;> rfl

theorem causeOf_requireNorm (a : Fe) : causeOf (requireNorm a) = causeIf (!a.norm) .feNotNormalized := causeOf_require _ _

section
variable {a b : Fe}

theorem causeOf_chk8_one : causeOf (chk8 [a]) = causeIf (decide (8 < a.mag)) .feMagnitude :=
  causeOf_eq_causeIf (fun h => chk8_one_error (of_decide_eq_true h)) fun h => ⟨_, chk8_one (by simpa using h)⟩

theorem causeOf_feAdd : causeOf (feAdd a b) = causeIf (decide (32 < a.mag + b.mag)) .feMagnitude :=
  causeOf_eq_causeIf (fun h => feAdd_error (of_decide_eq_true h)) fun h => ⟨_, feAdd_ok (by simpa using h)⟩

theorem causeOf_feMul : causeOf (feMul a b) = causeIf (decide (8 < a.mag) || decide (8 < b.mag)) .feMagnitude := by
  refine causeOf_eq_causeIf (fun h => feMul_error (by simpa using h)) fun h => ?_
  simp only [Bool.or_eq_true, decide_eq_true_eq, not_or, Nat.not_lt] at h
  exact ⟨_, feMul_ok h.1 h.2⟩

theorem causeOf_feSqr : causeOf (feSqr a) = causeIf (decide (8 < a.mag)) .feMagnitude :=
  causeOf_eq_causeIf (fun h => feSqr_error (of_decide_eq_true h)) fun h => ⟨_, feSqr_ok (by simpa using h)⟩

/-- The immediate of FE_NEG is within NEG's bound, so only the magnitude is left to check (R125). -/
theorem m_le {imm : Imm} (h : (ImmKind.m.check imm).isNone = true) : imm.toNat ≤ 31 :=
  of_decide_eq_true (legal_of_check h)

theorem causeOf_feNeg {m : Nat} (hm : m ≤ 31) : causeOf (feNeg a m) = causeIf (decide (m < a.mag)) .feMagnitude :=
  causeOf_eq_causeIf (fun h => feNeg_error (of_decide_eq_true h)) fun h => ⟨_, feNeg_ok (by simpa using h) hm⟩

theorem causeOf_invCt (x M : Nat) : causeOf (plain.invCt x M) = none := congrArg causeOf (plain_invCt x M)

theorem causeOf_invVar (x M : Nat) : causeOf (plain.invVar x M) = none := congrArg causeOf (plain_invVar x M)

theorem causeOf_feMul_const (v : Nat) : causeOf (feMul a (feConst v)) = causeIf (decide (8 < a.mag)) .feMagnitude := by
  rw [causeOf_feMul, feConst_mag, decide_eq_false (by decide : ¬8 < 1), Bool.or_false]

end

section
variable {P Q : Gej} {A : Ge}

theorem causeOf_negA : causeOf (negA A) = causeIf (decide (31 < A.y.mag)) .feMagnitude :=
  causeOf_eq_causeIf (fun h => negA_error (of_decide_eq_true h)) fun h => ⟨_, negA_eq_ok (by simpa using h)⟩

theorem causeOf_negJ : causeOf (negJ P) = causeIf (decide (31 < P.y.mag)) .feMagnitude :=
  causeOf_eq_causeIf (fun h => negJ_error (of_decide_eq_true h)) fun h => ⟨_, negJ_eq_ok (by simpa using h)⟩

theorem causeOf_gejDbl : causeOf (gejDbl P) = causeIf P.big .feMagnitude := by
  refine causeOf_eq_causeIf gejDbl_error fun h => ?_
  obtain ⟨R, e, -⟩ := gejDbl_fits (within8_of_not_big h)
  exact ⟨R, e⟩

theorem causeOf_toAff (inv : Nat → Nat → Nat) : causeOf (toAff P inv) = causeIf P.big .feMagnitude := by
  refine causeOf_eq_causeIf toAff_error fun h => ?_
  obtain ⟨hx, hy, hz⟩ := within8_of_not_big h
  obtain ⟨R, e, -⟩ := toAff_spec (inv := inv) hx hy hz
  exact ⟨R, e⟩

theorem causeOf_toAff_invCt : causeOf (plain.toAff P plain.invCt) = causeIf P.big .feMagnitude := by
  rw [plain_toAff_invCt, causeOf_toAff]

theorem causeOf_toAff_invVar : causeOf (plain.toAff P plain.invVar) = causeIf P.big .feMagnitude := by
  rw [plain_toAff_invVar, causeOf_toAff]

theorem causeOf_gejAddGe : causeOf (gejAddGe P A) = causeIf (P.big || A.big) .feMagnitude := by
  refine causeOf_eq_causeIf gejAddGe_error fun h => ?_
  rw [Bool.or_eq_true, not_or] at h
  obtain ⟨px, py, pz⟩ := within8_of_not_big h.1
  obtain ⟨ax, ay⟩ := ge_within8_of_not_big h.2
  obtain ⟨R, e, -⟩ := gejAddGe_spec px py pz ax ay
  exact ⟨R, e⟩

/-- The variable-time operations look at the magnitudes only when both operands are finite (R198, R199, R226). -/
theorem finite_and_eq_true_iff {p q r : Bool} : (!p && !q && r) = true ↔ p = false ∧ q = false ∧ r = true := by
  simp only [Bool.and_eq_true, Bool.not_eq_true', and_assoc]

theorem magnitudes_of_check (h : ¬(!P.inf && !Q.inf && (P.big || Q.big)) = true) (hP : P.inf = false) (hQ : Q.inf = false) :
    P.x.mag ≤ 8 ∧ P.y.mag ≤ 8 ∧ P.z.mag ≤ 8 ∧ Q.x.mag ≤ 8 ∧ Q.y.mag ≤ 8 ∧ Q.z.mag ≤ 8 := by
  rw [hP, hQ, Bool.not_false, Bool.and_self, Bool.true_and, Bool.or_eq_true, not_or] at h
  obtain ⟨px, py, pz⟩ := within8_of_not_big h.1
  obtain ⟨qx, qy, qz⟩ := within8_of_not_big h.2
  exact ⟨px, py, pz, qx, qy, qz⟩

theorem magnitudes_of_check_mixed (h : ¬(!P.inf && !A.inf && (P.big || A.big)) = true) (hP : P.inf = false)
    (hA : A.inf = false) : P.x.mag ≤ 8 ∧ P.y.mag ≤ 8 ∧ P.z.mag ≤ 8 ∧ A.x.mag ≤ 8 ∧ A.y.mag ≤ 8 := by
  rw [hP, hA, Bool.not_false, Bool.and_self, Bool.true_and, Bool.or_eq_true, not_or] at h
  obtain ⟨px, py, pz⟩ := within8_of_not_big h.1
  obtain ⟨ax, ay⟩ := ge_within8_of_not_big h.2
  exact ⟨px, py, pz, ax, ay⟩

theorem causeOf_gejAddGeVar :
    causeOf (gejAddGeVar P A) = causeIf (!P.inf && !A.inf && (P.big || A.big)) .feMagnitude := by
  refine causeOf_eq_causeIf (fun h => ?_) fun h => ?_
  · obtain ⟨hP, hA, big⟩ := finite_and_eq_true_iff.1 h
    exact gejAddGeVar_error hP hA big
  · obtain ⟨R, e, -⟩ := gejAddGeVar_spec (magnitudes_of_check_mixed h)
    exact ⟨R, e⟩

theorem causeOf_gejAddVar :
    causeOf (gejAddVar P Q) = causeIf (!P.inf && !Q.inf && (P.big || Q.big)) .feMagnitude := by
  refine causeOf_eq_causeIf (fun h => ?_) fun h => ?_
  · obtain ⟨hP, hQ, big⟩ := finite_and_eq_true_iff.1 h
    exact gejAddVar_error hP hQ big
  · obtain ⟨R, e, -⟩ := gejAddVar_spec (magnitudes_of_check h)
    exact ⟨R, e⟩

theorem causeOf_gejEq : causeOf (gejEq P Q) = causeIf (!P.inf && !Q.inf && (P.big || Q.big)) .feMagnitude := by
  refine causeOf_eq_causeIf (fun h => ?_) fun h => gejEq_spec (magnitudes_of_check h)
  obtain ⟨hP, hQ, big⟩ := finite_and_eq_true_iff.1 h
  exact gejEq_error hP hQ big

end

/-! ## The multipliers -/

/-- ECMULT checks the point only when it contributes a term (R266). -/
theorem causeOf_ecmult (A : Gej) (na : ScalarWord) (ng : Option Nat) :
    causeOf (ecmult A na.toNat ng) = causeIf (!A.inf && na != 0 && A.big) .feMagnitude := by
  refine causeOf_eq_causeIf (fun h => ?_) fun h => ?_
  · simp only [Bool.and_eq_true, Bool.not_eq_true', bne_iff_ne] at h
    obtain ⟨⟨hA, hn⟩, big⟩ := h
    exact ecmult_error ng hA (by bv_omega) big
  · obtain ⟨R, e, -⟩ := ecmult_spec A na.toNat ng fun hA hn => by
      have small : ¬A.big = true := fun big => h (by
        have nonzero : na ≠ 0#256 := fun zero => hn (congrArg BitVec.toNat zero)
        simp [hA, big, nonzero])
      obtain ⟨hx, hy, hz⟩ := within8_of_not_big small
      exact ⟨hx, hy, hz⟩
    exact ⟨R, e⟩

section
variable {s : State} (h8 : s.ctx.geOffset.Within8)
include h8

/-- An offset point within CHK8's bound keeps COMBMUL, and TOAFF of its result, from faulting (R245). -/
theorem causeOf_combMul (k : Nat) : causeOf (combMul k s.ctx) = none := by
  obtain ⟨R, e, -⟩ := combMul_spec k h8.x h8.y
  rw [e]
  rfl

/-- The blinding of CTX_BLIND: its point and the affine form of it (R247). -/
theorem causeOf_blinding (k : Nat) {f : Ge → Chk State} (hf : ∀ A, causeOf (f A) = none) :
    causeOf (combMul k s.ctx >>= fun gb => plain.toAff gb plain.invCt >>= f) = none := by
  obtain ⟨gb, egb, mx, my, mz, -⟩ := combMul_spec k h8.x h8.y
  obtain ⟨A, eA, -⟩ := toAff_spec (P := gb) (inv := invCt) (mx ▸ max_le (by decide) h8.x) (my ▸ max_le (by decide) h8.y)
    (mz ▸ by decide)
  rw [egb, chk_ok_bind, plain_toAff_invCt, eA]
  exact hf A

end

/-! ## The fault table (R282, R283) -/

/-- The order of R283 for a well-formed command, as the chain of its conditions. -/
theorem faultOf_of_wf {i : Instr} (hw : i.wf = true) (s : State) : faultOf i s =
    (causeIf ((demands s i).context && !s.ctx.built) .ctxNotBuilt).or
    ((causeIf (((demands s i).regs.any fun kr => !s.regValid kr) || (demands s i).slots.any fun k => !slotValid k s)
      .uninitOperand).or
    ((causeIf (demands s i).unnormalized .feNotNormalized).or
    ((causeIf (demands s i).magnitude .feMagnitude).or (causeIf (demands s i).infinity .pointAtInfinity)))) := by
  simp only [causeIf_or_eq_ite, faultOf, hw, Bool.true_eq_false, if_false]
  rfl

/-- Outside the fault state a well-formed command's work makes exactly the checks of its row of the table, in the table's order:
operands by their reads, then the row's other columns by the helper that has them as its check. -/
theorem causeOf_body {i : Instr} {s : State} (hw : i.wf = true) (h8 : s.ctx.geOffset.Within8) :
    causeOf (body plain i s) = faultOf i s := by
  rw [faultOf_of_wf hw]
  cases i
  -- The row as the chain of its conditions, one for each operand and each column it has.
  all_goals
    simp only [demands, List.any_cons, List.any_nil, List.any_append, State.regValid, causeIf_or, causeIf_false,
      Option.or_assoc, Option.none_or, Option.or_none, Bool.or_false, Bool.false_and, Bool.true_and]
  case nop | ctxBuild | ctxClear | feSetint | scSetint | geSetinf | geSetg | gejSetinf => rfl
  case ctxBlind =>
    exact causeOf_bind (causeOf_require _ _) fun _ => causeOf_bind_answers causeOf_loadSlot fun v =>
      causeOf_blinding h8 (blindScalar v) fun _ => rfl
  case feSetb32 | scSetb32 => exact causeOf_bind_answers causeOf_loadSlot fun _ => rfl
  case geFromstor => exact causeOf_bind_answers causeOf_loadPair fun _ => rfl
  case feMov | feNorm | scGetb32 | scMov | scSqr | scNeg | scCneg | scIszero | scIshigh | scSplitlambda | scSplit128 | geGetx |
      geGety | geIsinf | geMov | gejSetge | gejIsinf | gejMov | gejGetc =>
    exact causeOf_bind_answers causeOf_read fun _ => rfl
  case scInv => exact causeOf_bind_answers causeOf_read fun _ => causeOf_bind_answers (causeOf_invCt _ _) fun _ => rfl
  case scInvvar => exact causeOf_bind_answers causeOf_read fun _ => causeOf_bind_answers (causeOf_invVar _ _) fun _ => rfl
  case feCmov | scAdd | scMul | scCmov | scEq | scMulshift | geSetxy | geEq =>
    exact causeOf_read_bind (causeOf_bind_answers causeOf_read fun _ => rfl)
  case feGetb32 | feIszero | feIsodd => exact causeOf_read_bind (causeOf_bind_answers (causeOf_requireNorm _) fun _ => rfl)
  case feEq | feCmp =>
    exact causeOf_read_bind (causeOf_read_bind (causeOf_bind (causeOf_requireNorm _) fun _ =>
      causeOf_bind_answers (causeOf_requireNorm _) fun _ => rfl))
  case feAdd => exact causeOf_read_bind (causeOf_read_bind (causeOf_bind_answers causeOf_feAdd fun _ => rfl))
  case feMul =>
    rw [← causeIf_or]
    exact causeOf_read_bind (causeOf_read_bind (causeOf_bind_answers causeOf_feMul fun _ => rfl))
  case feSqr => exact causeOf_read_bind (causeOf_bind_answers causeOf_feSqr fun _ => rfl)
  case feNeg => exact causeOf_read_bind (causeOf_bind_answers (causeOf_feNeg (m_le hw)) fun _ => rfl)
  case feInv =>
    exact causeOf_read_bind (causeOf_bind_answers causeOf_chk8_one fun _ =>
      causeOf_bind_answers (causeOf_invCt _ _) fun _ => rfl)
  case feInvvar =>
    exact causeOf_read_bind (causeOf_bind_answers causeOf_chk8_one fun _ =>
      causeOf_bind_answers (causeOf_invVar _ _) fun _ => rfl)
  case geNeg => exact causeOf_read_bind (causeOf_bind_answers causeOf_negA fun _ => rfl)
  case geMullambda =>
    -- The multiplication's own check is the one already made.
    rw [← Option.or_self (o := causeIf (decide (8 < _)) .feMagnitude)]
    exact causeOf_read_bind (causeOf_bind causeOf_chk8_one fun _ => causeOf_bind_answers (causeOf_feMul_const _) fun _ => rfl)
  case geTostor => exact causeOf_read_bind (causeOf_bind_answers (causeOf_require_not _ _) fun _ => rfl)
  case geSetgej => exact causeOf_read_bind (causeOf_bind_answers causeOf_toAff_invCt fun _ => rfl)
  case geSetgejvar => exact causeOf_read_bind (causeOf_bind_answers causeOf_toAff_invVar fun _ => rfl)
  case gejNeg => exact causeOf_read_bind (causeOf_bind_answers causeOf_negJ fun _ => rfl)
  case gejDbl => exact causeOf_read_bind (causeOf_bind_answers causeOf_gejDbl fun _ => rfl)
  case gejAddge =>
    rw [← causeIf_or]
    exact causeOf_read_bind (causeOf_read_bind (causeOf_bind_answers causeOf_gejAddGe fun _ => rfl))
  case gejAddgevar => exact causeOf_read_bind (causeOf_read_bind (causeOf_bind_answers causeOf_gejAddGeVar fun _ => rfl))
  case gejAddvar => exact causeOf_read_bind (causeOf_read_bind (causeOf_bind_answers causeOf_gejAddVar fun _ => rfl))
  case gejEq => exact causeOf_read_bind (causeOf_read_bind (causeOf_bind_answers causeOf_gejEq fun _ => rfl))
  case ecmultGen =>
    exact causeOf_bind (causeOf_require _ _) fun _ => causeOf_bind_answers causeOf_read fun k =>
      causeOf_bind_answers (causeOf_combMul h8 k.toNat) fun _ => rfl
  case ecmult =>
    exact causeOf_read_bind (causeOf_read_bind (causeOf_bind causeOf_readGenerator fun ng =>
      causeOf_bind_answers (causeOf_ecmult _ _ ng) fun _ => rfl))

/-- Settles O10: a fault of a command is the cause of its work, which `causeOf_body` reads off the table; a command that completes
changes neither FAULT nor CMDCNT in its work. -/
theorem faultTable : Obligations.FaultTable := by
  intro i s hs h8
  cases hw : i.wf with
  | false =>
    have illegal : faultOf i s = some .illegalCmd := if_pos hw
    rw [illegal]
    refine ⟨fun c h => ?_, fun h => nomatch h⟩
    cases h
    exact (exec_eq_body i s).trans (command_malformed hs hw)
  | true =>
    rw [← causeOf_body hw h8]
    cases work : body plain i s with
    | ok u =>
      have confined := body_confined i s hw u work
      exact ⟨fun c h => (nomatch h), fun _ => ⟨retire u, (exec_eq_body i s).trans (command_ok hs hw work),
        confined.fault.trans hs, congrArg (· + 1) confined.cmdcnt⟩⟩
    | error c =>
      refine ⟨fun c' h => ?_, fun h => nomatch h⟩
      cases h
      exact (exec_eq_body i s).trans (command_error hs hw work)

/-! ## The fault state (R285, R286) -/

/-- In the fault state a command word is ignored, also one that does not decode. -/
theorem hostCmd_of_fault (w : Word) {s : State} (hf : s.fault = true) : hostCmd w s = .next s := by
  unfold hostCmd
  split
  · exact exec_of_fault _ hf
  · exact runWord_fault_state _ hf

theorem step_reset {s : State} {rest : List HostOp} (hi : s.inbox = .reset :: rest) :
    step s = .next (resetBlock { s with inbox := rest, reply := .none }) := by
  simp only [step, nextOp, hi, hostReset]

/-- Settles O5: a step performs the operation on the state without it; only H_CMD looks at FAULT. -/
theorem faultStateIgnoresCommands : Obligations.FaultStateIgnoresCommands := by
  intro s rest hf hb
  refine ⟨fun w hi => ?command, fun i hi => step_rdCsr hi, fun k hi hk hv => ?read, fun k hi hk hv => ?readInvalid,
    fun k b hi hk => ?write, fun hi => ⟨_, step_reset hi, rfl⟩⟩
  case command => exact (step_cmd hi hb).trans (hostCmd_of_fault w hf)
  case read => exact (step_rdSlot hi hb).trans (hostRdSlot_of_valid hk hv)
  case readInvalid => rw [step_rdSlot hi hb]; exact hostRdSlot_of_invalid hk hv
  case write => exact (step_wrSlot hi hb).trans (hostWrSlot_of_lt b _ hk)

end Sys2Proof.Machine
end

section
/-! SUPPORT. The reset and hazard family (`spec/70_reset_and_hazards.md`). H_RESET (R310), and R331: from publicly equal states
every read of the state runs alike and every update leaves publicly equal states; the helpers of the CT commands run alike on
contents with the same tags; so the work of a CT command does, and with it the command. -/

namespace Sys2Proof.Machine

/-- Settles O2: H_RESET is accepted in every state, and `resetBlock` keeps exactly the host's side of the port. -/
theorem hostResetEntersResetState : Obligations.HostResetEntersResetState := fun _ _ hi => step_reset hi

/-! ## Leakage classes (R323) -/

/-- The class of an instruction is that of the row its opcode names. -/
theorem cls_eq_of_row {i : Instr} {opc : Opcode} {rd ra rb : RegNum} {imm : Imm} {row : OpcodeRow}
    (hw : encode i = pack opc rd ra rb imm) (hr : rowOf opc = some row) : i.cls = row.cls := by
  unfold Instr.cls Instr.opcode
  rw [hw, opcOf_pack, hr]

/-- A command whose row says VAR is not CT. -/
theorem not_ct_of_row {i : Instr} {opc : Opcode} {rd ra rb : RegNum} {imm : Imm} {row : OpcodeRow} (hct : i.cls = .ct)
    (hw : encode i = pack opc rd ra rb imm) (hr : rowOf opc = some row) (hv : row.cls = .var) : False :=
  nomatch (hct.symm.trans (cls_eq_of_row hw hr)).trans hv

/-! ## Updates keep public equality -/

section
variable {s t : State}

/-- Register files that agree in valid bits and up to `R` in contents agree so after a write of contents related by `R`. -/
theorem agree_put {α : Type} {R : α → α → Prop} {f g : RegFile α}
    (h : ∀ r, (f.get r).valid = (g.get r).valid ∧ R (f.get r).val (g.get r).val) (rd : RegNum) {v w : α} (hv : R v w)
    (r : RegNum) : ((f.put rd v).get r).valid = ((g.put rd w).get r).valid ∧
      R ((f.put rd v).get r).val ((g.put rd w).get r).val := by
  rw [get_put, get_put]
  split
  · exact ⟨rfl, hv⟩
  · exact h r

theorem publicEq_writeF (h : PublicEq s t) (rd : RegNum) {v w : Fe} (hv : v.SameTags w) :
    PublicEq (writeF rd v s) (writeF rd w t) := { h with fr := agree_put h.fr rd hv }

theorem publicEq_writeS (h : PublicEq s t) (rd : RegNum) (v w : Nat) : PublicEq (writeS rd v s) (writeS rd w t) :=
  { h with sr := fun r => (agree_put (R := fun _ _ => True) (fun q => ⟨h.sr q, trivial⟩) rd trivial r).1 }

theorem publicEq_writeA (h : PublicEq s t) (rd : RegNum) {v w : Ge} (hv : v.SameTags w) :
    PublicEq (writeA rd v s) (writeA rd w t) := { h with ar := agree_put h.ar rd hv }

theorem publicEq_writeJ (h : PublicEq s t) (rd : RegNum) {v w : Gej} (hv : v.SameTags w) :
    PublicEq (writeJ rd v s) (writeJ rd w t) := { h with jr := agree_put h.jr rd hv }

/-- FLAGS are not public: any flags may be written. -/
theorem publicEq_flags (h : PublicEq s t) (f g : Flags) : PublicEq { s with flags := f } { t with flags := g } := { h with }

/-- Bytes are not public, which slots were written is. -/
theorem publicEq_memWrite (h : PublicEq s t) (addr n : Nat) (v w : List Byte) :
    PublicEq (memWrite addr n v s) (memWrite addr n w t) :=
  { h with slots := congrArg ((coveredSlots addr n).foldl setSlotValid) h.slots }

theorem publicEq_context (h : PublicEq s t) {c d : Context} (hb : c.built = d.built)
    (hp : c.geOffset.SameTags d.geOffset) : PublicEq { s with ctx := c } { t with ctx := d } :=
  { h with built := hb, geOffset := hp }

theorem publicEq_retire (h : PublicEq s t) : PublicEq (retire s) (retire t) :=
  { h with cmdcnt := congrArg (· + 1) h.cmdcnt }

theorem publicEq_takeFault (h : PublicEq s t) (c : Cause) (w : Word) : PublicEq (takeFault c w s) (takeFault c w t) :=
  { h with fault := rfl, cause := rfl, finfo := rfl }

/-! ## Reads and checks run alike -/

/-- Two computations with the same cause, or none, end alike. -/
theorem alike_of_causeOf {α β : Type} {x : Chk α} {y : Chk β} (h : causeOf x = causeOf y) :
    Alike (fun _ _ => True) (recorder.check x) (recorder.check y) := by
  refine alike_check ?_
  cases x <;> cases y
  case ok.ok a b => exact .inl ⟨a, b, rfl, rfl, trivial⟩
  case error.error c d => cases h; exact .inr ⟨c, rfl, rfl⟩
  case ok.error => nomatch h
  case error.ok => nomatch h

theorem alike_read {α : Type} {R : α → α → Prop} {f g : RegFile α}
    (h : ∀ r, (f.get r).valid = (g.get r).valid ∧ R (f.get r).val (g.get r).val) (r : RegNum) :
    Alike R (recorder.check (f.read r)) (recorder.check (g.read r)) := by
  refine alike_check ?_
  unfold RegFile.read
  rw [← (h r).1]
  split
  · exact .inl ⟨_, _, rfl, rfl, (h r).2⟩
  · exact .inr ⟨_, rfl, rfl⟩

theorem alike_readF (h : PublicEq s t) (r : RegNum) :
    Alike Fe.SameTags (recorder.check (readF r s)) (recorder.check (readF r t)) := alike_read h.fr r

theorem alike_readS (h : PublicEq s t) (r : RegNum) :
    Alike (fun _ _ => True) (recorder.check (readS r s)) (recorder.check (readS r t)) :=
  alike_read (fun q => ⟨h.sr q, trivial⟩) r

theorem alike_readA (h : PublicEq s t) (r : RegNum) :
    Alike Ge.SameTags (recorder.check (readA r s)) (recorder.check (readA r t)) := alike_read h.ar r

theorem alike_readJ (h : PublicEq s t) (r : RegNum) :
    Alike Gej.SameTags (recorder.check (readJ r s)) (recorder.check (readJ r t)) := alike_read h.jr r

theorem slotValid_eq_of_publicEq (h : PublicEq s t) (k : Nat) : slotValid k s = slotValid k t := by
  unfold slotValid
  rw [h.slots]

theorem alike_loadSlot (h : PublicEq s t) (imm : Imm) :
    Alike (fun _ _ => True) (recorder.check (loadSlot imm s)) (recorder.check (loadSlot imm t)) :=
  alike_of_causeOf (by rw [causeOf_loadSlot, causeOf_loadSlot, slotValid_eq_of_publicEq h])

theorem alike_loadPair (h : PublicEq s t) (imm : Imm) :
    Alike (fun _ _ => True) (recorder.check (loadPair imm s)) (recorder.check (loadPair imm t)) :=
  alike_of_causeOf (by
    rw [causeOf_loadPair, causeOf_loadPair, slotValid_eq_of_publicEq h, slotValid_eq_of_publicEq h])

theorem alike_requireBuilt (h : PublicEq s t) : Alike (fun _ _ => True)
    (recorder.check (require s.ctx.built .ctxNotBuilt)) (recorder.check (require t.ctx.built .ctxNotBuilt)) :=
  alike_of_causeOf (by rw [h.built])

theorem alike_requireNorm {a b : Fe} (h : a.SameTags b) :
    Alike (fun _ _ => True) (recorder.check (requireNorm a)) (recorder.check (requireNorm b)) :=
  alike_of_causeOf (by rw [causeOf_requireNorm, causeOf_requireNorm, h.norm])

end

/-! ## Contents and point helpers -/

/-- A constant's tags do not depend on its value (R111). -/
theorem sameTags_feConst (v w : Nat) : (feConst v).SameTags (feConst w) := ⟨rfl, rfl⟩

section
variable {P Q : Gej} {A B : Ge}

theorem sameTags_coordinate (h : P.SameTags Q) (imm : Imm) : (coordinate imm P).SameTags (coordinate imm Q) := by
  unfold coordinate
  split
  · exact h.x
  · split
    · exact h.y
    · exact h.z

theorem alike_toJac (h : A.SameTags B) :
    Alike Gej.SameTags (@Scribe.toJac Traced tracedMonad recorder.toScribe A)
      (@Scribe.toJac Traced tracedMonad recorder.toScribe B) :=
  alike_bind (alike_cmov (sameTags_refl _) (sameTags_refl _) _ _) fun _ _ hz => alike_pure ⟨h.x, h.y, hz⟩

theorem alike_negJ (h : P.SameTags Q) :
    Alike Gej.SameTags (@Datapath.negJ Traced tracedMonad recorder P) (@Datapath.negJ Traced tracedMonad recorder Q) :=
  alike_bind (alike_negCoordinate h.y _ _) fun _ _ hy => alike_pure ⟨h.x, hy, h.z⟩

theorem alike_negA (h : A.SameTags B) :
    Alike Ge.SameTags (@Datapath.negA Traced tracedMonad recorder A) (@Datapath.negA Traced tracedMonad recorder B) :=
  alike_bind (alike_negCoordinate h.y _ _) fun _ _ hy => alike_pure ⟨h.x, hy⟩

/-- Equality of affine contents makes its four normalizations whatever the inf bits are (R210). -/
theorem alike_geEq (P P' Q Q' : Ge) :
    Alike (fun _ _ => True) (@Scribe.geEq Traced tracedMonad recorder.toScribe P Q)
      (@Scribe.geEq Traced tracedMonad recorder.toScribe P' Q') :=
  alike_bind (alike_norm _ _) fun _ _ _ => alike_bind (alike_norm _ _) fun _ _ _ =>
    alike_bind (alike_norm _ _) fun _ _ _ => alike_bind (alike_norm _ _) fun _ _ _ => alike_pure trivial

end

/-! ## The work of a command -/

section
variable {s t : State}

/-- Results with the same tags may be written to the destination. -/
theorem alike_writeF (h : PublicEq s t) (rd : RegNum) {x y : Traced Fe} (hx : Alike Fe.SameTags x y) :
    Alike PublicEq (x.andThen fun v => @pure Traced tracedMonad.toPure _ (writeF rd v s))
      (y.andThen fun v => @pure Traced tracedMonad.toPure _ (writeF rd v t)) :=
  alike_bind hx fun _ _ hv => alike_pure (publicEq_writeF h rd hv)

theorem alike_writeA (h : PublicEq s t) (rd : RegNum) {x y : Traced Ge} (hx : Alike Ge.SameTags x y) :
    Alike PublicEq (x.andThen fun v => @pure Traced tracedMonad.toPure _ (writeA rd v s))
      (y.andThen fun v => @pure Traced tracedMonad.toPure _ (writeA rd v t)) :=
  alike_bind hx fun _ _ hv => alike_pure (publicEq_writeA h rd hv)

theorem alike_writeJ (h : PublicEq s t) (rd : RegNum) {x y : Traced Gej} (hx : Alike Gej.SameTags x y) :
    Alike PublicEq (x.andThen fun v => @pure Traced tracedMonad.toPure _ (writeJ rd v s))
      (y.andThen fun v => @pure Traced tracedMonad.toPure _ (writeJ rd v t)) :=
  alike_bind hx fun _ _ hv => alike_pure (publicEq_writeJ h rd hv)

/-- A command may end with any flags, in both runs its own. -/
theorem alike_flags (h : PublicEq s t) (f g : Flags) :
    Alike PublicEq (@pure Traced tracedMonad.toPure _ { s with flags := f })
      (@pure Traced tracedMonad.toPure _ { t with flags := g }) := alike_pure (publicEq_flags h f g)

/-- The work of CTX_BLIND: one comb multiplication and one inversion, whatever the blinding value (R247). -/
theorem alike_bodyCtxBlind (h : PublicEq s t) (imm : Imm) :
    Alike PublicEq (@bodyCtxBlind Traced tracedMonad recorder imm s) (@bodyCtxBlind Traced tracedMonad recorder imm t) := by
  refine alike_bind (alike_requireBuilt h) fun _ _ _ => ?_
  refine alike_bind (alike_loadSlot h imm) fun _ _ _ => ?_
  refine alike_bind (alike_combMul _ _ h.geOffset) fun _ _ hgb => ?_
  refine alike_bind (alike_toAff hgb) fun _ _ _ => ?_
  refine alike_bind (alike_norm _ _) fun _ _ hx => ?_
  refine alike_bind (alike_norm _ _) fun _ _ hy => ?_
  exact alike_pure (publicEq_context h h.built ⟨hx, hy⟩)

/-- From publicly equal states the work of a CT command other than GE_TOSTOR runs alike: what it reads is alike, no helper it uses
looks at more than tags, and what it writes has the same tags. -/
theorem alike_body (i : Instr) (hct : i.cls = .ct) (hstor : ∀ ra imm, i ≠ .geTostor ra imm) (h : PublicEq s t) :
    Alike PublicEq (traceOf fun dp => body dp i s) (traceOf fun dp => body dp i t) := by
  have rF := alike_readF h
  have rS := alike_readS h
  have rA := alike_readA h
  have rJ := alike_readJ h
  cases i with
  | nop => exact alike_pure h
  | ctxBuild => exact alike_pure (publicEq_context h rfl ⟨sameTags_refl _, sameTags_refl _⟩)
  | ctxClear => exact alike_pure (publicEq_context h rfl ⟨sameTags_refl _, sameTags_refl _⟩)
  | ctxBlind imm => exact alike_bodyCtxBlind h imm
  | feSetb32 rd imm =>
    exact alike_bind (alike_loadSlot h imm) fun _ _ _ => alike_flags (publicEq_writeF h rd (sameTags_feConst _ _)) _ _
  | feGetb32 ra imm =>
    exact alike_bind (rF ra) fun _ _ ha => alike_bind (alike_requireNorm ha) fun _ _ _ =>
      alike_pure (publicEq_memWrite h _ _ _ _)
  | feSetint rd imm => exact alike_pure (publicEq_writeF h rd (sameTags_refl _))
  | feMov rd ra => exact alike_writeF h rd (rF ra)
  | feNorm rd ra => exact alike_bind (rF ra) fun _ _ _ => alike_writeF h rd (alike_norm _ _)
  | feAdd rd ra rb => exact alike_bind (rF ra) fun _ _ ha => alike_bind (rF rb) fun _ _ hb => alike_writeF h rd (alike_add ha hb)
  | feMul rd ra rb => exact alike_bind (rF ra) fun _ _ ha => alike_bind (rF rb) fun _ _ hb => alike_writeF h rd (alike_mul ha hb)
  | feSqr rd ra => exact alike_bind (rF ra) fun _ _ ha => alike_writeF h rd (alike_sqr ha)
  | feNeg rd ra imm => exact alike_bind (rF ra) fun _ _ ha => alike_writeF h rd (alike_neg ha _)
  | feCmov rd ra imm =>
    exact alike_bind (rF rd) fun _ _ hd => alike_bind (rF ra) fun _ _ ha => alike_writeF h rd (alike_cmov hd ha _ _)
  | feIszero ra =>
    exact alike_bind (rF ra) fun _ _ ha => alike_bind (alike_requireNorm ha) fun _ _ _ => alike_flags h _ _
  | feEq ra rb =>
    exact alike_bind (rF ra) fun _ _ ha => alike_bind (rF rb) fun _ _ hb => alike_bind (alike_requireNorm ha) fun _ _ _ =>
      alike_bind (alike_requireNorm hb) fun _ _ _ => alike_flags h _ _
  | feIsodd ra =>
    exact alike_bind (rF ra) fun _ _ ha => alike_bind (alike_requireNorm ha) fun _ _ _ => alike_flags h _ _
  | feCmp ra rb => exact (not_ct_of_row hct rfl rfl rfl).elim
  | feInv rd ra =>
    exact alike_bind (rF ra) fun _ _ ha => alike_bind (alike_chk8 (.cons ha .nil)) fun _ _ _ =>
      alike_bind (alike_invCt _ _ _) fun _ _ _ => alike_pure (publicEq_writeF h rd (sameTags_feConst _ _))
  | feInvvar rd ra => exact (not_ct_of_row hct rfl rfl rfl).elim
  | scSetb32 rd imm => exact alike_bind (alike_loadSlot h imm) fun _ _ _ => alike_flags (publicEq_writeS h rd _ _) _ _
  | scGetb32 ra imm => exact alike_bind (rS ra) fun _ _ _ => alike_pure (publicEq_memWrite h _ _ _ _)
  | scSetint rd imm => exact alike_pure (publicEq_writeS h rd _ _)
  | scMov rd ra => exact alike_bind (rS ra) fun _ _ _ => alike_pure (publicEq_writeS h rd _ _)
  | scAdd rd ra rb =>
    exact alike_bind (rS ra) fun _ _ _ => alike_bind (rS rb) fun _ _ _ => alike_flags (publicEq_writeS h rd _ _) _ _
  | scMul rd ra rb =>
    exact alike_bind (rS ra) fun _ _ _ => alike_bind (rS rb) fun _ _ _ => alike_pure (publicEq_writeS h rd _ _)
  | scSqr rd ra => exact alike_bind (rS ra) fun _ _ _ => alike_pure (publicEq_writeS h rd _ _)
  | scNeg rd ra => exact alike_bind (rS ra) fun _ _ _ => alike_pure (publicEq_writeS h rd _ _)
  | scCneg rd ra imm => exact alike_bind (rS ra) fun _ _ _ => alike_flags (publicEq_writeS h rd _ _) _ _
  | scCmov rd ra imm =>
    exact alike_bind (rS rd) fun _ _ _ => alike_bind (rS ra) fun _ _ _ => alike_pure (publicEq_writeS h rd _ _)
  | scIszero ra => exact alike_bind (rS ra) fun _ _ _ => alike_flags h _ _
  | scEq ra rb => exact alike_bind (rS ra) fun _ _ _ => alike_bind (rS rb) fun _ _ _ => alike_flags h _ _
  | scIshigh ra => exact alike_bind (rS ra) fun _ _ _ => alike_flags h _ _
  | scInv rd ra =>
    exact alike_bind (rS ra) fun _ _ _ => alike_bind (alike_invCt _ _ _) fun _ _ _ => alike_pure (publicEq_writeS h rd _ _)
  | scInvvar rd ra => exact (not_ct_of_row hct rfl rfl rfl).elim
  | scMulshift rd ra rb imm =>
    exact alike_bind (rS ra) fun _ _ _ => alike_bind (rS rb) fun _ _ _ => alike_pure (publicEq_writeS h rd _ _)
  | scSplitlambda rd ra rb =>
    exact alike_bind (rS ra) fun _ _ _ => alike_pure (publicEq_writeS (publicEq_writeS h rd _ _) rb _ _)
  | scSplit128 rd ra rb =>
    exact alike_bind (rS ra) fun _ _ _ => alike_pure (publicEq_writeS (publicEq_writeS h rd _ _) rb _ _)
  | geSetxy rd ra rb =>
    exact alike_bind (rF ra) fun _ _ hx => alike_bind (rF rb) fun _ _ hy => alike_pure (publicEq_writeA h rd ⟨hx, hy⟩)
  | geGetx rd ra => exact alike_bind (rA ra) fun _ _ hP => alike_pure (publicEq_writeF h rd hP.x)
  | geGety rd ra => exact alike_bind (rA ra) fun _ _ hP => alike_pure (publicEq_writeF h rd hP.y)
  | geSetinf rd => exact alike_pure (publicEq_writeA h rd ⟨sameTags_refl _, sameTags_refl _⟩)
  | geIsinf ra => exact alike_bind (rA ra) fun _ _ _ => alike_flags h _ _
  | geMov rd ra => exact alike_writeA h rd (rA ra)
  | geNeg rd ra => exact alike_bind (rA ra) fun _ _ hP => alike_writeA h rd (alike_negA hP)
  | geEq ra rb =>
    exact alike_bind (rA ra) fun _ _ _ => alike_bind (rA rb) fun _ _ _ => alike_bind (alike_geEq _ _ _ _) fun _ _ _ =>
      alike_flags h _ _
  | geMullambda rd ra =>
    exact alike_bind (rA ra) fun _ _ hP => alike_bind (alike_chk8 (.cons hP.x .nil)) fun _ _ _ =>
      alike_bind (alike_mul hP.x (sameTags_refl _)) fun _ _ hx => alike_pure (publicEq_writeA h rd ⟨hx, hP.y⟩)
  | geTostor ra imm => exact absurd rfl (hstor ra imm)
  | geFromstor rd imm =>
    exact alike_bind (alike_loadPair h imm) fun _ _ _ =>
      alike_flags (publicEq_writeA h rd ⟨sameTags_feConst _ _, sameTags_feConst _ _⟩) _ _
  | geSetgej rd ra => exact alike_bind (rJ ra) fun _ _ hP => alike_writeA h rd (alike_toAff hP)
  | geSetgejvar rd ra => exact (not_ct_of_row hct rfl rfl rfl).elim
  | geSetg rd => exact alike_pure (publicEq_writeA h rd ⟨sameTags_refl _, sameTags_refl _⟩)
  | gejSetge rd ra => exact alike_bind (rA ra) fun _ _ hP => alike_writeJ h rd (alike_toJac hP)
  | gejSetinf rd => exact alike_pure (publicEq_writeJ h rd ⟨sameTags_refl _, sameTags_refl _, sameTags_refl _⟩)
  | gejIsinf ra => exact alike_bind (rJ ra) fun _ _ _ => alike_flags h _ _
  | gejMov rd ra => exact alike_writeJ h rd (rJ ra)
  | gejNeg rd ra => exact alike_bind (rJ ra) fun _ _ hP => alike_writeJ h rd (alike_negJ hP)
  | gejDbl rd ra => exact alike_bind (rJ ra) fun _ _ hP => alike_writeJ h rd (alike_dbl hP)
  | gejAddge rd ra rb =>
    exact alike_bind (rJ ra) fun _ _ hP => alike_bind (rA rb) fun _ _ hb => alike_writeJ h rd (alike_addGe hP hb)
  | gejAddgevar rd ra rb => exact (not_ct_of_row hct rfl rfl rfl).elim
  | gejAddvar rd ra rb => exact (not_ct_of_row hct rfl rfl rfl).elim
  | gejEq ra rb => exact (not_ct_of_row hct rfl rfl rfl).elim
  | gejGetc rd ra imm => exact alike_bind (rJ ra) fun _ _ hP => alike_pure (publicEq_writeF h rd (sameTags_coordinate hP imm))
  | ecmultGen rd ra =>
    exact alike_bind (alike_requireBuilt h) fun _ _ _ => alike_bind (rS ra) fun _ _ _ =>
      alike_writeJ h rd (alike_combMul _ _ h.geOffset)
  | ecmult rd ra rb imm => exact (not_ct_of_row hct rfl rfl rfl).elim

/-! ## The command -/

/-- The cycle around work that runs alike: both commands are ignored, both are illegal, both retire, or both take the same fault. -/
theorem command_publicEq (i : Instr) (h : PublicEq s t) {x y : Traced State} (hxy : Alike PublicEq x y) :
    ∃ s' t', command i s x.result = .next s' ∧ command i t y.result = .next t' ∧ PublicEq s' t' := by
  cases hf : s.fault with
  | true => exact ⟨s, t, runWord_fault_state _ hf, runWord_fault_state _ (h.fault.symm.trans hf), h⟩
  | false =>
    have hf' : t.fault = false := h.fault.symm.trans hf
    cases hw : i.wf with
    | false => exact ⟨_, _, command_malformed hf hw, command_malformed hf' hw, publicEq_takeFault h _ _⟩
    | true =>
      obtain ⟨u, v, hu, hv, huv⟩ | ⟨c, hu, hv⟩ := hxy.result
      · exact ⟨_, _, command_ok hf hw hu, command_ok hf' hw hv, publicEq_retire huv⟩
      · exact ⟨_, _, command_error hf hw hu, command_error hf' hw hv, publicEq_takeFault h _ _⟩

/-- The record of a command whose work runs alike is the same in both states. -/
theorem opsOf_eq_of_alike {i : Instr} (h : PublicEq s t)
    (hb : Alike PublicEq (traceOf fun dp => body dp i s) (traceOf fun dp => body dp i t)) : opsOf i s = opsOf i t := by
  unfold opsOf
  rw [h.fault, hb.events]

end

/-- What a command does is the result of its recorded work. -/
theorem exec_eq_recorded (i : Instr) (s : State) : exec i s = command i s (traceOf fun dp => body dp i s).result := by
  rw [exec_eq_body, body_result]

/-- Settles O21: the recorded work of a CT command runs alike (`alike_body`), and `exec` is the cycle around its result. -/
theorem constantTimeCommandsRunAlike : Obligations.ConstantTimeCommandsRunAlike := by
  refine ⟨fun i s t hct hstor h => ?alike, exec_eq_recorded⟩
  have hb := alike_body i hct hstor h
  rw [exec_eq_recorded i s, exec_eq_recorded i t]
  exact ⟨opsOf_eq_of_alike h hb, command_publicEq i h hb⟩

end Sys2Proof.Machine
end
